-- ==== Sys2Proof/Word.lean ====
section
/-! DEFINITION. The byte, and tables of fixed length read and written by a bounded key. -/

namespace Sys2Proof

/-- A byte of a frame or of a management message. -/
abbrev Byte := BitVec 8

/-- Entry `i` of a table of `k` records. -/
def tget {α : Type} {k : Nat} (t : Vector α k) (i : Fin k) : α := t[i.val]'i.isLt

/-- The table with entry `i` replaced by `x`. -/
def tset {α : Type} {k : Nat} (t : Vector α k) (i : Fin k) (x : α) : Vector α k :=
  t.set i.val x i.isLt

@[simp] theorem tget_tset_self {α : Type} {k : Nat} (t : Vector α k) (i : Fin k) (x : α) :
    tget (tset t i x) i = x := by
  simp [tget, tset]

theorem tget_tset {α : Type} {k : Nat} (t : Vector α k) (i j : Fin k) (x : α) :
    tget (tset t i x) j = if i = j then x else tget t j := by
  simp [tget, tset, Vector.getElem_set, Fin.ext_iff]

theorem tget_tset_ne {α : Type} {k : Nat} (t : Vector α k) {i j : Fin k} (x : α) (h : i ≠ j) :
    tget (tset t i x) j = tget t j := by
  simp [tget_tset, h]

@[simp] theorem tget_replicate {α : Type} {k : Nat} (x : α) (i : Fin k) :
    tget (Vector.replicate k x) i = x := by
  simp [tget]

@[simp] theorem tget_map {α β : Type} {k : Nat} (f : α → β) (t : Vector α k) (i : Fin k) :
    tget (t.map f) i = f (tget t i) := by
  simp [tget]

@[simp] theorem tget_ofFn {α : Type} {k : Nat} (f : Fin k → α) (i : Fin k) :
    tget (Vector.ofFn f) i = f i := by
  simp [tget]

/-- Two tables are equal when they agree at every key. -/
theorem table_ext {α : Type} {k : Nat} {t u : Vector α k} (h : ∀ i, tget t i = tget u i) : t = u := by
  apply Vector.ext
  intro i hi
  exact h ⟨i, hi⟩

end Sys2Proof
end

