-- ==== Sys2Proof/Syntax.lean ====
section
/-! DEFINITION. The commands: one constructor for each row of spec/opcode_table.json. -/

namespace Sys2Proof

/-- A line L0-L15 (00 section 5.1). -/
abbrev LineId := Fin 16

/-- A call number 0-23 (00 section 5.1). -/
abbrev CallNo := Fin 24

/-- The two ports of the part (00 section 2). -/
inductive Port where
  /-- The port that faces the exchange. -/
  | e
  /-- The port that faces the line shelf. -/
  | l
  deriving DecidableEq, Repr

/-- A frame of the highway, in the layout of R161. -/
structure Frame where
  /-- Byte 0, the sync value when the frame is aligned. -/
  sync : Byte
  /-- Bytes 1-16, the line bytes of L0 to L15. -/
  lines : Vector Byte 16
  /-- Byte 17. -/
  mgmt1 : Byte
  /-- Byte 18. -/
  mgmt2 : Byte
  /-- Byte 19. -/
  check : Byte
  deriving DecidableEq, Repr

/-- Who sent a request that the part takes, and how it was addressed (R165, R169). -/
structure Envelope where
  /-- The source field of the request (R162), which becomes the reply's destination (R170). -/
  source : Byte
  /-- On when the destination is 31, off when it is the part address. -/
  broadcast : Bool
  deriving DecidableEq, Repr

/-- A request that the part takes: its envelope and its payload bytes. A TABLE_WRITE row's payload here is what
follows the selector byte, since the row fixes the selector (R15). -/
structure Req extends Envelope where
  payload : List Byte
  deriving DecidableEq, Repr

/-- The commands. The docstring of each names its row's rule. -/
inductive Instr where
  /-- R14: the pins are the address pins ADR0-ADR4 (R165). -/
  | powerOnReset (pins : BitVec 5)
  /-- R148. -/
  | frameSend
  /-- R151. -/
  | frameReceived (port : Port) (frame : Frame)
  /-- R181. -/
  | ePortIntervalClose
  /-- R182. -/
  | shortTimeout
  /-- R183. -/
  | longTimeout
  /-- R187. -/
  | linkRestored
  /-- R152. -/
  | lPortIntervalClose
  /-- R75. -/
  | shelfLoss
  /-- R64. -/
  | lineByte (line : LineId)
  /-- R67. -/
  | seizureQualify (line : LineId)
  /-- R68. -/
  | callSeizure (line : LineId)
  /-- R69. -/
  | onHook (line : LineId)
  /-- R54. -/
  | trip (line : LineId)
  /-- R73. -/
  | faultEntry (line : LineId)
  /-- R74. -/
  | faultCleared (line : LineId)
  /-- R77. -/
  | lockoutTimerExpiry (line : LineId)
  /-- R85. -/
  | discardEnd (line : LineId)
  /-- R88. -/
  | digitEnd (line : LineId)
  /-- R92. -/
  | collectionTimeout (line : LineId)
  /-- R100. -/
  | generatorTimerExpiry (line : LineId)
  /-- R104. -/
  | replayEnd (line : LineId)
  /-- R45. -/
  | slotTimerExpiry
  /-- R29. -/
  | placeRequest
  /-- R50. -/
  | stageRequest
  /-- R36. -/
  | amendRequest
  /-- R38. -/
  | releaseRequest
  /-- R114. -/
  | testTimeout
  /-- R135. -/
  | hangupTimerExpiry (call : CallNo)
  /-- R170. -/
  | replyHoldOffExpiry
  /-- R170. -/
  | replySent
  /-- R168. -/
  | relayedMessageSent
  /-- R171. -/
  | noticeSent
  /-- R193. -/
  | occupancySample
  /-- R124. -/
  | ring (req : Req)
  /-- R127. -/
  | ringStop (req : Req)
  /-- R126. -/
  | ringAmend (req : Req)
  /-- R133. -/
  | revert (req : Req)
  /-- R110. -/
  | identify (req : Req)
  /-- R78. -/
  | lineBlock (req : Req)
  /-- R80. -/
  | lineUnblock (req : Req)
  /-- R83. -/
  | lineQuery (req : Req)
  /-- R147. -/
  | callQuery (req : Req)
  /-- R3. -/
  | tableWriteLineAttribute (req : Req)
  /-- R5. -/
  | tableWriteParty (req : Req)
  /-- R9. -/
  | tableWriteCadence (req : Req)
  /-- R10. -/
  | tableWriteBus (req : Req)
  /-- R11. -/
  | tableWriteGroup (req : Req)
  /-- R12. -/
  | tableWriteTiming (req : Req)
  /-- R17. -/
  | tableRead (req : Req)
  /-- R18. -/
  | tableCheck (req : Req)
  /-- R191. -/
  | meterSet (req : Req)
  /-- R196. -/
  | meterRead (req : Req)
  /-- R195. -/
  | meterPreset (req : Req)
  /-- R195, one meter. -/
  | meterFreeze (req : Req)
  /-- R195: METER FREEZE with meter 8, which is its whole payload. -/
  | globalFreeze (env : Envelope)
  /-- R195, one meter. -/
  | meterThaw (req : Req)
  /-- R195: METER THAW with meter 8, which is its whole payload. -/
  | globalThaw (env : Envelope)
  /-- R195. -/
  | meterClear (req : Req)
  /-- R177. -/
  | countersRead (req : Req)
  /-- R166. -/
  | setAddress (req : Req)
  /-- R178. -/
  | reset (req : Req)
  /-- R150: the frame is the 20 bytes that end with the byte received. -/
  | alignmentFound (port : Port) (window : Frame)
  /-- R169. -/
  | unknownRequestCode (code : Byte) (req : Req)
  deriving DecidableEq, Repr

/-- The codes that name a request (R174, R175). -/
def requestCodes : List Nat :=
  [0x01, 0x02, 0x03, 0x04, 0x08, 0x09, 0x0A, 0x0B, 0x0C, 0x10, 0x11, 0x12,
   0x18, 0x19, 0x1A, 0x1B, 0x1C, 0x1D, 0x20, 0x21, 0x22]

end Sys2Proof
end

