-- ==== Sys2Proof/Decode.lean ====
section
/-! DEFINITION. The command a word spells: no row of spec/opcode_table.json gives bits, so no word spells one. -/

namespace Sys2Proof

/-- Every row of the table has no bits (its fields are empty), so every word is refused. -/
def decodeTableWord (_nbits _w : Nat) : Option Instr := none

end Sys2Proof
end

