-- ==== Sys2Proof/Config.lean ====
section
/-! DEFINITION. What the board fixes for one part: the level of the address pins. -/

namespace Sys2Proof

/-- The address pins ADR0-ADR4 of the part that `State.reset` describes.
DESIGN CHOICE (log 7), unsafe: the spec samples the pins at power-on reset (R165) and gives no level. -/
def Config.resetPins : BitVec 5 := 0

end Sys2Proof
end

