-- ==== Sys2Proof/Machine/State.lean ====
section
/-! DEFINITION. The state of the MH1608, block by block (00 section 3), and its value after a power-on reset. -/

namespace Sys2Proof.Machine

/-! Keys (00 section 5.1). Parties P1-P8 are 0-7, buses T1-T4 are 0-3. -/

/-- A party P1-P8 within a line, as 0-7. -/
abbrev PartyId := Fin 8
/-- A tone bus T1-T4, as 0-3. -/
abbrev BusId := Fin 4
/-- A ring group G0-G3. -/
abbrev GroupId := Fin 4
/-- A cadence C0-C15. -/
abbrev CadenceId := Fin 16
/-- A cycle slot or a cadence position, 0-23. -/
abbrev Slot := Fin 24
/-- A meter M0-M7. -/
abbrev MeterId := Fin 8
/-- The address of a part, 0-30 (R165). -/
abbrev Address := Fin 31

/-! Party Tables (chapter 1). -/

inductive Handling where
  | exchange
  | isLocal
  deriving DecidableEq, Repr

inductive Leg where
  | tip
  | ring
  | bridged
  deriving DecidableEq, Repr

/-- A line attribute record (R2). -/
structure LineAttr where
  handling : Handling
  group : GroupId
  defaultCycles : Nat
  backRing : Bool
  answerIdentifyDefault : Bool
  deriving DecidableEq, Repr

/-- A party spec: tone bus, leg, cadence and bell load (R4). -/
structure Spec where
  bus : BusId
  leg : Leg
  cadence : CadenceId
  bell : Nat
  deriving DecidableEq, Repr

/-- A present party entry (R4). An absent revert code is the empty list. -/
structure PartyEntry where
  spec : Spec
  identityClass : Option Nat
  code : List Nat
  deriving DecidableEq, Repr

inductive LongAction where
  | isolate
  | release
  deriving DecidableEq, Repr

/-- The timing record (R12). A link timeout that is off is `none`. -/
structure Timing where
  seizureQualify : Nat
  tripQualify : Nat
  onHookQualify : Nat
  hangupWait : Nat
  revertCycles : Nat
  stagger : Nat
  replyHoldOff : Nat
  shortTimeout : Option Nat
  longTimeout : Option Nat
  longAction : LongAction
  deriving DecidableEq, Repr

/-- The six tables. A cadence is the list of its segment durations, empty when the cadence is empty (R8). -/
structure Ptb where
  lines : Vector LineAttr 16
  parties : Vector (Vector (Option PartyEntry) 8) 16
  cadences : Vector (List Nat) 16
  capacity : Vector Nat 4
  exclusion : Vector Bool 4
  timing : Timing
  deriving DecidableEq, Repr

/-! Line Supervisor (chapter 4). -/

inductive LineState where
  | idle
  | qualifying
  | collecting
  | replaying
  | through
  | call
  | lockout
  | blocked
  | fault
  deriving DecidableEq, Repr

inductive Loop where
  | opened
  | closed
  deriving DecidableEq, Repr

inductive FaultReason where
  | ground
  | foreign
  | shelf
  deriving DecidableEq, Repr

inductive LockoutPhase where
  | tone
  | feedOff
  deriving DecidableEq, Repr

/-- A line record (R63), with the trip count of R54 and the model's mark `hold`. -/
structure LineRec where
  state : LineState
  loop : Loop
  seizureCount : Nat
  onHookCount : Nat
  faultCount : Nat
  clearCount : Nat
  faultReason : Option FaultReason
  blockRecorded : Bool
  lockoutTimer : Option Nat
  lockoutPhase : Option LockoutPhase
  tripCount : Nat
  /-- On for the rest of the interval in which a part's cycle began on the line or a part stopped ringing there:
  trip and seizure are judged from the next interval on (R55). DEDUCED (log 10), safe. -/
  hold : Bool
  deriving DecidableEq, Repr

/-! Digit Unit (chapter 5). -/

inductive ReceiverPhase where
  | waiting
  | brk
  | make
  | discarding
  deriving DecidableEq, Repr

inductive CollectionKind where
  | firstDigit
  | interDigit
  deriving DecidableEq, Repr

/-- A running collection timer. -/
structure CollectionTimer where
  kind : CollectionKind
  left : Nat
  deriving DecidableEq, Repr

inductive GeneratorPhase where
  | off
  | toneWait
  | brk
  | make
  | interDigit
  | stall
  deriving DecidableEq, Repr

/-- The digit the generator has taken from the buffer, with the pulses it has still to send. -/
structure DigitInSending where
  digit : Nat
  pulsesLeft : Nat
  deriving DecidableEq, Repr

/-- A digit record (R84). -/
structure DigitRec where
  phase : ReceiverPhase
  element : Nat
  pulses : Nat
  buffer : List Nat
  collection : Option CollectionTimer
  generator : GeneratorPhase
  sending : Option DigitInSending
  generatorTimer : Nat
  quiet : Nat
  deriving DecidableEq, Repr

/-! Highway Interface (chapter 8). -/

/-- The downstream codes (R153). -/
inductive DownCode where
  | feed
  | feedReversed
  | feedOff
  | dialTone
  | busyTone
  | hangupTone
  | test
  | ring (bus : BusId) (leg : Leg)
  deriving DecidableEq, Repr

/-- The downstream claim set of a line: a place for each kind of claim (R155). -/
structure DownClaims where
  fault : Option DownCode
  blocked : Option DownCode
  test : Option DownCode
  ring : Option DownCode
  call : Option DownCode
  lockout : Option DownCode
  collecting : Option DownCode
  deriving DecidableEq, Repr

/-- The upstream claim set of a line (R157). The REPLAY place holds the generated loop. -/
structure UpClaims where
  fault : Bool
  replay : Option Loop
  onHook : Bool
  deriving DecidableEq, Repr

inductive Alignment where
  | hunting
  | aligned
  deriving DecidableEq, Repr

/-- What the HWI holds for a receive port (R150, R151, R152). -/
structure RxPort where
  alignment : Alignment
  wrongSync : Nat
  lastGood : Vector Byte 16
  inForce : Vector Byte 16
  /-- The mark of the last closed interval: on when it was good. -/
  good : Bool
  /-- A valid frame has been taken in the present interval. -/
  validTaken : Bool
  /-- A frame, valid or not, has been found in the present interval. -/
  frameSeen : Bool
  deriving DecidableEq, Repr

structure Hwi where
  ePort : RxPort
  lPort : RxPort
  down : Vector DownClaims 16
  up : Vector UpClaims 16
  policing : Vector Bool 16
  shelfCount : Nat
  shelfArmed : Bool
  /-- Shelf loss has been reported to the LSV, which has not yet taken it (R75, R152). -/
  shelfReported : Bool
  /-- The line's byte of the last closed L-port interval has been handed to the LSV, which has not yet taken it (R64,
  R152). -/
  byteWaits : Vector Bool 16
  /-- The frame most recently sent toward the E-port. -/
  eSent : Option Frame
  /-- The frame most recently sent toward the L-port. -/
  lSent : Option Frame
  deriving DecidableEq, Repr

/-! Ring Scheduler (chapters 2 and 3). -/

/-- The status of a ring part with the fields present in that status (R20). -/
inductive PartStatus where
  | queued (overtaken : Nat)
  | placed (offset : Slot) (startPending : Bool)
  deriving DecidableEq, Repr

/-- A change held for the next cycle boundary (R50). -/
structure StagedChange where
  spec : Option Spec
  limit : Option Nat
  deriving DecidableEq, Repr

/-- A ring part (R20), with its marks ringing begun (R46) and trip delivered (R54). -/
structure RingPart where
  call : CallNo
  line : LineId
  group : GroupId
  spec : Spec
  status : PartStatus
  cycleLimit : Nat
  cyclesCompleted : Nat
  staged : Option StagedChange
  ringingBegun : Bool
  tripDelivered : Bool
  deriving DecidableEq, Repr

/-- A request that the CSQ hands the RSC (R122). -/
inductive RscRequest where
  | place (call : CallNo) (line : LineId) (spec : Spec) (limit completed : Nat)
  | stage (call : CallNo) (spec : Spec)
  | amend (call : CallNo) (cadence : Option CadenceId) (limit : Option Nat)
  | release (call : CallNo)
  deriving DecidableEq, Repr

structure Rsc where
  /-- Every ring part, oldest first (R21). The wait queue is its queued parts in this order. -/
  parts : List RingPart
  /-- The Ring Slot Map: load of each bus at each cycle slot (R22). -/
  busLoad : Vector (Vector Nat 24) 4
  /-- The Ring Slot Map: occupancy of each group at each cycle slot (R23). -/
  occupancy : Vector (Vector Nat 24) 4
  startPointer : Vector Slot 4
  cycleSlot : Slot
  slotTimer : Nat
  /-- Requests handed by the CSQ and not yet taken, oldest first (R122). -/
  requests : List RscRequest
  deriving DecidableEq, Repr

/-! Call Sequencer (chapter 7). -/

inductive CallKind where
  | xr
  | rv
  deriving DecidableEq, Repr

inductive Origin where
  | exchange
  | isLocal
  deriving DecidableEq, Repr

inductive CallState where
  | waiting
  | ringing
  | identifying
  | identifyCaller
  | hangupWait
  | revertRinging
  | answerTest
  | talk
  deriving DecidableEq, Repr

/-- The party taken as having answered (R120). -/
inductive Answered where
  | party (p : PartyId)
  | unidentified
  deriving DecidableEq, Repr

/-- The test results of the field encoding (R173). -/
inductive TestOutcome where
  | party
  | unidentified
  | timeout
  | aborted
  deriving DecidableEq, Repr

/-- The end results of a call (R141). -/
inductive EndResult where
  | answered
  | noAnswer
  | glare
  | stopped
  | fault
  | blocked
  | linkLost
  | completed
  | completedUnconfirmed
  | abandoned
  | selfRevert
  deriving DecidableEq, Repr

/-- A call record (R120). -/
structure CallRec where
  kind : CallKind
  origin : Origin
  line : LineId
  called : PartyId
  caller : Option PartyId
  state : CallState
  ringPart : Bool
  ringLimit : Option Nat
  cyclesRung : Nat
  answerIdentify : Option Bool
  reRevert : Option Nat
  hangupTimer : Option Nat
  answered : Option Answered
  testResult : Option TestOutcome
  deriving DecidableEq, Repr

/-! Identity Test Unit (chapter 6). -/

inductive Requester where
  | exchange
  | call (c : CallNo)
  deriving DecidableEq, Repr

/-- A request that waits for the bridge (R107). -/
structure TestRequest where
  line : LineId
  requesters : List Requester
  deriving DecidableEq, Repr

/-- The test in progress (R107). -/
structure Test where
  line : LineId
  requesters : List Requester
  interval : Nat
  /-- On in the interval in which the test began: the test interval rises from the next interval on (R111).
  DEDUCED (log 10), safe. -/
  fresh : Bool
  deriving DecidableEq, Repr

structure Itu where
  queue : List TestRequest
  inProgress : Option Test
  deriving DecidableEq, Repr

/-- The result of a test that took its course (R113, R114). -/
inductive TestResult where
  | party (p : PartyId) (reading : Nat)
  | unidentified (reading : Nat)
  | timeout
  deriving DecidableEq, Repr

/-! Link Monitor (chapter 10). -/

inductive LinkState where
  | acquiring
  | linked
  | warning
  | isolated
  | released
  deriving DecidableEq, Repr

inductive LinkEvent where
  | warning
  | linked
  | isolated
  | released
  | restored
  deriving DecidableEq, Repr

/-- The link record (R180). -/
structure Lkm where
  state : LinkState
  badCount : Nat
  lastRun : Nat
  recovery : Nat
  deriving DecidableEq, Repr

/-! Management Port (chapter 9). -/

/-- The fields of a CALL END notice (R144). -/
structure CallEnd where
  call : CallNo
  kind : CallKind
  origin : Origin
  line : LineId
  called : PartyId
  caller : Option PartyId
  result : EndResult
  answered : Option Answered
  testResult : Option TestOutcome
  cyclesRung : Nat
  reRevert : Option Nat
  deriving DecidableEq, Repr

/-- The notices of R176. -/
inductive Notice where
  | callEnd (e : CallEnd)
  | answer (call : CallNo) (kind : CallKind) (line : LineId) (answered : Option Answered) (reRevert : Option Nat)
  | lineFault (line : LineId) (reason : FaultReason)
  | lineRecovered (line : LineId) (entered : LineState)
  | lineLockout (line : LineId)
  | identity (line : LineId) (outcome : TestOutcome) (party : Option PartyId) (reading : Option Nat)
  | revertLocalStart (call : CallNo) (line : LineId) (called : PartyId)
  | revertRefused (line : LineId) (called : PartyId)
  | link (event : LinkEvent) (left : LinkState) (badRun : Nat)
  | meter (overflowed : Byte)
  deriving DecidableEq, Repr

/-- What takes effect in the event in which a reply's last byte has left (R166, R178). -/
inductive AfterReply where
  | nothing
  | setAddress (a : Address)
  | softReset
  deriving DecidableEq, Repr

/-- The reply in the reply slot (R170). It is eligible when no hold-off timer runs. -/
structure Reply where
  destination : Byte
  code : Byte
  payload : List Byte
  after : AfterReply
  holdOff : Option Nat
  deriving DecidableEq, Repr

/-- What the upstream arbiter sends (R172). -/
inductive UpstreamItem where
  | reply
  | relayed
  | urgent
  | routine
  deriving DecidableEq, Repr

/-- The message being sent upstream, with the bytes still to go. -/
structure Sending where
  item : UpstreamItem
  rest : List Byte
  deriving DecidableEq, Repr

/-- The message counters of one port (R164). -/
structure PortCounters where
  valid : Nat
  check : Nat
  kind : Nat
  length : Nat
  abort : Nat
  deriving DecidableEq, Repr

/-- The fourteen message counters (R177). -/
structure Counters where
  ePort : PortCounters
  lPort : PortCounters
  overrun : Nat
  relayDropped : Nat
  urgentLost : Nat
  routineLost : Nat
  deriving DecidableEq, Repr

structure Mgp where
  /-- The E-port receive assembler: `none` in HUNT, the bytes taken so far in ASSEMBLE (R163). -/
  eAssembler : Option (List Byte)
  /-- The L-port receive assembler. -/
  lAssembler : Option (List Byte)
  /-- The downstream relay: `none` in IDLE, the bytes carried in RELAYING (R167). -/
  relay : Option (List Byte)
  /-- The pair that the next L-port frame carries (R167). -/
  relayPair : Option (Byte × Byte)
  /-- The relay buffer, oldest first (R168). -/
  relayBuffer : List (List Byte)
  replySlot : Option Reply
  urgent : List Notice
  routine : List Notice
  urgentLost : Bool
  routineLost : Bool
  runCount : Nat
  sending : Option Sending
  /-- The part address, `none` for UNADDRESSED (R165). -/
  address : Option Address
  counters : Counters
  deriving DecidableEq, Repr

/-! Traffic Meters (chapter 11). -/

inductive MeterMode where
  | peg
  | occupancy
  deriving DecidableEq, Repr

/-- A meter record (R190). The line filter `none` is any line. -/
structure Meter where
  mode : MeterMode
  selection : Nat
  lineFilter : Option LineId
  threshold : Nat
  invert : Bool
  enabled : Bool
  overflowNotice : Bool
  freezeOnOverflow : Bool
  frozen : Bool
  count : BitVec 32
  overflowed : Bool
  deriving DecidableEq, Repr

structure Tmu where
  meters : Vector Meter 8
  /-- On when the global freeze state is FROZEN. -/
  globalFrozen : Bool
  deriving DecidableEq, Repr

/-! The whole part. -/

/-- The state of the part, block by block, and the commands that wait, first in first out. -/
structure State where
  pending : List Instr
  /-- The level of the address pins sampled at the last power-on reset (R165). -/
  pins : BitVec 5
  hwi : Hwi
  lsv : Vector LineRec 16
  dgu : Vector DigitRec 16
  ptb : Ptb
  rsc : Rsc
  csq : Vector (Option CallRec) 24
  itu : Itu
  mgp : Mgp
  lkm : Lkm
  tmu : Tmu
  deriving DecidableEq, Repr

/-- No event of the spec stops the part, so there is no fault: no command raises one. -/
inductive Fault
  deriving DecidableEq, Repr

/-- Why a command has no meaning. -/
inductive Refusal where
  /-- Raised by an arm of `exec` whose command has no meaning yet; safe, since the machine stops. No arm does. -/
  | notModelled (mnemonic : String)
  deriving DecidableEq, Repr

/-! Values after reset. -/

/-- R14. -/
def LineAttr.initial : LineAttr where
  handling := .exchange
  group := 0
  defaultCycles := 8
  backRing := true
  answerIdentifyDefault := false

/-- The power-on values of R12. -/
def Timing.initial : Timing where
  seizureQualify := 40
  tripQualify := 4
  onHookQualify := 100
  hangupWait := 6000
  revertCycles := 10
  stagger := 6
  replyHoldOff := 2
  shortTimeout := some 100
  longTimeout := some 2000
  longAction := .isolate

/-- R14. -/
def Ptb.initial : Ptb where
  lines := Vector.replicate 16 LineAttr.initial
  parties := Vector.replicate 16 (Vector.replicate 8 none)
  cadences := Vector.replicate 16 []
  capacity := Vector.replicate 4 0
  exclusion := Vector.replicate 4 false
  timing := Timing.initial

/-- R63, with no trip qualification in progress (R62). -/
def LineRec.initial : LineRec where
  state := .idle
  loop := .opened
  seizureCount := 0
  onHookCount := 0
  faultCount := 0
  clearCount := 0
  faultReason := none
  blockRecorded := false
  lockoutTimer := none
  lockoutPhase := none
  tripCount := 0
  hold := false

/-- The discarded values of R84. -/
def DigitRec.initial : DigitRec where
  phase := .waiting
  element := 0
  pulses := 0
  buffer := []
  collection := none
  generator := .off
  sending := none
  generatorTimer := 0
  quiet := 0

/-- Every place empty (R160). -/
def DownClaims.empty : DownClaims where
  fault := none
  blocked := none
  test := none
  ring := none
  call := none
  lockout := none
  collecting := none

/-- Every place empty (R160). -/
def UpClaims.empty : UpClaims where
  fault := false
  replay := none
  onHook := false

/-- A receive port after power-on: HUNTING with wrong-sync count 0 (R150), bytes 00h (R160). The marks of
intervals are DESIGN CHOICE (log 8), unsafe: the spec states none. -/
def RxPort.initial : RxPort where
  alignment := .hunting
  wrongSync := 0
  lastGood := Vector.replicate 16 0
  inForce := Vector.replicate 16 0
  good := false
  validTaken := false
  frameSeen := false

/-- R152, R160. -/
def Hwi.initial : Hwi where
  ePort := RxPort.initial
  lPort := RxPort.initial
  down := Vector.replicate 16 DownClaims.empty
  up := Vector.replicate 16 UpClaims.empty
  policing := Vector.replicate 16 false
  shelfCount := 0
  shelfArmed := true
  shelfReported := false
  byteWaits := Vector.replicate 16 false
  eSent := none
  lSent := none

/-- R42, R43, R62. -/
def Rsc.initial : Rsc where
  parts := []
  busLoad := Vector.replicate 4 (Vector.replicate 24 0)
  occupancy := Vector.replicate 4 (Vector.replicate 24 0)
  startPointer := Vector.replicate 4 0
  cycleSlot := 0
  slotTimer := 50
  requests := []

/-- R107. -/
def Itu.initial : Itu where
  queue := []
  inProgress := none

/-- R180. -/
def Lkm.initial : Lkm where
  state := .acquiring
  badCount := 0
  lastRun := 0
  recovery := 0

def PortCounters.zero : PortCounters where
  valid := 0
  check := 0
  kind := 0
  length := 0
  abort := 0

/-- R179. -/
def Counters.zero : Counters where
  ePort := PortCounters.zero
  lPort := PortCounters.zero
  overrun := 0
  relayDropped := 0
  urgentLost := 0
  routineLost := 0

/-- R179, with the part address as given. -/
def Mgp.initial (address : Option Address) : Mgp where
  eAssembler := none
  lAssembler := none
  relay := none
  relayPair := none
  relayBuffer := []
  replySlot := none
  urgent := []
  routine := []
  urgentLost := false
  routineLost := false
  runCount := 0
  sending := none
  address := address
  counters := Counters.zero

/-- R190. -/
def Meter.initial : Meter where
  mode := .peg
  selection := 0
  lineFilter := none
  threshold := 0
  invert := false
  enabled := false
  overflowNotice := false
  freezeOnOverflow := false
  frozen := false
  count := 0
  overflowed := false

/-- R190. -/
def Tmu.initial : Tmu where
  meters := Vector.replicate 8 Meter.initial
  globalFrozen := false

/-- The address that the pins give: 31 is UNADDRESSED (R165). -/
def addressOfPins (pins : BitVec 5) : Option Address :=
  if h : pins.toNat < 31 then some ⟨pins.toNat, h⟩ else none

/-- The part after a power-on reset with the address pins at `pins` (R14, R165). -/
def State.powerOn (pins : BitVec 5) : State where
  pending := []
  pins := pins
  hwi := Hwi.initial
  lsv := Vector.replicate 16 LineRec.initial
  dgu := Vector.replicate 16 DigitRec.initial
  ptb := Ptb.initial
  rsc := Rsc.initial
  csq := Vector.replicate 24 none
  itu := Itu.initial
  mgp := Mgp.initial (addressOfPins pins)
  lkm := Lkm.initial
  tmu := Tmu.initial

/-- The part right after reset, its pins at the level that Config names (log 7). -/
def State.reset : State := State.powerOn Config.resetPins

end Sys2Proof.Machine
end

