-- ==== Sys2Proof/Machine/Operands.lean ====
section
/-! DEFINITION. Byte forms: the line bytes (R161), the two check computations (R19, R149), frames, the message
envelope (R162), the field encoding (R173), the record forms (R16) and the notices (R176). -/

namespace Sys2Proof.Machine

/-- The byte that holds a number. -/
def byteOf (n : Nat) : Byte := BitVec.ofNat 8 n

/-- A flag as a field: 0 off, 1 on (R173). -/
def flag (b : Bool) : Nat := if b then 1 else 0

/-- An absent one-byte field is sent as FFh (R173). -/
def orAbsent (n : Option Nat) : Nat := n.getD 0xFF

/-- A two-byte number, the more significant byte first (R162). -/
def twoBytes (n : Nat) : List Byte := [byteOf (n / 256), byteOf n]

/-- A four-byte number, the most significant byte first (R162). -/
def fourBytes (n : BitVec 32) : List Byte :=
  [byteOf (n.toNat / 16777216), byteOf (n.toNat / 65536), byteOf (n.toNat / 256), byteOf n.toNat]

/-- The numbers that a payload's bytes hold. -/
def numbers (bs : List Byte) : List Nat := bs.map (fun b => b.toNat)

/-- The fill value of a management slot (R162). -/
def fill : Byte := 0xFF

/-- The sync value of a frame (R161). -/
def syncValue : Byte := 0x9C

/-- The START value of a message (R162). -/
def startValue : Byte := 0xC3

/-! The upstream line byte (R154, R161). -/

def upLoop (b : Byte) : Loop := if b.getLsbD 7 then .closed else .opened

/-- On when trip is present. -/
def upTrip (b : Byte) : Bool := b.getLsbD 6

/-- The status field: 0 no fault, 1 no fault and the reading valid, 2 GROUND, 3 FOREIGN. -/
def upStatus (b : Byte) : Nat := b.toNat / 16 % 4

/-- The fault field, `none` for NONE. -/
def upFault (b : Byte) : Option FaultReason :=
  if upStatus b = 2 then some .ground else if upStatus b = 3 then some .foreign else none

def upReadingValid (b : Byte) : Bool := decide (upStatus b = 1)

def upReading (b : Byte) : Nat := b.toNat % 16

/-- An upstream byte with the given loop, trip, status and reading. -/
def upByte (loop : Loop) (trip : Bool) (status reading : Nat) : Byte :=
  byteOf ((if loop = .closed then 128 else 0) + (if trip then 64 else 0) + 16 * status + reading)

/-- The byte that the REPLAY claim carries: the generated loop over the L-port byte's other fields (R157). -/
def replayByte (loop : Loop) (b : Byte) : Byte := upByte loop (upTrip b) (upStatus b) (upReading b)

/-- The byte that the on-hook claim carries (R157). -/
def onHookByte (b : Byte) : Byte :=
  upByte .opened false (if upReadingValid b then 1 else 0) (upReading b)

/-! The downstream line byte (R153, R161). -/

def legCode : Leg → Nat
  | .tip => 0
  | .ring => 1
  | .bridged => 2

def legOfCode : Nat → Option Leg
  | 0 => some .tip
  | 1 => some .ring
  | 2 => some .bridged
  | _ => none

/-- The byte sent for a code: a bus and a leg with RING only (R153). -/
def downByte : DownCode → Byte
  | .feed => 0x00
  | .feedReversed => 0x10
  | .feedOff => 0x20
  | .dialTone => 0x30
  | .busyTone => 0x40
  | .hangupTone => 0x50
  | .test => 0x60
  | .ring bus leg => byteOf (0x70 + 4 * bus.val + legCode leg)

/-- The code of a received downstream byte, `none` when it is undefined (R161). -/
def downCode (b : Byte) : Option DownCode :=
  match b.toNat / 16 with
  | 0 => some .feed
  | 1 => some .feedReversed
  | 2 => some .feedOff
  | 3 => some .dialTone
  | 4 => some .busyTone
  | 5 => some .hangupTone
  | 6 => some .test
  | 7 => (legOfCode (b.toNat % 4)).map (DownCode.ring (Fin.ofNat 4 (b.toNat / 4)))
  | _ => none

/-- Whether policing replaces a byte from the exchange: RING, TEST or undefined (R156). -/
def isForeign (b : Byte) : Bool :=
  match downCode b with
  | some (.ring _ _) | some .test | none => true
  | some _ => false

/-- The code passed for a byte from the exchange (R153, R156). -/
def police (b : Byte) : DownCode := if isForeign b then .feed else (downCode b).getD .feed

/-! Check computations. -/

/-- The bits of a byte, most significant first. -/
def bitsOf (b : Byte) : List Bool := [7, 6, 5, 4, 3, 2, 1, 0].map b.getLsbD

/-- One bit of the CRC-8 (R149). -/
def crc8Bit (w : Byte) (bit : Bool) : Byte :=
  if w.msb = bit then w <<< 1 else (w <<< 1) ^^^ 0x07#8

/-- The CRC-8 of R149. -/
def crc8 (bs : List Byte) : Byte := (bs.flatMap bitsOf).foldl crc8Bit 0

/-- One bit of the CRC-16 (R19). -/
def crc16Bit (w : BitVec 16) (bit : Bool) : BitVec 16 :=
  if w.msb = bit then w <<< 1 else (w <<< 1) ^^^ 0x1021#16

/-- The CRC-16 of R19. -/
def crc16 (bs : List Byte) : BitVec 16 := (bs.flatMap bitsOf).foldl crc16Bit 0xFFFF#16

/-! Frames (R161). -/

/-- The first 19 bytes of a frame. -/
def frameBody (f : Frame) : List Byte := f.sync :: (f.lines.toList ++ [f.mgmt1, f.mgmt2])

/-- The check of the frame agrees (R149). -/
def frameCheckAgrees (f : Frame) : Bool := decide (f.check = crc8 (frameBody f))

/-- A frame to send (R148). -/
def frameOf (lines : Vector Byte 16) (mgmt1 mgmt2 : Byte) : Frame :=
  { sync := syncValue, lines := lines, mgmt1 := mgmt1, mgmt2 := mgmt2,
    check := crc8 (syncValue :: (lines.toList ++ [mgmt1, mgmt2])) }

/-! Management messages (R162). -/

/-- The payload length of a message that has reached byte 5. -/
def messageLength (m : List Byte) : Nat := (m.getD 5 0).toNat

/-- The check field agrees with the CRC-16 of bytes 0 to 5 + length (R164). -/
def messageCheckAgrees (m : List Byte) : Bool :=
  let n := 6 + messageLength m
  decide (m.drop n = twoBytes (crc16 (m.take n)).toNat)

def messageDestination (m : List Byte) : Nat := (m.getD 1 0).toNat
def messageSource (m : List Byte) : Byte := m.getD 2 0
def messageKind (m : List Byte) : Nat := (m.getD 3 0).toNat
def messageCode (m : List Byte) : Byte := m.getD 4 0
def messagePayload (m : List Byte) : List Byte := (m.drop 6).take (messageLength m)

/-- A message in its envelope, with its check (R162). -/
def message (destination source kind code : Byte) (payload : List Byte) : List Byte :=
  let m := [startValue, destination, source, kind, code, byteOf payload.length] ++ payload
  m ++ twoBytes (crc16 m).toNat

/-- The source field of a message of the part: 31 when it is UNADDRESSED (R165). -/
def sourceOf (a : Option Address) : Byte :=
  match a with
  | some n => byteOf n.val
  | none => 31

/-! Field encoding (R173). -/

def loopCode : Loop → Nat
  | .opened => 0
  | .closed => 1

def lineStateCode : LineState → Nat
  | .idle => 0
  | .qualifying => 1
  | .collecting => 2
  | .replaying => 3
  | .through => 4
  | .call => 5
  | .lockout => 6
  | .blocked => 7
  | .fault => 8

def faultReasonCode : FaultReason → Nat
  | .ground => 0
  | .foreign => 1
  | .shelf => 2

def lockoutPhaseCode : LockoutPhase → Nat
  | .tone => 0
  | .feedOff => 1

def callKindCode : CallKind → Nat
  | .xr => 0
  | .rv => 1

def originCode : Origin → Nat
  | .exchange => 0
  | .isLocal => 1

def callStateCode : CallState → Nat
  | .waiting => 0
  | .ringing => 1
  | .identifying => 2
  | .identifyCaller => 3
  | .hangupWait => 4
  | .revertRinging => 5
  | .answerTest => 6
  | .talk => 7

def endResultCode : EndResult → Nat
  | .answered => 0
  | .noAnswer => 1
  | .glare => 2
  | .stopped => 3
  | .fault => 4
  | .blocked => 5
  | .linkLost => 6
  | .completed => 7
  | .completedUnconfirmed => 8
  | .abandoned => 9
  | .selfRevert => 10

def testOutcomeCode : TestOutcome → Nat
  | .party => 0
  | .unidentified => 1
  | .timeout => 2
  | .aborted => 3

/-- A party P1-P8 is sent as 1-8. -/
def partyCode (p : PartyId) : Nat := p.val + 1

/-- Answered party: 1-8, or 0 for UNIDENTIFIED. -/
def answeredCode : Answered → Nat
  | .party p => partyCode p
  | .unidentified => 0

/-- The numbering of link states in a LINK notice (R188). -/
def linkStateCode : LinkState → Nat
  | .acquiring => 0
  | .linked => 1
  | .warning => 2
  | .isolated => 3
  | .released => 4

/-- The events of a LINK notice (R188). -/
def linkEventCode : LinkEvent → Nat
  | .warning => 0
  | .linked => 1
  | .isolated => 2
  | .released => 3
  | .restored => 4

/-! Reading a field: the key that a number names. -/

def lineOf (n : Nat) : Option LineId := if h : n < 16 then some ⟨n, h⟩ else none
def callOf (n : Nat) : Option CallNo := if h : n < 24 then some ⟨n, h⟩ else none
def meterOf (n : Nat) : Option MeterId := if h : n < 8 then some ⟨n, h⟩ else none
def cadenceOf (n : Nat) : Option CadenceId := if h : n < 16 then some ⟨n, h⟩ else none
def groupOf (n : Nat) : Option GroupId := if h : n < 4 then some ⟨n, h⟩ else none
def addressOf (n : Nat) : Option Address := if h : n < 31 then some ⟨n, h⟩ else none

/-- A party 1-8. -/
def partyOf (n : Nat) : Option PartyId := if h : 1 ≤ n ∧ n ≤ 8 then some ⟨n - 1, by omega⟩ else none

/-- A tone bus 1-4. -/
def busOf (n : Nat) : Option BusId := if h : 1 ≤ n ∧ n ≤ 4 then some ⟨n - 1, by omega⟩ else none

/-- A flag 0 or 1. -/
def flagOf : Nat → Option Bool
  | 0 => some false
  | 1 => some true
  | _ => none

/-! Record forms (R16): the record fields of each table as numbers. -/

/-- `l` followed by zeros up to length `n`. -/
def padTo (n : Nat) (l : List Nat) : List Nat := l ++ List.replicate (n - l.length) 0

def lineAttrForm (a : LineAttr) : List Nat :=
  [match a.handling with
   | .exchange => 0
   | .isLocal => 1,
   a.group.val, a.defaultCycles, flag a.backRing, flag a.answerIdentifyDefault]

def partyForm : Option PartyEntry → List Nat
  | none => List.replicate 11 0
  | some p =>
    [1, p.spec.bus.val + 1, legCode p.spec.leg, p.spec.cadence.val, p.spec.bell,
     p.identityClass.getD 15, p.code.length] ++ padTo 4 p.code

def cadenceForm (c : List Nat) : List Nat := c.length :: padTo 8 c

def shortTimeoutCode : Option Nat → Nat
  | some 20 => 1
  | some 100 => 2
  | some 400 => 3
  | some 2000 => 4
  | _ => 0

def longTimeoutCode : Option Nat → Nat
  | some 400 => 1
  | some 2000 => 2
  | some 12000 => 3
  | _ => 0

def longActionCode : LongAction → Nat
  | .isolate => 0
  | .release => 1

def timingForm (t : Timing) : List Nat :=
  [t.seizureQualify, t.tripQualify, t.onHookQualify, t.hangupWait / 256, t.hangupWait % 256, t.revertCycles,
   t.stagger, t.replyHoldOff, shortTimeoutCode t.shortTimeout, longTimeoutCode t.longTimeout,
   longActionCode t.longAction]

/-! Notices (R176): the queue, the code, and the fields after the mark byte. -/

/-- On for a notice of the urgent class (R176). -/
def noticeUrgent : Notice → Bool
  | .callEnd _ | .answer _ _ _ _ _ | .lineFault _ _ | .lineRecovered _ _ => true
  | .lineLockout _ | .identity _ _ _ _ | .revertLocalStart _ _ _ | .revertRefused _ _ | .link _ _ _
  | .meter _ => false

def noticeCode : Notice → Byte
  | .callEnd _ => 0x81
  | .answer _ _ _ _ _ => 0x82
  | .lineFault _ _ | .lineRecovered _ _ | .lineLockout _ => 0x83
  | .identity _ _ _ _ => 0x84
  | .revertLocalStart _ _ _ => 0x85
  | .revertRefused _ _ => 0x86
  | .link _ _ _ => 0x87
  | .meter _ => 0x88

def noticeFields : Notice → List Byte
  | .callEnd e =>
    [e.call.val, callKindCode e.kind, originCode e.origin, e.line.val, partyCode e.called,
     orAbsent (e.caller.map partyCode), endResultCode e.result, orAbsent (e.answered.map answeredCode),
     orAbsent (e.testResult.map testOutcomeCode), e.cyclesRung, orAbsent e.reRevert].map byteOf
  | .answer call kind line answered reRevert =>
    [call.val, callKindCode kind, line.val, orAbsent (answered.map answeredCode), orAbsent reRevert].map byteOf
  | .lineFault line reason => [line.val, 0, faultReasonCode reason].map byteOf
  | .lineRecovered line entered => [line.val, 1, lineStateCode entered].map byteOf
  | .lineLockout line => [line.val, 2, 0xFF].map byteOf
  | .identity line outcome party reading =>
    [line.val, testOutcomeCode outcome, orAbsent (party.map partyCode), orAbsent reading].map byteOf
  | .revertLocalStart call line called => [call.val, line.val, partyCode called].map byteOf
  | .revertRefused line called => [line.val, partyCode called].map byteOf
  | .link event left badRun => [byteOf (linkEventCode event), byteOf (linkStateCode left)] ++ twoBytes badRun
  | .meter overflowed => [overflowed]

/-- A notice as the part sends it: destination 31, kind NOTICE, its mark first in the payload (R171). -/
def noticeMessage (address : Option Address) (lost : Bool) (n : Notice) : List Byte :=
  message 31 (sourceOf address) 3 (noticeCode n) (byteOf (flag lost) :: noticeFields n)

/-- A reply as the part sends it (R170). -/
def replyMessage (address : Option Address) (r : Reply) : List Byte :=
  message r.destination (sourceOf address) 2 r.code r.payload

/-! The status byte of a reply (R170). -/

inductive Status where
  | accepted
  | badRequest
  | noLine
  | noParty
  | noCadence
  | lineBusy
  | lineState
  | tableFull
  | noCapacity
  | inUse
  | conflict
  | noCall
  | wrongKind
  deriving DecidableEq, Repr

def statusCode : Status → Nat
  | .accepted => 0
  | .badRequest => 1
  | .noLine => 2
  | .noParty => 3
  | .noCadence => 4
  | .lineBusy => 5
  | .lineState => 6
  | .tableFull => 7
  | .noCapacity => 8
  | .inUse => 9
  | .conflict => 10
  | .noCall => 11
  | .wrongKind => 12

/-- What the execution of a request answers: the status, the result fields, and what takes effect when the reply
has left. -/
structure Answer where
  status : Status
  result : List Byte
  after : AfterReply
  deriving DecidableEq, Repr

/-- A refusal carries the status alone (R170). -/
def refuse (st : Status) : Answer := { status := st, result := [], after := .nothing }

/-- Acceptance with the result fields given. -/
def accept (result : List Byte) : Answer := { status := .accepted, result := result, after := .nothing }

/-- The payload of the reply: the status byte, then the result (R170). -/
def answerPayload (a : Answer) : List Byte := byteOf (statusCode a.status) :: a.result

end Sys2Proof.Machine
end

