-- ==== Sys2Proof/Machine/Flags.lean ====
section
/-! DEFINITION. What events raise in the meters and the notice queues: peg events (R192), wraps (R194), notices and
lost indicators (R171), discards (R164). -/

namespace Sys2Proof.Machine

/-- The peg events (R192). -/
inductive PegEvent where
  | ringPlaced
  | ringQueued
  | ringRefused
  | trip
  | noAnswer
  | glare
  | revertStarted
  | revertCompleted
  | revertAbandoned
  | reRevert
  | testDone
  | testUnidentified
  | testTimeout
  | testAborted
  | digitReplayed
  | lockout
  | lineFault
  | foreignCode
  | msgDiscarded
  | noticeLost
  deriving DecidableEq, Repr

/-- The selection number of a peg event (R192). -/
def pegSelection : PegEvent → Nat
  | .ringPlaced => 0
  | .ringQueued => 1
  | .ringRefused => 2
  | .trip => 3
  | .noAnswer => 4
  | .glare => 5
  | .revertStarted => 6
  | .revertCompleted => 7
  | .revertAbandoned => 8
  | .reRevert => 9
  | .testDone => 10
  | .testUnidentified => 11
  | .testTimeout => 12
  | .testAborted => 13
  | .digitReplayed => 14
  | .lockout => 15
  | .lineFault => 16
  | .foreignCode => 17
  | .msgDiscarded => 18
  | .noticeLost => 19

/-- The meters in the order in which one event raises them. DESIGN CHOICE (log 12): R192 gives no order. -/
def meterIds : List MeterId := [0, 1, 2, 3, 4, 5, 6, 7]

/-- A meter counts when it is enabled, not frozen, and the global state is THAWED (R190). -/
def meterCounts (t : Tmu) (m : Meter) : Bool := m.enabled && !m.frozen && !t.globalFrozen

/-- A meter counts this peg (R192). An event without a line passes only the filter "any line". -/
def pegSelects (t : Tmu) (e : PegEvent) (line : Option LineId) (m : Meter) : Bool :=
  meterCounts t m && decide (m.mode = .peg) && decide (m.selection = pegSelection e) &&
    (decide (m.lineFilter = none) || decide (m.lineFilter = line))

/-- A meter's record after one raise (R194). -/
def raisedMeter (m : Meter) : Meter :=
  if m.count = 0xFFFFFFFF#32 then
    { m with count := 0, overflowed := true, frozen := m.frozen || m.freezeOnOverflow }
  else { m with count := m.count + 1 }

/-- The raise of this meter wraps and produces a METER notice (R194). -/
def wrapNotifies (m : Meter) : Bool := decide (m.count = 0xFFFFFFFF#32) && m.overflowNotice

/-- The byte of overflowed meters: bit i for Mi (R194). -/
def overflowedByte (t : Tmu) : Byte :=
  byteOf (meterIds.foldl (fun n i => n + (if (tget t.meters i).overflowed then 2 ^ i.val else 0)) 0)

/-- A counter holds 0-65535 and stays at 65535 (R164). -/
def countUp (n : Nat) : Nat := if n < 65535 then n + 1 else 65535

/-- The urgent queue holds at most 8 notices (R171). -/
def urgentCapacity : Nat := 8

/-- The routine queue holds at most 16 notices (R171). -/
def routineCapacity : Nat := 16

/-- The queue of the notice's class is full (R171). -/
def noticeQueueFull (m : Mgp) (n : Notice) : Bool :=
  if noticeUrgent n then decide (urgentCapacity ≤ m.urgent.length)
  else decide (routineCapacity ≤ m.routine.length)

/-- The notice at the tail of its queue (R171). -/
def noticeJoined (m : Mgp) (n : Notice) : Mgp :=
  if noticeUrgent n then { m with urgent := m.urgent ++ [n] } else { m with routine := m.routine ++ [n] }

/-- The notice dropped: the lost indicator and the lost counter of its class (R171). -/
def noticeDropped (m : Mgp) (n : Notice) : Mgp :=
  if noticeUrgent n then
    { m with urgentLost := true, counters := { m.counters with urgentLost := countUp m.counters.urgentLost } }
  else
    { m with routineLost := true, counters := { m.counters with routineLost := countUp m.counters.routineLost } }

/-- The peg event `e` taken by every meter that selects it, with the METER notices of the wraps. A METER notice
dropped on a full queue reports NOTICE_LOST in turn (R194). `fuel` bounds that chain: each link of it wraps a
NOTICE_LOST meter from its top count to 0, so it is at most nine deep (log 24). -/
def pegChain : Nat → PegEvent → Option LineId → Tmu × Mgp → Tmu × Mgp
  | 0, _, _, x => x
  | fuel + 1, e, line, x =>
    meterIds.foldl
      (fun (x : Tmu × Mgp) (i : MeterId) =>
        let m := tget x.1.meters i
        if pegSelects x.1 e line m then
          let t : Tmu := { x.1 with meters := tset x.1.meters i (raisedMeter m) }
          if wrapNotifies m then
            let n := Notice.meter (overflowedByte t)
            if noticeQueueFull x.2 n then pegChain fuel .noticeLost none (t, noticeDropped x.2 n)
            else (t, noticeJoined x.2 n)
          else (t, x.2)
        else x)
      x

/-- More than the nine links that a chain of NOTICE_LOST pegs can have (log 24). -/
def chainFuel : Nat := 10

/-- A notice put into its queue, or dropped with its NOTICE_LOST peg (R171). -/
def noticeInto (n : Notice) (x : Tmu × Mgp) : Tmu × Mgp :=
  if noticeQueueFull x.2 n then pegChain chainFuel .noticeLost none (x.1, noticeDropped x.2 n)
  else (x.1, noticeJoined x.2 n)

/-- The meter raised once, with the METER notice of a wrap (R194). -/
def raiseMeter (i : MeterId) (x : Tmu × Mgp) : Tmu × Mgp :=
  let m := tget x.1.meters i
  let t : Tmu := { x.1 with meters := tset x.1.meters i (raisedMeter m) }
  if wrapNotifies m then noticeInto (.meter (overflowedByte t)) (t, x.2) else (t, x.2)

/-- The peg event `e` is reported with the line it concerns (R192). -/
@[irreducible] def State.peg (s : State) (e : PegEvent) (line : Option LineId) : State :=
  let x := pegChain chainFuel e line (s.tmu, s.mgp)
  { s with tmu := x.1, mgp := x.2 }

/-- A notice is produced (R171). -/
@[irreducible] def State.notify (s : State) (n : Notice) : State :=
  let x := noticeInto n (s.tmu, s.mgp)
  { s with tmu := x.1, mgp := x.2 }

/-- A meter is raised by its occupancy sample (R193). -/
@[irreducible] def State.raise (s : State) (i : MeterId) : State :=
  let x := raiseMeter i (s.tmu, s.mgp)
  { s with tmu := x.1, mgp := x.2 }

/-- The reasons of discard (R164). -/
inductive DiscardReason where
  | check
  | kind
  | length
  | abort
  deriving DecidableEq, Repr

/-- The port's discard counter of the reason, raised (R164). -/
def PortCounters.discarded (c : PortCounters) : DiscardReason → PortCounters
  | .check => { c with check := countUp c.check }
  | .kind => { c with kind := countUp c.kind }
  | .length => { c with length := countUp c.length }
  | .abort => { c with abort := countUp c.abort }

/-- The counters of one port changed. -/
def Counters.onPort (c : Counters) (p : Port) (f : PortCounters → PortCounters) : Counters :=
  match p with
  | .e => { c with ePort := f c.ePort }
  | .l => { c with lPort := f c.lPort }

/-- The message counters changed. -/
def State.modCounters (s : State) (f : Counters → Counters) : State :=
  { s with mgp := { s.mgp with counters := f s.mgp.counters } }

/-- A message of port `p` is discarded (R164). -/
def State.discard (s : State) (p : Port) (reason : DiscardReason) : State :=
  (s.modCounters (fun c => c.onPort p (fun pc => pc.discarded reason))).peg .msgDiscarded none

end Sys2Proof.Machine
end

