-- ==== Sys2Proof/Machine/Ops.lean ====
section
/-! DEFINITION. The shared operations: records by key, claims, the line states and their claims (R65, R81), the digit
record's discard (R84), test requests (R108, R111, R116, R117), the requests handed to the RSC (R122) and the end
of a call (R141). -/

namespace Sys2Proof.Machine

/-! Keys in ascending order. -/

def lineIds : List LineId := [0, 1, 2, 3, 4, 5, 6, 7, 8, 9, 10, 11, 12, 13, 14, 15]
def partyIds : List PartyId := [0, 1, 2, 3, 4, 5, 6, 7]
def busIds : List BusId := [0, 1, 2, 3]
def groupIds : List GroupId := [0, 1, 2, 3]
def slotIds : List Slot := [0, 1, 2, 3, 4, 5, 6, 7, 8, 9, 10, 11, 12, 13, 14, 15, 16, 17, 18, 19, 20, 21, 22, 23]
def callNos : List CallNo := [0, 1, 2, 3, 4, 5, 6, 7, 8, 9, 10, 11, 12, 13, 14, 15, 16, 17, 18, 19, 20, 21, 22, 23]
def cadenceIds : List CadenceId := [0, 1, 2, 3, 4, 5, 6, 7, 8, 9, 10, 11, 12, 13, 14, 15]

/-! Records. -/

def State.line (s : State) (n : LineId) : LineRec := tget s.lsv n
def State.setLine (s : State) (n : LineId) (r : LineRec) : State := { s with lsv := tset s.lsv n r }
def State.modLine (s : State) (n : LineId) (f : LineRec → LineRec) : State := s.setLine n (f (s.line n))

def State.digits (s : State) (n : LineId) : DigitRec := tget s.dgu n
def State.setDigits (s : State) (n : LineId) (d : DigitRec) : State := { s with dgu := tset s.dgu n d }
def State.modDigits (s : State) (n : LineId) (f : DigitRec → DigitRec) : State := s.setDigits n (f (s.digits n))

def State.down (s : State) (n : LineId) : DownClaims := tget s.hwi.down n
def State.setDown (s : State) (n : LineId) (c : DownClaims) : State :=
  { s with hwi := { s.hwi with down := tset s.hwi.down n c } }
def State.modDown (s : State) (n : LineId) (f : DownClaims → DownClaims) : State := s.setDown n (f (s.down n))

def State.up (s : State) (n : LineId) : UpClaims := tget s.hwi.up n
def State.setUp (s : State) (n : LineId) (c : UpClaims) : State :=
  { s with hwi := { s.hwi with up := tset s.hwi.up n c } }
def State.modUp (s : State) (n : LineId) (f : UpClaims → UpClaims) : State := s.setUp n (f (s.up n))

def State.callRec (s : State) (c : CallNo) : Option CallRec := tget s.csq c
def State.setCall (s : State) (c : CallNo) (r : Option CallRec) : State := { s with csq := tset s.csq c r }
def State.modCall (s : State) (c : CallNo) (f : CallRec → CallRec) : State :=
  s.setCall c ((s.callRec c).map f)

def State.attr (s : State) (n : LineId) : LineAttr := tget s.ptb.lines n
def State.party (s : State) (n : LineId) (p : PartyId) : Option PartyEntry := tget (tget s.ptb.parties n) p
def State.cadence (s : State) (c : CadenceId) : List Nat := tget s.ptb.cadences c
def State.capacity (s : State) (b : BusId) : Nat := tget s.ptb.capacity b
def State.exclusion (s : State) (g : GroupId) : Bool := tget s.ptb.exclusion g
def State.timing (s : State) : Timing := s.ptb.timing
def State.specOf (s : State) (n : LineId) (p : PartyId) : Option Spec := (s.party n p).map (fun e => e.spec)

/-- The L-port byte in force of a line (R152). -/
def State.lByte (s : State) (n : LineId) : Byte := tget s.hwi.lPort.inForce n

/-- The line's byte, handed over at the close of the interval, has been taken by the LSV (R64, R152). -/
def State.byteTaken (s : State) (n : LineId) : State :=
  { s with hwi := { s.hwi with byteWaits := tset s.hwi.byteWaits n false } }

/-- The E-port byte in force of a line, before policing (R152). -/
def State.eByte (s : State) (n : LineId) : Byte := tget s.hwi.ePort.inForce n

/-- Linked service (R119). -/
def linkedService (l : LinkState) : Bool :=
  match l with
  | .acquiring | .linked | .warning => true
  | .isolated | .released => false

def State.linked (s : State) : Bool := linkedService s.lkm.state

/-- The call whose record names the line, if any (a line has at most one, R121). -/
def State.callOn (s : State) (n : LineId) : Option CallNo :=
  callNos.find? (fun c =>
    match s.callRec c with
    | some r => decide (r.line = n)
    | none => false)

/-- The lowest call number not in use (R121). -/
def State.freeCall (s : State) : Option CallNo := callNos.find? (fun c => (s.callRec c).isNone)

def State.setHwi (s : State) (h : Hwi) : State := { s with hwi := h }

/-! Requests handed to the RSC (R122). -/

def State.setRsc (s : State) (r : Rsc) : State := { s with rsc := r }

/-- A request joins the FIFO of requests at the RSC. -/
def State.hand (s : State) (q : RscRequest) : State :=
  { s with rsc := { s.rsc with requests := s.rsc.requests ++ [q] } }

/-! Line states (chapter 4). -/

/-- The supervised loop set: a new value sets both counts to 0, the same value leaves them running (R65). -/
def LineRec.withLoop (r : LineRec) (l : Loop) : LineRec :=
  if r.loop = l then r else { r with loop := l, seizureCount := 0, onHookCount := 0 }

/-- The lockout timer and phase, removed when a line leaves LOCKOUT (R77). -/
def LineRec.noLockout (r : LineRec) : LineRec := { r with lockoutTimer := none, lockoutPhase := none }

/-- Every LSV place of a line's downstream claim set emptied. -/
def DownClaims.noLsv (c : DownClaims) : DownClaims :=
  { c with fault := none, blocked := none, lockout := none, collecting := none }

/-- The digit record discarded, with the DGU's upstream claim withdrawn (R84). -/
def State.discardDigits (s : State) (n : LineId) : State :=
  (s.setDigits n DigitRec.initial).modUp n (fun c => { c with replay := none })

/-- The digit record discarded and every LSV claim of the line withdrawn: what every change to a line state but
REPLAYING does before it sets its own claims (R81, R84). -/
def State.clearLine (s : State) (n : LineId) : State :=
  ((s.discardDigits n).modDown n DownClaims.noLsv).modUp n (fun c => { c with fault := false, onHook := false })

/-- Entry into IDLE (R65, R69, R81). -/
def State.enterIdle (s : State) (n : LineId) : State :=
  (s.clearLine n).modLine n (fun r =>
    { (r.withLoop .opened).noLockout with state := .idle, faultReason := none })

/-- Entry into THROUGH (R65, R67, R81). -/
def State.enterThrough (s : State) (n : LineId) : State :=
  (s.clearLine n).modLine n (fun r =>
    { (r.withLoop .closed).noLockout with state := .through, faultReason := none })

/-- Entry into CALL: the supervised loop stays, the on-hook claim stands for a revert call (R65, R71, R81). -/
def State.enterCall (s : State) (n : LineId) (kind : CallKind) : State :=
  ((s.clearLine n).modUp n (fun c => { c with onHook := decide (kind = .rv) })).modLine n (fun r =>
    { r.noLockout with state := .call })

/-- The intervals of the lockout tone (R76). -/
def lockoutIntervals : Nat := 6000

/-- Entry into LOCKOUT, with its notice and its peg (R76). -/
def State.enterLockout (s : State) (n : LineId) : State :=
  let s := s.clearLine n
  let s := s.modDown n (fun c => { c with lockout := some .hangupTone })
  let s := s.modUp n (fun c => { c with onHook := true })
  let s := s.modLine n (fun r =>
    { r.withLoop .closed with
      state := .lockout, faultReason := none, lockoutTimer := some lockoutIntervals, lockoutPhase := some .tone })
  (s.notify (.lineLockout n)).peg .lockout (some n)

/-- Entry into COLLECTING, with the start of collection (R67, R91). -/
def State.enterCollecting (s : State) (n : LineId) : State :=
  let s := s.clearLine n
  let s := s.modDown n (fun c => { c with collecting := some .dialTone })
  let s := s.modUp n (fun c => { c with onHook := true })
  let s := s.modLine n (fun r => { r.withLoop .closed with state := .collecting })
  s.modDigits n (fun d => { d with collection := some { kind := .firstDigit, left := 2000 } })

/-- Entry into REPLAYING, with the start of the replay. The buffer and the receiver stand as they are (R96, R98). -/
def State.enterReplaying (s : State) (n : LineId) : State :=
  let s := s.modDown n DownClaims.noLsv
  let s := s.modUp n (fun c => { c with onHook := true, replay := some .closed })
  let s := s.modLine n (fun r => { r.withLoop .closed with state := .replaying })
  s.modDigits n (fun d =>
    { d with collection := none, generator := .toneWait, generatorTimer := 100, sending := none, quiet := 0 })

/-- Entry into BLOCKED: steps 4 and 5 of R78. -/
def State.enterBlocked (s : State) (n : LineId) : State :=
  let s := s.clearLine n
  let s := s.modDown n (fun c => { c with blocked := some .feedOff })
  let s := s.modUp n (fun c => { c with onHook := true })
  s.modLine n (fun r =>
    { r.noLockout with
      state := .blocked, loop := .opened, seizureCount := 0, onHookCount := 0, faultReason := none })

/-! Identity tests (chapter 6). -/

def State.setItu (s : State) (i : Itu) : State := { s with itu := i }

/-- A request becomes the test in progress and the TEST claim is set (R111). -/
def State.beginTest (s : State) (q : TestRequest) : State :=
  (s.setItu { s.itu with
    inProgress := some { line := q.line, requesters := q.requesters, interval := 0, fresh := true } }).modDown
    q.line (fun c => { c with test := some .test })

/-- The oldest waiting request leaves the queue and its test begins (R115, R117). -/
def State.nextTest (s : State) : State :=
  match s.itu.queue with
  | [] => s
  | q :: rest => (s.setItu { s.itu with queue := rest }).beginTest q

/-- The test in progress removed and its TEST claim withdrawn. -/
def State.dropTest (s : State) (n : LineId) : State :=
  (s.setItu { s.itu with inProgress := none }).modDown n (fun c => { c with test := none })

/-- A requester added at the end of a list that does not hold it (R108). -/
def joined (rs : List Requester) (x : Requester) : List Requester := if rs.contains x then rs else rs ++ [x]

/-- The test in progress is on the line. -/
def State.testOn (s : State) (n : LineId) : Option Test := s.itu.inProgress.filter (fun t => decide (t.line = n))

/-- A request for a test on line `n` from requester `x` (R108). -/
def State.requestTest (s : State) (n : LineId) (x : Requester) : State :=
  match s.itu.inProgress with
  | none => s.beginTest { line := n, requesters := [x] }
  | some t =>
    if t.line = n then
      s.setItu { s.itu with inProgress := some { t with requesters := joined t.requesters x } }
    else if s.itu.queue.any (fun q => decide (q.line = n)) then
      s.setItu { s.itu with queue := s.itu.queue.map (fun q =>
        if q.line = n then { q with requesters := joined q.requesters x } else q) }
    else s.setItu { s.itu with queue := s.itu.queue ++ [{ line := n, requesters := [x] }] }

/-- Every requester of the line's request, in progress or waiting. -/
def State.requestersOn (s : State) (n : LineId) : List Requester :=
  match s.testOn n with
  | some t => t.requesters
  | none =>
    match s.itu.queue.find? (fun q => decide (q.line = n)) with
    | some q => q.requesters
    | none => []

/-- A call withdrawn as requester from its line's request. A request left without a requester is removed, with its
TEST_ABORTED peg (R117). -/
def State.withdrawTest (s : State) (c : CallNo) (n : LineId) : State :=
  if (s.requestersOn n).contains (.call c) then
    let left := (s.requestersOn n).erase (.call c)
    match s.testOn n with
    | some t =>
      if left = [] then ((s.dropTest n).peg .testAborted (some n)).nextTest
      else s.setItu { s.itu with inProgress := some { t with requesters := left } }
    | none =>
      if left = [] then
        (s.setItu { s.itu with queue := s.itu.queue.filter (fun q => decide (q.line ≠ n)) }).peg
          .testAborted (some n)
      else
        s.setItu { s.itu with queue := s.itu.queue.map (fun q =>
          if q.line = n then { q with requesters := left } else q) }
  else s

/-- The IDENTITY notice with result ABORTED, for an exchange requester (R116). -/
def State.notifyAborted (s : State) (n : LineId) (rs : List Requester) : State :=
  if rs.contains .exchange then s.notify (.identity n .aborted none none) else s

/-- The line's request aborted, waiting or in progress (R116). The ABORTED result of a CALL requester is the
caller's to take: a fault or block has ended the call, an on-hook is taken with it as a pair. -/
def State.abortTest (s : State) (n : LineId) : State :=
  let rs := s.requestersOn n
  match s.testOn n with
  | some _ => (((s.dropTest n).notifyAborted n rs).peg .testAborted (some n)).nextTest
  | none =>
    if s.itu.queue.any (fun q => decide (q.line = n)) then
      ((s.setItu { s.itu with queue := s.itu.queue.filter (fun q => decide (q.line ≠ n)) }).notifyAborted
        n rs).peg .testAborted (some n)
    else s

/-! The end of a call (R141). -/

/-- Where a call's end directs its line. -/
inductive Direction where
  | nowhere
  | idle
  | through
  | lockout
  deriving DecidableEq, Repr

/-- Step 4 of R141: a line already in that state, or taken to FAULT, BLOCKED or IDLE, is not directed. -/
def State.direct (s : State) (n : LineId) (d : Direction) : State :=
  match (s.line n).state with
  | .fault | .blocked | .idle => s
  | st =>
    match d with
    | .nowhere => s
    | .idle => s.enterIdle n
    | .through => if st = .through then s else s.enterThrough n
    | .lockout => if st = .lockout then s else s.enterLockout n

/-- The fields of the CALL END notice (R144). The answered party is the record's, which stays absent from an answer until
its test result: a DESIGN CHOICE (log 37). -/
def callEndOf (c : CallNo) (r : CallRec) (result : EndResult) : CallEnd :=
  { call := c, kind := r.kind, origin := r.origin, line := r.line, called := r.called, caller := r.caller,
    result := result, answered := r.answered, testResult := r.testResult, cyclesRung := r.cyclesRung,
    reRevert := r.reRevert }

/-- The release request of a call that holds a ring part, and the ring part marked absent (R141 step 1). -/
def State.releaseRing (s : State) (c : CallNo) : State :=
  match s.callRec c with
  | some r => if r.ringPart then (s.hand (.release c)).modCall c (fun r => { r with ringPart := false }) else s
  | none => s

/-- The pegs of an end, where its rule names one. -/
def State.pegOpt (s : State) (e : Option PegEvent) (n : LineId) : State :=
  match e with
  | some e => s.peg e (some n)
  | none => s

/-- The end of a call (R141). `withdraw` is off where the ITU aborts the line's request itself (R142). -/
def State.endCall (s : State) (c : CallNo) (result : EndResult) (d : Direction) (e : Option PegEvent)
    (withdraw : Bool) : State :=
  match s.callRec c with
  | none => s
  | some r =>
    let s := s.releaseRing c
    let s := if withdraw then s.withdrawTest c r.line else s
    let s := s.modDown r.line (fun p => { p with call := none })
    let s := s.direct r.line d
    let s := s.notify (.callEnd (callEndOf c r result))
    let s := s.pegOpt e r.line
    s.setCall c none

/-! Fault and block (R73, R78). -/

/-- Entry into FAULT, taken whole (R73). -/
def State.enterFault (s : State) (n : LineId) (reason : FaultReason) : State :=
  let s := s.modLine n (fun r =>
    { r.noLockout with
      state := .fault, faultReason := some reason,
      blockRecorded := r.blockRecorded || decide (r.state = .blocked),
      loop := .opened, seizureCount := 0, onHookCount := 0, faultCount := 0, clearCount := 0 })
  let s := s.modDown n (fun c => { c.noLsv with fault := some .feedOff })
  let s := s.modUp n (fun c => { c with onHook := false, fault := true })
  let s :=
    match s.callOn n with
    | some c => s.endCall c .fault .nowhere none false
    | none => s
  let s := s.discardDigits n
  let s := s.abortTest n
  (s.notify (.lineFault n reason)).peg .lineFault (some n)

/-- A LINE BLOCK taken on a line in no FAULT (R78). A line already BLOCKED changes nothing. -/
def State.blockLine (s : State) (n : LineId) : State :=
  if (s.line n).state = .blocked then s
  else
    let s :=
      match s.callOn n with
      | some c => s.endCall c .blocked .nowhere none false
      | none => s
    let s := s.discardDigits n
    let s := s.abortTest n
    s.enterBlocked n

end Sys2Proof.Machine
end

