-- ==== Sys2Proof/Machine/Rings.lean ====
section
/-! DEFINITION. The Ring Slot Map, the placement test, the offset search, the wait queue and its passes, amends and
release (chapter 2). -/

namespace Sys2Proof.Machine

/-! Cadences (R8, R22). -/

/-- The cadence positions of a list of segment durations, ring-on and silent in turn, ring-on first (R8). -/
def cadencePositions : Bool → List Nat → List Bool
  | _, [] => []
  | on, d :: ds => List.replicate d on ++ cadencePositions (!on) ds

/-- Position `p` of the cadence is ring-on. An empty cadence has no ring-on position. -/
def ringOnAt (cadence : List Nat) (p : Slot) : Bool := (cadencePositions true cadence).getD p.val false

/-- A part of this cadence with offset `k` is ring-on at cycle slot `sl` (R22). -/
def ringOnSlot (cadence : List Nat) (k sl : Slot) : Bool := ringOnAt cadence (sl - k)

/-! The map. -/

/-- One row of the map changed at the ring-on slots of a part. -/
def rowChanged (row : Vector Nat 24) (cadence : List Nat) (k : Slot) (f : Nat → Nat) : Vector Nat 24 :=
  Vector.ofFn (fun sl => if ringOnSlot cadence k sl then f (tget row sl) else tget row sl)

/-- Load and occupancy of a part added at offset `k` (R24). -/
def State.mapAdd (s : State) (sp : Spec) (g : GroupId) (k : Slot) : State :=
  { s with rsc := { s.rsc with
      busLoad := tset s.rsc.busLoad sp.bus
        (rowChanged (tget s.rsc.busLoad sp.bus) (s.cadence sp.cadence) k (fun n => n + sp.bell)),
      occupancy := tset s.rsc.occupancy g
        (rowChanged (tget s.rsc.occupancy g) (s.cadence sp.cadence) k (fun n => n + 1)) } }

/-- The same amounts subtracted at the same slots (R24). -/
def State.mapRemove (s : State) (sp : Spec) (g : GroupId) (k : Slot) : State :=
  { s with rsc := { s.rsc with
      busLoad := tset s.rsc.busLoad sp.bus
        (rowChanged (tget s.rsc.busLoad sp.bus) (s.cadence sp.cadence) k (fun n => n - sp.bell)),
      occupancy := tset s.rsc.occupancy g
        (rowChanged (tget s.rsc.occupancy g) (s.cadence sp.cadence) k (fun n => n - 1)) } }

/-- The placement test (R25). -/
def State.placementTest (s : State) (sp : Spec) (g : GroupId) (k : Slot) : Bool :=
  slotIds.all (fun sl =>
    !ringOnSlot (s.cadence sp.cadence) k sl ||
      (decide (tget (tget s.rsc.busLoad sp.bus) sl + sp.bell ≤ s.capacity sp.bus) &&
        (!s.exclusion g || decide (tget (tget s.rsc.occupancy g) sl = 0))))

/-- The offsets in the order the search tries them, from start pointer `p` (R27). -/
def searchOrder (p : Slot) : List Slot := slotIds.map (fun i => p + i)

/-- The offset search (R27). -/
def State.offsetSearch (s : State) (sp : Spec) (g : GroupId) : Option Slot :=
  (searchOrder (tget s.rsc.startPointer sp.bus)).find? (fun k => s.placementTest sp g k)

/-! Ring parts by call. -/

def State.part (s : State) (c : CallNo) : Option RingPart := s.rsc.parts.find? (fun p => decide (p.call = c))

/-- The part of call `c` changed; the order of age stays. -/
def State.modPart (s : State) (c : CallNo) (f : RingPart → RingPart) : State :=
  { s with rsc := { s.rsc with parts := s.rsc.parts.map (fun p => if p.call = c then f p else p) } }

/-- The parts older than the part of call `c` (R21). -/
def olderThan (parts : List RingPart) (c : CallNo) : List RingPart :=
  parts.takeWhile (fun p => decide (p.call ≠ c))

def RingPart.isQueued (p : RingPart) : Bool :=
  match p.status with
  | .queued _ => true
  | .placed _ _ => false

/-- PLACED and not start-pending (R65). -/
def RingPart.isRinging (p : RingPart) : Bool :=
  match p.status with
  | .placed _ pending => !pending
  | .queued _ => false

/-- The overtaken count at which a queued part is blocking (R26). -/
def blockingCount : Nat := 8

/-- A blocking part of bus `b` (R26). -/
def RingPart.blocks (p : RingPart) (b : BusId) : Bool :=
  match p.status with
  | .queued n => decide (n = blockingCount) && decide (p.spec.bus = b)
  | .placed _ _ => false

/-- The part of call `c` is eligible for placement on bus `b` (R26). -/
def State.eligible (s : State) (c : CallNo) (b : BusId) : Bool :=
  !(olderThan s.rsc.parts c).any (fun p => p.blocks b)

/-- The overtaken count of a queued part of bus `b` raised by one (R33). -/
def RingPart.overtakenOn (p : RingPart) (b : BusId) : RingPart :=
  match p.status with
  | .queued n => if p.spec.bus = b then { p with status := .queued (n + 1) } else p
  | .placed _ _ => p

/-- A placement on bus `b` of the part of call `c` overtakes the older queued parts of the bus (R33). -/
def overtaken (b : BusId) (c : CallNo) : List RingPart → List RingPart
  | [] => []
  | p :: ps => if p.call = c then p :: ps else p.overtakenOn b :: overtaken b c ps

/-- The part of call `c`, out of the map, put into it at offset `k` (R24, R28), and the older queued parts of its
bus overtaken (R33). -/
def State.putAt (s : State) (c : CallNo) (sp : Spec) (g : GroupId) (k : Slot) (pending : Bool) : State :=
  let s := s.mapAdd sp g k
  let s := s.modPart c (fun p => { p with status := .placed k pending })
  s.setRsc { s.rsc with parts := overtaken sp.bus c s.rsc.parts }

/-- The placement of R28 by the offset search: start-pending, the start pointer moved, RING_PLACED pegged. Its report
follows the pass of its event (R60). -/
def State.placeBySearch (s : State) (c : CallNo) (n : LineId) (sp : Spec) (g : GroupId) (k : Slot) : State :=
  let s := s.putAt c sp g k true
  let s := s.setRsc { s.rsc with
    startPointer := tset s.rsc.startPointer sp.bus (k + Fin.ofNat 24 s.timing.stagger) }
  s.peg .ringPlaced (some n)

/-- The offset an eligible part of call `c` finds, `none` when it is ineligible or the search fails (R26, R27). -/
def State.offsetFor (s : State) (c : CallNo) (sp : Spec) (g : GroupId) : Option Slot :=
  if s.eligible c sp.bus then s.offsetSearch sp g else none

/-- One queued part judged by a pass (R34). -/
def State.judgeQueued (s : State) (c : CallNo) : State :=
  match s.part c with
  | none => s
  | some p =>
    if p.isQueued then
      match s.offsetFor c p.spec p.group with
      | some k => s.placeBySearch c p.line p.spec p.group k
      | none => s
    else s

/-- The wait queue: the queued parts in order of age (R31). -/
def State.waitQueue (s : State) : List RingPart := s.rsc.parts.filter (fun p => p.isQueued)

/-! Placements reported to the Call Sequencer (R28, R60). -/

/-- A placement report, with the offset: a call stays in the state it is in, whatever the state (R122, R128, R130,
R138). -/
def State.csqPlacement (s : State) (_c : CallNo) (_n : LineId) (_offset : Slot) : State := s

/-- The placement of the part of call `c` reported, if it is placed (R28, R60). -/
def State.reportPlacement (s : State) (c : CallNo) : State :=
  match s.part c with
  | some p =>
    match p.status with
    | .placed k _ => s.csqPlacement c p.line k
    | .queued _ => s
  | none => s

/-- The calls of the queued parts, oldest first. -/
def State.waitingCalls (s : State) : List CallNo := s.waitQueue.map (fun p => p.call)

/-- The one scan of a placement pass (R34). -/
def State.scan (s : State) : State := s.waitingCalls.foldl (fun s c => s.judgeQueued c) s

/-- A placement pass (R34) in the event that has just placed the parts of the calls `placed`: the placements of the
event, its own and those of the pass, are reported after the pass (R60). -/
def State.passAfter (s : State) (placed : List CallNo) : State :=
  (placed ++ s.waitingCalls).foldl (fun s c => s.reportPlacement c) s.scan

/-- A placement pass of an event that has placed no part itself (R34). -/
def State.pass (s : State) : State := s.passAfter []

/-- A part joins or rejoins the wait queue with overtaken count 0 (R31). -/
def State.joinQueue (s : State) (c : CallNo) (n : LineId) : State :=
  (s.modPart c (fun p => { p with status := .queued 0 })).peg .ringQueued (some n)

/-! Ringing stops (R55). -/

/-- The part on line `n` stops being a ringing part: its ring claim is withdrawn, the trip count discarded, and a
closed loop is judged as a seizure from the next interval on (R55, R57). -/
def State.stopRinging (s : State) (n : LineId) : State :=
  (s.modDown n (fun c => { c with ring := none })).modLine n (fun r =>
    { r with tripCount := 0, seizureCount := 0, hold := true })

/-- A part leaves the map or the queue and the order of age; its staged change goes with it (R38). -/
def State.removePart (s : State) (p : RingPart) : State :=
  let s :=
    match p.status with
    | .placed k pending =>
      let s := s.mapRemove p.spec p.group k
      if pending then s else s.stopRinging p.line
    | .queued _ => s
  s.setRsc { s.rsc with parts := s.rsc.parts.filter (fun q => decide (q.call ≠ p.call)) }

/-- Release of the part of call `c`, and the pass that follows (R38). A call with no part changes nothing. -/
def State.releasePart (s : State) (c : CallNo) : State :=
  match s.part c with
  | some p => (s.removePart p).pass
  | none => s

/-! Place, stage and amend (R29, R30, R36, R50). -/

/-- The bell load exceeds the capacity of the bus: NO_CAPACITY (R30). -/
def State.overCapacity (s : State) (sp : Spec) : Bool := decide (s.capacity sp.bus < sp.bell)

/-- The new ring part of a place request: the youngest (R21), not yet placed (R29). -/
def newPart (c : CallNo) (n : LineId) (g : GroupId) (sp : Spec) (limit completed : Nat) : RingPart :=
  { call := c, line := n, group := g, spec := sp, status := .queued 0, cycleLimit := limit,
    cyclesCompleted := completed, staged := none, ringingBegun := false, tripDelivered := false }

/-- Steps 2 to 4 of R29 for a request that step 1 does not refuse. A placement at once is reported (R60). -/
def State.createPart (s : State) (c : CallNo) (n : LineId) (sp : Spec) (limit completed : Nat) : State :=
  let g := (s.attr n).group
  let s := s.setRsc { s.rsc with parts := s.rsc.parts ++ [newPart c n g sp limit completed] }
  match s.offsetFor c sp g with
  | some k => (s.placeBySearch c n sp g k).reportPlacement c
  | none => (s.joinQueue c n).pass

/-- The spec with its cadence replaced. -/
def Spec.withCadence (sp : Spec) (c : CadenceId) : Spec := { sp with cadence := c }

/-- An amend's cadence applied at once to a start-pending part at offset `k` (R36). -/
def State.amendPending (s : State) (p : RingPart) (k : Slot) (cad : CadenceId) : State :=
  let sp := p.spec.withCadence cad
  let s := s.mapRemove p.spec p.group k
  let s := s.modPart p.call (fun p => { p with spec := sp })
  if s.eligible p.call sp.bus && s.placementTest sp p.group k then
    ((s.putAt p.call sp p.group k true).peg .ringPlaced (some p.line)).passAfter [p.call]
  else
    match s.offsetFor p.call sp p.group with
    | some k' => (s.placeBySearch p.call p.line sp p.group k').passAfter [p.call]
    | none => (s.joinQueue p.call p.line).pass

/-- An amend's cycle limit, if it names one. -/
def RingPart.withLimit (p : RingPart) (limit : Option Nat) : RingPart :=
  { p with cycleLimit := limit.getD p.cycleLimit }

/-- An amend taken by the RSC (R36, R50). That the steps of R36, with the pass, are taken for every cadence named, also
for the one the part already has, is a DESIGN CHOICE (log 33). -/
def State.amendPart (s : State) (c : CallNo) (cad : Option CadenceId) (limit : Option Nat) : State :=
  match s.part c with
  | none => s
  | some p =>
    match p.status with
    | .placed k true =>
      let s := s.modPart c (fun p => p.withLimit limit)
      match cad with
      | some cad => s.amendPending p k cad
      | none => s
    | .queued _ =>
      let s := s.modPart c (fun p => p.withLimit limit)
      match cad with
      | some cad => (s.modPart c (fun p => { p with spec := p.spec.withCadence cad })).pass
      | none => s
    | .placed _ false =>
      s.modPart c (fun p =>
        { p with staged := some { spec := cad.map p.spec.withCadence, limit := limit } })

/-- A stage request taken by the RSC (R30, R50). The RING_REFUSED peg of a refusal is DEDUCED (log 13). -/
def State.stagePart (s : State) (c : CallNo) (sp : Spec) : State :=
  match s.part c with
  | none => s
  | some p =>
    if s.overCapacity sp then s.peg .ringRefused (some p.line)
    else s.modPart c (fun p => { p with staged := some { spec := some sp, limit := none } })

/-! The readings of R40 and R41. -/

/-- The peak load of a bus (R41). -/
def State.peakLoad (s : State) (b : BusId) : Nat :=
  slotIds.foldl (fun n sl => max n (tget (tget s.rsc.busLoad b) sl)) 0

/-- The peak occupancy of a group (R41). -/
def State.peakOccupancy (s : State) (g : GroupId) : Nat :=
  slotIds.foldl (fun n sl => max n (tget (tget s.rsc.occupancy g) sl)) 0

/-- The bell load of a spec that names the bus, else 0. -/
def bellOn (b : BusId) (sp : Spec) : Nat := if sp.bus = b then sp.bell else 0

/-- The largest bell load that a part holds waiting for bus `b`: its spec when it is QUEUED, and the spec of its
staged change (R41). -/
def RingPart.waitingBell (p : RingPart) (b : BusId) : Nat :=
  max (if p.isQueued then bellOn b p.spec else 0)
    (match p.staged with
     | some { spec := some sp, .. } => bellOn b sp
     | _ => 0)

/-- The largest bell load among the QUEUED parts and staged changes of a bus (R41). -/
def State.waitingBell (s : State) (b : BusId) : Nat :=
  s.rsc.parts.foldl (fun n p => max n (p.waitingBell b)) 0

/-- The number of placed parts on a bus, start-pending included (R40). -/
def State.placedOn (s : State) (b : BusId) : Nat :=
  (s.rsc.parts.filter (fun p => !p.isQueued && decide (p.spec.bus = b))).length

/-- The cadence is named by a ring part, in its spec or in a staged change (R9). -/
def State.cadenceRung (s : State) (c : CadenceId) : Bool :=
  s.rsc.parts.any (fun p =>
    decide (p.spec.cadence = c) ||
      match p.staged with
      | some { spec := some sp, .. } => decide (sp.cadence = c)
      | _ => false)

end Sys2Proof.Machine
end

