-- ==== Sys2Proof/Machine/Calls.lean ====
section
/-! DEFINITION. The Call Sequencer: the states of exchange ring calls and revert calls, and what each makes of the
events that reach it (chapter 7). -/

namespace Sys2Proof.Machine

/-! Where an end directs the line by the link state (R128, R129, R131). -/

/-- THROUGH in linked service, LOCKOUT in isolated service. -/
def State.serviceDirection (s : State) : Direction := if s.linked then .through else .lockout

/-- The record of call `c`, if it is on line `n`: a report or event that finds none changes nothing (R122). -/
def State.callOnLine (s : State) (c : CallNo) (n : LineId) : Option CallRec :=
  (s.callRec c).filter (fun r => decide (r.line = n))

/-- The call claim set (R123). -/
def State.callClaim (s : State) (n : LineId) (code : DownCode) : State :=
  s.modDown n (fun p => { p with call := some code })

/-! Entries into the revert states. -/

/-- Entry into IDENTIFY_CALLER (R134). -/
def State.enterIdentifyCaller (s : State) (c : CallNo) (n : LineId) : State :=
  let s := s.modCall c (fun r => { r with state := .identifyCaller })
  (s.callClaim n .feed).requestTest n (.call c)

/-- Entry into HANGUP_WAIT: hang-up tone, and the timer loaded with the setting as it stands (R135). -/
def State.enterHangupWait (s : State) (c : CallNo) (n : LineId) : State :=
  (s.modCall c (fun r => { r with state := .hangupWait, hangupTimer := some s.timing.hangupWait })).callClaim
    n .hangupTone

/-- The ringing of a revert call requested from the RSC (R136). -/
def State.requestRevertRinging (s : State) (c : CallNo) (n : LineId) (sp : Spec) (limit completed : Nat) :
    State :=
  (s.modCall c (fun r =>
    { r with ringPart := true, ringLimit := some limit, cyclesRung := completed })).hand
    (.place c n sp limit completed)

/-- Entry into REVERT_RINGING with the limit and starting value given (R136). The called party's entry is present
for as long as the call exists (R7). -/
def State.enterRevertRinging (s : State) (c : CallNo) (limit completed : Nat) : State :=
  match s.callRec c with
  | none => s
  | some r =>
    let s := s.modCall c (fun r => { r with state := .revertRinging, hangupTimer := none })
    let s := s.callClaim r.line .feed
    match s.specOf r.line r.called with
    | some sp => s.requestRevertRinging c r.line sp limit completed
    | none => s

/-- Entry into REVERT_RINGING from HANGUP_WAIT or IDENTIFY_CALLER (R136). -/
def State.ringRevertAnew (s : State) (c : CallNo) : State :=
  s.enterRevertRinging c s.timing.revertCycles 0

/-- Entry into REVERT_RINGING from ANSWER_TEST by an on-hook, with the limit and the cycles the call has (R136). That the
answered party stays absent is a DESIGN CHOICE (log 37). -/
def State.resumeRevertRinging (s : State) (c : CallNo) (r : CallRec) : State :=
  let limit := r.ringLimit.getD 0
  if limit ≤ r.cyclesRung then s.endCall c .noAnswer .idle (some .noAnswer) true
  else s.enterRevertRinging c limit r.cyclesRung

/-- Entry into TALK (R140). -/
def State.enterTalk (s : State) (c : CallNo) (r : CallRec) (a : Answered) : State :=
  let s := s.modCall c (fun r => { r with state := .talk, answered := some a })
  let s := s.callClaim r.line .feed
  (s.notify (.answer c .rv r.line (some a) r.reRevert)).peg .revertCompleted (some r.line)

/-! Creation of records (R121). -/

/-- An RV record (R132, R133), in the state it enters first. -/
def newRevert (origin : Origin) (n : LineId) (called : PartyId) (caller : Option PartyId) : CallRec :=
  { kind := .rv, origin := origin, line := n, called := called, caller := caller, state := .identifyCaller,
    ringPart := false, ringLimit := none, cyclesRung := 0, answerIdentify := none, reRevert := some 0,
    hangupTimer := none, answered := none, testResult := none }

/-- An XR record (R125). -/
def newExchangeRing (n : LineId) (called : PartyId) (limit : Nat) (identify : Bool) : CallRec :=
  { kind := .xr, origin := .exchange, line := n, called := called, caller := none, state := .waiting,
    ringPart := true, ringLimit := some limit, cyclesRung := 0, answerIdentify := some identify,
    reRevert := none, hangupTimer := none, answered := none, testResult := none }

/-- A revert match with the matching party (R95, R97, R132). In R97 the order of the two routine notices is a
DESIGN CHOICE (log 12). -/
def State.revertMatch (s : State) (n : LineId) (p : PartyId) : State :=
  match s.freeCall with
  | some c =>
    let s := (s.setCall c (some (newRevert .isLocal n p none))).enterCall n .rv
    let s := s.notify (.revertLocalStart c n p)
    let s := s.peg .revertStarted (some n)
    s.enterIdentifyCaller c n
  | none => (s.notify (.revertRefused n p)).enterLockout n

/-! Answers (R129, R138). -/

/-- An XR in RINGING is answered (R129). Its answered party is set by the test result (R131), and is absent until then: a
DESIGN CHOICE (log 37). -/
def State.answerRing (s : State) (c : CallNo) (r : CallRec) : State :=
  let s := s.releaseRing c
  if r.answerIdentify = some true then
    let s := s.modCall c (fun r => { r with state := .identifying })
    let s := s.requestTest r.line (.call c)
    let s := s.notify (.answer c .xr r.line none none)
    if s.linked then s.enterThrough r.line else s
  else s.endCall c .answered s.serviceDirection none true

/-- An RV in REVERT_RINGING is answered: ANSWER_TEST (R138, R139). Its answered party is set by the test result, and is
absent until then: a DESIGN CHOICE (log 37). -/
def State.answerRevert (s : State) (c : CallNo) (r : CallRec) : State :=
  let s := s.releaseRing c
  let s := s.modCall c (fun r => { r with state := .answerTest })
  (s.callClaim r.line .feed).requestTest r.line (.call c)

/-- A trip delivered by the LSV (R129, R138). -/
def State.csqTrip (s : State) (c : CallNo) (n : LineId) : State :=
  match s.callOnLine c n with
  | none => s
  | some r =>
    match r.state with
    | .ringing => s.answerRing c r
    | .revertRinging => s.answerRevert c r
    | .waiting | .identifying | .identifyCaller | .hangupWait | .answerTest | .talk => s

/-- A seizure delivered by the LSV: glare, an answer, or a revert answer (R128, R129, R138). -/
def State.csqSeizure (s : State) (c : CallNo) (n : LineId) : State :=
  match s.callOnLine c n with
  | none => s
  | some r =>
    match r.state with
    | .waiting => s.endCall c .glare s.serviceDirection (some .glare) true
    | .ringing => s.answerRing c r
    | .revertRinging => s.answerRevert c r
    | .identifying | .identifyCaller | .hangupWait | .answerTest | .talk => s

/-- An on-hook delivered by the LSV, taken once with the ABORTED result where a test of the call stood (R131, R134,
R135, R139, R140). -/
def State.csqOnHook (s : State) (c : CallNo) (n : LineId) : State :=
  match s.callOnLine c n with
  | none => s
  | some r =>
    match r.state with
    | .identifying =>
      (s.modCall c (fun r =>
        { r with answered := some .unidentified, testResult := some .aborted })).endCall
        c .answered .idle none true
    | .identifyCaller => s.ringRevertAnew c
    | .hangupWait => s.ringRevertAnew c
    | .answerTest => s.resumeRevertRinging c r
    | .talk =>
      let unconfirmed := r.answered.isSome && decide (r.answered = r.caller.map Answered.party)
      s.endCall c (if unconfirmed then .completedUnconfirmed else .completed) .idle none true
    | .waiting | .ringing | .revertRinging => s

/-! Test results (R131, R134, R139). -/

/-- The party taken as having answered, by the test result. -/
def answeredOf : TestResult → Answered
  | .party p _ => .party p
  | .unidentified _ | .timeout => .unidentified

/-- The code of a test result (R173). -/
def outcomeOf : TestResult → TestOutcome
  | .party _ _ => .party
  | .unidentified _ => .unidentified
  | .timeout => .timeout

/-- A result in IDENTIFY_CALLER (R134). -/
def State.callerIdentified (s : State) (c : CallNo) (r : CallRec) (res : TestResult) : State :=
  match res with
  | .party p _ =>
    if p = r.called then s.endCall c .selfRevert .lockout none true
    else (s.modCall c (fun r => { r with caller := some p })).enterHangupWait c r.line
  | .unidentified _ | .timeout => s.enterHangupWait c r.line

/-- A re-revert (R139). That it leaves the answered party absent is a DESIGN CHOICE (log 37). -/
def State.reRevert (s : State) (c : CallNo) (r : CallRec) : State :=
  let s := s.modCall c (fun r => { r with reRevert := r.reRevert.map (· + 1), cyclesRung := 0 })
  (s.peg .reRevert (some r.line)).enterHangupWait c r.line

/-- A result in ANSWER_TEST (R139). -/
def State.answerTested (s : State) (c : CallNo) (r : CallRec) (res : TestResult) : State :=
  match res with
  | .party p _ =>
    if r.caller = some p ∧ r.reRevert.getD 0 < 2 then s.reRevert c r else s.enterTalk c r (.party p)
  | .unidentified _ | .timeout => s.enterTalk c r .unidentified

/-- A test result delivered by the ITU (R131, R134, R139). -/
def State.csqResult (s : State) (c : CallNo) (n : LineId) (res : TestResult) : State :=
  match s.callOnLine c n with
  | none => s
  | some r =>
    match r.state with
    | .identifying =>
      (s.modCall c (fun r =>
        { r with answered := some (answeredOf res), testResult := some (outcomeOf res) })).endCall
        c .answered s.serviceDirection none true
    | .identifyCaller => s.callerIdentified c r res
    | .answerTest => s.answerTested c r res
    | .waiting | .ringing | .hangupWait | .revertRinging | .talk => s

/-! RSC reports (R128, R130, R136, R138). -/

/-- First ring (R128). -/
def State.csqFirstRing (s : State) (c : CallNo) (n : LineId) : State :=
  match s.callOnLine c n with
  | some r => if r.state = .waiting then s.modCall c (fun r => { r with state := .ringing }) else s
  | none => s

/-- The other party's spec, when the three conditions of alternation hold (R137). `held` is the spec that the part
now holds. -/
def State.alternateSpec (s : State) (r : CallRec) (held : Spec) : Option Spec :=
  if (s.attr r.line).backRing then
    match s.specOf r.line r.called, r.caller.bind (s.specOf r.line) with
    | some called, some caller =>
      if called = caller then none else if held = called then some caller else some called
    | _, _ => none
  else none

/-- The stage request of alternation, for a call in REVERT_RINGING (R137). -/
def State.stageAlternation (s : State) (c : CallNo) (n : LineId) (held : Spec) : State :=
  match s.callOnLine c n with
  | some r =>
    if r.state = .revertRinging then
      match s.alternateSpec r held with
      | some sp => s.hand (.stage c sp)
      | none => s
    else s
  | none => s

/-- The outcome of a cycle boundary (R47). -/
inductive BoundaryOutcome where
  | continued (offset : Slot)
  | moved (offset : Slot)
  | queued
  deriving DecidableEq, Repr

/-- The offset of the part after the boundary, absent for QUEUED (R47). -/
def BoundaryOutcome.offset : BoundaryOutcome → Option Slot
  | .continued k => some k
  | .moved k => some k
  | .queued => none

/-- What a cycle boundary report carries beside the call number (R47). -/
structure BoundaryReport where
  completed : Nat
  outcome : BoundaryOutcome
  offset : Option Slot
  deriving DecidableEq, Repr

/-- A cycle boundary report (R130, R138). A call in another state takes no account of it (R122). The rules of these
states take the cycles completed; the spec that the part now holds is `held` (R137). -/
def State.csqBoundary (s : State) (c : CallNo) (n : LineId) (report : BoundaryReport) (held : Spec) : State :=
  match s.callOnLine c n with
  | some r =>
    if r.state = .ringing ∨ r.state = .revertRinging then
      (s.modCall c (fun r => { r with cyclesRung := report.completed })).stageAlternation c n held
    else s
  | none => s

/-- A cycles exhausted report (R130, R138). In a state whose rule does not take it, it sets cycles rung only
(R122). -/
def State.csqExhausted (s : State) (c : CallNo) (n : LineId) (completed : Nat) : State :=
  match s.callOnLine c n with
  | some r =>
    if r.state = .ringing ∨ r.state = .revertRinging then
      (s.modCall c (fun r => { r with cyclesRung := completed, ringPart := false })).endCall
        c .noAnswer .idle (some .noAnswer) true
    else s.modCall c (fun r => { r with cyclesRung := completed })
  | none => s

/-- A place request refused NO_CAPACITY by the RSC (R136). -/
def State.csqPlaceRefused (s : State) (c : CallNo) (n : LineId) : State :=
  match s.callOnLine c n with
  | some r => if r.state = .revertRinging then s.endCall c .noAnswer .idle (some .noAnswer) true else s
  | none => s

/-- The cycle count of a staged amend that takes effect becomes the call's ring limit (R126), whatever the call's
state. That this holds for a call in IDENTIFYING too, whose release request still waits, and whose rules (R122, R130)
take from the RSC's reports the cycles rung alone, is a DESIGN CHOICE (log 29). -/
def State.csqRingLimit (s : State) (c : CallNo) (n : LineId) (limit : Option Nat) : State :=
  match s.callOnLine c n, limit with
  | some _, some l => s.modCall c (fun r => { r with ringLimit := some l })
  | _, _ => s

end Sys2Proof.Machine
end

