-- ==== Sys2Proof/Machine/RingService.lean ====
section
/-! DEFINITION. Ring parts in service: the slot expiry, cycle boundaries and staged changes (chapter 3), and the
requests that the RSC takes from its FIFO (R29, R36, R38, R50, R122). -/

namespace Sys2Proof.Machine

/-! The ring claim (R44). -/

/-- The ring claim of a part with offset `k` at cycle slot `sl` (R44). -/
def State.ringCode (s : State) (sp : Spec) (k sl : Slot) : DownCode :=
  if ringOnSlot (s.cadence sp.cadence) k sl then .ring sp.bus sp.leg else .feed

/-- The ring claim of a part set for the present cycle slot (R44). -/
def State.setRingClaim (s : State) (n : LineId) (sp : Spec) (k : Slot) : State :=
  s.modDown n (fun c => { c with ring := some (s.ringCode sp k s.rsc.cycleSlot) })

/-! The slot expiry (R45). -/

/-- A start-pending part's cycle begins (R46). The line's seizure qualification is abandoned and trip qualification
starts at the next interval (R55). -/
def State.beginCycle (s : State) (p : RingPart) (k : Slot) : State :=
  let s := s.modPart p.call (fun p => { p with status := .placed k false, ringingBegun := true })
  let s := s.setRingClaim p.line p.spec k
  let s := s.modLine p.line (fun r => { r with seizureCount := 0, tripCount := 0, hold := true })
  if p.ringingBegun then s else s.csqFirstRing p.call p.line

/-- Cycles exhausted: release, pass, report (R49). -/
def State.exhaustPart (s : State) (p : RingPart) : State :=
  ((s.removePart p).pass).csqExhausted p.call p.line p.cyclesCompleted

/-- The cycle boundary report: the cycles completed, the outcome and the offset, and the spec that the part holds
after the boundary (R47, R60). -/
def State.reportBoundary (s : State) (p : RingPart) (outcome : BoundaryOutcome) : State :=
  match s.part p.call with
  | some q =>
    s.csqBoundary p.call p.line
      { completed := p.cyclesCompleted, outcome := outcome, offset := outcome.offset } q.spec
  | none => s

/-- Step 2 of R51: the staged spec takes the place of the part's spec, at its offset where it passes. The pass and the
placement report of a part placed anew have then been made, and the outcome is the boundary's. -/
def State.applySpec (s : State) (p : RingPart) (k : Slot) (sp : Spec) : State × BoundaryOutcome :=
  let s := s.mapRemove p.spec p.group k
  let s := s.modPart p.call (fun p => { p with spec := sp, staged := none })
  if s.eligible p.call sp.bus && s.placementTest sp p.group k then
    (((s.putAt p.call sp p.group k false).setRingClaim p.line sp k).pass, .continued k)
  else
    -- R52: the part is off its offset, and is moved by the search or rejoins the queue.
    let s := s.stopRinging p.line
    match s.offsetFor p.call sp p.group with
    | some k' => ((s.placeBySearch p.call p.line sp p.group k').passAfter [p.call], .moved k')
    | none => ((s.joinQueue p.call p.line).pass, .queued)

/-- A staged change applied at a boundary where the limit is not reached (R51). `p` carries the raised count. -/
def State.applyStaged (s : State) (p : RingPart) (k : Slot) (ch : StagedChange) : State :=
  let p := p.withLimit ch.limit
  let s := s.modPart p.call (fun q => q.withLimit ch.limit)
  let s := s.csqRingLimit p.call p.line ch.limit
  if p.cycleLimit ≤ p.cyclesCompleted then s.exhaustPart p
  else
    match ch.spec with
    | some sp =>
      let x := s.applySpec p k sp
      x.1.reportBoundary p x.2
    | none =>
      let s := s.modPart p.call (fun q => { q with staged := none })
      ((s.setRingClaim p.line p.spec k).pass).reportBoundary p (.continued k)

/-- A cycle boundary of a part with offset `k` (R47). -/
def State.boundary (s : State) (p : RingPart) (k : Slot) : State :=
  let p := { p with cyclesCompleted := p.cyclesCompleted + 1 }
  let s := s.modPart p.call (fun q => { q with cyclesCompleted := p.cyclesCompleted })
  if p.cycleLimit ≤ p.cyclesCompleted then s.exhaustPart p
  else
    match p.staged with
    | some ch => s.applyStaged p k ch
    | none => (s.setRingClaim p.line p.spec k).reportBoundary p (.continued k)

/-- What the expiry does to a part that has no boundary at it (R45). -/
def State.slotPart (s : State) (p : RingPart) : State :=
  match p.status with
  | .queued _ => s
  | .placed k true => if k = s.rsc.cycleSlot then s.beginCycle p k else s
  | .placed k false => if k = s.rsc.cycleSlot then s else s.setRingClaim p.line p.spec k

/-- The boundary of a part that has one at this expiry (R45, R47). -/
def State.slotBoundary (s : State) (c : CallNo) : State :=
  match s.part c with
  | some p =>
    match p.status with
    | .placed k _ => s.boundary p k
    | .queued _ => s
  | none => s

/-- The parts with a boundary at the present cycle slot, oldest first (R45). -/
def State.boundaryCalls (s : State) : List CallNo :=
  (s.rsc.parts.filter (fun p => decide (p.status = .placed s.rsc.cycleSlot false))).map (fun p => p.call)

/-- The slot timer started again and the cycle slot advanced (R43). -/
def State.advanceSlot (s : State) : State :=
  s.setRsc { s.rsc with slotTimer := 50, cycleSlot := s.rsc.cycleSlot + 1 }

/-- The work of one slot timer expiry (R45). R45 and R60 order the boundaries among themselves, oldest part first. That
every cycle beginning (with its first ring report) and every claim change of the expiry is taken before the first of
them is a DESIGN CHOICE (log 30). -/
def State.slotExpiry (s : State) : State :=
  let s := s.advanceSlot
  let parts := s.rsc.parts
  let boundaries := s.boundaryCalls
  let s := parts.foldl (fun s p => s.slotPart p) s
  boundaries.foldl (fun s c => s.slotBoundary c) s

/-! Requests taken by the RSC (R122). -/

/-- A place request (R29). A call that still holds a part is refused with no change (R20). A request of a call in
REVERT_RINGING, once taken, is followed by the stage request of alternation (R137). That a refused one pegs RING_REFUSED
(R30) before the Call Sequencer takes the refusal (R136) is a DESIGN CHOICE (log 12). -/
def State.takePlace (s : State) (c : CallNo) (n : LineId) (sp : Spec) (limit completed : Nat) : State :=
  match s.part c with
  | some _ => s
  | none =>
    if s.overCapacity sp then (s.peg .ringRefused (some n)).csqPlaceRefused c n
    else (s.createPart c n sp limit completed).stageAlternation c n sp

/-- One request taken by the RSC. -/
def State.takeRequest (s : State) : RscRequest → State
  | .place c n sp limit completed => s.takePlace c n sp limit completed
  | .stage c sp => s.stagePart c sp
  | .amend c cad limit => s.amendPart c cad limit
  | .release c => s.releasePart c

/-- The oldest request of the FIFO taken (R122). -/
def State.takeNext (s : State) : State :=
  match s.rsc.requests with
  | [] => s
  | q :: rest => (s.setRsc { s.rsc with requests := rest }).takeRequest q

/-- Requests taken until none waits, at most `fuel` of them. -/
def State.drainBy : Nat → State → State
  | 0, s => s
  | fuel + 1, s => if s.rsc.requests = [] then s else State.drainBy fuel s.takeNext

/-- Every request that waits taken, with those that taking them gives rise to (R122). A place request gives rise to
at most one more (a stage request, or the release request of a refused call), and the others to none, so twice the
length is enough (log 26). -/
def State.drain (s : State) : State := State.drainBy (2 * s.rsc.requests.length) s

end Sys2Proof.Machine
end

