-- ==== Sys2Proof/Machine/Bridge.lean ====
section
/-! DEFINITION. The test in progress: usable readings, results and the timeout (R111 to R115). -/

namespace Sys2Proof.Machine

/-- The present party of the line that holds identity class `r` (R113). -/
def State.partyOfClass (s : State) (n : LineId) (r : Nat) : Option PartyId :=
  partyIds.find? (fun p =>
    match s.party n p with
    | some e => decide (e.identityClass = some r)
    | none => false)

/-- The reading mapped against the party table (R113). -/
def State.mapReading (s : State) (n : LineId) (r : Nat) : TestResult :=
  if r = 15 then .unidentified r
  else
    match s.partyOfClass n r with
    | some p => .party p r
    | none => .unidentified r

/-- The IDENTITY notice of a result (R115). -/
def identityNotice (n : LineId) : TestResult → Notice
  | .party p r => .identity n .party (some p) (some r)
  | .unidentified r => .identity n .unidentified none (some r)
  | .timeout => .identity n .timeout none none

/-- A result delivered to one requester (R115). -/
def State.deliver (s : State) (n : LineId) (res : TestResult) : Requester → State
  | .exchange => s.notify (identityNotice n res)
  | .call c => s.csqResult c n res

/-- The pegs of a result (R115). -/
def State.pegResult (s : State) (n : LineId) : TestResult → State
  | .party _ _ => s.peg .testDone (some n)
  | .unidentified _ => (s.peg .testDone (some n)).peg .testUnidentified (some n)
  | .timeout => s.peg .testTimeout (some n)

/-- The test in progress ends with a result (R115). -/
def State.endTest (s : State) (t : Test) (res : TestResult) : State :=
  let s := s.dropTest t.line
  let s := t.requesters.foldl (fun s x => s.deliver t.line res x) s
  (s.pegResult t.line res).nextTest

/-- The intervals that a test may take (R114). -/
def testIntervals : Nat := 60

/-- The first test interval whose reading is usable (R112). -/
def settledInterval : Nat := 9

/-- The reading of the byte is usable at test interval `m` (R112). -/
def readingUsable (m : Nat) (b : Byte) (good : Bool) : Bool :=
  decide (settledInterval ≤ m) && good && upReadingValid b

/-- The test in progress on line `n` takes the line's byte (R111, R112, R114). A test that began in this interval
does not. -/
def State.testByte (s : State) (n : LineId) (b : Byte) (good : Bool) : State :=
  match s.testOn n with
  | none => s
  | some t =>
    if t.fresh then s
    else
      let m := t.interval + 1
      if readingUsable m b good then s.endTest t (s.mapReading n (upReading b))
      else if testIntervals ≤ m then s.endTest t .timeout
      else s.setItu { s.itu with inProgress := some { t with interval := m } }

/-- The test in progress on line `n` ends TIMEOUT at this byte (R114). -/
def State.testTimesOut (s : State) (n : LineId) (b : Byte) (good : Bool) : Bool :=
  match s.testOn n with
  | none => false
  | some t =>
    !t.fresh && !readingUsable (t.interval + 1) b good && decide (testIntervals ≤ t.interval + 1)

end Sys2Proof.Machine
end

