-- ==== Sys2Proof/Machine/Digits.lean ====
section
/-! DEFINITION. The pulse receiver, the revert code match, and the replay generator (chapter 5). -/

namespace Sys2Proof.Machine

/-! The pulse receiver (R85 to R89), as a function of the digit record alone. -/

/-- What the receiver finds in one interval. -/
inductive Received where
  | nothing
  | firstBreak
  | pulse
  | invalid
  | discardEnd
  | digit (d : Nat)
  deriving DecidableEq, Repr

/-- The make at which a digit or a discard ends (R85). -/
def endMake : Nat := 40

/-- An invalid element found at a loop state (R89). -/
def DigitRec.discarding (d : DigitRec) (loop : Loop) : DigitRec :=
  { d with phase := .discarding, pulses := 0, element := if loop = .closed then 1 else 0 }

/-- A break judged by its length at the closed interval that ends it (R86). -/
def DigitRec.judgeBreak (d : DigitRec) : DigitRec × Received :=
  if 6 ≤ d.element ∧ d.element ≤ 16 ∧ d.pulses < 10 then
    ({ d with phase := .make, element := 1, pulses := d.pulses + 1 }, .pulse)
  else (d.discarding .closed, .invalid)

/-- A make judged by its length at the open interval that ends it (R87). -/
def DigitRec.judgeMake (d : DigitRec) : DigitRec × Received :=
  if 4 ≤ d.element ∧ d.element ≤ 12 then ({ d with phase := .brk, element := 1 }, .nothing)
  else (d.discarding .opened, .invalid)

/-- The digit that a pulse count gives (R88). -/
def digitOfPulses (n : Nat) : Nat := if n = 10 then 0 else n

/-- The receiver takes the loop field of an interval (R85). -/
def DigitRec.receive (d : DigitRec) (loop : Loop) : DigitRec × Received :=
  match d.phase, loop with
  | .waiting, .closed => (d, .nothing)
  | .waiting, .opened => ({ d with phase := .brk, element := 1, pulses := 0 }, .firstBreak)
  | .brk, .closed => d.judgeBreak
  | .brk, .opened => ({ d with element := d.element + 1 }, .nothing)
  | .make, .closed =>
    if endMake ≤ d.element + 1 then
      ({ d with phase := .waiting, element := 0, pulses := 0 }, .digit (digitOfPulses d.pulses))
    else ({ d with element := d.element + 1 }, .nothing)
  | .make, .opened => d.judgeMake
  | .discarding, .closed =>
    if endMake ≤ d.element + 1 then ({ d with phase := .waiting, element := 0 }, .discardEnd)
    else ({ d with element := d.element + 1 }, .nothing)
  | .discarding, .opened => ({ d with element := 0 }, .nothing)

/-! The generator (R98 to R104). -/

/-- The REPLAY claim's loop set. -/
def State.setReplay (s : State) (n : LineId) (l : Loop) : State := s.modUp n (fun c => { c with replay := some l })

/-- The generator takes the head digit of the buffer, or enters STALL on an empty buffer (R99, R100). That the timer, which
is not running in STALL (R102), holds 0 there is a DESIGN CHOICE (log 39). -/
def State.generatorTakes (s : State) (n : LineId) : State :=
  match (s.digits n).buffer with
  | d :: rest =>
    (s.modDigits n (fun r =>
      { r with
        buffer := rest, sending := some { digit := d, pulsesLeft := if d = 0 then 10 else d },
        generator := .brk, generatorTimer := 12 })).setReplay n .opened
  | [] =>
    (s.modDigits n (fun r => { r with sending := none, generator := .stall, generatorTimer := 0 })).setReplay
      n .closed

/-- The quiet count at which a replay may end (R104). -/
def quietEnd : Nat := 400

/-- The replay ends when the buffer is empty, the generator stalls and the quiet count is 400 (R104). -/
def State.endReplayIfDone (s : State) (n : LineId) : State :=
  let d := s.digits n
  if (s.line n).state = .replaying ∧ d.buffer = [] ∧ d.generator = .stall ∧ quietEnd ≤ d.quiet then
    s.enterThrough n
  else s

/-- The generator timer runs and has run out (R100, R102). -/
def DigitRec.generatorDue (d : DigitRec) : Bool :=
  match d.generator with
  | .toneWait | .brk | .make | .interDigit => decide (d.generatorTimer = 0)
  | .off | .stall => false

/-- The end of a generated break (R100). -/
def State.endBreak (s : State) (n : LineId) : State :=
  match (s.digits n).sending with
  | none => s
  | some g =>
    let left := g.pulsesLeft - 1
    let s := (s.modDigits n (fun r => { r with sending := some { g with pulsesLeft := left } })).setReplay n .closed
    if left = 0 then
      (s.modDigits n (fun r => { r with generator := .interDigit, generatorTimer := 80 })).peg
        .digitReplayed (some n)
    else s.modDigits n (fun r => { r with generator := .make, generatorTimer := 8 })

/-- The expiry of the generator timer (R99, R100, R104). -/
def State.generatorExpiry (s : State) (n : LineId) : State :=
  match (s.digits n).generator with
  | .toneWait => (s.generatorTakes n).endReplayIfDone n
  | .brk => s.endBreak n
  | .make =>
    (s.modDigits n (fun r => { r with generator := .brk, generatorTimer := 12 })).setReplay n .opened
  | .interDigit => (s.generatorTakes n).endReplayIfDone n
  | .off | .stall => s

/-! Collection (R91 to R97). -/

/-- The outcome of a comparison with the revert codes (R93). -/
inductive Comparison where
  | isCode (p : PartyId)
  | opening
  | mismatch
  deriving DecidableEq, Repr

/-- The revert code of a party, empty when it has none (R4). -/
def State.codeOf (s : State) (n : LineId) (p : PartyId) : List Nat :=
  match s.party n p with
  | some e => e.code
  | none => []

/-- The whole buffer compared with the revert codes of the line's present parties (R93). -/
def State.compareCodes (s : State) (n : LineId) (buffer : List Nat) : Comparison :=
  match partyIds.find? (fun p => decide (s.codeOf n p ≠ [] ∧ s.codeOf n p = buffer)) with
  | some p => .isCode p
  | none =>
    if partyIds.any (fun p =>
        decide (buffer.length < (s.codeOf n p).length) && (buffer.isPrefixOf (s.codeOf n p))) then .opening
    else .mismatch

/-- A mismatch or timeout of collection, by the link state as it stands (R96). -/
def State.mismatch (s : State) (n : LineId) : State :=
  if s.linked then s.enterReplaying n else s.enterLockout n

/-- A digit that has joined the buffer of a line in COLLECTING (R93). -/
def State.matchDigit (s : State) (n : LineId) : State :=
  match s.compareCodes n (s.digits n).buffer with
  | .isCode p => s.revertMatch n p
  | .opening => s.modDigits n (fun d => { d with collection := some { kind := .interDigit, left := 1000 } })
  | .mismatch => s.mismatch n

/-- The most digits the buffer holds (R90). -/
def bufferCapacity : Nat := 12

/-- A digit ended by the receiver joins the buffer, or is the 13th (R90, R93, R101). -/
def State.digitJoins (s : State) (n : LineId) (d : Nat) : State :=
  let r := s.digits n
  if bufferCapacity ≤ r.buffer.length then s.enterLockout n
  else
    let s := s.modDigits n (fun r => { r with buffer := r.buffer ++ [d] })
    if (s.line n).state = .collecting then s.matchDigit n
    else if r.generator = .stall then s.generatorTakes n
    else s

/-- The collection restarts after an invalid element (R94). -/
def State.restartCollection (s : State) (n : LineId) : State :=
  (s.modDigits n (fun d =>
    { d with buffer := [], collection := some { kind := .firstDigit, left := 2000 } })).modDown n
    (fun c => { c with collecting := some .dialTone })

/-- What the receiver's finding does on the line (R90, R92, R94, R103). -/
def State.takeReceived (s : State) (n : LineId) : Received → State
  | .firstBreak => s.modDigits n (fun d => { d with collection := none })
  | .invalid => if (s.line n).state = .collecting then s.restartCollection n else s
  | .digit d => s.digitJoins n d
  | .nothing | .pulse | .discardEnd => s

/-- The receiver takes an interval's loop field on line `n`. -/
def State.receiveLoop (s : State) (n : LineId) (loop : Loop) : State :=
  let x := (s.digits n).receive loop
  (s.setDigits n x.1).takeReceived n x.2

/-- Dial tone is removed at the first open interval (R91). -/
def State.removeDialTone (s : State) (n : LineId) (loop : Loop) : State :=
  if loop = .opened then s.modDown n (fun c => { c with collecting := some .feed }) else s

/-- The quiet count (R104). -/
def quietAfter (q : Nat) (loop : Loop) : Nat := if loop = .closed then min quietEnd (q + 1) else 0

/-- The wait for dial tone ends when the E-port byte in force carries DIAL_TONE (R99). -/
def State.hearDialTone (s : State) (n : LineId) : State :=
  if (s.digits n).generator = .toneWait ∧ downCode (s.eByte n) = some .dialTone then s.generatorTakes n else s

/-- A line in COLLECTING takes an interval's loop field (R91). -/
def State.collectByte (s : State) (n : LineId) (loop : Loop) : State :=
  (s.removeDialTone n loop).receiveLoop n loop

/-- A line in REPLAYING takes an interval's loop field (R99, R101, R104). That the receiver takes it before the generator
looks for DIAL_TONE is a DESIGN CHOICE (log 34). -/
def State.replayByteEvent (s : State) (n : LineId) (loop : Loop) : State :=
  let s := s.modDigits n (fun d => { d with quiet := quietAfter d.quiet loop })
  let s := s.receiveLoop n loop
  if (s.line n).state = .replaying then (s.hearDialTone n).endReplayIfDone n else s

/-- The Digit Unit takes the loop field that the LSV hands it, by the line state before the byte (R70). -/
def State.digitByte (s : State) (n : LineId) (before : LineState) (loop : Loop) : State :=
  match before with
  | .collecting => s.collectByte n loop
  | .replaying => s.replayByteEvent n loop
  | .idle | .qualifying | .through | .call | .lockout | .blocked | .fault => s

/-- The collection timer has run out (R92). -/
def DigitRec.collectionDue (d : DigitRec) : Bool :=
  match d.collection with
  | some t => decide (t.left = 0)
  | none => false

/-- The expiry of the collection timer, on a line in COLLECTING: a mismatch with the buffer as it stands (R92). -/
def State.collectionExpiry (s : State) (n : LineId) : State :=
  if (s.line n).state = .collecting ∧ (s.digits n).collectionDue = true then s.mismatch n else s

end Sys2Proof.Machine
end

