-- ==== Sys2Proof/Machine/Lines.lean ====
section
/-! DEFINITION. The line's byte event (R64 to R74), the events it holds, lockout, shelf loss, and the meanings of the
line and digit commands. -/

namespace Sys2Proof.Machine

/-! The LSV's judgement of a byte, as a function of the line record. -/

/-- What the LSV finds in a byte. -/
inductive Verdict where
  | nothing
  | faultEntry (reason : FaultReason)
  | faultCleared
  | seizure
  | callSeizure
  | onHook
  | trip
  deriving DecidableEq, Repr

/-- A ringing part on the line: its claim carries RING, and whether its trip has been delivered (R54). -/
structure RingView where
  ringOn : Bool
  delivered : Bool
  deriving DecidableEq, Repr

/-- Intervals of a fault before FAULT (R72). -/
def faultQualify : Nat := 20

/-- Fault-free intervals before recovery (R74). -/
def clearQualify : Nat := 400

/-- Trip qualification (R54). It starts at the interval after the cycle begins (R55). -/
def LineRec.judgeTrip (r : LineRec) (t : Timing) (v : RingView) (b : Byte) : LineRec × Verdict :=
  if v.delivered || r.hold then (r, .nothing)
  else if (if v.ringOn then upTrip b else decide (upLoop b = .closed)) then
    if t.tripQualify ≤ r.tripCount + 1 then ({ r with tripCount := 0 }, .trip)
    else ({ r with tripCount := r.tripCount + 1 }, .nothing)
  else ({ r with tripCount := 0 }, .nothing)

/-- On-hook qualification (R69). -/
def LineRec.judgeOnHook (r : LineRec) (t : Timing) (b : Byte) : LineRec × Verdict :=
  if upLoop b = .opened then
    if t.onHookQualify ≤ r.onHookCount + 1 then ({ r with onHookCount := r.onHookCount + 1 }, .onHook)
    else ({ r with onHookCount := r.onHookCount + 1 }, .nothing)
  else ({ r with onHookCount := 0 }, .nothing)

/-- Seizure qualification in CALL (R68). -/
def LineRec.judgeCallSeizure (r : LineRec) (t : Timing) (b : Byte) : LineRec × Verdict :=
  if r.hold then (r, .nothing)
  else if upLoop b = .closed then
    if t.seizureQualify ≤ r.seizureCount + 1 then ({ r with seizureCount := 0 }, .callSeizure)
    else ({ r with seizureCount := r.seizureCount + 1 }, .nothing)
  else ({ r with seizureCount := 0 }, .nothing)

/-- The first closed interval of a seizure, in IDLE (R66). -/
def LineRec.judgeIdle (r : LineRec) (b : Byte) : LineRec × Verdict :=
  if r.hold then (r, .nothing)
  else if upLoop b = .closed then ({ r with state := .qualifying, seizureCount := 1 }, .nothing)
  else ({ r with seizureCount := 0 }, .nothing)

/-- A further interval in QUALIFYING: the seizure, or a hit (R66). -/
def LineRec.judgeQualifying (r : LineRec) (t : Timing) (b : Byte) : LineRec × Verdict :=
  if r.hold then (r, .nothing)
  else if upLoop b = .closed then
    if t.seizureQualify ≤ r.seizureCount + 1 then ({ r with seizureCount := r.seizureCount + 1 }, .seizure)
    else ({ r with seizureCount := r.seizureCount + 1 }, .nothing)
  else ({ r with state := .idle, seizureCount := 0 }, .nothing)

/-- The qualification that the line's state and supervised loop call for (R65). -/
def LineRec.qualify (r : LineRec) (t : Timing) (v : Option RingView) (b : Byte) : LineRec × Verdict :=
  match r.state, r.loop, v with
  | .idle, .opened, _ => r.judgeIdle b
  | .qualifying, .opened, _ => r.judgeQualifying t b
  | .call, .opened, none => r.judgeCallSeizure t b
  | .call, .opened, some v => r.judgeTrip t v b
  | .call, .closed, _ => r.judgeOnHook t b
  | .collecting, .closed, _ => r.judgeOnHook t b
  | .replaying, .closed, _ => r.judgeOnHook t b
  | .through, .closed, _ => r.judgeOnHook t b
  | .lockout, .closed, _ => r.judgeOnHook t b
  | .blocked, _, some v => r.judgeTrip t v b
  | .fault, _, some v => r.judgeTrip t v b
  | _, _, _ => (r, .nothing)

/-- The byte of one interval judged: the fault field first (R64, R72, R74), then the qualification of R65. -/
def LineRec.judge (r : LineRec) (t : Timing) (v : Option RingView) (b : Byte) (good : Bool) :
    LineRec × Verdict :=
  if r.state = .fault then
    if upFault b = none ∧ good = true then
      if clearQualify ≤ r.clearCount + 1 then ({ r with clearCount := r.clearCount + 1 }, .faultCleared)
      else ({ r with clearCount := r.clearCount + 1 }).qualify t v b
    else ({ r with clearCount := 0 }).qualify t v b
  else
    match upFault b with
    | some reason =>
      if faultQualify ≤ r.faultCount + 1 then ({ r with faultCount := r.faultCount + 1 }, .faultEntry reason)
      else ({ r with faultCount := r.faultCount + 1 }).qualify t v b
    | none => ({ r with faultCount := 0 }).qualify t v b

/-- The ringing part on a line. -/
def State.ringingPart (s : State) (n : LineId) : Option RingPart :=
  s.rsc.parts.find? (fun p => decide (p.line = n) && p.isRinging)

/-- A ring claim that carries RING (R44). -/
def isRingCode : Option DownCode → Bool
  | some (.ring _ _) => true
  | _ => false

/-- The ringing part as trip qualification sees it: by its own claim (R54). -/
def State.ringView (s : State) (n : LineId) : Option RingView :=
  (s.ringingPart n).map (fun p =>
    { ringOn := isRingCode (s.down n).ring, delivered := p.tripDelivered })

/-- The judgement of the line's byte in force (R64). -/
def State.judgeLine (s : State) (n : LineId) : LineRec × Verdict :=
  (s.line n).judge s.timing (s.ringView n) (s.lByte n) s.hwi.lPort.good

/-! What the LSV does on its finding. -/

/-- Some present party of the line holds a revert code (R67). -/
def State.hasCodes (s : State) (n : LineId) : Bool := partyIds.any (fun p => decide (s.codeOf n p ≠ []))

/-- A seizure has qualified on a line in QUALIFYING (R67). -/
def State.seizureQualified (s : State) (n : LineId) : State :=
  match s.lkm.state with
  | .acquiring | .linked | .warning =>
    match (s.attr n).handling with
    | .exchange => s.enterThrough n
    | .isLocal => if s.hasCodes n then s.enterCollecting n else s.enterReplaying n
  | .isolated => if s.hasCodes n then s.enterCollecting n else s.enterLockout n
  | .released => s.enterThrough n

/-- A seizure has qualified on a line in CALL (R68). -/
def State.callSeized (s : State) (n : LineId) : State :=
  let s := s.modLine n (fun r => r.withLoop .closed)
  match s.callOn n with
  | some c => s.csqSeizure c n
  | none => s

/-- The ABORTED result delivered to one requester at an on-hook. A call takes it together with the on-hook, as one
pair (R116, R131, R134, R139). -/
def State.deliverAborted (s : State) (n : LineId) : Requester → State
  | .call c => s.csqOnHook c n
  | .exchange => s.notify (.identity n .aborted none none)

/-- The line's request removed, waiting or in progress, with the TEST claim of one in progress (R116). -/
def State.dropRequest (s : State) (n : LineId) : State :=
  match s.testOn n with
  | some _ => s.dropTest n
  | none => s.setItu { s.itu with queue := s.itu.queue.filter (fun q => decide (q.line ≠ n)) }

/-- The line's request aborted at an on-hook, in the steps of R115: its TEST claim withdrawn, ABORTED delivered to each
requester in the order of its list, TEST_ABORTED pegged, and the oldest waiting request begun if it was in progress
(R116). A line without a request has nothing to abort. -/
def State.abortAtOnHook (s : State) (n : LineId) : State :=
  let rs := s.requestersOn n
  let aborted := (rs.foldl (fun s x => s.deliverAborted n x) (s.dropRequest n)).peg .testAborted (some n)
  if (s.testOn n).isSome then aborted.nextTest
  else if s.itu.queue.any (fun q => decide (q.line = n)) then aborted
  else s

/-- The call of a line in CALL that takes an on-hook without a result: it is no requester of the line's request. -/
def State.callBesideTest (s : State) (n : LineId) : Option CallNo :=
  (s.callOn n).filter (fun c => !(s.requestersOn n).contains (.call c))

/-- An on-hook has qualified (R69): the line state, the abort of its request (R116), and, on a line in CALL whose call
is no requester of it, the on-hook's delivery to the CSQ, which comes after the abort (DESIGN CHOICE, log 12). -/
def State.onHookQualified (s : State) (n : LineId) : State :=
  let inCall := (s.line n).state = .call
  let call := if inCall then s.callBesideTest n else none
  let s := s.modLine n (fun r => r.withLoop .opened)
  let s := if inCall then s else s.enterIdle n
  let s := s.abortAtOnHook n
  match call with
  | some c => s.csqOnHook c n
  | none => s

/-- A trip has qualified: delivered to the CSQ, and pegged (R54). -/
def State.tripQualified (s : State) (n : LineId) : State :=
  match s.ringingPart n with
  | none => s
  | some p =>
    let s := s.modPart p.call (fun p => { p with tripDelivered := true })
    let s := s.modLine n (fun r => r.withLoop .closed)
    (s.csqTrip p.call n).peg .trip (some n)

/-- The fault has cleared: the state entered, and its notice (R74). -/
def State.faultRecovered (s : State) (n : LineId) (loop : Loop) : State :=
  let recorded := (s.line n).blockRecorded
  let entered := if recorded then LineState.blocked else if loop = .opened then .idle else .lockout
  let s := s.modLine n (fun r => { r with clearCount := 0, blockRecorded := false })
  let s := s.notify (.lineRecovered n entered)
  if recorded then s.enterBlocked n else if loop = .opened then s.enterIdle n else s.enterLockout n

/-- What the LSV does on its finding in a byte. -/
def State.takeVerdict (s : State) (n : LineId) (b : Byte) : Verdict → State
  | .nothing => s
  | .faultEntry reason => s.enterFault n reason
  | .faultCleared => s.faultRecovered n (upLoop b)
  | .seizure => s.seizureQualified n
  | .callSeizure => s.callSeized n
  | .onHook => s.onHookQualified n
  | .trip => s.tripQualified n

/-- The digit part of a byte event: only when the LSV's judgement of the byte took nothing (R64, R70). -/
def State.digitStep (s : State) (n : LineId) (before : LineState) (v : Verdict) (loop : Loop) : State :=
  if v = .nothing then s.digitByte n before loop else s

/-- The event of one line's byte (R64): the LSV, then the Digit Unit (R70), then the test in progress (R112). -/
def State.lineByteEvent (s : State) (n : LineId) : State :=
  let b := s.lByte n
  let good := s.hwi.lPort.good
  let before := (s.line n).state
  let x := s.judgeLine n
  let s := (s.setLine n x.1).takeVerdict n b x.2
  let s := s.digitStep n before x.2 (upLoop b)
  (s.testByte n b good).byteTaken n

/-! The events that a line's byte holds. Each is the byte event of the line in which the thing named comes about; a
command of one that does not come about in the line's byte changes nothing (DESIGN CHOICE, log 3). -/

/-- The LSV's finding in the line's byte in force. -/
def State.verdict (s : State) (n : LineId) : Verdict := (s.judgeLine n).2

/-- The receiver's finding in the line's byte in force: on a line in COLLECTING or REPLAYING that the LSV's
judgement leaves there (R70). -/
def State.received (s : State) (n : LineId) : Received :=
  if ((s.line n).state = .collecting ∨ (s.line n).state = .replaying) ∧ s.verdict n = .nothing then
    ((s.digits n).receive (upLoop (s.lByte n))).2
  else .nothing

def Verdict.isFaultEntry : Verdict → Bool
  | .faultEntry _ => true
  | _ => false

def Received.isDigit : Received → Bool
  | .digit _ => true
  | _ => false

/-- The byte event, when the condition holds. -/
def State.byteEventIf (s : State) (cond : Bool) (n : LineId) : State := if cond then s.lineByteEvent n else s

/-- The replay of the line ends in its byte event (R104). -/
def State.replayEndsInByte (s : State) (n : LineId) : Bool :=
  decide ((s.line n).state = .replaying ∧ ((s.lineByteEvent n).line n).state = .through)

/-- The generator's expiry on a line in REPLAYING whose generator timer has run out (R100). -/
def State.generatorDue (s : State) (n : LineId) : Bool :=
  decide ((s.line n).state = .replaying) && (s.digits n).generatorDue

/-- The replay of the line ends in the expiry of its generator timer (R104). -/
def State.replayEndsInExpiry (s : State) (n : LineId) : Bool :=
  s.generatorDue n && decide (((s.generatorExpiry n).line n).state = .through)

/-- The end of a replay, in the event that brings it about (R104). -/
def State.replayEndEvent (s : State) (n : LineId) : State :=
  if s.replayEndsInByte n then s.lineByteEvent n
  else if s.replayEndsInExpiry n then s.generatorExpiry n
  else s

/-- The line's test in progress ends TIMEOUT in its byte event (R114). -/
def State.testTimeoutEvent (s : State) : State :=
  match s.itu.inProgress with
  | none => s
  | some t =>
    let aborts := (s.verdict t.line).isFaultEntry || decide (s.verdict t.line = .onHook)
    if !aborts && s.testTimesOut t.line (s.lByte t.line) s.hwi.lPort.good then s.lineByteEvent t.line else s

/-! Lockout and shelf loss. -/

/-- The lockout timer has run out while the phase is TONE (R77). -/
def LineRec.lockoutDue (r : LineRec) : Bool :=
  decide (r.state = .lockout ∧ r.lockoutPhase = some .tone ∧ r.lockoutTimer = some 0)

/-- The expiry of the lockout timer (R77). -/
def State.lockoutExpiry (s : State) (n : LineId) : State :=
  if (s.line n).lockoutDue then
    (s.modLine n (fun r => { r with lockoutPhase := some .feedOff })).modDown n
      (fun c => { c with lockout := some .feedOff })
  else s

/-- Shelf loss, once the HWI has reported it: every line not in FAULT, in order L0 to L15 (R75). -/
def State.takeShelfLoss (s : State) : State :=
  if s.hwi.shelfReported then
    let s := s.setHwi { s.hwi with shelfReported := false }
    lineIds.foldl (fun s n => if (s.line n).state = .fault then s else s.enterFault n .shelf) s
  else s

/-! Meanings. -/

/-- LINE_BYTE (R64). -/
def execLineByte (n : LineId) (s : State) : Host.Outcome State Fault Refusal :=
  .next (s.lineByteEvent n)

/-- SEIZURE_QUALIFY (R67). -/
def execSeizureQualify (n : LineId) (s : State) : Host.Outcome State Fault Refusal :=
  .next (s.byteEventIf (decide (s.verdict n = .seizure)) n)

/-- CALL_SEIZURE (R68). -/
def execCallSeizure (n : LineId) (s : State) : Host.Outcome State Fault Refusal :=
  .next (s.byteEventIf (decide (s.verdict n = .callSeizure)) n)

/-- ON_HOOK (R69). -/
def execOnHook (n : LineId) (s : State) : Host.Outcome State Fault Refusal :=
  .next (s.byteEventIf (decide (s.verdict n = .onHook)) n)

/-- TRIP (R54). -/
def execTrip (n : LineId) (s : State) : Host.Outcome State Fault Refusal :=
  .next (s.byteEventIf (decide (s.verdict n = .trip)) n)

/-- FAULT_ENTRY (R73). -/
def execFaultEntry (n : LineId) (s : State) : Host.Outcome State Fault Refusal :=
  .next (s.byteEventIf (s.verdict n).isFaultEntry n)

/-- FAULT_CLEARED (R74). -/
def execFaultCleared (n : LineId) (s : State) : Host.Outcome State Fault Refusal :=
  .next (s.byteEventIf (decide (s.verdict n = .faultCleared)) n)

/-- LOCKOUT_TIMER_EXPIRY (R77). -/
def execLockoutTimerExpiry (n : LineId) (s : State) : Host.Outcome State Fault Refusal :=
  .next (s.lockoutExpiry n)

/-- SHELF_LOSS (R75). -/
def execShelfLoss (s : State) : Host.Outcome State Fault Refusal := .next s.takeShelfLoss

/-- DISCARD_END (R85). -/
def execDiscardEnd (n : LineId) (s : State) : Host.Outcome State Fault Refusal :=
  .next (s.byteEventIf (decide (s.received n = .discardEnd)) n)

/-- DIGIT_END (R88). -/
def execDigitEnd (n : LineId) (s : State) : Host.Outcome State Fault Refusal :=
  .next (s.byteEventIf (s.received n).isDigit n)

/-- COLLECTION_TIMEOUT (R92). -/
def execCollectionTimeout (n : LineId) (s : State) : Host.Outcome State Fault Refusal :=
  .next (s.collectionExpiry n)

/-- GENERATOR_TIMER_EXPIRY (R100). -/
def execGeneratorTimerExpiry (n : LineId) (s : State) : Host.Outcome State Fault Refusal :=
  .next (if s.generatorDue n then s.generatorExpiry n else s)

/-- REPLAY_END (R104). -/
def execReplayEnd (n : LineId) (s : State) : Host.Outcome State Fault Refusal :=
  .next (s.replayEndEvent n)

/-- TEST_TIMEOUT (R114). -/
def execTestTimeout (s : State) : Host.Outcome State Fault Refusal := .next s.testTimeoutEvent

end Sys2Proof.Machine
end

