-- ==== Sys2Proof/Machine/Link.lean ====
section
/-! DEFINITION. The Link Monitor: its counts, the changes of link state, and what the entries hand to the other
blocks (chapter 10). -/

namespace Sys2Proof.Machine

/-- The bad count stops at 12000 (R181). -/
def badCountMax : Nat := 12000

/-- The good intervals that restore the link (R187). -/
def recoveryIntervals : Nat := 200

/-- The link is ISOLATED or RELEASED. -/
def linkLost (l : LinkState) : Bool := !linkedService l

/-- The counts after an interval (R181). -/
def Lkm.counted (k : Lkm) (good : Bool) : Lkm :=
  if good then
    { k with
      badCount := 0, lastRun := if k.badCount = 0 then k.lastRun else k.badCount,
      recovery := if linkLost k.state then min recoveryIntervals (k.recovery + 1) else k.recovery }
  else { k with badCount := min badCountMax (k.badCount + 1), recovery := 0 }

/-- The change of link state that an interval calls for (R182, R183, R187). -/
inductive LinkChange where
  | nothing
  | acquired
  | cleared
  | warning
  | lost
  | restored
  deriving DecidableEq, Repr

/-- The comparison of the updated counts with the settings (R182, R183, R187). -/
def linkChange (t : Timing) (k : Lkm) (good : Bool) : LinkChange :=
  match k.state, good with
  | .acquiring, true => .acquired
  | .warning, true => .cleared
  | .linked, true => .nothing
  | .isolated, true | .released, true => if k.recovery = recoveryIntervals then .restored else .nothing
  | .isolated, false | .released, false => .nothing
  | .acquiring, false | .linked, false =>
    if t.longTimeout = some k.badCount then .lost
    else if t.shortTimeout = some k.badCount then .warning
    else .nothing
  | .warning, false => if t.longTimeout = some k.badCount then .lost else .nothing

def State.setLkm (s : State) (k : Lkm) : State := { s with lkm := k }

/-- The link state set. -/
def State.setLink (s : State) (l : LinkState) : State := s.setLkm { s.lkm with state := l }

/-! Entry into ISOLATED (R184). -/

/-- One line at entry into ISOLATED (R82). -/
def State.isolateLine (s : State) (n : LineId) : State :=
  match (s.line n).state with
  | .replaying => s.enterLockout n
  | .through =>
    match s.callOn n with
    | none => s.enterLockout n
    | some _ => s.enterCall n .xr
  | .idle | .qualifying | .collecting | .call | .lockout | .blocked | .fault => s

def State.enterIsolated (s : State) : State :=
  let left := s.lkm.state
  let run := s.lkm.badCount
  let s := (s.setLkm { s.lkm with state := .isolated, recovery := 0 }).notify (.link .isolated left run)
  lineIds.foldl (fun s n => s.isolateLine n) s

/-! Entry into RELEASED (R186). -/

/-- One aborted request: the exchange's notice and the peg (R116). -/
def State.abortedAtRelease (s : State) (n : LineId) (rs : List Requester) : State :=
  (s.notifyAborted n rs).peg .testAborted (some n)

/-- Every test request aborted, the one in progress first, and none begins (R116, R186). -/
def State.abortAllTests (s : State) : State :=
  let queue := s.itu.queue
  let s :=
    match s.itu.inProgress with
    | some t => (s.dropTest t.line).abortedAtRelease t.line t.requesters
    | none => s
  let s := s.setItu { queue := [], inProgress := none }
  queue.foldl (fun s q => s.abortedAtRelease q.line q.requesters) s

/-- Every ring part released at once, without a pass and without reports (R39). The requests that still wait in the RSC's
FIFO stand, and are taken after the entry in the order handed: a DESIGN CHOICE where R39, R143 and R186 are silent
(log 32). -/
def State.releaseAllParts (s : State) : State :=
  let s := s.rsc.parts.foldl (fun s p => if p.isRinging then s.stopRinging p.line else s) s
  s.setRsc { s.rsc with
    parts := [], busLoad := Rsc.initial.busLoad, occupancy := Rsc.initial.occupancy }

/-- Every call ended LINK_LOST, in ascending order of call number (R143, R186). -/
def State.endAllCalls (s : State) : State :=
  callNos.foldl (fun s c => s.endCall c .linkLost .nowhere none true) s

/-- One line at entry into RELEASED (R82, R186). -/
def State.releaseLine (s : State) (n : LineId) : State :=
  match (s.line n).state with
  | .collecting | .replaying | .lockout | .call =>
    if (s.line n).loop = .closed then s.enterThrough n else s.enterIdle n
  | .blocked => s.enterIdle n
  | .idle | .qualifying | .through | .fault => s

def State.enterReleased (s : State) : State :=
  let left := s.lkm.state
  let run := s.lkm.badCount
  let s := (s.setLkm { s.lkm with state := .released, recovery := 0 }).notify (.link .released left run)
  let s := s.abortAllTests
  let s := s.releaseAllParts
  let s := s.endAllCalls
  lineIds.foldl (fun s n => s.releaseLine n) s

/-! The link event (R181). -/

/-- A change of link state taken (R182, R183, R187). -/
def State.takeLinkChange (s : State) : LinkChange → State
  | .nothing => s
  | .acquired => s.setLink .linked
  | .cleared => (s.setLink .linked).notify (.link .linked s.lkm.state s.lkm.lastRun)
  | .warning => (s.setLink .warning).notify (.link .warning s.lkm.state s.lkm.badCount)
  | .lost =>
    match s.timing.longAction with
    | .isolate => s.enterIsolated
    | .release => s.enterReleased
  | .restored =>
    (s.setLkm { s.lkm with state := .linked, recovery := 0 }).notify
      (.link .restored s.lkm.state s.lkm.lastRun)

/-- The report of an E-port interval taken by the LKM (R181). -/
def State.lkmInterval (s : State) (good : Bool) : State :=
  let k := s.lkm.counted good
  (s.setLkm k).takeLinkChange (linkChange s.timing k good)

end Sys2Proof.Machine
end

