-- ==== Sys2Proof/Machine/Reset.lean ====
section
/-! DEFINITION. The two resets: power-on (R14) and soft (R178). -/

namespace Sys2Proof.Machine

/-- What a soft reset leaves of a receive port: its alignment (R150) and the marks of the interval under way
(R160; DEDUCED, log 11). -/
def RxPort.softReset (p : RxPort) : RxPort :=
  { RxPort.initial with
    alignment := p.alignment, wrongSync := p.wrongSync, validTaken := p.validTaken, frameSeen := p.frameSeen }

/-- R160: the frames under way are sent whole. -/
def Hwi.softReset (h : Hwi) : Hwi :=
  { Hwi.initial with
    ePort := h.ePort.softReset, lPort := h.lPort.softReset, eSent := h.eSent, lSent := h.lSent }

/-- The soft reset (R178): every block takes its soft-reset values; the tables, the timing record and the part
address stand. -/
def State.softReset (s : State) : State :=
  { State.powerOn s.pins with
    pending := s.pending, ptb := s.ptb, hwi := s.hwi.softReset, mgp := Mgp.initial s.mgp.address }

/-- POWER_ON_RESET (R14, R165). The queue of waiting commands is the model's own and stands. -/
def execPowerOnReset (pins : BitVec 5) (s : State) : Host.Outcome State Fault Refusal :=
  .next { State.powerOn pins with pending := s.pending }

end Sys2Proof.Machine
end

