-- ==== Sys2Proof/Machine/Tables.lean ====
section
/-! DEFINITION. The table requests: TABLE WRITE of the six tables, TABLE READ and TABLE CHECK (chapter 1). Each
handler answers the state after the request and what its reply carries. -/

namespace Sys2Proof.Machine

/-! TABLE WRITE: reading the proposed record. The payload here is what follows the selector (R15). -/

/-- A line attribute record from its fields (R3 check 2, R16). -/
def lineAttrOf (handling group cycles backRing identify : Nat) : Option LineAttr :=
  match groupOf group, flagOf handling, flagOf backRing, flagOf identify with
  | some g, some h, some b, some i =>
    if 1 ≤ cycles ∧ cycles ≤ 31 then
      some { handling := if h then .isLocal else .exchange, group := g, defaultCycles := cycles,
             backRing := b, answerIdentifyDefault := i }
    else none
  | _, _, _, _ => none

/-- A revert code from its length and its four digit positions: within the length each is 0-9, beyond it 0
(R5 check 2). -/
def revertCodeOf (len : Nat) (digits : List Nat) : Option (List Nat) :=
  if (len = 0 ∨ len = 2 ∨ len = 3 ∨ len = 4) ∧ (digits.take len).all (fun d => decide (d ≤ 9)) = true ∧
      (digits.drop len).all (fun d => decide (d = 0)) = true then some (digits.take len)
  else none

/-- A party spec from its fields (R5 check 2). -/
def specFrom (bus leg cadence bell : Nat) : Option Spec :=
  match busOf bus, legOfCode leg, cadenceOf cadence with
  | some b, some l, some c =>
    if 1 ≤ bell ∧ bell ≤ 7 then some { bus := b, leg := l, cadence := c, bell := bell } else none
  | _, _, _ => none

/-- An identity class field: 15 is absent (R5). -/
def classOf (n : Nat) : Option (Option Nat) :=
  if n < 15 then some (some n) else if n = 15 then some none else none

/-- A party entry from the fields after its presence field, for presence 1 (R5 check 2). -/
def presentEntryOf (bus leg cadence bell cls len : Nat) (digits : List Nat) : Option PartyEntry :=
  match specFrom bus leg cadence bell, classOf cls, revertCodeOf len digits with
  | some sp, some c, some code => some { spec := sp, identityClass := c, code := code }
  | _, _, _ => none

/-- A party entry from its fields: `some none` is an absent entry (R5 check 2). -/
def entryOf (presence bus leg cadence bell cls len : Nat) (digits : List Nat) : Option (Option PartyEntry) :=
  if presence = 0 then
    if ([bus, leg, cadence, bell, cls, len] ++ digits).all (fun d => decide (d = 0)) then some none else none
  else if presence = 1 then (presentEntryOf bus leg cadence bell cls len digits).map some
  else none

/-- A cadence from its segment count and eight durations (R9 check 1). -/
def cadenceFrom (count : Nat) (durations : List Nat) : Option (List Nat) :=
  let used := durations.take count
  let rest := durations.drop count
  if count = 0 then if rest.all (fun d => decide (d = 0)) then some [] else none
  else if (count = 2 ∨ count = 4 ∨ count = 6 ∨ count = 8) ∧
      used.all (fun d => decide (1 ≤ d ∧ d ≤ 22)) = true ∧ used.sum = 24 ∧
      rest.all (fun d => decide (d = 0)) = true then some used
  else none

/-- A short link timeout from its code (R16). -/
def shortTimeoutOf : Nat → Option (Option Nat)
  | 0 => some none
  | 1 => some (some 20)
  | 2 => some (some 100)
  | 3 => some (some 400)
  | 4 => some (some 2000)
  | _ => none

/-- A long link timeout from its code (R16). -/
def longTimeoutOf : Nat → Option (Option Nat)
  | 0 => some none
  | 1 => some (some 400)
  | 2 => some (some 2000)
  | 3 => some (some 12000)
  | _ => none

def longActionOf : Nat → Option LongAction
  | 0 => some .isolate
  | 1 => some .release
  | _ => none

/-- The ranges of the timing record and the law of the two timeouts (R12). -/
def Timing.legal (t : Timing) : Bool :=
  decide (10 ≤ t.seizureQualify ∧ t.seizureQualify ≤ 200 ∧ 2 ≤ t.tripQualify ∧ t.tripQualify ≤ 15 ∧
    60 ≤ t.onHookQualify ∧ t.onHookQualify ≤ 200 ∧ 1000 ≤ t.hangupWait ∧ t.hangupWait ≤ 12000 ∧
    1 ≤ t.revertCycles ∧ t.revertCycles ≤ 31 ∧ 1 ≤ t.stagger ∧ t.stagger ≤ 23 ∧ t.replyHoldOff ≤ 15) &&
  match t.shortTimeout, t.longTimeout with
  | some a, some b => decide (a < b)
  | _, _ => true

/-- A timing record from its eleven bytes (R12, R16). -/
def timingFrom : List Nat → Option Timing
  | [sq, tq, oq, hwHigh, hwLow, rc, st, rh, short, long, act] =>
    match shortTimeoutOf short, longTimeoutOf long, longActionOf act with
    | some a, some b, some c =>
      let t : Timing :=
        { seizureQualify := sq, tripQualify := tq, onHookQualify := oq, hangupWait := 256 * hwHigh + hwLow,
          revertCycles := rc, stagger := st, replyHoldOff := rh, shortTimeout := a, longTimeout := b,
          longAction := c }
      if t.legal then some t else none
    | _, _, _ => none
  | _ => none

/-! TABLE WRITE: the live state that a write is checked against. -/

/-- The line is in use for party and line attribute writes (R7). -/
def State.lineInUse (s : State) (n : LineId) : Bool :=
  (s.callOn n).isSome || decide ((s.line n).state = .collecting) || decide ((s.line n).state = .replaying)

/-- Two revert codes break the law of R6; an absent code breaks none. -/
def codesClash (a b : List Nat) : Bool :=
  !a.isEmpty && !b.isEmpty && (a.isPrefixOf b || b.isPrefixOf a)

/-- Two identity classes break the law of R6; an absent class breaks none. -/
def classesClash (a b : Option Nat) : Bool := a.isSome && decide (a = b)

/-- The entry breaks the laws of R6 with another present entry of the line. -/
def State.entryClashes (s : State) (n : LineId) (p : PartyId) (e : PartyEntry) : Bool :=
  partyIds.any (fun q =>
    decide (q ≠ p) &&
      match s.party n q with
      | some o => classesClash e.identityClass o.identityClass || codesClash e.code o.code
      | none => false)

/-- The cadence is named by a present party entry of some line (R9). -/
def State.cadenceEntered (s : State) (c : CadenceId) : Bool :=
  lineIds.any (fun n => partyIds.any (fun p =>
    match s.party n p with
    | some e => decide (e.spec.cadence = c)
    | none => false))

/-! TABLE WRITE: the replacement. -/

def State.setPtb (s : State) (t : Ptb) : State := { s with ptb := t }

def State.setAttr (s : State) (n : LineId) (a : LineAttr) : State :=
  s.setPtb { s.ptb with lines := tset s.ptb.lines n a }

def State.setParty (s : State) (n : LineId) (p : PartyId) (e : Option PartyEntry) : State :=
  s.setPtb { s.ptb with parties := tset s.ptb.parties n (tset (tget s.ptb.parties n) p e) }

def State.setCadence (s : State) (c : CadenceId) (l : List Nat) : State :=
  s.setPtb { s.ptb with cadences := tset s.ptb.cadences c l }

def State.setCapacity (s : State) (b : BusId) (n : Nat) : State :=
  s.setPtb { s.ptb with capacity := tset s.ptb.capacity b n }

def State.setExclusion (s : State) (g : GroupId) (x : Bool) : State :=
  s.setPtb { s.ptb with exclusion := tset s.ptb.exclusion g x }

def State.setTiming (s : State) (t : Timing) : State := s.setPtb { s.ptb with timing := t }

/-! TABLE WRITE: the six handlers. -/

/-- TABLE WRITE of a line attribute record (R3). One taken after the end of a call whose release request still waits is
accepted, and the part keeps the group under which the map holds it until its release: a DESIGN CHOICE (log 36). -/
def writeLineAttribute (s : State) (r : Req) : State × Answer :=
  match numbers r.payload with
  | [line, handling, group, cycles, backRing, identify] =>
    match lineOf line with
    | none => (s, refuse .noLine)
    | some n =>
      match lineAttrOf handling group cycles backRing identify with
      | none => (s, refuse .badRequest)
      | some a => if s.lineInUse n then (s, refuse .inUse) else (s.setAttr n a, accept [])
  | _ => (s, refuse .badRequest)

/-- Checks 3 to 5 of R5. That a line whose call has ended is not in use (R7) while its release request still waits, so that
a part may outlast the entry it copies (R1), is a DESIGN CHOICE (log 36). -/
def State.entryStatus (s : State) (n : LineId) (p : PartyId) (e : Option PartyEntry) : Status :=
  if s.lineInUse n then .inUse
  else
    match e with
    | none => .accepted
    | some e =>
      if s.cadence e.spec.cadence = [] then .noCadence
      else if s.entryClashes n p e then .conflict
      else .accepted

/-- A party entry whose fields are in range (R5). -/
def State.writeEntry (s : State) (n : LineId) (p : PartyId) (e : Option PartyEntry) : State × Answer :=
  let st := s.entryStatus n p e
  if st = .accepted then (s.setParty n p e, accept []) else (s, refuse st)

/-- TABLE WRITE of a party entry (R5). -/
def writeParty (s : State) (r : Req) : State × Answer :=
  match numbers r.payload with
  | [line, party, presence, bus, leg, cadence, bell, cls, len, d1, d2, d3, d4] =>
    match lineOf line with
    | none => (s, refuse .noLine)
    | some n =>
      match partyOf party, entryOf presence bus leg cadence bell cls len [d1, d2, d3, d4] with
      | some p, some e => s.writeEntry n p e
      | _, _ => (s, refuse .badRequest)
  | _ => (s, refuse .badRequest)

/-- TABLE WRITE of a cadence (R9). -/
def writeCadence (s : State) (r : Req) : State × Answer :=
  match numbers r.payload with
  | [cadence, count, d1, d2, d3, d4, d5, d6, d7, d8] =>
    match cadenceOf cadence, cadenceFrom count [d1, d2, d3, d4, d5, d6, d7, d8] with
    | some c, some l =>
      if s.cadenceEntered c || s.cadenceRung c then (s, refuse .inUse) else (s.setCadence c l, accept [])
    | _, _ => (s, refuse .badRequest)
  | _ => (s, refuse .badRequest)

/-- A capacity below a load or a waiting bell load (R10 check 2). -/
def State.capacityInUse (s : State) (b : BusId) (n : Nat) : Bool :=
  decide (n < s.peakLoad b) || decide (n < s.waitingBell b)

/-- The bus's capacity replaced, with the pass that a raise starts (R10). -/
def State.takeCapacity (s : State) (b : BusId) (n : Nat) : State :=
  if s.capacity b < n then (s.setCapacity b n).pass else s.setCapacity b n

/-- TABLE WRITE of a bus capacity (R10). -/
def writeBus (s : State) (r : Req) : State × Answer :=
  match numbers r.payload with
  | [bus, n] =>
    match busOf bus with
    | none => (s, refuse .badRequest)
    | some b =>
      if 63 < n then (s, refuse .badRequest)
      else if s.capacityInUse b n then (s, refuse .inUse)
      else (s.takeCapacity b n, accept [])
  | _ => (s, refuse .badRequest)

/-- Exclusion is turned on over a group that is not apart (R11 check 2). -/
def State.exclusionInUse (s : State) (g : GroupId) (x : Bool) : Bool :=
  x && !s.exclusion g && decide (1 < s.peakOccupancy g)

/-- The group's flag replaced, with the pass that turning it off starts (R11). -/
def State.takeExclusion (s : State) (g : GroupId) (x : Bool) : State :=
  if s.exclusion g && !x then (s.setExclusion g x).pass else s.setExclusion g x

/-- TABLE WRITE of a group flag (R11). -/
def writeGroup (s : State) (r : Req) : State × Answer :=
  match numbers r.payload with
  | [group, x] =>
    match groupOf group, flagOf x with
    | some g, some x => if s.exclusionInUse g x then (s, refuse .inUse) else (s.takeExclusion g x, accept [])
    | _, _ => (s, refuse .badRequest)
  | _ => (s, refuse .badRequest)

/-- TABLE WRITE of the timing record (R12). -/
def writeTiming (s : State) (r : Req) : State × Answer :=
  match timingFrom (numbers r.payload) with
  | some t => (s.setTiming t, accept [])
  | none => (s, refuse .badRequest)

/-- TABLE WRITE as it arrives in a message, the selector first (R15). -/
def tableWrite (s : State) (r : Req) : State × Answer :=
  match r.payload with
  | [] => (s, refuse .badRequest)
  | sel :: rest =>
    let q : Req := { r with payload := rest }
    match sel.toNat with
    | 1 => writeLineAttribute s q
    | 2 => writeParty s q
    | 3 => writeCadence s q
    | 4 => writeBus s q
    | 5 => writeGroup s q
    | 6 => writeTiming s q
    | _ => (s, refuse .badRequest)

/-! TABLE READ (R17). -/

/-- The record of a selector and key, or why there is none (R17). -/
def State.readRecord (s : State) : List Nat → Except Status (List Nat)
  | [1, line] =>
    match lineOf line with
    | some n => .ok (lineAttrForm (s.attr n))
    | none => .error .noLine
  | [2, line, party] =>
    match lineOf line with
    | none => .error .noLine
    | some n =>
      match partyOf party with
      | some p => .ok (partyForm (s.party n p))
      | none => .error .badRequest
  | [3, cadence] =>
    match cadenceOf cadence with
    | some c => .ok (cadenceForm (s.cadence c))
    | none => .error .badRequest
  | [4, bus] =>
    match busOf bus with
    | some b => .ok [s.capacity b]
    | none => .error .badRequest
  | [5, group] =>
    match groupOf group with
    | some g => .ok [flag (s.exclusion g)]
    | none => .error .badRequest
  | [6] => .ok (timingForm s.timing)
  | _ => .error .badRequest

/-- TABLE READ (R17): the reply returns the selector and key of the request, then the record. -/
def tableRead (s : State) (r : Req) : State × Answer :=
  match s.readRecord (numbers r.payload) with
  | .ok fields => (s, accept (r.payload ++ fields.map byteOf))
  | .error st => (s, refuse st)

/-! TABLE CHECK (R18, R19). -/

/-- The bytes of one line: its attribute record, then its party entries (R18). -/
def State.lineRegion (s : State) (n : LineId) : List Nat :=
  lineAttrForm (s.attr n) ++ partyIds.flatMap (fun p => partyForm (s.party n p))

def State.cadenceRegion (s : State) : List Nat := cadenceIds.flatMap (fun c => cadenceForm (s.cadence c))

/-- Bus capacities, exclusion flags, the timing record (R18). -/
def State.restRegion (s : State) : List Nat :=
  busIds.map s.capacity ++ groupIds.map (fun g => flag (s.exclusion g)) ++ timingForm s.timing

/-- The bytes of a region, or why there are none (R18). -/
def State.region (s : State) (code line : Nat) : Except Status (List Nat) :=
  match code with
  | 1 =>
    match lineOf line with
    | some n => .ok (s.lineRegion n)
    | none => .error .noLine
  | 2 => if line = 0 then .ok s.cadenceRegion else .error .badRequest
  | 3 => if line = 0 then .ok s.restRegion else .error .badRequest
  | 4 =>
    if line = 0 then .ok (lineIds.flatMap s.lineRegion ++ s.cadenceRegion ++ s.restRegion)
    else .error .badRequest
  | _ => .error .badRequest

/-- The comparison of the check value with the expected value carried, if any (R19, R173). -/
def comparisonCode (value : List Byte) (expected : List Byte) : Nat :=
  if expected = [] then 0 else if expected = value then 1 else 2

/-- The reply of a TABLE CHECK over these bytes (R19). -/
def checkAnswer (bytes : List Nat) (expected : List Byte) : Answer :=
  let value := twoBytes (crc16 (bytes.map byteOf)).toNat
  accept (value ++ [byteOf (comparisonCode value expected)])

/-- TABLE CHECK (R18, R19). -/
def tableCheck (s : State) (r : Req) : State × Answer :=
  match r.payload with
  | code :: line :: expected =>
    if expected.length = 0 ∨ expected.length = 2 then
      match s.region code.toNat line.toNat with
      | .ok bytes => (s, checkAnswer bytes expected)
      | .error st => (s, refuse st)
    else (s, refuse .badRequest)
  | _ => (s, refuse .badRequest)

end Sys2Proof.Machine
end

