-- ==== Sys2Proof/Machine/Meters.lean ====
section
/-! DEFINITION. The meter requests and the occupancy sample (chapter 11). -/

namespace Sys2Proof.Machine

def State.setTmu (s : State) (t : Tmu) : State := { s with tmu := t }

def State.meter (s : State) (i : MeterId) : Meter := tget s.tmu.meters i

def State.setMeter (s : State) (i : MeterId) (m : Meter) : State :=
  s.setTmu { s.tmu with meters := tset s.tmu.meters i m }

def State.setGlobalFreeze (s : State) (b : Bool) : State := s.setTmu { s.tmu with globalFrozen := b }

/-- The mode of a METER SET with the selection, threshold and invert that go with it (R191 check 2). -/
def meterModeOf (mode selection filter threshold invert : Nat) : Option MeterMode :=
  if mode = 0 ∧ selection ≤ 19 ∧ threshold = 0 ∧ invert = 0 then some .peg
  else if mode = 1 ∧ selection ≤ 6 ∧ filter = 16 then some .occupancy
  else none

/-- The meter after a METER SET of these fields, if they pass (R191): the count, frozen and overflowed stand. -/
def Meter.configured (m : Meter) (mode selection filter threshold invert enabled notice freeze : Nat) :
    Option Meter :=
  match meterModeOf mode selection filter threshold invert, flagOf invert, flagOf enabled, flagOf notice,
      flagOf freeze with
  | some md, some i, some e, some o, some f =>
    if filter ≤ 16 ∧ threshold ≤ 24 then
      some { m with
        mode := md, selection := selection, lineFilter := lineOf filter, threshold := threshold, invert := i,
        enabled := e, overflowNotice := o, freezeOnOverflow := f }
    else none
  | _, _, _, _, _ => none

/-- METER SET (R191). Both checks refuse BAD_REQUEST. -/
def meterSet (s : State) (r : Req) : State × Answer :=
  match numbers r.payload with
  | [meter, mode, selection, filter, threshold, invert, enabled, notice, freeze] =>
    match meterOf meter with
    | none => (s, refuse .badRequest)
    | some i =>
      match (s.meter i).configured mode selection filter threshold invert enabled notice freeze with
      | some m => (s.setMeter i m, accept [])
      | none => (s, refuse .badRequest)
  | _ => (s, refuse .badRequest)

/-- The frozen byte of METER READ (R196). -/
def frozenByte (m : Meter) (global : Bool) : Nat := flag m.frozen + 2 * flag global

/-- METER READ (R196). -/
def meterRead (s : State) (r : Req) : State × Answer :=
  match numbers r.payload with
  | [meter] =>
    match meterOf meter with
    | none => (s, refuse .badRequest)
    | some i =>
      let m := s.meter i
      (s, accept ([byteOf i.val] ++ fourBytes m.count ++
        [byteOf (flag m.enabled), byteOf (frozenByte m s.tmu.globalFrozen), overflowedByte s.tmu]))
  | _ => (s, refuse .badRequest)

/-- METER PRESET (R195). -/
def meterPreset (s : State) (r : Req) : State × Answer :=
  match r.payload with
  | [meter, c3, c2, c1, c0] =>
    match meterOf meter.toNat with
    | none => (s, refuse .badRequest)
    | some i => (s.setMeter i { s.meter i with count := c3 ++ c2 ++ c1 ++ c0 }, accept [])
  | _ => (s, refuse .badRequest)

/-- METER FREEZE (`frozen` on) and METER THAW (`frozen` off): a meter, or 8 for the global state (R195). -/
def meterHold (frozen : Bool) (s : State) (r : Req) : State × Answer :=
  match numbers r.payload with
  | [meter] =>
    match meterOf meter with
    | some i => (s.setMeter i { s.meter i with frozen := frozen }, accept [])
    | none => if meter = 8 then (s.setGlobalFreeze frozen, accept []) else (s, refuse .badRequest)
  | _ => (s, refuse .badRequest)

/-- The meters whose bit is set cleared of overflowed (R195). -/
def clearedMeters (t : Vector Meter 8) (bits : Byte) : Vector Meter 8 :=
  Vector.ofFn (fun i => if bits.getLsbD i.val then { tget t i with overflowed := false } else tget t i)

/-- METER CLEAR (R195). -/
def meterClear (s : State) (r : Req) : State × Answer :=
  match r.payload with
  | [bits] => (s.setTmu { s.tmu with meters := clearedMeters s.tmu.meters bits }, accept [])
  | _ => (s, refuse .badRequest)

/-! The occupancy sample (R193). -/

/-- A quantity by its selection (R193). -/
def State.quantity (s : State) : Nat → Nat
  | 0 => s.placedOn 0
  | 1 => s.placedOn 1
  | 2 => s.placedOn 2
  | 3 => s.placedOn 3
  | 4 => s.waitQueue.length
  | 5 => (lineIds.filter (fun n => decide ((s.line n).state = .call))).length
  | _ => s.itu.queue.length

/-- The condition of an occupancy meter holds (R193). -/
def Meter.conditionHolds (m : Meter) (q : Nat) : Bool :=
  if m.invert then decide (q < m.threshold) else decide (m.threshold ≤ q)

/-- The sample at one meter (R193). -/
def State.sampleMeter (s : State) (i : MeterId) : State :=
  let m := s.meter i
  if decide (m.mode = .occupancy) && meterCounts s.tmu m && m.conditionHolds (s.quantity m.selection) then
    s.raise i
  else s

/-- The samples of one interval, in the order M0 to M7 (log 12). -/
def State.sample (s : State) : State := meterIds.foldl (fun s i => s.sampleMeter i) s

/-- OCCUPANCY_SAMPLE (R193). That it comes once in every interval is the sender's discipline and is not enforced (DESIGN
CHOICE, log 4). -/
def execOccupancySample (s : State) : Host.Outcome State Fault Refusal := .next s.sample

end Sys2Proof.Machine
end

