-- ==== Sys2Proof/Machine/Requests.lean ====
section
/-! DEFINITION. The requests on calls and lines (R124 to R127, R133, R110, R78 to R80, R83, R147) and on the part
(R166, R177, R178). Each handler answers the state after the request and what its reply carries. -/

namespace Sys2Proof.Machine

/-! RING (R124, R125). -/

/-- The operands of a RING that passes check 1: the party, the cycle count and the answer identify choice. -/
structure RingChoice where
  party : PartyId
  cycles : Nat
  identify : Nat
  deriving DecidableEq, Repr

def ringChoiceOf (party cycles identify : Nat) : Option RingChoice :=
  match partyOf party with
  | some p => if cycles ≤ 31 ∧ identify ≤ 2 then some { party := p, cycles := cycles, identify := identify } else none
  | none => none

/-- The ring limit of a RING: the count named, or the line's default for 0 (R125). -/
def ringLimitOf (a : LineAttr) (cycles : Nat) : Nat := if cycles = 0 then a.defaultCycles else cycles

/-- The answer identify of a RING: as named, or the line's default for choice 2 (R125). -/
def ringIdentifyOf (a : LineAttr) (identify : Nat) : Bool :=
  if identify = 2 then a.answerIdentifyDefault else decide (identify = 1)

/-- Checks 3 and 4 of R124. -/
def State.ringLineStatus (s : State) (n : LineId) : Status :=
  if (s.line n).state = .blocked ∨ (s.line n).state = .fault ∨ s.lkm.state = .released then .lineState
  else if (s.line n).state = .idle then .accepted
  else .lineBusy

/-- An accepted RING (R125): the record, the line to CALL, and the place request taken after all that wait (R122). That
the record is made before the waiting requests are taken is a DESIGN CHOICE (log 38). -/
def State.startRing (s : State) (c : CallNo) (n : LineId) (sp : Spec) (ch : RingChoice) : State :=
  let limit := ringLimitOf (s.attr n) ch.cycles
  let s := s.setCall c (some (newExchangeRing n ch.party limit (ringIdentifyOf (s.attr n) ch.identify)))
  ((s.enterCall n .xr).hand (.place c n sp limit 0)).drain

/-- A RING past check 4 (R124, R125). -/
def State.ringParty (s : State) (n : LineId) (ch : RingChoice) : State × Answer :=
  match s.specOf n ch.party with
  | none => (s, refuse .noParty)
  | some sp =>
    if s.overCapacity sp then (s.peg .ringRefused (some n), refuse .noCapacity)
    else
      match s.freeCall with
      | none => (s, refuse .tableFull)
      | some c => (s.startRing c n sp ch, accept [byteOf c.val])

/-- RING (R124). -/
def ring (s : State) (r : Req) : State × Answer :=
  match numbers r.payload with
  | [line, party, cycles, identify] =>
    match ringChoiceOf party cycles identify with
    | none => (s, refuse .badRequest)
    | some ch =>
      match lineOf line with
      | none => (s, refuse .noLine)
      | some n =>
        match s.ringLineStatus n with
        | .accepted => s.ringParty n ch
        | st => (s, refuse st)
  | _ => (s, refuse .badRequest)

/-! RING STOP (R127). -/

/-- Where a stop directs the line of a call (R127). -/
def State.stopDirection (s : State) (r : CallRec) : Direction :=
  match r.kind with
  | .xr =>
    if r.state = .identifying then
      if (s.line r.line).state = .through then .nowhere else s.serviceDirection
    else .idle
  | .rv => if (s.line r.line).loop = .closed then .lockout else .idle

/-- A call stopped (R127). A release request is taken within the event, after all that wait (R122). That the call ends
before the waiting requests are taken is a DESIGN CHOICE (log 38). -/
def State.stopCall (s : State) (c : CallNo) (r : CallRec) : State :=
  let t := s.endCall c .stopped (s.stopDirection r) none true
  if r.ringPart then t.drain else t

/-- RING STOP (R127). -/
def ringStop (s : State) (r : Req) : State × Answer :=
  match numbers r.payload with
  | [call] =>
    match callOf call with
    | none => (s, refuse .badRequest)
    | some c =>
      match s.callRec c with
      | none => (s, refuse .noCall)
      | some rec =>
        if rec.state = .talk then (s, refuse .lineState) else (s.stopCall c rec, accept [])
  | _ => (s, refuse .badRequest)

/-! RING AMEND (R126). -/

/-- The operands of an amend that passes check 1. -/
structure Amend where
  call : CallNo
  cadence : Option CadenceId
  limit : Option Nat
  deriving DecidableEq, Repr

/-- The fields of an amend: cadence FFh and cycles 0 are absent (R126 check 1, R174). -/
def amendOf (call cadence cycles : Nat) : Option Amend :=
  match callOf call with
  | none => none
  | some c =>
    if cycles ≤ 31 then
      let limit := if cycles = 0 then none else some cycles
      if cadence = 0xFF then
        if cycles = 0 then none else some { call := c, cadence := none, limit := limit }
      else (cadenceOf cadence).map (fun cad => { call := c, cadence := some cad, limit := limit })
    else none

/-- Checks 2 to 5 of R126. -/
def State.amendStatus (s : State) (a : Amend) : Status :=
  match s.callRec a.call with
  | none => .noCall
  | some r =>
    if r.kind ≠ .xr then .wrongKind
    else if r.state ≠ .waiting ∧ r.state ≠ .ringing then .lineState
    else
      match a.cadence with
      | some cad => if s.cadence cad = [] then .noCadence else .accepted
      | none => .accepted

/-- The amend is staged: the part is ringing when the amend is taken (R126). -/
def State.amendStages (s : State) (c : CallNo) : Bool :=
  match s.part c with
  | some p => p.isRinging
  | none => false

/-- A new cycle count of an amend applied at once becomes the call's ring limit (R126). -/
def State.amendLimit (s : State) (a : Amend) : State :=
  if s.amendStages a.call then s
  else
    match a.limit with
    | some l => s.modCall a.call (fun r => { r with ringLimit := some l })
    | none => s

/-- An accepted amend, taken by the RSC after every request that waits (R122, R126). That the waiting requests are taken
before the Call Sequencer's own step, the new ring limit, is a DESIGN CHOICE (log 38). -/
def State.takeAmend (s : State) (a : Amend) : State × Answer :=
  let s := s.drain
  (((s.amendLimit a).hand (.amend a.call a.cadence a.limit)).drain, accept [byteOf (flag (s.amendStages a.call))])

/-- RING AMEND (R126). -/
def ringAmend (s : State) (r : Req) : State × Answer :=
  match numbers r.payload with
  | [call, cadence, cycles] =>
    match amendOf call cadence cycles with
    | none => (s, refuse .badRequest)
    | some a =>
      match s.amendStatus a with
      | .accepted => s.takeAmend a
      | st => (s, refuse st)
  | _ => (s, refuse .badRequest)

/-! REVERT (R133). -/

/-- The parties of a REVERT that passes check 1. -/
structure RevertParties where
  called : PartyId
  caller : Option PartyId
  deriving DecidableEq, Repr

/-- The called party 1-8, and the caller party 1-8 unlike it, or 0 for absent (R133 check 1, R174). -/
def revertPartiesOf (called caller : Nat) : Option RevertParties :=
  match partyOf called with
  | none => none
  | some p =>
    if caller = 0 then some { called := p, caller := none }
    else
      match partyOf caller with
      | some q => if q = p then none else some { called := p, caller := some q }
      | none => none

/-- Checks 3 to 5 of R133. -/
def State.revertLineStatus (s : State) (n : LineId) : Status :=
  if s.lkm.state = .released then .lineState
  else if (s.callOn n).isSome then .lineBusy
  else if (s.line n).state = .through then .accepted
  else .lineState

/-- A caller party present has a present entry (R133 check 6). -/
def State.callerEntered (s : State) (n : LineId) (p : RevertParties) : Bool :=
  match p.caller with
  | some q => (s.party n q).isSome
  | none => true

/-- An accepted REVERT (R133). -/
def State.startRevert (s : State) (c : CallNo) (n : LineId) (p : RevertParties) : State :=
  let s := (s.setCall c (some (newRevert .exchange n p.called p.caller))).enterCall n .rv
  let s := if p.caller.isSome then s.enterHangupWait c n else s.enterIdentifyCaller c n
  s.peg .revertStarted (some n)

/-- A REVERT past check 5 (R133). -/
def State.revertParty (s : State) (n : LineId) (p : RevertParties) : State × Answer :=
  match s.specOf n p.called with
  | none => (s, refuse .noParty)
  | some sp =>
    if !s.callerEntered n p then (s, refuse .noParty)
    else if s.overCapacity sp then (s.peg .ringRefused (some n), refuse .noCapacity)
    else
      match s.freeCall with
      | none => (s, refuse .tableFull)
      | some c => (s.startRevert c n p, accept [byteOf c.val])

/-- REVERT (R133). -/
def revert (s : State) (r : Req) : State × Answer :=
  match numbers r.payload with
  | [line, called, caller] =>
    match revertPartiesOf called caller with
    | none => (s, refuse .badRequest)
    | some p =>
      match lineOf line with
      | none => (s, refuse .noLine)
      | some n =>
        match s.revertLineStatus n with
        | .accepted => s.revertParty n p
        | st => (s, refuse st)
  | _ => (s, refuse .badRequest)

/-! IDENTIFY (R110). -/

/-- The requests that begin before the line's request: 0 when its test is in progress (R110). -/
def State.testsAhead (s : State) (n : LineId) : Nat :=
  match s.testOn n with
  | some _ => 0
  | none => 1 + s.itu.queue.findIdx (fun q => decide (q.line = n))

/-- An on-hook meets the event under way: the line's byte waits for the LSV, which will find an on-hook in it (R118). -/
def State.onHookMeets (s : State) (n : LineId) : Bool :=
  tget s.hwi.byteWaits n && decide (s.verdict n = .onHook)

/-- Checks 3 and 4 of R110. An IDENTIFY taken before an on-hook that qualifies in the byte handed over passes check 3, as
R118 has it: the loop field of that byte is OPEN, for which R110 alone would refuse. That the row of R118 stands as an
exception to check 3, while that byte waits and no longer, is a DESIGN CHOICE (log 31). -/
def State.identifyStatus (s : State) (n : LineId) : Status :=
  if (s.line n).state = .through ∧ (upLoop (s.lByte n) = .closed ∨ s.onHookMeets n = true) then
    if (s.requestersOn n).contains .exchange then .inUse else .accepted
  else .lineState

/-- An accepted IDENTIFY (R110). -/
def State.takeIdentify (s : State) (n : LineId) : State × Answer :=
  let s := s.requestTest n .exchange
  (s, accept [byteOf n.val, byteOf (s.testsAhead n)])

/-- IDENTIFY (R110). -/
def identify (s : State) (r : Req) : State × Answer :=
  match numbers r.payload with
  | [line] =>
    match lineOf line with
    | none => (s, refuse .noLine)
    | some n =>
      match s.identifyStatus n with
      | .accepted => s.takeIdentify n
      | st => (s, refuse st)
  | _ => (s, refuse .badRequest)

/-! LINE BLOCK, LINE UNBLOCK and LINE QUERY. -/

/-- A LINE BLOCK taken (R78, R79). -/
def State.takeBlock (s : State) (n : LineId) : State :=
  if (s.line n).state = .fault then s.modLine n (fun r => { r with blockRecorded := true }) else s.blockLine n

/-- LINE BLOCK (R78). -/
def lineBlock (s : State) (r : Req) : State × Answer :=
  match numbers r.payload with
  | [line] =>
    match lineOf line with
    | none => (s, refuse .noLine)
    | some n => (s.takeBlock n, accept [])
  | _ => (s, refuse .badRequest)

/-- LINE UNBLOCK (R80). -/
def lineUnblock (s : State) (r : Req) : State × Answer :=
  match numbers r.payload with
  | [line] =>
    match lineOf line with
    | none => (s, refuse .noLine)
    | some n =>
      if (s.line n).state = .blocked then (s.enterIdle n, accept [])
      else if (s.line n).state = .fault ∧ (s.line n).blockRecorded = true then
        (s.modLine n (fun r => { r with blockRecorded := false }), accept [])
      else (s, refuse .lineState)
  | _ => (s, refuse .badRequest)

/-- The nine fields of a LINE QUERY (R83). -/
def State.lineFields (s : State) (n : LineId) : List Byte :=
  let r := s.line n
  [n.val, lineStateCode r.state, loopCode r.loop, loopCode (upLoop (s.lByte n)),
   orAbsent (r.faultReason.map faultReasonCode), flag r.blockRecorded,
   orAbsent (r.lockoutPhase.map lockoutPhaseCode), orAbsent ((s.callOn n).map Fin.val),
   (s.digits n).buffer.length].map byteOf

/-- LINE QUERY (R83). -/
def lineQuery (s : State) (r : Req) : State × Answer :=
  match numbers r.payload with
  | [line] =>
    match lineOf line with
    | none => (s, refuse .noLine)
    | some n => (s, accept (s.lineFields n))
  | _ => (s, refuse .badRequest)

/-! CALL QUERY (R147, R174). -/

/-- An absent two-byte field is FFFFh (R173). -/
def twoBytesOrAbsent (n : Option Nat) : List Byte := twoBytes (n.getD 0xFFFF)

/-- The fields of a call record (R147). -/
def callFields (c : CallNo) (r : CallRec) : List Byte :=
  [c.val, callKindCode r.kind, originCode r.origin, r.line.val, partyCode r.called,
   orAbsent (r.caller.map partyCode), callStateCode r.state, flag r.ringPart, orAbsent r.ringLimit,
   r.cyclesRung, orAbsent (r.answerIdentify.map flag), orAbsent r.reRevert].map byteOf ++
    twoBytesOrAbsent r.hangupTimer ++
    [orAbsent (r.answered.map answeredCode), orAbsent (r.testResult.map testOutcomeCode)].map byteOf

/-- Status, offset, start-pending and overtaken count of a part: the first three and the last of its own fields. -/
def statusFields : PartStatus → (Nat × Nat × Nat) × Nat
  | .queued n => ((0, 0xFF, 0xFF), n)
  | .placed k pending => ((1, k.val, flag pending), 0xFF)

/-- The staged spec's four fields (R174). -/
def stagedSpecFields : Option Spec → List Nat
  | some sp => [sp.bus.val + 1, legCode sp.leg, sp.cadence.val, sp.bell]
  | none => List.replicate 4 0xFF

/-- The fields of a ring part (R147, R174). -/
def partFields (p : RingPart) : List Byte :=
  let f := statusFields p.status
  ([f.1.1, f.1.2.1, f.1.2.2, p.cycleLimit, p.cyclesCompleted, f.2] ++
    stagedSpecFields (p.staged.bind (fun ch => ch.spec)) ++
    [orAbsent (p.staged.bind (fun ch => ch.limit))]).map byteOf

/-- The part fields of a call whose ring part is present: all absent while its place request still waits
(DEDUCED, log 17). -/
def State.callPartFields (s : State) (c : CallNo) (r : CallRec) : List Byte :=
  if r.ringPart then
    match s.part c with
    | some p => partFields p
    | none => List.replicate 11 0xFF
  else []

/-- CALL QUERY (R147). -/
def callQuery (s : State) (r : Req) : State × Answer :=
  match numbers r.payload with
  | [call] =>
    match callOf call with
    | none => (s, refuse .badRequest)
    | some c =>
      match s.callRec c with
      | none => (s, refuse .noCall)
      | some rec => (s, accept (callFields c rec ++ s.callPartFields c rec))
  | _ => (s, refuse .badRequest)

/-! The part itself. -/

def PortCounters.list (c : PortCounters) : List Nat := [c.valid, c.check, c.kind, c.length, c.abort]

/-- The fourteen counters in order (R177). -/
def Counters.list (c : Counters) : List Nat :=
  c.ePort.list ++ c.lPort.list ++ [c.overrun, c.relayDropped, c.urgentLost, c.routineLost]

/-- COUNTERS READ (R177). -/
def countersRead (s : State) (r : Req) : State × Answer :=
  match numbers r.payload with
  | [clear] =>
    match flagOf clear with
    | none => (s, refuse .badRequest)
    | some b =>
      (if b then s.modCounters (fun _ => Counters.zero) else s,
       accept (s.mgp.counters.list.flatMap twoBytes))
  | _ => (s, refuse .badRequest)

/-- SET ADDRESS (R166). -/
def setAddress (s : State) (r : Req) : State × Answer :=
  match numbers r.payload with
  | [a] =>
    match addressOf a with
    | none => (s, refuse .badRequest)
    | some a =>
      if r.broadcast && s.mgp.address.isSome then (s, refuse .badRequest)
      else (s, { status := .accepted, result := [], after := .setAddress a })
  | _ => (s, refuse .badRequest)

/-- RESET (R178). -/
def reset (s : State) (r : Req) : State × Answer :=
  match r.payload with
  | [] => (s, { status := .accepted, result := [], after := .softReset })
  | _ => (s, refuse .badRequest)

end Sys2Proof.Machine
end

