-- ==== Sys2Proof/Machine/Messages.lean ====
section
/-! DEFINITION. The Management Port (chapter 9): the handling of a request (R169, R170), the receive assemblers
(R163, R164), the relays (R167, R168), what has been sent, and the meanings of the request commands. -/

namespace Sys2Proof.Machine

def State.setMgp (s : State) (m : Mgp) : State := { s with mgp := m }

/-! Requests (R169, R170). -/

/-- What an answer makes take effect: for a broadcast in the event itself, else when its reply has left
(R166, R178). -/
def State.applyAfter (s : State) : AfterReply → State
  | .nothing => s
  | .setAddress a => s.setMgp { s.mgp with address := some a }
  | .softReset => s.softReset

/-- The hold-off timer as it is started: with a setting of 0 the reply is eligible at once (R170). -/
def holdOffOf (setting : Nat) : Option Nat := if setting = 0 then none else some setting

/-- The reply to a request put into the reply slot (R170). -/
def State.putReply (s : State) (code : Byte) (r : Req) (hold : Option Nat) (a : Answer) : State :=
  s.setMgp { s.mgp with
    replySlot := some
      { destination := r.source, code := code, payload := answerPayload a, after := a.after, holdOff := hold } }

/-- A request that meets an occupied reply slot (R169). -/
def State.overrun (s : State) : State :=
  (s.modCounters (fun c => { c with overrun := countUp c.overrun })).peg .msgDiscarded none

/-- A request that the part takes (R169), with `handler` to execute it. The hold-off setting is read when the
request's last byte is checked (R13). -/
def State.handleRequest (s : State) (code : Byte) (r : Req) (handler : State → Req → State × Answer) : State :=
  if r.broadcast then
    let x := handler s r
    x.1.applyAfter x.2.after
  else
    match s.mgp.replySlot with
    | some _ => s.overrun
    | none =>
      let x := handler s r
      x.1.putReply code r (holdOffOf s.timing.replyHoldOff) x.2

/-- The request that a code names (R174, R175), executed. A code that names none is refused (R169). -/
def executeCode (code : Byte) (s : State) (r : Req) : State × Answer :=
  match code.toNat with
  | 0x01 => ring s r
  | 0x02 => ringStop s r
  | 0x03 => ringAmend s r
  | 0x04 => revert s r
  | 0x08 => identify s r
  | 0x09 => lineBlock s r
  | 0x0A => lineUnblock s r
  | 0x0B => lineQuery s r
  | 0x0C => callQuery s r
  | 0x10 => tableWrite s r
  | 0x11 => tableRead s r
  | 0x12 => tableCheck s r
  | 0x18 => meterSet s r
  | 0x19 => meterRead s r
  | 0x1A => meterPreset s r
  | 0x1B => meterHold true s r
  | 0x1C => meterHold false s r
  | 0x1D => meterClear s r
  | 0x20 => countersRead s r
  | 0x21 => setAddress s r
  | 0x22 => reset s r
  | _ => (s, refuse .badRequest)

/-! The receive assemblers (R163). -/

/-- What an assembler finds in a pair. -/
inductive Assembled where
  | nothing
  | taken
  | badLength
  | whole (m : List Byte)
  deriving DecidableEq, Repr

/-- The longest payload (R162). -/
def longestPayload : Nat := 32

/-- A pair of management bytes taken by an assembler (R163). -/
def assemble (a : Option (List Byte)) (b1 b2 : Byte) : Option (List Byte) × Assembled :=
  match a with
  | none => if b1 = startValue then (some [b1, b2], .taken) else (none, .nothing)
  | some m =>
    let m := m ++ [b1, b2]
    if 6 ≤ m.length ∧ longestPayload < messageLength m then (none, .badLength)
    else if 6 ≤ m.length ∧ 8 + messageLength m ≤ m.length then (none, .whole (m.take (8 + messageLength m)))
    else (some m, .taken)

/-! Messages judged (R164). -/

/-- The valid counter of a port raised (R164). -/
def State.countValid (s : State) (p : Port) : State :=
  s.modCounters (fun c => c.onPort p (fun pc => { pc with valid := countUp pc.valid }))

/-- A request in its envelope, as the part takes it. -/
def requestOf (m : List Byte) (broadcast : Bool) : Req :=
  { source := messageSource m, broadcast := broadcast, payload := messagePayload m }

/-- A valid E-port request, taken when it is for this part or for all (R165). -/
def State.takeMessage (s : State) (m : List Byte) : State :=
  if messageDestination m = 31 then
    s.handleRequest (messageCode m) (requestOf m true) (executeCode (messageCode m))
  else if s.mgp.address.map Fin.val = some (messageDestination m) then
    s.handleRequest (messageCode m) (requestOf m false) (executeCode (messageCode m))
  else s

/-- A whole message of the E-port (R164, R165). -/
def State.judgeE (s : State) (m : List Byte) : State :=
  if !messageCheckAgrees m then s.discard .e .check
  else if messageKind m ≠ 1 then s.discard .e .kind
  else (s.countValid .e).takeMessage m

/-- The relay buffer holds at most 2 messages (R168). -/
def relayCapacity : Nat := 2

/-- A valid L-port message offered to the relay buffer (R168). -/
def State.joinRelay (s : State) (m : List Byte) : State :=
  if relayCapacity ≤ s.mgp.relayBuffer.length then
    (s.modCounters (fun c => { c with relayDropped := countUp c.relayDropped })).peg .msgDiscarded none
  else s.setMgp { s.mgp with relayBuffer := s.mgp.relayBuffer ++ [m] }

/-- A whole message of the L-port (R164, R168). -/
def State.judgeL (s : State) (m : List Byte) : State :=
  if !messageCheckAgrees m then s.discard .l .check
  else if messageKind m < 1 ∨ 3 < messageKind m then s.discard .l .kind
  else (s.countValid .l).joinRelay m

/-! The downstream relay (R167). -/

/-- The relay after a pair that the E-port assembler has taken: it starts at the first pair of a message that is
not for this part alone, and carries each pair of it. `first` is on at the first pair. -/
def Mgp.relayTakes (m : Mgp) (first : Bool) (b1 b2 : Byte) : Mgp :=
  if first then
    if m.address.map Fin.val = some b2.toNat then m
    else { m with relay := some [b1, b2], relayPair := some (b1, b2) }
  else
    match m.relay with
    | some bs => { m with relay := some (bs ++ [b1, b2]), relayPair := some (b1, b2) }
    | none => m

/-- The relay returns to IDLE. The pair it carries to the next frame stands (R167). -/
def Mgp.relayEnds (m : Mgp) : Mgp := { m with relay := none }

/-! Pairs and aborts handed by the HWI (R158). -/

/-- A pair of the E-port (R163, R164, R167). -/
def State.pairE (s : State) (b1 b2 : Byte) : State :=
  let first := s.mgp.eAssembler.isNone
  let x := assemble s.mgp.eAssembler b1 b2
  let m : Mgp := { s.mgp with eAssembler := x.1 }
  match x.2 with
  | .nothing => s.setMgp m
  | .taken => s.setMgp (m.relayTakes first b1 b2)
  | .badLength => (s.setMgp (m.relayTakes first b1 b2).relayEnds).discard .e .length
  | .whole msg => (s.setMgp (m.relayTakes first b1 b2).relayEnds).judgeE msg

/-- A pair of the L-port (R163, R164). -/
def State.pairL (s : State) (b1 b2 : Byte) : State :=
  let x := assemble s.mgp.lAssembler b1 b2
  let s := s.setMgp { s.mgp with lAssembler := x.1 }
  match x.2 with
  | .nothing | .taken => s
  | .badLength => s.discard .l .length
  | .whole msg => s.judgeL msg

/-- The two management bytes of a valid frame handed to the Management Port (R158). -/
def State.handPair (s : State) (p : Port) (b1 b2 : Byte) : State :=
  match p with
  | .e => s.pairE b1 b2
  | .l => s.pairL b1 b2

/-- An abort handed to the Management Port (R158, R163, R167). -/
def State.handAbort (s : State) (p : Port) : State :=
  match p with
  | .e =>
    match s.mgp.eAssembler with
    | some _ => (s.setMgp { s.mgp with eAssembler := none, relay := none }).discard .e .abort
    | none => s
  | .l =>
    match s.mgp.lAssembler with
    | some _ => (s.setMgp { s.mgp with lAssembler := none }).discard .l .abort
    | none => s

/-! The upstream slot: the hold-off, and what has been sent (R168, R170, R171). -/

/-- The expiry of the hold-off timer: the reply becomes eligible (R170). -/
def State.holdOffExpiry (s : State) : State :=
  match s.mgp.replySlot with
  | some r =>
    if r.holdOff = some 0 then s.setMgp { s.mgp with replySlot := some { r with holdOff := none } } else s
  | none => s

/-- The last byte of a message of this item has been sent. -/
def Mgp.hasSent (m : Mgp) (i : UpstreamItem) : Bool := decide (m.sending = some { item := i, rest := [] })

/-- The reply's last byte has left: the slot empties, and what waited for it takes effect (R166, R170, R178). -/
def State.replySent (s : State) : State :=
  if s.mgp.hasSent .reply then
    let t := s.setMgp { s.mgp with sending := none, replySlot := none }
    match s.mgp.replySlot with
    | some r => t.applyAfter r.after
    | none => t
  else s

/-- A relayed message's last byte has been sent (R168). -/
def State.relayedSent (s : State) : State :=
  if s.mgp.hasSent .relayed then
    s.setMgp { s.mgp with sending := none, relayBuffer := s.mgp.relayBuffer.tail }
  else s

/-- A notice's last byte has been sent (R171). -/
def State.noticeSent (s : State) : State :=
  if s.mgp.hasSent .urgent then s.setMgp { s.mgp with sending := none, urgent := s.mgp.urgent.tail }
  else if s.mgp.hasSent .routine then s.setMgp { s.mgp with sending := none, routine := s.mgp.routine.tail }
  else s

/-! Meanings. -/

/-- REPLY_HOLD_OFF_EXPIRY (R170). -/
def execReplyHoldOffExpiry (s : State) : Host.Outcome State Fault Refusal := .next s.holdOffExpiry

/-- REPLY_SENT (R170). -/
def execReplySent (s : State) : Host.Outcome State Fault Refusal := .next s.replySent

/-- RELAYED_MESSAGE_SENT (R168). -/
def execRelayedMessageSent (s : State) : Host.Outcome State Fault Refusal := .next s.relayedSent

/-- NOTICE_SENT (R171). -/
def execNoticeSent (s : State) : Host.Outcome State Fault Refusal := .next s.noticeSent

/-- RING (R124). -/
def execRing (r : Req) (s : State) : Host.Outcome State Fault Refusal := .next (s.handleRequest 0x01 r ring)

/-- RING_STOP (R127). -/
def execRingStop (r : Req) (s : State) : Host.Outcome State Fault Refusal :=
  .next (s.handleRequest 0x02 r ringStop)

/-- RING_AMEND (R126). -/
def execRingAmend (r : Req) (s : State) : Host.Outcome State Fault Refusal :=
  .next (s.handleRequest 0x03 r ringAmend)

/-- REVERT (R133). -/
def execRevert (r : Req) (s : State) : Host.Outcome State Fault Refusal :=
  .next (s.handleRequest 0x04 r revert)

/-- IDENTIFY (R110). -/
def execIdentify (r : Req) (s : State) : Host.Outcome State Fault Refusal :=
  .next (s.handleRequest 0x08 r identify)

/-- LINE_BLOCK (R78). -/
def execLineBlock (r : Req) (s : State) : Host.Outcome State Fault Refusal :=
  .next (s.handleRequest 0x09 r lineBlock)

/-- LINE_UNBLOCK (R80). -/
def execLineUnblock (r : Req) (s : State) : Host.Outcome State Fault Refusal :=
  .next (s.handleRequest 0x0A r lineUnblock)

/-- LINE_QUERY (R83). -/
def execLineQuery (r : Req) (s : State) : Host.Outcome State Fault Refusal :=
  .next (s.handleRequest 0x0B r lineQuery)

/-- CALL_QUERY (R147). -/
def execCallQuery (r : Req) (s : State) : Host.Outcome State Fault Refusal :=
  .next (s.handleRequest 0x0C r callQuery)

/-- TABLE_WRITE_LINE_ATTRIBUTE (R3). -/
def execTableWriteLineAttribute (r : Req) (s : State) : Host.Outcome State Fault Refusal :=
  .next (s.handleRequest 0x10 r writeLineAttribute)

/-- TABLE_WRITE_PARTY (R5). -/
def execTableWriteParty (r : Req) (s : State) : Host.Outcome State Fault Refusal :=
  .next (s.handleRequest 0x10 r writeParty)

/-- TABLE_WRITE_CADENCE (R9). -/
def execTableWriteCadence (r : Req) (s : State) : Host.Outcome State Fault Refusal :=
  .next (s.handleRequest 0x10 r writeCadence)

/-- TABLE_WRITE_BUS (R10). -/
def execTableWriteBus (r : Req) (s : State) : Host.Outcome State Fault Refusal :=
  .next (s.handleRequest 0x10 r writeBus)

/-- TABLE_WRITE_GROUP (R11). -/
def execTableWriteGroup (r : Req) (s : State) : Host.Outcome State Fault Refusal :=
  .next (s.handleRequest 0x10 r writeGroup)

/-- TABLE_WRITE_TIMING (R12). -/
def execTableWriteTiming (r : Req) (s : State) : Host.Outcome State Fault Refusal :=
  .next (s.handleRequest 0x10 r writeTiming)

/-- TABLE_READ (R17). -/
def execTableRead (r : Req) (s : State) : Host.Outcome State Fault Refusal :=
  .next (s.handleRequest 0x11 r tableRead)

/-- TABLE_CHECK (R18). -/
def execTableCheck (r : Req) (s : State) : Host.Outcome State Fault Refusal :=
  .next (s.handleRequest 0x12 r tableCheck)

/-- METER_SET (R191). -/
def execMeterSet (r : Req) (s : State) : Host.Outcome State Fault Refusal :=
  .next (s.handleRequest 0x18 r meterSet)

/-- METER_READ (R196). -/
def execMeterRead (r : Req) (s : State) : Host.Outcome State Fault Refusal :=
  .next (s.handleRequest 0x19 r meterRead)

/-- METER_PRESET (R195). -/
def execMeterPreset (r : Req) (s : State) : Host.Outcome State Fault Refusal :=
  .next (s.handleRequest 0x1A r meterPreset)

/-- METER_FREEZE (R195). -/
def execMeterFreeze (r : Req) (s : State) : Host.Outcome State Fault Refusal :=
  .next (s.handleRequest 0x1B r (meterHold true))

/-- The request of a row whose payload is meter 8 (R195). -/
def globalMeter (env : Envelope) : Req := { env with payload := [8] }

/-- GLOBAL_FREEZE (R195). -/
def execGlobalFreeze (env : Envelope) (s : State) : Host.Outcome State Fault Refusal :=
  .next (s.handleRequest 0x1B (globalMeter env) (meterHold true))

/-- METER_THAW (R195). -/
def execMeterThaw (r : Req) (s : State) : Host.Outcome State Fault Refusal :=
  .next (s.handleRequest 0x1C r (meterHold false))

/-- GLOBAL_THAW (R195). -/
def execGlobalThaw (env : Envelope) (s : State) : Host.Outcome State Fault Refusal :=
  .next (s.handleRequest 0x1C (globalMeter env) (meterHold false))

/-- METER_CLEAR (R195). -/
def execMeterClear (r : Req) (s : State) : Host.Outcome State Fault Refusal :=
  .next (s.handleRequest 0x1D r meterClear)

/-- COUNTERS_READ (R177). -/
def execCountersRead (r : Req) (s : State) : Host.Outcome State Fault Refusal :=
  .next (s.handleRequest 0x20 r countersRead)

/-- SET_ADDRESS (R166). -/
def execSetAddress (r : Req) (s : State) : Host.Outcome State Fault Refusal :=
  .next (s.handleRequest 0x21 r setAddress)

/-- RESET (R178). -/
def execReset (r : Req) (s : State) : Host.Outcome State Fault Refusal :=
  .next (s.handleRequest 0x22 r reset)

/-- UNKNOWN_REQUEST_CODE (R169). -/
def execUnknownRequestCode (code : Byte) (r : Req) (s : State) : Host.Outcome State Fault Refusal :=
  .next (s.handleRequest code r (executeCode code))

end Sys2Proof.Machine
end

