-- ==== Sys2Proof/Machine/Highway.lean ====
section
/-! DEFINITION. The Highway Interface (chapter 8): frames received and sent, the closes of intervals, the two line
arbiters, and the upstream message arbiter (R172); the interval's timers; the meanings of the commands of the
highway and the ring scheduler. -/

namespace Sys2Proof.Machine

/-! Receive ports. -/

def State.port (s : State) : Port → RxPort
  | .e => s.hwi.ePort
  | .l => s.hwi.lPort

def State.setPort (s : State) (p : Port) (r : RxPort) : State :=
  match p with
  | .e => s.setHwi { s.hwi with ePort := r }
  | .l => s.setHwi { s.hwi with lPort := r }

/-- A frame whose first byte is the sync value and whose check agrees (R150). -/
def frameGood (f : Frame) : Bool := decide (f.sync = syncValue) && frameCheckAgrees f

/-- A frame not taken: invalid, or a slip. An abort is handed in its event (R151, R158). -/
def State.passOver (s : State) (p : Port) : State :=
  (s.setPort p { s.port p with frameSeen := true }).handAbort p

/-- A valid frame: taken, or a slip in an interval that already holds one (R151). -/
def State.validFrame (s : State) (p : Port) (f : Frame) : State :=
  if (s.port p).validTaken then s.passOver p
  else
    (s.setPort p { s.port p with lastGood := f.lines, validTaken := true, frameSeen := true }).handPair
      p f.mgmt1 f.mgmt2

/-- The alignment of an ALIGNED port after a frame whose first byte is not the sync value (R150). -/
def RxPort.wrongSyncSeen (r : RxPort) : RxPort :=
  if r.wrongSync = 0 then { r with wrongSync := 1 } else { r with alignment := .hunting }

/-- A run of 20 bytes on an ALIGNED port (R150, R151). -/
def State.alignedFrame (s : State) (p : Port) (f : Frame) : State :=
  if f.sync = syncValue then
    let s := s.setPort p { s.port p with wrongSync := 0 }
    if frameCheckAgrees f then s.validFrame p f else s.passOver p
  else (s.setPort p (s.port p).wrongSyncSeen).passOver p

/-- A frame completes on a port (R150, R151). A HUNTING port takes no frames. -/
def State.frameReceived (s : State) (p : Port) (f : Frame) : State :=
  match (s.port p).alignment with
  | .aligned => s.alignedFrame p f
  | .hunting => s

/-- A HUNTING port examines the 20 bytes that end with the byte received (R150). -/
def State.windowExamined (s : State) (p : Port) (f : Frame) : State :=
  if (s.port p).alignment = .hunting ∧ frameGood f = true then
    (s.setPort p { s.port p with alignment := .aligned, wrongSync := 0 }).validFrame p f
  else s

/-! The closes of an interval (R151, R152). -/

/-- The port's interval closed: the bytes in force, the mark, and the marks of the next interval. -/
def RxPort.closed (r : RxPort) : RxPort :=
  { r with inForce := r.lastGood, good := r.validTaken, validTaken := false, frameSeen := false }

/-- The close at a port: a missing interval hands an abort (R151, R158). -/
def State.closePort (s : State) (p : Port) : State :=
  let r := s.port p
  let s := s.setPort p r.closed
  if r.frameSeen then s else s.handAbort p

/-- The close of an E-port interval, with the LKM's event (R151, R181). That the abort of a missing interval, with its
peg, comes before the report to the Link Monitor is a DESIGN CHOICE (log 12). -/
def State.closeE (s : State) : State := (s.closePort .e).lkmInterval s.hwi.ePort.validTaken

/-- The change of link state that the close of the present E-port interval brings about (R182, R183, R187). -/
def State.linkChangeAtClose (s : State) : LinkChange :=
  linkChange s.timing (s.lkm.counted s.hwi.ePort.validTaken) s.hwi.ePort.validTaken

/-- The close of an E-port interval, when it brings about this change; else nothing (DESIGN CHOICE, log 3). -/
def State.closeEIf (s : State) (c : LinkChange) : State := if s.linkChangeAtClose = c then s.closeE else s

/-- The bad L-port intervals at which shelf loss is reported (R152). -/
def shelfLossCount : Nat := 20

/-- The shelf-loss count after an L-port interval (R152). -/
def Hwi.countShelf (h : Hwi) (good : Bool) : Hwi :=
  if good then { h with shelfCount := 0, shelfArmed := true }
  else
    let n := min shelfLossCount (h.shelfCount + 1)
    if n = shelfLossCount ∧ h.shelfArmed = true then
      { h with shelfCount := n, shelfArmed := false, shelfReported := true }
    else { h with shelfCount := n }

/-- The close of an L-port interval: every line's byte is handed to the LSV, and shelf loss counted (R151, R152). -/
def State.closeL (s : State) : State :=
  let good := s.hwi.lPort.validTaken
  let s := s.closePort .l
  s.setHwi { s.hwi.countShelf good with byteWaits := Vector.replicate 16 true }

/-! The line arbiters (R155 to R157). -/

/-- The value of the highest-ranked place that is not empty (R155). -/
def DownClaims.carried (c : DownClaims) : Option DownCode :=
  c.fault <|> c.blocked <|> c.test <|> c.ring <|> c.call <|> c.lockout <|> c.collecting

/-- The PASS candidate toward the L-port (R156). -/
def State.passDown (s : State) (n : LineId) : DownCode := if s.linked then police (s.eByte n) else .feed

/-- The line's outgoing L-port byte (R155). -/
def State.downLine (s : State) (n : LineId) : Byte := downByte ((s.down n).carried.getD (s.passDown n))

/-- The line's byte is the PASS candidate and that candidate is a policed FEED (R156). -/
def State.policed (s : State) (n : LineId) : Bool :=
  decide ((s.down n).carried = none) && s.linked && isForeign (s.eByte n)

/-- The line's outgoing E-port byte (R157). -/
def State.upLine (s : State) (n : LineId) : Byte :=
  let c := s.up n
  let b := s.lByte n
  if c.fault then b
  else
    match c.replay with
    | some l => replayByte l b
    | none => if c.onHook then onHookByte b else b

/-! The upstream message arbiter (R172). -/

/-- A notice may be begun: not in ISOLATED or RELEASED (R171). -/
def State.noticeAllowed (s : State) : Bool := s.linked

/-- The reply is in the slot and eligible (R170). -/
def Mgp.replyEligible (m : Mgp) : Bool :=
  match m.replySlot with
  | some r => decide (r.holdOff = none)
  | none => false

/-- The notice that may be begun, with urgent before routine. -/
def Mgp.nextNotice (m : Mgp) (allowed : Bool) : Option UpstreamItem :=
  if allowed then
    if m.urgent ≠ [] then some .urgent else if m.routine ≠ [] then some .routine else none
  else none

/-- The relayed-run count stops at 2 (R172). -/
def runMax : Nat := 2

/-- The choice at a frame whose slot is free (R172). -/
def Mgp.choose (m : Mgp) (allowed : Bool) : Option UpstreamItem :=
  let notice := m.nextNotice allowed
  if m.replyEligible then some .reply
  else if m.relayBuffer ≠ [] ∧ (m.runCount < runMax ∨ notice = none) then some .relayed
  else notice

/-- The bytes of the item about to be sent, with the part address as it stands now: for a reply by R170; for a notice,
whose rule R171 does not say when its source is read, a DESIGN CHOICE (log 35). -/
def Mgp.itemBytes (m : Mgp) : UpstreamItem → List Byte
  | .reply =>
    match m.replySlot with
    | some r => replyMessage m.address r
    | none => []
  | .relayed => m.relayBuffer.headD []
  | .urgent =>
    match m.urgent with
    | n :: _ => noticeMessage m.address m.urgentLost n
    | [] => []
  | .routine =>
    match m.routine with
    | n :: _ => noticeMessage m.address m.routineLost n
    | [] => []

/-- What beginning an item does to the run count and the lost indicators (R171, R172). -/
def Mgp.beginItem (m : Mgp) : UpstreamItem → Mgp
  | .reply => m
  | .relayed => { m with runCount := min runMax (m.runCount + 1) }
  | .urgent => { m with runCount := 0, urgentLost := false }
  | .routine => { m with runCount := 0, routineLost := false }

/-- The arbiter at a frame: a free slot is given to the item chosen (R172). A message whose last byte has gone
holds the slot until its sent event (DESIGN CHOICE, log 18). -/
def Mgp.arbitrate (m : Mgp) (allowed : Bool) : Mgp :=
  match m.sending with
  | some _ => m
  | none =>
    match m.choose allowed with
    | some i => { m.beginItem i with sending := some { item := i, rest := m.itemBytes i } }
    | none => m

/-- The next pair of a message being sent, with fill after its end (R172). -/
def pairOf : List Byte → Byte × Byte
  | [] => (fill, fill)
  | [b] => (b, fill)
  | b1 :: b2 :: _ => (b1, b2)

/-- The two bytes of the E-port frame's management slot. -/
def Mgp.upstreamPair (m : Mgp) : Byte × Byte :=
  match m.sending with
  | some x => pairOf x.rest
  | none => (fill, fill)

/-- The pair of the frame has gone. -/
def Mgp.pairSent (m : Mgp) : Mgp :=
  { m with sending := m.sending.map (fun x => { x with rest := x.rest.drop 2 }) }

/-! The frame of an interval (R148). -/

/-- The frame toward the L-port (R148, R155, R167). -/
def State.frameDown (s : State) : Frame :=
  let pair := s.mgp.relayPair.getD (fill, fill)
  frameOf (Vector.ofFn s.downLine) pair.1 pair.2

/-- The frame toward the E-port, its slot as the arbiter has given it (R148, R157, R172). -/
def State.frameUp (s : State) (m : Mgp) : Frame :=
  frameOf (Vector.ofFn s.upLine) m.upstreamPair.1 m.upstreamPair.2

/-- The lines whose policing mark comes on with this frame (R156). -/
def State.newlyPoliced (s : State) : List LineId :=
  lineIds.filter (fun n => s.policed n && !tget s.hwi.policing n)

/-- Both frames composed from the state as it stands and sent, with the policing marks (R148, R156). -/
def State.sendFrames (s : State) : State :=
  let m := s.mgp.arbitrate s.noticeAllowed
  (s.setMgp { m.pairSent with relayPair := none }).setHwi
    { s.hwi with
      eSent := some (s.frameUp m), lSent := some s.frameDown, policing := Vector.ofFn s.policed }

/-! The interval begins (log 1). -/

/-- A line record at the start of an interval: the lockout timer counts, and the mark of the last one goes. -/
def LineRec.tick (r : LineRec) : LineRec := { r with lockoutTimer := r.lockoutTimer.map (· - 1), hold := false }

/-- A digit record at the start of an interval. -/
def DigitRec.tick (d : DigitRec) : DigitRec :=
  { d with
    collection := d.collection.map (fun t => { t with left := t.left - 1 }),
    generatorTimer := d.generatorTimer - 1 }

def CallRec.tick (r : CallRec) : CallRec := { r with hangupTimer := r.hangupTimer.map (· - 1) }

def Reply.tick (r : Reply) : Reply := { r with holdOff := r.holdOff.map (· - 1) }

/-- Every running timer counts one interval (00 section 5.2; DEDUCED, log 1). A timer at 0 waits for its expiry
command (log 4). -/
def State.tick (s : State) : State :=
  { s with
    lsv := s.lsv.map LineRec.tick,
    dgu := s.dgu.map DigitRec.tick,
    csq := s.csq.map (fun r => r.map CallRec.tick),
    rsc := { s.rsc with slotTimer := s.rsc.slotTimer - 1 },
    itu := { s.itu with inProgress := s.itu.inProgress.map (fun t => { t with fresh := false }) },
    mgp := { s.mgp with replySlot := s.mgp.replySlot.map Reply.tick } }

/-- The start of an interval: both frames sent, the FOREIGN_CODE pegs in line order, the timers (R148, R156). -/
def State.sendFrame (s : State) : State :=
  (s.newlyPoliced.foldl (fun t n => t.peg .foreignCode (some n)) s.sendFrames).tick

/-! The commands of the ring scheduler and the call sequencer that are due or not. -/

/-- The slot timer has run out (R43). -/
def State.slotDue (s : State) : Bool := decide (s.rsc.slotTimer = 0)

/-- The kinds of request at the RSC (R122). -/
inductive RequestKind where
  | place
  | stage
  | amend
  | release
  deriving DecidableEq, Repr

def RscRequest.kindOf : RscRequest → RequestKind
  | .place _ _ _ _ _ => .place
  | .stage _ _ => .stage
  | .amend _ _ _ => .amend
  | .release _ => .release

/-- The oldest request taken, when it is of this kind (R122, log 6). -/
def State.takeKind (s : State) (k : RequestKind) : State :=
  if s.rsc.requests.head?.map RscRequest.kindOf = some k then s.takeNext else s

/-- The expiry of a call's hang-up timer (R135). -/
def State.hangupExpiry (s : State) (c : CallNo) : State :=
  match s.callRec c with
  | some r =>
    if r.state = .hangupWait ∧ r.hangupTimer = some 0 then
      s.endCall c .abandoned .lockout (some .revertAbandoned) true
    else s
  | none => s

/-! Meanings. -/

/-- FRAME_SEND (R148). -/
def execFrameSend (s : State) : Host.Outcome State Fault Refusal := .next s.sendFrame

/-- FRAME_RECEIVED (R151). -/
def execFrameReceived (p : Port) (f : Frame) (s : State) : Host.Outcome State Fault Refusal :=
  .next (s.frameReceived p f)

/-- ALIGNMENT_FOUND (R150). -/
def execAlignmentFound (p : Port) (f : Frame) (s : State) : Host.Outcome State Fault Refusal :=
  .next (s.windowExamined p f)

/-- E_PORT_INTERVAL_CLOSE (R181). -/
def execEPortIntervalClose (s : State) : Host.Outcome State Fault Refusal := .next s.closeE

/-- SHORT_TIMEOUT (R182). -/
def execShortTimeout (s : State) : Host.Outcome State Fault Refusal := .next (s.closeEIf .warning)

/-- LONG_TIMEOUT (R183). -/
def execLongTimeout (s : State) : Host.Outcome State Fault Refusal := .next (s.closeEIf .lost)

/-- LINK_RESTORED (R187). -/
def execLinkRestored (s : State) : Host.Outcome State Fault Refusal := .next (s.closeEIf .restored)

/-- L_PORT_INTERVAL_CLOSE (R152). -/
def execLPortIntervalClose (s : State) : Host.Outcome State Fault Refusal := .next s.closeL

/-- SLOT_TIMER_EXPIRY (R45). -/
def execSlotTimerExpiry (s : State) : Host.Outcome State Fault Refusal :=
  .next (if s.slotDue then s.slotExpiry else s)

/-- PLACE_REQUEST (R29). -/
def execPlaceRequest (s : State) : Host.Outcome State Fault Refusal := .next (s.takeKind .place)

/-- STAGE_REQUEST (R50). -/
def execStageRequest (s : State) : Host.Outcome State Fault Refusal := .next (s.takeKind .stage)

/-- AMEND_REQUEST (R36). -/
def execAmendRequest (s : State) : Host.Outcome State Fault Refusal := .next (s.takeKind .amend)

/-- RELEASE_REQUEST (R38). -/
def execReleaseRequest (s : State) : Host.Outcome State Fault Refusal := .next (s.takeKind .release)

/-- HANGUP_TIMER_EXPIRY (R135). -/
def execHangupTimerExpiry (c : CallNo) (s : State) : Host.Outcome State Fault Refusal :=
  .next (s.hangupExpiry c)

end Sys2Proof.Machine
end

