-- ==== Sys2Proof/Machine/Dispatch.lean ====
section
/-! DEFINITION. One arm for each command: the call of its meaning. -/

namespace Sys2Proof.Machine

/-- What a command does to everything but the queue. -/
def exec (i : Instr) (s : State) : Host.Outcome State Fault Refusal :=
  match i with
  | .powerOnReset pins => Sys2Proof.Machine.execPowerOnReset pins s
  | .frameSend => Sys2Proof.Machine.execFrameSend s
  | .frameReceived port frame => Sys2Proof.Machine.execFrameReceived port frame s
  | .ePortIntervalClose => Sys2Proof.Machine.execEPortIntervalClose s
  | .shortTimeout => Sys2Proof.Machine.execShortTimeout s
  | .longTimeout => Sys2Proof.Machine.execLongTimeout s
  | .linkRestored => Sys2Proof.Machine.execLinkRestored s
  | .lPortIntervalClose => Sys2Proof.Machine.execLPortIntervalClose s
  | .shelfLoss => Sys2Proof.Machine.execShelfLoss s
  | .lineByte line => Sys2Proof.Machine.execLineByte line s
  | .seizureQualify line => Sys2Proof.Machine.execSeizureQualify line s
  | .callSeizure line => Sys2Proof.Machine.execCallSeizure line s
  | .onHook line => Sys2Proof.Machine.execOnHook line s
  | .trip line => Sys2Proof.Machine.execTrip line s
  | .faultEntry line => Sys2Proof.Machine.execFaultEntry line s
  | .faultCleared line => Sys2Proof.Machine.execFaultCleared line s
  | .lockoutTimerExpiry line => Sys2Proof.Machine.execLockoutTimerExpiry line s
  | .discardEnd line => Sys2Proof.Machine.execDiscardEnd line s
  | .digitEnd line => Sys2Proof.Machine.execDigitEnd line s
  | .collectionTimeout line => Sys2Proof.Machine.execCollectionTimeout line s
  | .generatorTimerExpiry line => Sys2Proof.Machine.execGeneratorTimerExpiry line s
  | .replayEnd line => Sys2Proof.Machine.execReplayEnd line s
  | .slotTimerExpiry => Sys2Proof.Machine.execSlotTimerExpiry s
  | .placeRequest => Sys2Proof.Machine.execPlaceRequest s
  | .stageRequest => Sys2Proof.Machine.execStageRequest s
  | .amendRequest => Sys2Proof.Machine.execAmendRequest s
  | .releaseRequest => Sys2Proof.Machine.execReleaseRequest s
  | .testTimeout => Sys2Proof.Machine.execTestTimeout s
  | .hangupTimerExpiry call => Sys2Proof.Machine.execHangupTimerExpiry call s
  | .replyHoldOffExpiry => Sys2Proof.Machine.execReplyHoldOffExpiry s
  | .replySent => Sys2Proof.Machine.execReplySent s
  | .relayedMessageSent => Sys2Proof.Machine.execRelayedMessageSent s
  | .noticeSent => Sys2Proof.Machine.execNoticeSent s
  | .occupancySample => Sys2Proof.Machine.execOccupancySample s
  | .ring req => Sys2Proof.Machine.execRing req s
  | .ringStop req => Sys2Proof.Machine.execRingStop req s
  | .ringAmend req => Sys2Proof.Machine.execRingAmend req s
  | .revert req => Sys2Proof.Machine.execRevert req s
  | .identify req => Sys2Proof.Machine.execIdentify req s
  | .lineBlock req => Sys2Proof.Machine.execLineBlock req s
  | .lineUnblock req => Sys2Proof.Machine.execLineUnblock req s
  | .lineQuery req => Sys2Proof.Machine.execLineQuery req s
  | .callQuery req => Sys2Proof.Machine.execCallQuery req s
  | .tableWriteLineAttribute req => Sys2Proof.Machine.execTableWriteLineAttribute req s
  | .tableWriteParty req => Sys2Proof.Machine.execTableWriteParty req s
  | .tableWriteCadence req => Sys2Proof.Machine.execTableWriteCadence req s
  | .tableWriteBus req => Sys2Proof.Machine.execTableWriteBus req s
  | .tableWriteGroup req => Sys2Proof.Machine.execTableWriteGroup req s
  | .tableWriteTiming req => Sys2Proof.Machine.execTableWriteTiming req s
  | .tableRead req => Sys2Proof.Machine.execTableRead req s
  | .tableCheck req => Sys2Proof.Machine.execTableCheck req s
  | .meterSet req => Sys2Proof.Machine.execMeterSet req s
  | .meterRead req => Sys2Proof.Machine.execMeterRead req s
  | .meterPreset req => Sys2Proof.Machine.execMeterPreset req s
  | .meterFreeze req => Sys2Proof.Machine.execMeterFreeze req s
  | .globalFreeze env => Sys2Proof.Machine.execGlobalFreeze env s
  | .meterThaw req => Sys2Proof.Machine.execMeterThaw req s
  | .globalThaw env => Sys2Proof.Machine.execGlobalThaw env s
  | .meterClear req => Sys2Proof.Machine.execMeterClear req s
  | .countersRead req => Sys2Proof.Machine.execCountersRead req s
  | .setAddress req => Sys2Proof.Machine.execSetAddress req s
  | .reset req => Sys2Proof.Machine.execReset req s
  | .alignmentFound port window => Sys2Proof.Machine.execAlignmentFound port window s
  | .unknownRequestCode code req => Sys2Proof.Machine.execUnknownRequestCode code req s

end Sys2Proof.Machine
end

