-- ==== Sys2Proof/Safety.lean ====
section
/-! DEFINITION. What a lawful state is, and the words in which the statements about the part are written. No command
stops the part, so a run is safe when every state of it keeps the laws below. -/

namespace Sys2Proof.Machine

/-! Laws of the tables (R6, R8, R9, R10, R12). -/

/-- A cadence is empty, or has 2, 4, 6 or 8 segments of 1-22 slots that sum to 24 (R8). -/
def cadenceLawful (c : List Nat) : Prop :=
  c = [] ∨ ((c.length = 2 ∨ c.length = 4 ∨ c.length = 6 ∨ c.length = 8) ∧ (∀ d ∈ c, 1 ≤ d ∧ d ≤ 22) ∧ c.sum = 24)

/-- A present entry names a defined cadence, and its fields are in range (R4). -/
def State.entryLawful (s : State) (e : PartyEntry) : Prop :=
  s.cadence e.spec.cadence ≠ [] ∧ 1 ≤ e.spec.bell ∧ e.spec.bell ≤ 7 ∧ (∀ x, e.identityClass = some x → x ≤ 14) ∧
    (e.code = [] ∨ 2 ≤ e.code.length ∧ e.code.length ≤ 4) ∧ ∀ d ∈ e.code, d ≤ 9

/-- Among the present parties of a line, identity classes are distinct and revert codes prefix-free (R6). -/
def State.partiesDistinct (s : State) (n : LineId) : Prop :=
  ∀ p q e o, p ≠ q → s.party n p = some e → s.party n q = some o →
    (e.identityClass = none ∨ e.identityClass ≠ o.identityClass) ∧
      (e.code = [] ∨ o.code = [] ∨ ¬ e.code <+: o.code)

/-- The laws of the tables. -/
structure State.TablesLawful (s : State) : Prop where
  cadences : ∀ c, cadenceLawful (s.cadence c)
  entries : ∀ n p e, s.party n p = some e → s.entryLawful e
  parties : ∀ n, s.partiesDistinct n
  capacities : ∀ b, s.capacity b ≤ 63
  defaults : ∀ n, 1 ≤ (s.attr n).defaultCycles ∧ (s.attr n).defaultCycles ≤ 31
  timing : s.timing.legal = true

/-! Laws of the Ring Slot Map (R20, R22, R23). -/

/-- No two ring parts are of one call (R20). -/
def partsDistinct (parts : List RingPart) : Prop := (parts.map (fun p => p.call)).Nodup

/-- The part is placed, and ring-on at cycle slot `sl` (R22). -/
def State.ringsAt (s : State) (p : RingPart) (sl : Slot) : Bool :=
  match p.status with
  | .placed k _ => ringOnSlot (s.cadence p.spec.cadence) k sl
  | .queued _ => false

/-- What a part adds to the load of bus `b` at cycle slot `sl` (R22). -/
def State.loadOf (s : State) (p : RingPart) (b : BusId) (sl : Slot) : Nat :=
  if p.spec.bus = b ∧ s.ringsAt p sl = true then p.spec.bell else 0

/-- What a part adds to the occupancy of group `g` at cycle slot `sl` (R23). -/
def State.occupancyOf (s : State) (p : RingPart) (g : GroupId) (sl : Slot) : Nat :=
  if p.group = g ∧ s.ringsAt p sl = true then 1 else 0

/-- A call holds at most one part (R20). The load of a bus is the sum of the bell loads of the placed parts that are
ring-on, and the occupancy of a group their number (R22, R23). No bus carries more than its capacity at any cycle slot
(R22), and in a group with exclusion on at most one line is ring-on at any cycle slot (R23). -/
structure State.MapLawful (s : State) : Prop where
  distinct : partsDistinct s.rsc.parts
  loadSum : ∀ b sl, tget (tget s.rsc.busLoad b) sl = (s.rsc.parts.map (fun p => s.loadOf p b sl)).sum
  occupancySum : ∀ g sl, tget (tget s.rsc.occupancy g) sl = (s.rsc.parts.map (fun p => s.occupancyOf p g sl)).sum
  load : ∀ b sl, tget (tget s.rsc.busLoad b) sl ≤ s.capacity b
  occupancy : ∀ g sl, s.exclusion g = true → tget (tget s.rsc.occupancy g) sl ≤ 1

/-! Laws of the buffers (R26, R33, R90, R168, R171, R172, R180). -/

/-- No part is overtaken more than 8 times (R20, R26), and no digit buffer holds more than 12 digits (R90). -/
structure State.BuffersLawful (s : State) : Prop where
  overtaken : ∀ p ∈ s.rsc.parts, ∀ k, p.status = .queued k → k ≤ 8
  digits : ∀ n, (s.digits n).buffer.length ≤ 12

/-- Every counter of a port holds 0-65535 (R164). -/
def PortCounters.bounded (c : PortCounters) : Prop :=
  c.valid ≤ 65535 ∧ c.check ≤ 65535 ∧ c.kind ≤ 65535 ∧ c.length ≤ 65535 ∧ c.abort ≤ 65535

/-- The bounds of the Management Port's queues and counters (R164, R168, R171, R172, R177). -/
structure Mgp.Lawful (m : Mgp) : Prop where
  urgent : m.urgent.length ≤ 8
  routine : m.routine.length ≤ 16
  relay : m.relayBuffer.length ≤ 2
  run : m.runCount ≤ 2
  ePort : m.counters.ePort.bounded
  lPort : m.counters.lPort.bounded
  others : m.counters.overrun ≤ 65535 ∧ m.counters.relayDropped ≤ 65535 ∧ m.counters.urgentLost ≤ 65535 ∧
    m.counters.routineLost ≤ 65535

/-- While the link is ISOLATED, no line is in THROUGH or REPLAYING (R185). -/
def State.IsolatedLawful (s : State) : Prop :=
  s.lkm.state = .isolated → ∀ n, (s.line n).state ≠ .through ∧ (s.line n).state ≠ .replaying

/-- The receive assembler fed with the pairs of a run of management bytes: what it finds in the last pair, when it
has found nothing else than a message under way before (R163). -/
def feedPairs : Option (List Byte) → List Byte → Option Assembled
  | a, [b1, b2] => some (assemble a b1 b2).2
  | a, b1 :: b2 :: rest =>
    match assemble a b1 b2 with
    | (a, .taken) => feedPairs a rest
    | _ => none
  | _, _ => none

/-! Words of the statements: requests. -/

/-- The request message that a request command stands for: its code, and its request with the whole payload (R174,
R175). -/
def commandRequest : Instr → Option (Byte × Req)
  | .ring r => some (0x01, r)
  | .ringStop r => some (0x02, r)
  | .ringAmend r => some (0x03, r)
  | .revert r => some (0x04, r)
  | .identify r => some (0x08, r)
  | .lineBlock r => some (0x09, r)
  | .lineUnblock r => some (0x0A, r)
  | .lineQuery r => some (0x0B, r)
  | .callQuery r => some (0x0C, r)
  | .tableWriteLineAttribute r => some (0x10, { r with payload := 1 :: r.payload })
  | .tableWriteParty r => some (0x10, { r with payload := 2 :: r.payload })
  | .tableWriteCadence r => some (0x10, { r with payload := 3 :: r.payload })
  | .tableWriteBus r => some (0x10, { r with payload := 4 :: r.payload })
  | .tableWriteGroup r => some (0x10, { r with payload := 5 :: r.payload })
  | .tableWriteTiming r => some (0x10, { r with payload := 6 :: r.payload })
  | .tableRead r => some (0x11, r)
  | .tableCheck r => some (0x12, r)
  | .meterSet r => some (0x18, r)
  | .meterRead r => some (0x19, r)
  | .meterPreset r => some (0x1A, r)
  | .meterFreeze r => some (0x1B, r)
  | .globalFreeze env => some (0x1B, { env with payload := [8] })
  | .meterThaw r => some (0x1C, r)
  | .globalThaw env => some (0x1C, { env with payload := [8] })
  | .meterClear r => some (0x1D, r)
  | .countersRead r => some (0x20, r)
  | .setAddress r => some (0x21, r)
  | .reset r => some (0x22, r)
  | .unknownRequestCode code r => some (code, r)
  | _ => none

/-- The part executes the request: it is broadcast, or it is addressed to the part, whose reply slot is empty
(R169). -/
def State.hears (s : State) (r : Req) : Prop := r.broadcast = true ∨ s.mgp.replySlot = none

/-- The state with this reply in the reply slot (R170), its hold-off timer started with the setting `hold`. A
broadcast request draws no reply (R169). -/
def State.replied (s : State) (code : Byte) (r : Req) (hold : Nat) (payload : List Byte)
    (after : AfterReply := .nothing) : State :=
  if r.broadcast then s
  else { s with mgp := { s.mgp with
      replySlot := some
        { destination := r.source, code := code, payload := payload, after := after,
          holdOff := if hold = 0 then none else some hold } } }

/-- The command is answered: its next state is `t`, with the reply `payload` in the slot unless the request is
broadcast. -/
def answers (c : Instr) (s : State) (code : Byte) (r : Req) (t : State) (payload : List Byte) : Prop :=
  exec c s = .next (t.replied code r s.timing.replyHoldOff payload)

/-- The command is refused: nothing changes but the reply slot, which takes the status alone (R1, R170). A broadcast
one changes nothing. -/
def refuses (c : Instr) (s : State) (code : Byte) (r : Req) (status : Byte) : Prop :=
  answers c s code r s [status]

/-! Words of the statements: reports and records. -/

/-- What an event reports: a notice (R171), or a peg event with its line (R192). -/
inductive Report where
  | notice (n : Notice)
  | peg (e : PegEvent) (line : Option LineId)
  deriving DecidableEq, Repr

/-- The reports taken in order. They touch only the meters, the notice queues and the notice counters. -/
def State.reported (s : State) : List Report → State
  | [] => s
  | .notice n :: rest => (s.notify n).reported rest
  | .peg e line :: rest => (s.peg e line).reported rest

/-- The state with the line record, the digit record and the two claim sets of one line replaced. -/
def State.withLine (s : State) (n : LineId) (r : LineRec) (d : DigitRec) (c : DownClaims) (u : UpClaims) : State :=
  { s with
    lsv := tset s.lsv n r, dgu := tset s.dgu n d,
    hwi := { s.hwi with down := tset s.hwi.down n c, up := tset s.hwi.up n u } }

/-- The state with requests added at the end of the RSC's FIFO (R122). -/
def State.handed (s : State) (qs : List RscRequest) : State :=
  { s with rsc := { s.rsc with requests := s.rsc.requests ++ qs } }

/-- The call's record freed and its release request handed, if it holds a ring part (R141 steps 1 and 6). -/
def State.freed (s : State) (c : CallNo) (r : CallRec) : State :=
  { s.handed (if r.ringPart then [.release c] else []) with csq := tset s.csq c none }

/-- R129, R138: what an answer leads to, from a state `s` in which the LSV has set the line's record to `q`, with the
reports that follow it. -/
def answerLeads (s : State) (n : LineId) (c : CallNo) (rec : CallRec) (q : LineRec) (tail : List Report)
    (goes : State → Prop) : Prop :=
  let down := (s.down n).noLsv
  let through : LineRec :=
    { q with state := .through, faultReason := none, lockoutTimer := none, lockoutPhase := none }
  let released := s.handed (if rec.ringPart then [.release c] else [])
  let test : Itu := ⟨[], some ⟨n, [.call c], 0, true⟩⟩
  let calls (st : CallState) := tset s.csq c (some { rec with state := st, ringPart := false })
  (rec.state = .ringing → rec.answerIdentify ≠ some true → s.linked = true →
    goes (((s.freed c rec).withLine n through DigitRec.initial { down with call := none } ⟨false, none, false⟩).reported
      (.notice (.callEnd (callEndOf c rec .answered)) :: tail))) ∧
  (rec.state = .ringing → rec.answerIdentify ≠ some true → s.linked = false →
    goes (((s.freed c rec).withLine n
      { q with state := .lockout, faultReason := none, lockoutTimer := some 6000, lockoutPhase := some .tone }
      DigitRec.initial { down with call := none, lockout := some .hangupTone } ⟨false, none, true⟩).reported
      (.notice (.lineLockout n) :: .peg .lockout (some n) :: .notice (.callEnd (callEndOf c rec .answered)) :: tail))) ∧
  (rec.state = .ringing → rec.answerIdentify = some true → s.itu = ⟨[], none⟩ → s.linked = true →
    goes (({ released with csq := calls .identifying, itu := test }.withLine n through DigitRec.initial
      { down with test := some .test } ⟨false, none, false⟩).reported
      (.notice (.answer c .xr n none none) :: tail))) ∧
  (rec.state = .ringing → rec.answerIdentify = some true → s.itu = ⟨[], none⟩ → s.linked = false →
    goes (({ released with csq := calls .identifying, itu := test }.withLine n q (s.digits n)
      { s.down n with test := some .test } (s.up n)).reported (.notice (.answer c .xr n none none) :: tail))) ∧
  (rec.state = .revertRinging → s.itu = ⟨[], none⟩ →
    goes (({ released with csq := calls .answerTest, itu := test }.withLine n q (s.digits n)
      { s.down n with call := some .feed, test := some .test } (s.up n)).reported tail))

/-- No test is in progress on the line, and none waits for it. -/
def State.untested (s : State) (n : LineId) : Prop :=
  s.testOn n = none ∧ ∀ q ∈ s.itu.queue, q.line ≠ n

/-- R117: the withdrawal of call `c` from the request of line `n`, waiting or in progress, with the state `v` that it
leaves and the reports `first` of it: a request left without a requester is removed, and the oldest waiting one begins
where it was in progress. -/
def State.withdraws (s : State) (n : LineId) (c : CallNo) (v : State) (first : List Report) : Prop :=
  let aborted : List Report := [.peg .testAborted (some n)]
  let free := tset s.hwi.down n { s.down n with test := none }
  let beside (rs : List Requester) := rs = [.call c, .exchange] ∨ rs = [.exchange, .call c]
  (s.untested n ∧ v = s ∧ first = []) ∨
  (∃ x, s.itu = ⟨[], some x⟩ ∧ x.line = n ∧ x.requesters = [.call c] ∧ first = aborted ∧
    v = { s with itu := ⟨[], none⟩, hwi := { s.hwi with down := free } }) ∨
  (∃ x q rest, s.itu = ⟨q :: rest, some x⟩ ∧ x.line = n ∧ q.line ≠ n ∧ x.requesters = [.call c] ∧ first = aborted ∧
    v = { s with
      itu := ⟨rest, some ⟨q.line, q.requesters, 0, true⟩⟩,
      hwi := { s.hwi with down := tset free q.line { s.down q.line with test := some .test } } }) ∨
  (∃ x, s.itu.inProgress = some x ∧ x.line = n ∧ beside x.requesters ∧ first = [] ∧
    v = { s with itu := { s.itu with inProgress := some { x with requesters := [.exchange] } } }) ∨
  (∃ older rs younger, s.testOn n = none ∧ s.itu.queue = older ++ ⟨n, rs⟩ :: younger ∧
    (∀ q ∈ older ++ younger, q.line ≠ n) ∧
    ((rs = [.call c] ∧ first = aborted ∧ v = { s with itu := { s.itu with queue := older ++ younger } }) ∨
      (beside rs ∧ first = [] ∧
        v = { s with itu := { s.itu with queue := older ++ ⟨n, [.exchange]⟩ :: younger } })))

/-- R115, R116: a fault or a block aborts the request of line `n`, waiting or in progress, with the reports `first`
before the abort and `last` after it. `place` makes the state with the bridge and the line's downstream claims that are
given, and `down` is these claims but for TEST. -/
def abortLeads (s : State) (n : LineId) (place : Itu → DownClaims → State) (down : DownClaims)
    (first last : List Report) (goes : State → Prop) : Prop :=
  let abort (rs : List Requester) : List Report :=
    (if .exchange ∈ rs then [.notice (.identity n .aborted none none)] else []) ++ [.peg .testAborted (some n)]
  (s.untested n → goes ((place s.itu down).reported (first ++ last))) ∧
  (∀ older younger rs, s.testOn n = none → (∀ q ∈ older ++ younger, q.line ≠ n) →
    s.itu.queue = older ++ ⟨n, rs⟩ :: younger →
    goes ((place { s.itu with queue := older ++ younger } down).reported (first ++ abort rs ++ last))) ∧
  ∀ x, s.itu.inProgress = some x → x.line = n → (∀ q ∈ s.itu.queue, q.line ≠ n) →
    (s.itu.queue = [] →
      goes ((place ⟨[], none⟩ { down with test := none }).reported (first ++ abort x.requesters ++ last))) ∧
    ∀ q rest, s.itu.queue = q :: rest →
      let v := place ⟨rest, some ⟨q.line, q.requesters, 0, true⟩⟩ { down with test := none }
      let begun := tset v.hwi.down q.line { s.down q.line with test := some .test }
      goes (({ v with hwi := { v.hwi with down := begun } } : State).reported
        (first ++ abort x.requesters ++ last))

/-! Words of the statements: digits. -/

/-- R85, R86, R87, R89: what the pulse receiver leads to by the loop field of an interval that ends no digit and no
discard: an interval within an element or the end of a good one, the first break of a digit, or an invalid element. -/
def receiverLeads (d : DigitRec) (loop : Loop) (goes first invalid : DigitRec → Prop) : Prop :=
  (loop = .closed →
    (d.phase = .waiting → goes d) ∧
    (d.phase = .brk → 6 ≤ d.element → d.element ≤ 16 → d.pulses < 10 →
      goes { d with phase := .make, element := 1, pulses := d.pulses + 1 }) ∧
    (d.phase = .brk → d.element < 6 ∨ 16 < d.element ∨ 10 ≤ d.pulses →
      invalid { d with phase := .discarding, element := 1, pulses := 0 }) ∧
    (d.phase = .make ∨ d.phase = .discarding → d.element + 1 < 40 → goes { d with element := d.element + 1 })) ∧
  (loop = .opened →
    (d.phase = .waiting → first { d with phase := .brk, element := 1, pulses := 0 }) ∧
    (d.phase = .brk → goes { d with element := d.element + 1 }) ∧
    (d.phase = .make → 4 ≤ d.element → d.element ≤ 12 → goes { d with phase := .brk, element := 1 }) ∧
    (d.phase = .make → d.element < 4 ∨ 12 < d.element →
      invalid { d with phase := .discarding, element := 0, pulses := 0 }) ∧
    (d.phase = .discarding → goes { d with element := 0 }))

/-! Words of the statements: the Ring Slot Map. -/

/-- R25: at every slot where a part of this spec with offset `k` is ring-on, its bus has room and, in a group with
exclusion on, no line is ring-on. -/
def State.fitsAt (s : State) (sp : Spec) (g : GroupId) (k : Slot) : Prop :=
  ∀ sl, ringOnSlot (s.cadence sp.cadence) k sl = true →
    tget (tget s.rsc.busLoad sp.bus) sl + sp.bell ≤ s.capacity sp.bus ∧
      (s.exclusion g = true → tget (tget s.rsc.occupancy g) sl = 0)

/-- R27: `k` is the first offset that passes, in the order of the search from the bus's start pointer. -/
def State.firstFit (s : State) (sp : Spec) (g : GroupId) (k : Slot) : Prop :=
  ∃ i : Slot, k = tget s.rsc.startPointer sp.bus + i ∧ s.fitsAt sp g k ∧
    ∀ j, j < i → ¬ s.fitsAt sp g (tget s.rsc.startPointer sp.bus + j)

/-- R24: the map of `t` is that of `s` with a part of this spec added at offset `k`. -/
def State.mapAdded (s t : State) (sp : Spec) (g : GroupId) (k : Slot) : Prop :=
  (∀ b sl, tget (tget t.rsc.busLoad b) sl =
    tget (tget s.rsc.busLoad b) sl +
      if b = sp.bus ∧ ringOnSlot (s.cadence sp.cadence) k sl = true then sp.bell else 0) ∧
  ∀ h sl, tget (tget t.rsc.occupancy h) sl =
    tget (tget s.rsc.occupancy h) sl + if h = g ∧ ringOnSlot (s.cadence sp.cadence) k sl = true then 1 else 0

/-- R24: the map of `t` is that of `s` with a part of this spec subtracted at offset `k`. -/
def State.mapRemoved (s t : State) (sp : Spec) (g : GroupId) (k : Slot) : Prop :=
  (∀ b sl, tget (tget t.rsc.busLoad b) sl =
    tget (tget s.rsc.busLoad b) sl -
      if b = sp.bus ∧ ringOnSlot (s.cadence sp.cadence) k sl = true then sp.bell else 0) ∧
  ∀ h sl, tget (tget t.rsc.occupancy h) sl =
    tget (tget s.rsc.occupancy h) sl - if h = g ∧ ringOnSlot (s.cadence sp.cadence) k sl = true then 1 else 0

/-- The state with these ring parts and with the map of another state. -/
def State.withParts (s : State) (parts : List RingPart) (map : State) : State :=
  { s with rsc := { s.rsc with parts := parts, busLoad := map.rsc.busLoad, occupancy := map.rsc.occupancy } }

/-- No ring part waits in the queue. -/
def State.noneWaits (s : State) : Prop := ∀ p ∈ s.rsc.parts, ∀ m, p.status ≠ .queued m

/-- R26: no part of the list blocks the bus. -/
def noneBlocks (parts : List RingPart) (b : BusId) : Prop :=
  ∀ p ∈ parts, p.spec.bus = b → p.status ≠ .queued 8

/-- R33: a placement on the bus overtakes the queued parts of the bus in the list. -/
def overtakenBy (b : BusId) (parts : List RingPart) : List RingPart :=
  parts.map (fun p => p.overtakenOn b)

/-- The calls of the parts that wait, oldest first (R31). -/
def queuedCalls (parts : List RingPart) : List CallNo :=
  parts.filterMap (fun p =>
    match p.status with
    | .queued _ => some p.call
    | .placed _ _ => none)

/-- R28, R33: the part `p` among the older and younger parts, placed by the search at `k`: start-pending, the older
waiting parts of its bus overtaken, the bus's start pointer moved, RING_PLACED pegged. `map` has the map with it. -/
def State.foundPlace (s map : State) (older younger : List RingPart) (p : RingPart) (k : Slot) : State :=
  let t := s.withParts (overtakenBy p.spec.bus older ++ { p with status := .placed k true } :: younger) map
  let pointer := tset s.rsc.startPointer p.spec.bus (k + Fin.ofNat 24 s.timing.stagger)
  State.reported { t with rsc := { t.rsc with startPointer := pointer } } [.peg .ringPlaced (some p.line)]

/-- R34: the scan of the waiting parts of these calls, from a state to the state it leaves: each part in turn is placed
by the search when no older part blocks its bus and an offset passes, and stays as it is otherwise, the next part being
judged against the map, the counts and the pointers as they then stand. -/
inductive Passed : List CallNo → State → State → Prop where
  | done (s : State) : Passed [] s s
  | placed (s map u : State) (older younger : List RingPart) (p : RingPart) (m : Nat) (k : Slot) (rest : List CallNo) :
      s.rsc.parts = older ++ p :: younger → p.status = .queued m → noneBlocks older p.spec.bus →
      s.firstFit p.spec p.group k → s.mapAdded map p.spec p.group k →
      Passed rest (s.foundPlace map older younger p k) u → Passed (p.call :: rest) s u
  | stays (s u : State) (older younger : List RingPart) (p : RingPart) (m : Nat) (rest : List CallNo) :
      s.rsc.parts = older ++ p :: younger → p.status = .queued m →
      (¬ noneBlocks older p.spec.bus ∨ ∀ k, ¬ s.fitsAt p.spec p.group k) →
      Passed rest s u → Passed (p.call :: rest) s u

/-- R34: a placement pass takes the state to `u`. -/
def State.passes (s u : State) : Prop := Passed (queuedCalls s.rsc.parts) s u

/-- R122, R126, R130, R137, R138: what the call of part `p` makes of a cycle boundary report, with the spec `held` that
the part then holds, the cycle count `limit` of a staged amend that took effect at the boundary, and `t` the state but
for the call. That a call in IDENTIFYING takes the cycle count is log 29. -/
def boundaryTells (s : State) (p : RingPart) (limit : Option Nat) (held : Spec) (t : State) (goes : State → Prop) :
    Prop :=
  let n := p.line
  ((∀ rec, s.callRec p.call = some rec → rec.line ≠ n) → goes t) ∧
  ∀ rec, s.callRec p.call = some rec → rec.line = n →
    let now : CallRec := { rec with ringLimit := limit.or rec.ringLimit }
    let rung : State := { t with csq := tset s.csq p.call (some { now with cyclesRung := p.cyclesCompleted + 1 }) }
    (rec.state ≠ .ringing → rec.state ≠ .revertRinging → goes { t with csq := tset s.csq p.call (some now) }) ∧
    (rec.state = .ringing → goes rung) ∧
    (rec.state = .revertRinging → (s.attr n).backRing = true → ∀ called caller q, s.specOf n rec.called = some called →
      rec.caller = some q → s.specOf n q = some caller → called ≠ caller →
      goes (rung.handed [.stage p.call (if held = called then caller else called)])) ∧
    (rec.state = .revertRinging →
      (s.attr n).backRing = false ∨ (∀ q, rec.caller = some q → s.specOf n q = s.specOf n rec.called) → goes rung)

/-- R49, R122, R126, R130, R138: what the call of part `p` makes of its cycles exhausted report, with the cycle count
`limit` of a staged amend that took effect at the boundary, and `t` the state but for the call, its line and its reports,
in which the line's record is `r`. -/
def exhaustedTells (s : State) (p : RingPart) (limit : Option Nat) (r : LineRec) (t : State) (goes : State → Prop) :
    Prop :=
  let n := p.line
  let count := p.cyclesCompleted + 1
  ((∀ rec, s.callRec p.call = some rec → rec.line ≠ n) → goes t) ∧
  ∀ rec, s.callRec p.call = some rec → rec.line = n →
    (rec.state ≠ .ringing → rec.state ≠ .revertRinging →
      let now : CallRec := { rec with ringLimit := limit.or rec.ringLimit, cyclesRung := count }
      goes { t with csq := tset s.csq p.call (some now) }) ∧
    (rec.state = .ringing ∨ rec.state = .revertRinging → s.untested n → (s.line n).state = .call →
      let ended : CallRec := { rec with cyclesRung := count, ringPart := false }
      goes (({ t with csq := tset s.csq p.call none }.withLine n
        { r with
          state := .idle, loop := .opened, onHookCount := if r.loop = Loop.opened then r.onHookCount else 0,
          faultReason := none, lockoutTimer := none, lockoutPhase := none }
        DigitRec.initial { (s.down n).noLsv with ring := none, call := none } ⟨false, none, false⟩).reported
        [.notice (.callEnd (callEndOf p.call ended .noAnswer)), .peg .noAnswer (some n)]))

/-! Words of the statements: meters. -/

/-- R192, R193, R194: what an event that raises the meters that `selects` names leads to. A meter at its top count wraps.
In the order M0 to M7 (log 12) each one that wraps with its notice on puts a METER notice, with the meters that are
overflowed at that moment, into a routine queue with room for them. On a full queue a notice that is the only one is
dropped, which reports NOTICE_LOST in turn. -/
def raiseLeads (s : State) (selects : Meter → Bool) (goes : State → Prop) : Prop :=
  let wraps (i : MeterId) : Bool := selects (s.meter i) && decide ((s.meter i).count = 0xFFFFFFFF#32)
  let noted := meterIds.filter (fun i => wraps i && (s.meter i).overflowNotice)
  let raised (m : Meter) : Meter :=
    if selects m = false then m
    else if m.count = 0xFFFFFFFF#32 then
      { m with count := 0, overflowed := true, frozen := m.frozen || m.freezeOnOverflow }
    else { m with count := m.count + 1 }
  let lost (m : Meter) : Bool :=
    m.enabled && !m.frozen && !s.tmu.globalFrozen && decide (m.mode = .peg) && decide (m.selection = 19) &&
      decide (m.lineFilter = none)
  (noted = [] ∨ noted.length + s.mgp.routine.length ≤ 16 → ∃ (t : Vector Meter 8) (o : MeterId → Byte),
    (∀ i, tget t i = raised (s.meter i)) ∧
    (∀ i j : MeterId, (o i).getLsbD j.val = ((s.meter j).overflowed || (wraps j && decide (j ≤ i)))) ∧
    goes { s with
      tmu := { s.tmu with meters := t },
      mgp := { s.mgp with routine := s.mgp.routine ++ noted.map (fun i => .meter (o i)) } }) ∧
  ∀ i, noted = [i] → 16 ≤ s.mgp.routine.length →
    (∀ j, lost (s.meter j) = true → selects (s.meter j) = false ∧ (s.meter j).count ≠ 0xFFFFFFFF#32) →
    ∃ t : Vector Meter 8,
      (∀ j, tget t j =
        if lost (s.meter j) then { s.meter j with count := (s.meter j).count + 1 } else raised (s.meter j)) ∧
      goes { s with
        tmu := { s.tmu with meters := t },
        mgp := { s.mgp with
          routineLost := true,
          counters := { s.mgp.counters with
            routineLost :=
              if s.mgp.counters.routineLost < 65535 then s.mgp.counters.routineLost + 1 else 65535 } } }

/-! Words of the statements: frames. -/

/-- What no event of a line, a test, a ring part or a call touches: the tables, the link record, the receive ports,
the sent frames, the policing marks, the shelf-loss state, and the Management Port but for its notices and counters. -/
def State.restStands (s t : State) : Prop :=
  t.pending = s.pending ∧ t.pins = s.pins ∧ t.ptb = s.ptb ∧ t.lkm = s.lkm ∧
    t.hwi = { s.hwi with down := t.hwi.down, up := t.hwi.up } ∧
    t.mgp = { s.mgp with
      urgent := t.mgp.urgent, routine := t.mgp.routine, urgentLost := t.mgp.urgentLost,
      routineLost := t.mgp.routineLost, counters := t.mgp.counters }

/-- Every other line keeps its record, its digit record, its upstream claims, and its downstream claims but for the
TEST claim (the bridge may go to another line). -/
def State.othersStand (s t : State) (n : LineId) : Prop :=
  ∀ m, m ≠ n → t.line m = s.line m ∧ t.digits m = s.digits m ∧ t.up m = s.up m ∧
    ({ t.down m with test := none } : DownClaims) = { s.down m with test := none }

/-- Every other call keeps its record. -/
def State.callsStand (s t : State) (c : CallNo) : Prop := ∀ k, k ≠ c → t.callRec k = s.callRec k

/-- The LSV finds nothing in the line's byte: no fault field, loop CLOSED on a line whose supervised loop is CLOSED. -/
def State.quietClosed (s : State) (n : LineId) : Prop :=
  upFault (s.lByte n) = none ∧ upLoop (s.lByte n) = .closed ∧ (s.line n).loop = .closed

end Sys2Proof.Machine
end

