-- ==== Sys2Proof/Certificates/Slice0/Obligations.lean ====
section
/-! DEFINITION. The statements about the part, for the provers. -/

open Sys2Proof Sys2Proof.Machine

/-! The step and the reset. -/

/-- A step takes the command at the front of the queue and executes it; on an empty queue the part idles, which is the
model's choice (log 2). -/
def Obligations.StepTakesTheFrontCommand : Prop :=
  (∀ (c : Instr) (rest : List Instr) (s : State), s.pending = c :: rest →
    step s = exec c { s with pending := rest }) ∧
  ∀ s : State, s.pending = [] → step s = .next s

/-- No command stops the part: every command at the front of the queue gives a next state. -/
def Obligations.NoCommandStopsThePart : Prop :=
  ∀ (c : Instr) (s : State), ∃ t, exec c s = .next t

/-- A power-on reset gives every field of every table and of every block its value: the tables (R12, R14), the Highway
Interface (R150, R152, R155, R160), the lines (R54, R63), the digit records (R84), the Ring Scheduler (R42, R43), the
calls (R121), the bridge (R107), the link record (R180), the Management Port (R163, R164, R167, R168, R170, R171,
R172, R179) and the meters (R190); and it takes the part address from the pins, 31 being UNADDRESSED (R165). That the
waiting commands stand is the model's choice (log 25). No rule gives the marks of the port intervals, the frames last
sent, the shelf loss reported and the stopped generator timer (log 8), nor the mark `hold` (log 10). -/
def Obligations.PowerOnResetValues : Prop :=
  ∀ (pins : BitVec 5) (s : State),
    let attr : LineAttr :=
      { handling := .exchange, group := 0, defaultCycles := 8, backRing := true, answerIdentifyDefault := false }
    let timing : Timing :=
      { seizureQualify := 40, tripQualify := 4, onHookQualify := 100, hangupWait := 6000, revertCycles := 10,
        stagger := 6, replyHoldOff := 2, shortTimeout := some 100, longTimeout := some 2000, longAction := .isolate }
    let port : RxPort :=
      { alignment := .hunting, wrongSync := 0, lastGood := Vector.replicate 16 0, inForce := Vector.replicate 16 0,
        good := false, validTaken := false, frameSeen := false }
    let down : DownClaims :=
      { fault := none, blocked := none, test := none, ring := none, call := none, lockout := none, collecting := none }
    let up : UpClaims := { fault := false, replay := none, onHook := false }
    let line : LineRec :=
      { state := .idle, loop := .opened, seizureCount := 0, onHookCount := 0, faultCount := 0, clearCount := 0,
        faultReason := none, blockRecorded := false, lockoutTimer := none, lockoutPhase := none, tripCount := 0,
        hold := false }
    let digits : DigitRec :=
      { phase := .waiting, element := 0, pulses := 0, buffer := [], collection := none, generator := .off,
        sending := none, generatorTimer := 0, quiet := 0 }
    let count : PortCounters := { valid := 0, check := 0, kind := 0, length := 0, abort := 0 }
    let meter : Meter :=
      { mode := .peg, selection := 0, lineFilter := none, threshold := 0, invert := false, enabled := false,
        overflowNotice := false, freezeOnOverflow := false, frozen := false, count := 0, overflowed := false }
    ∃ address : Option Address,
      address.map Fin.val = (if pins.toNat = 31 then none else some pins.toNat) ∧
      exec (.powerOnReset pins) s = .next
        { pending := s.pending, pins := pins,
          hwi :=
            { ePort := port, lPort := port, down := Vector.replicate 16 down, up := Vector.replicate 16 up,
              policing := Vector.replicate 16 false, shelfCount := 0, shelfArmed := true, shelfReported := false,
              byteWaits := Vector.replicate 16 false,
              eSent := none, lSent := none },
          lsv := Vector.replicate 16 line, dgu := Vector.replicate 16 digits,
          ptb :=
            { lines := Vector.replicate 16 attr, parties := Vector.replicate 16 (Vector.replicate 8 none),
              cadences := Vector.replicate 16 [], capacity := Vector.replicate 4 0,
              exclusion := Vector.replicate 4 false, timing := timing },
          rsc :=
            { parts := [], busLoad := Vector.replicate 4 (Vector.replicate 24 0),
              occupancy := Vector.replicate 4 (Vector.replicate 24 0), startPointer := Vector.replicate 4 0,
              cycleSlot := 0, slotTimer := 50, requests := [] },
          csq := Vector.replicate 24 none, itu := { queue := [], inProgress := none },
          mgp :=
            { eAssembler := none, lAssembler := none, relay := none, relayPair := none, relayBuffer := [],
              replySlot := none, urgent := [], routine := [], urgentLost := false, routineLost := false,
              runCount := 0,
              sending := none, address := address,
              counters :=
                { ePort := count, lPort := count, overrun := 0, relayDropped := 0, urgentLost := 0, routineLost := 0 } },
          lkm := { state := .acquiring, badCount := 0, lastRun := 0, recovery := 0 },
          tmu := { meters := Vector.replicate 8 meter, globalFrozen := false } }

/-- The part right after reset keeps every law of Safety. -/
def Obligations.ResetStateIsLawful : Prop :=
  State.reset.TablesLawful ∧ State.reset.MapLawful ∧ State.reset.BuffersLawful ∧ State.reset.mgp.Lawful ∧
    State.reset.IsolatedLawful

/-! Laws that every step keeps. -/

/-- R6, R8, R9, R10, R12: every step keeps the laws of the tables. -/
def Obligations.TablesStayLawful : Prop :=
  ∀ s t : State, s.TablesLawful → step s = .next t → t.TablesLawful

/-- R20, R22, R23: in every step no call comes to hold two parts, the Ring Slot Map stays the sums over the placed
parts that are ring-on, the load of no bus rises above its capacity, and exclusion holds. -/
def Obligations.RingSlotMapStaysWithinCapacity : Prop :=
  ∀ s t : State, s.MapLawful → step s = .next t → t.MapLawful

/-- R26, R33, R90: in every step no part is overtaken a ninth time, and no digit buffer takes a 13th digit. -/
def Obligations.BuffersStayLawful : Prop :=
  ∀ s t : State, s.BuffersLawful → step s = .next t → t.BuffersLawful

/-- R164, R168, R171, R172: every step keeps the bounds of the Management Port's queues and counters. -/
def Obligations.ManagementPortStaysBounded : Prop :=
  ∀ s t : State, s.mgp.Lawful → step s = .next t → t.mgp.Lawful

/-- R185: while the link state is ISOLATED, no line is in THROUGH or REPLAYING. Every step keeps this. -/
def Obligations.IsolatedServiceHoldsNoThroughLine : Prop :=
  ∀ s t : State, s.IsolatedLawful → step s = .next t → t.IsolatedLawful

/-! Management messages. -/

/-- R162, R163, R164: every message of the envelope, sent two bytes a frame with fill after an odd end, is assembled
whole at its last pair; its check agrees, and its fields read as they were written. -/
def Obligations.ManagementMessagesReassemble : Prop :=
  ∀ (dest source kind code : Byte) (payload : List Byte), payload.length ≤ 32 →
    let m := message dest source kind code payload
    feedPairs none (if m.length % 2 = 0 then m else m ++ [0xFF]) = some (.whole m) ∧
      messageCheckAgrees m = true ∧ messageDestination m = dest.toNat ∧ messageSource m = source ∧
      messageKind m = kind.toNat ∧ messageCode m = code ∧ messagePayload m = payload

/-- R169, R174, R175: a request command does what the request message of its code does, when the part takes that
message; a code that names no request is refused BAD_REQUEST. That request rows are commands of their own beside the
frames is the model's choice (log 5). An UNKNOWN_REQUEST_CODE whose code names a request is that request (log 21), and
METER FREEZE and METER THAW with meter 8 are the global rows (log 27). -/
def Obligations.RequestRowIsItsMessage : Prop :=
  (∀ (c : Instr) (s : State) (code : Byte) (r : Req), commandRequest c = some (code, r) →
     exec c s = .next (s.handleRequest code r (executeCode code))) ∧
  (∀ (code : Byte) (r : Req) (s : State), code.toNat ∉ requestCodes → s.hears r →
     refuses (.unknownRequestCode code r) s code r 1)

/-- R169, R170: an addressed request that finds the reply slot occupied is not executed and draws no reply: the
overrun counter rises by one, staying at 65535, and MSG_DISCARDED is pegged. One that finds it empty puts a reply in
it, to the request's source, with the request's code, a status byte first, and the hold-off timer started with the
setting as it stood. A broadcast one leaves the slot as it stands, but for RESET, whose soft reset empties it (R178,
R179). -/
def Obligations.RequestIsAnsweredOrOverruns : Prop :=
  (∀ (c : Instr) (s : State) (code : Byte) (r : Req), commandRequest c = some (code, r) →
     r.broadcast = false → s.mgp.replySlot ≠ none →
     exec c s = .next (State.peg
       { s with mgp := { s.mgp with counters := { s.mgp.counters with
           overrun := if s.mgp.counters.overrun < 65535 then s.mgp.counters.overrun + 1 else 65535 } } }
       .msgDiscarded none)) ∧
  (∀ (c : Instr) (s : State) (code : Byte) (r : Req), commandRequest c = some (code, r) → r.broadcast = false →
     s.mgp.replySlot = none → ∃ t rep, exec c s = .next t ∧ t.mgp.replySlot = some rep ∧ rep.destination = r.source ∧
         rep.code = code ∧
       (rep.holdOff = if s.timing.replyHoldOff = 0 then none else some s.timing.replyHoldOff) ∧
       ∃ st result, rep.payload = byteOf (statusCode st) :: result ∧ (st ≠ .accepted → result = [])) ∧
  (∀ (c : Instr) (s : State) (code : Byte) (r : Req), commandRequest c = some (code, r) → r.broadcast = true →
     ∃ t, exec c s = .next t ∧ (t.mgp.replySlot = s.mgp.replySlot ∨ (code = 0x22 ∧ t.mgp.replySlot = none)))

/-! The tables. -/

/-- R17: a TABLE READ of a record just written by an accepted TABLE WRITE returns the selector, the key and the
written fields exactly, including the zeros of unused positions. `k` is the length of selector and key (R15). -/
def Obligations.TableWriteThenRead : Prop :=
  ∀ (s t : State) (r : Req) (a : Answer) (sel k : Nat), tableWrite s r = (t, a) → a.status = .accepted →
    (r.payload.head?.map (fun b => b.toNat)) = some sel →
    k = (if sel = 2 then 3 else if sel = 6 then 1 else 2) →
    tableRead t { r with payload := r.payload.take k } = (t, accept r.payload)

/-- R3: TABLE WRITE of a line attribute record. -/
def Obligations.LineAttributeWrite : Prop :=
  ∀ (s : State) (r : Req), s.hears r →
    (r.payload.length ≠ 6 → refuses (.tableWriteLineAttribute r) s 0x10 r 1) ∧
    ∀ line h g c b i : Nat, numbers r.payload = [line, h, g, c, b, i] →
      (15 < line → refuses (.tableWriteLineAttribute r) s 0x10 r 2) ∧
      (line ≤ 15 → ¬ (h ≤ 1 ∧ g ≤ 3 ∧ 1 ≤ c ∧ c ≤ 31 ∧ b ≤ 1 ∧ i ≤ 1) →
        refuses (.tableWriteLineAttribute r) s 0x10 r 1) ∧
      ∀ n : LineId, n.val = line → h ≤ 1 → g ≤ 3 → 1 ≤ c → c ≤ 31 → b ≤ 1 → i ≤ 1 →
        ((s.callOn n ≠ none ∨ (s.line n).state = .collecting ∨ (s.line n).state = .replaying) →
          refuses (.tableWriteLineAttribute r) s 0x10 r 9) ∧
        (s.callOn n = none → (s.line n).state ≠ .collecting → (s.line n).state ≠ .replaying →
          let a : LineAttr :=
            { handling := if h = 1 then .isLocal else .exchange, group := Fin.ofNat 4 g, defaultCycles := c,
              backRing := decide (b = 1), answerIdentifyDefault := decide (i = 1) }
          answers (.tableWriteLineAttribute r) s 0x10 r
            { s with ptb := { s.ptb with lines := tset s.ptb.lines n a } } [0])

/-- R4, R5, R6, R7: TABLE WRITE of a party entry: presence 1 with a revert code of `len` digits and fields in range,
where the line, the cadence and the other present entries of the line decide; presence 0 with zero fields, which
clears the entry of a line not in use; and the refusals of a wrong length, of a line above 15 and of fields out of
range. -/
def Obligations.PartyWrite : Prop :=
  (∀ (s : State) (r : Req) (n : LineId) (p : PartyId) (b : BusId) (leg : Leg) (cad : CadenceId)
     (bell cls len : Nat) (d : List Nat) (code : List Nat), s.hears r →
     numbers r.payload =
       [n.val, p.val + 1, 1, b.val + 1, legCode leg, cad.val, bell, cls, len] ++ d → d.length = 4 →
     1 ≤ bell → bell ≤ 7 → cls ≤ 15 → (len = 0 ∨ len = 2 ∨ len = 3 ∨ len = 4) → d = padTo 4 code →
     code.length = len → (∀ x ∈ code, x ≤ 9) →
     let e : PartyEntry := ⟨⟨b, leg, cad, bell⟩, if cls = 15 then none else some cls, code⟩
     let inUse := s.callOn n ≠ none ∨ (s.line n).state = .collecting ∨ (s.line n).state = .replaying
     let clash := ∃ q o, q ≠ p ∧ s.party n q = some o ∧
       (e.identityClass ≠ none ∧ e.identityClass = o.identityClass ∨
         e.code ≠ [] ∧ o.code ≠ [] ∧ (e.code <+: o.code ∨ o.code <+: e.code))
     (inUse → refuses (.tableWriteParty r) s 0x10 r 9) ∧
     (¬ inUse → s.cadence cad = [] → refuses (.tableWriteParty r) s 0x10 r 4) ∧
     (¬ inUse → s.cadence cad ≠ [] → clash → refuses (.tableWriteParty r) s 0x10 r 10) ∧
     (¬ inUse → s.cadence cad ≠ [] → ¬ clash →
       let parties := tset s.ptb.parties n (tset (tget s.ptb.parties n) p (some e))
       answers (.tableWriteParty r) s 0x10 r { s with ptb := { s.ptb with parties := parties } } [0])) ∧
  (∀ (s : State) (r : Req), s.hears r →
     (r.payload.length ≠ 13 → refuses (.tableWriteParty r) s 0x10 r 1) ∧
     (∀ (line party pres bus leg cad bell cls len : Nat) (d : List Nat),
       numbers r.payload = [line, party, pres, bus, leg, cad, bell, cls, len] ++ d → d.length = 4 →
       let absent := pres = 0 ∧ [bus, leg, cad, bell, cls, len] ++ d = List.replicate 10 0
       let present := pres = 1 ∧ 1 ≤ bus ∧ bus ≤ 4 ∧ leg ≤ 2 ∧ cad ≤ 15 ∧ 1 ≤ bell ∧ bell ≤ 7 ∧ cls ≤ 15 ∧
         (len = 0 ∨ len = 2 ∨ len = 3 ∨ len = 4) ∧ (∀ x ∈ d.take len, x ≤ 9) ∧ ∀ x ∈ d.drop len, x = 0
       (15 < line → refuses (.tableWriteParty r) s 0x10 r 2) ∧
       (line ≤ 15 → ¬ (1 ≤ party ∧ party ≤ 8 ∧ (absent ∨ present)) → refuses (.tableWriteParty r) s 0x10 r 1)) ∧
     ∀ (n : LineId) (p : PartyId), numbers r.payload = [n.val, p.val + 1] ++ List.replicate 11 0 →
       let inUse := s.callOn n ≠ none ∨ (s.line n).state = .collecting ∨ (s.line n).state = .replaying
       (inUse → refuses (.tableWriteParty r) s 0x10 r 9) ∧
       (¬ inUse →
         let parties := tset s.ptb.parties n (tset (tget s.ptb.parties n) p none)
         answers (.tableWriteParty r) s 0x10 r { s with ptb := { s.ptb with parties := parties } } [0]))

/-- R9: TABLE WRITE of a cadence. -/
def Obligations.CadenceWrite : Prop :=
  ∀ (s : State) (r : Req), s.hears r →
    (r.payload.length ≠ 10 → refuses (.tableWriteCadence r) s 0x10 r 1) ∧
    ∀ (key count : Nat) (d : List Nat), numbers r.payload = key :: count :: d → d.length = 8 →
      let lawful := cadenceLawful (d.take count) ∧ (count = 0 ∨ count = 2 ∨ count = 4 ∨ count = 6 ∨ count = 8) ∧
        ∀ x ∈ d.drop count, x = 0
      (15 < key ∨ ¬ lawful → refuses (.tableWriteCadence r) s 0x10 r 1) ∧
      ∀ c : CadenceId, c.val = key → lawful →
        let named := (∃ n p e, s.party n p = some e ∧ e.spec.cadence = c) ∨
          (∃ p ∈ s.rsc.parts, p.spec.cadence = c ∨ ∃ ch sp, p.staged = some ch ∧ ch.spec = some sp ∧ sp.cadence = c)
        (named → refuses (.tableWriteCadence r) s 0x10 r 9) ∧
        (¬ named →
          answers (.tableWriteCadence r) s 0x10 r
            { s with ptb := { s.ptb with cadences := tset s.ptb.cadences c (d.take count) } } [0])

/-- R10, R34: TABLE WRITE of a bus capacity. A raise starts a placement pass, which judges the waiting parts in turn. -/
def Obligations.BusWrite : Prop :=
  ∀ (s : State) (r : Req), s.hears r →
    (r.payload.length ≠ 2 → refuses (.tableWriteBus r) s 0x10 r 1) ∧
    ∀ key cap : Nat, numbers r.payload = [key, cap] →
      (key = 0 ∨ 4 < key ∨ 63 < cap → refuses (.tableWriteBus r) s 0x10 r 1) ∧
      ∀ b : BusId, b.val + 1 = key → cap ≤ 63 →
        let t : State := { s with ptb := { s.ptb with capacity := tset s.ptb.capacity b cap } }
        let held := (∃ sl, cap < tget (tget s.rsc.busLoad b) sl) ∨
          ∃ p ∈ s.rsc.parts, ∃ sp : Spec, sp.bus = b ∧ cap < sp.bell ∧
            (sp = p.spec ∧ (∃ k, p.status = .queued k) ∨ ∃ ch, p.staged = some ch ∧ ch.spec = some sp)
        (held → refuses (.tableWriteBus r) s 0x10 r 9) ∧
        (¬ held → answers (.tableWriteBus r) s 0x10 r (if s.capacity b < cap then t.pass else t) [0]) ∧
        (partsDistinct s.rsc.parts → t.passes t.pass)

/-- R11, R34: TABLE WRITE of a group flag. Turning exclusion off starts a placement pass, which judges the waiting
parts in turn. -/
def Obligations.GroupWrite : Prop :=
  ∀ (s : State) (r : Req), s.hears r →
    (r.payload.length ≠ 2 → refuses (.tableWriteGroup r) s 0x10 r 1) ∧
    ∀ key x : Nat, numbers r.payload = [key, x] →
      (3 < key ∨ 1 < x → refuses (.tableWriteGroup r) s 0x10 r 1) ∧
      ∀ g : GroupId, g.val = key → x ≤ 1 →
        let t : State := { s with ptb := { s.ptb with exclusion := tset s.ptb.exclusion g (decide (x = 1)) } }
        let apart := ∀ sl, tget (tget s.rsc.occupancy g) sl ≤ 1
        (x = 1 → s.exclusion g = false → ¬ apart → refuses (.tableWriteGroup r) s 0x10 r 9) ∧
        (x = 1 → (s.exclusion g = true ∨ apart) → answers (.tableWriteGroup r) s 0x10 r t [0]) ∧
        (x = 0 → answers (.tableWriteGroup r) s 0x10 r (if s.exclusion g = true then t.pass else t) [0]) ∧
        (partsDistinct s.rsc.parts → t.passes t.pass)

/-- R12: a TABLE WRITE of the timing record replaces all ten settings when each is in range and a short timeout below
a long one; otherwise it is refused BAD_REQUEST. Timeout codes are those of R16. -/
def Obligations.TimingWrite : Prop :=
  ∀ (s : State) (r : Req), s.hears r →
    (r.payload.length ≠ 11 → refuses (.tableWriteTiming r) s 0x10 r 1) ∧
    ∀ sq tq oq hi lo rc st rh short long act : Nat,
      numbers r.payload = [sq, tq, oq, hi, lo, rc, st, rh, short, long, act] →
      let shorts : List Nat := [0, 20, 100, 400, 2000]
      let longs : List Nat := [0, 400, 2000, 12000]
      let inRange := 10 ≤ sq ∧ sq ≤ 200 ∧ 2 ≤ tq ∧ tq ≤ 15 ∧ 60 ≤ oq ∧ oq ≤ 200 ∧
        1000 ≤ 256 * hi + lo ∧ 256 * hi + lo ≤ 12000 ∧ 1 ≤ rc ∧ rc ≤ 31 ∧ 1 ≤ st ∧ st ≤ 23 ∧ rh ≤ 15 ∧
        short ≤ 4 ∧ long ≤ 3 ∧ act ≤ 1 ∧
        (short = 0 ∨ long = 0 ∨ shorts.getD short 0 < longs.getD long 0)
      (¬ inRange → refuses (.tableWriteTiming r) s 0x10 r 1) ∧
      (inRange →
        let t : Timing :=
          ⟨sq, tq, oq, 256 * hi + lo, rc, st, rh, if short = 0 then none else some (shorts.getD short 0),
            if long = 0 then none else some (longs.getD long 0), if act = 1 then .release else .isolate⟩
        answers (.tableWriteTiming r) s 0x10 r { s with ptb := { s.ptb with timing := t } } [0])

/-- R17: TABLE READ of each table returns the selector and key, then the record in the form of R16. A wrong selector,
length or key is refused, and nothing changes but the reply slot. -/
def Obligations.TableReadReturnsTheRecord : Prop :=
  ∀ (s : State) (r : Req), s.hears r →
    let read (fields : List Nat) := answers (.tableRead r) s 0x11 r s (0 :: (r.payload ++ fields.map byteOf))
    (∀ n : LineId, numbers r.payload = [1, n.val] → read (lineAttrForm (s.attr n))) ∧
    (∀ (n : LineId) (p : PartyId), numbers r.payload = [2, n.val, p.val + 1] → read (partyForm (s.party n p))) ∧
    (∀ c : CadenceId, numbers r.payload = [3, c.val] → read (cadenceForm (s.cadence c))) ∧
    (∀ b : BusId, numbers r.payload = [4, b.val + 1] → read [s.capacity b]) ∧
    (∀ g : GroupId, numbers r.payload = [5, g.val] → read [if s.exclusion g then 1 else 0]) ∧
    (numbers r.payload = [6] → read (timingForm s.timing)) ∧
    (∀ sel rest, numbers r.payload = sel :: rest → sel = 0 ∨ 6 < sel ∨
      rest.length + 1 ≠ (if sel = 2 then 3 else if sel = 6 then 1 else 2) → refuses (.tableRead r) s 0x11 r 1) ∧
    (r.payload = [] → refuses (.tableRead r) s 0x11 r 1) ∧
    (∀ line, numbers r.payload = [1, line] → 15 < line → refuses (.tableRead r) s 0x11 r 2) ∧
    (∀ line p, numbers r.payload = [2, line, p] → (15 < line → refuses (.tableRead r) s 0x11 r 2) ∧
      (line ≤ 15 → p = 0 ∨ 8 < p → refuses (.tableRead r) s 0x11 r 1)) ∧
    (∀ sel key, numbers r.payload = [sel, key] →
      sel = 3 ∧ 15 < key ∨ sel = 4 ∧ (key = 0 ∨ 4 < key) ∨ sel = 5 ∧ 3 < key →
      refuses (.tableRead r) s 0x11 r 1)

/-- R18, R19: TABLE CHECK of a region returns the CRC of its bytes, the more significant byte first, and the
comparison: 0 when no value is expected, 1 when it is the value, 2 when it is not. -/
def Obligations.TableCheckReturnsTheCrc : Prop :=
  ∀ (s : State) (r : Req), s.hears r →
    (r.payload.length ≠ 2 → r.payload.length ≠ 4 → refuses (.tableCheck r) s 0x12 r 1) ∧
    ∀ (code line : Byte) (expected : List Byte), r.payload = code :: line :: expected →
    expected = [] ∨ expected.length = 2 →
    let reply (bytes : List Nat) :=
      let v := twoBytes (crc16 (bytes.map byteOf)).toNat
      answers (.tableCheck r) s 0x12 r s
        ([0] ++ v ++ [if expected = [] then 0 else if expected = v then 1 else 2])
    let lineBytes (n : LineId) := lineAttrForm (s.attr n) ++ partyIds.flatMap (fun p => partyForm (s.party n p))
    let cadences := cadenceIds.flatMap (fun c => cadenceForm (s.cadence c))
    let rest := busIds.map s.capacity ++ groupIds.map (fun g => if s.exclusion g then 1 else 0) ++
      timingForm s.timing
    (∀ n : LineId, code = 1 → line.toNat = n.val → reply (lineBytes n)) ∧
    (code = 2 → line = 0 → reply cadences) ∧ (code = 3 → line = 0 → reply rest) ∧
    (code = 4 → line = 0 → reply (lineIds.flatMap lineBytes ++ cadences ++ rest)) ∧
    (code = 1 → 15 < line.toNat → refuses (.tableCheck r) s 0x12 r 2) ∧
    (code = 0 ∨ 4 < code.toNat → refuses (.tableCheck r) s 0x12 r 1) ∧
    (2 ≤ code.toNat → code.toNat ≤ 4 → line ≠ 0 → refuses (.tableCheck r) s 0x12 r 1)

/-! The meters. -/

/-- R191: METER SET. The count, frozen and overflowed stand. -/
def Obligations.MeterSet : Prop :=
  ∀ (s : State) (r : Req), s.hears r →
    (r.payload.length ≠ 9 → refuses (.meterSet r) s 0x18 r 1) ∧
    ∀ m mode sel filter thr inv en ov fr : Nat,
      numbers r.payload = [m, mode, sel, filter, thr, inv, en, ov, fr] →
      let good := m ≤ 7 ∧ mode ≤ 1 ∧ filter ≤ 16 ∧ thr ≤ 24 ∧ inv ≤ 1 ∧ en ≤ 1 ∧ ov ≤ 1 ∧ fr ≤ 1 ∧
        (mode = 0 → sel ≤ 19 ∧ thr = 0 ∧ inv = 0) ∧ (mode = 1 → sel ≤ 6 ∧ filter = 16)
      (¬ good → refuses (.meterSet r) s 0x18 r 1) ∧
      ∀ i : MeterId, i.val = m → good →
        let meter : Meter :=
          { mode := if mode = 0 then .peg else .occupancy, selection := sel,
            lineFilter := if filter = 16 then none else some (Fin.ofNat 16 filter), threshold := thr,
            invert := decide (inv = 1), enabled := decide (en = 1), overflowNotice := decide (ov = 1),
            freezeOnOverflow := decide (fr = 1), frozen := (s.meter i).frozen, count := (s.meter i).count,
            overflowed := (s.meter i).overflowed }
        answers (.meterSet r) s 0x18 r { s with tmu := { s.tmu with meters := tset s.tmu.meters i meter } } [0]

/-- R195: METER PRESET, METER FREEZE and METER THAW of one meter or of the global state, and METER CLEAR. -/
def Obligations.MeterStateRequests : Prop :=
  ∀ (s : State) (r : Req), s.hears r →
    let setM (i : MeterId) (m : Meter) : State := { s with tmu := { s.tmu with meters := tset s.tmu.meters i m } }
    let setG (b : Bool) : State := { s with tmu := { s.tmu with globalFrozen := b } }
    (∀ (i : MeterId) (a b c d : Byte), r.payload = [BitVec.ofNat 8 i.val, a, b, c, d] →
      answers (.meterPreset r) s 0x1A r
        (setM i { s.meter i with
          count := BitVec.ofNat 32 (((a.toNat * 256 + b.toNat) * 256 + c.toNat) * 256 + d.toNat) }) [0]) ∧
    (∀ i : MeterId, r.payload = [BitVec.ofNat 8 i.val] →
      answers (.meterFreeze r) s 0x1B r (setM i { s.meter i with frozen := true }) [0] ∧
      answers (.meterThaw r) s 0x1C r (setM i { s.meter i with frozen := false }) [0]) ∧
    (r.payload = [8] →
      answers (.globalFreeze r.toEnvelope) s 0x1B r (setG true) [0] ∧
      answers (.globalThaw r.toEnvelope) s 0x1C r (setG false) [0]) ∧
    (∀ bits : Byte, r.payload = [bits] → ∃ t, answers (.meterClear r) s 0x1D r t [0] ∧
      t = { s with tmu := { s.tmu with meters := t.tmu.meters } } ∧
      ∀ i, t.meter i = if bits.getLsbD i.val then { s.meter i with overflowed := false } else s.meter i) ∧
    (r.payload.length ≠ 5 → refuses (.meterPreset r) s 0x1A r 1) ∧
    (∀ (i a b c d : Byte), r.payload = [i, a, b, c, d] → 7 < i.toNat → refuses (.meterPreset r) s 0x1A r 1) ∧
    (r.payload.length ≠ 1 → refuses (.meterFreeze r) s 0x1B r 1 ∧ refuses (.meterThaw r) s 0x1C r 1 ∧
      refuses (.meterClear r) s 0x1D r 1) ∧
    (∀ b : Byte, r.payload = [b] → 8 < b.toNat →
      refuses (.meterFreeze r) s 0x1B r 1 ∧ refuses (.meterThaw r) s 0x1C r 1)

/-- R196: METER READ returns the meter, its count in four bytes, its enabled, the frozen byte and the overflowed
meters (bit i for Mi), and changes no state. -/
def Obligations.MeterRead : Prop :=
  ∀ (s : State) (r : Req), s.hears r →
    (r.payload.length ≠ 1 → refuses (.meterRead r) s 0x19 r 1) ∧
    (∀ b : Byte, r.payload = [b] → 7 < b.toNat → refuses (.meterRead r) s 0x19 r 1) ∧
    ∀ (b : Byte) (i : MeterId), r.payload = [b] → b.toNat = i.val → ∃ o : Byte,
      (∀ j : MeterId, o.getLsbD j.val = (s.meter j).overflowed) ∧
      answers (.meterRead r) s 0x19 r s
        [0, b, byteOf ((s.meter i).count.toNat / 16777216), byteOf ((s.meter i).count.toNat / 65536),
         byteOf ((s.meter i).count.toNat / 256), byteOf (s.meter i).count.toNat,
         if (s.meter i).enabled then 1 else 0,
         if s.tmu.globalFrozen then if (s.meter i).frozen then 3 else 2
         else if (s.meter i).frozen then 1 else 0, o]

/-- R192, R194: a peg raises by one every meter in PEG mode that counts, has the event selected and passes the line,
and changes nothing else but the METER notices of the wraps; the selection numbers of the events. That the meters are
raised in the order M0 to M7, which fixes the order of the METER notices and the overflowed meters that each one
carries, is the model's choice (log 12), no rule of the spec. -/
def Obligations.PegRaisesTheMetersThatSelectIt : Prop :=
  (∀ (s : State) (e : PegEvent) (line : Option LineId),
    raiseLeads s
      (fun m => m.enabled && !m.frozen && !s.tmu.globalFrozen && decide (m.mode = .peg) &&
        decide (m.selection = pegSelection e) && (decide (m.lineFilter = none) || decide (m.lineFilter = line)))
      (fun t => s.peg e line = t)) ∧
  [PegEvent.ringPlaced, .ringQueued, .ringRefused, .trip, .noAnswer, .glare, .revertStarted, .revertCompleted,
    .revertAbandoned, .reRevert, .testDone, .testUnidentified, .testTimeout, .testAborted, .digitReplayed, .lockout,
    .lineFault, .foreignCode, .msgDiscarded, .noticeLost].map pegSelection = List.range 20

/-- R193, R194: the sample of an interval raises by one every meter in OCCUPANCY mode that counts and whose condition
holds, and changes nothing else but the METER notices of the wraps. That the meters are raised in the order M0 to M7,
which fixes the order of the METER notices and the overflowed meters that each one carries, is the model's choice (log
12), no rule of the spec. -/
def Obligations.OccupancySample : Prop :=
  ∀ s : State,
    let quantity (k : Nat) : Nat :=
      if k = 0 then s.placedOn 0 else if k = 1 then s.placedOn 1 else if k = 2 then s.placedOn 2
      else if k = 3 then s.placedOn 3
      else if k = 4 then (s.rsc.parts.filter (fun p => p.isQueued)).length
      else if k = 5 then (lineIds.filter (fun n => decide ((s.line n).state = .call))).length
      else s.itu.queue.length
    raiseLeads s
      (fun m => m.enabled && !m.frozen && !s.tmu.globalFrozen && decide (m.mode = .occupancy) &&
        decide (if m.invert then quantity m.selection < m.threshold else m.threshold ≤ quantity m.selection))
      (fun t => exec .occupancySample s = .next t)

/-! The part itself. -/

/-- R177: COUNTERS READ returns the fourteen counters as they stand, two bytes each, and with clear 1 sets each to 0
in the same event. -/
def Obligations.CountersRead : Prop :=
  ∀ (s : State) (r : Req), s.hears r →
    (r.payload.length ≠ 1 → refuses (.countersRead r) s 0x20 r 1) ∧
    (∀ b : Byte, r.payload = [b] → 1 < b.toNat → refuses (.countersRead r) s 0x20 r 1) ∧
    let k := s.mgp.counters
    let values := [k.ePort.valid, k.ePort.check, k.ePort.kind, k.ePort.length, k.ePort.abort, k.lPort.valid,
      k.lPort.check, k.lPort.kind, k.lPort.length, k.lPort.abort, k.overrun, k.relayDropped, k.urgentLost,
      k.routineLost].flatMap (fun n => [byteOf (n / 256), byteOf n])
    (r.payload = [0] → answers (.countersRead r) s 0x20 r s (0 :: values)) ∧
    (r.payload = [1] → answers (.countersRead r) s 0x20 r
      { s with mgp := { s.mgp with counters := ⟨⟨0, 0, 0, 0, 0⟩, ⟨0, 0, 0, 0, 0⟩, 0, 0, 0, 0⟩ } } (0 :: values))

/-- R166: SET ADDRESS addressed to the part waits for its reply to leave; a broadcast one sets the address of an
UNADDRESSED part in its event, and is refused by an addressed part, which stands. -/
def Obligations.SetAddress : Prop :=
  ∀ (s : State) (r : Req),
    (s.hears r → r.payload.length ≠ 1 → refuses (.setAddress r) s 0x21 r 1) ∧
    (s.hears r → ∀ b : Byte, r.payload = [b] → 30 < b.toNat → refuses (.setAddress r) s 0x21 r 1) ∧
    ∀ (b : Byte) (a : Address), r.payload = [b] → b.toNat = a.val →
      (r.broadcast = false → s.mgp.replySlot = none → exec (.setAddress r) s =
        .next (s.replied 0x21 r s.timing.replyHoldOff [0] (.setAddress a))) ∧
      (r.broadcast = true → s.mgp.address = none →
        exec (.setAddress r) s = .next { s with mgp := { s.mgp with address := some a } }) ∧
      (r.broadcast = true → s.mgp.address ≠ none → exec (.setAddress r) s = .next s)

/-- R166, R170, R178: when the reply's last byte has left, the reply slot is empty, and an address or a soft reset
that waited for it takes effect. -/
def Obligations.ReplySent : Prop :=
  ∀ (s : State) (rep : Reply), s.mgp.replySlot = some rep → s.mgp.sending = some ⟨.reply, []⟩ →
    let t : State := { s with mgp := { s.mgp with sending := none, replySlot := none } }
    (rep.after = .nothing → exec .replySent s = .next t) ∧
    (∀ a, rep.after = .setAddress a →
      exec .replySent s = .next { t with mgp := { t.mgp with address := some a } }) ∧
    (rep.after = .softReset → exec .replySent s = .next s.softReset)

/-- RESET (R178). Addressed, the soft reset waits for its reply to leave; broadcast, it is taken in the event. The
tables, the timing record and the part address stand (R14, R178), as do the alignment and the wrong-sync count of each
port (R150) and the frames under way (R160); every other field of every block takes its reset value: of the Highway
Interface (R152, R155, R160), the lines (R54, R63), the digit records (R84), the Ring Scheduler (R42, R43), the calls
(R121), the bridge (R107), the link record (R180), the Management Port (R179) and the meters (R190). That the marks of
the interval under way stand is log 11, that the waiting commands stand is log 25, and the values that no rule gives
are log 8 and log 10. -/
def Obligations.Reset : Prop :=
  ∀ (s : State) (r : Req),
    (s.hears r → r.payload ≠ [] → refuses (.reset r) s 0x22 r 1) ∧
    (r.broadcast = false → s.mgp.replySlot = none → r.payload = [] → exec (.reset r) s =
      .next (s.replied 0x22 r s.timing.replyHoldOff [0] .softReset)) ∧
    (r.broadcast = true → r.payload = [] →
      let port (p : RxPort) : RxPort :=
        { alignment := p.alignment, wrongSync := p.wrongSync, lastGood := Vector.replicate 16 0,
          inForce := Vector.replicate 16 0, good := false, validTaken := p.validTaken, frameSeen := p.frameSeen }
      let down : DownClaims :=
        { fault := none, blocked := none, test := none, ring := none, call := none, lockout := none,
          collecting := none }
      let up : UpClaims := { fault := false, replay := none, onHook := false }
      let line : LineRec :=
        { state := .idle, loop := .opened, seizureCount := 0, onHookCount := 0, faultCount := 0, clearCount := 0,
          faultReason := none, blockRecorded := false, lockoutTimer := none, lockoutPhase := none, tripCount := 0,
          hold := false }
      let digits : DigitRec :=
        { phase := .waiting, element := 0, pulses := 0, buffer := [], collection := none, generator := .off,
          sending := none, generatorTimer := 0, quiet := 0 }
      let count : PortCounters := { valid := 0, check := 0, kind := 0, length := 0, abort := 0 }
      let meter : Meter :=
        { mode := .peg, selection := 0, lineFilter := none, threshold := 0, invert := false, enabled := false,
          overflowNotice := false, freezeOnOverflow := false, frozen := false, count := 0, overflowed := false }
      exec (.reset r) s = .next
        { pending := s.pending, pins := s.pins, ptb := s.ptb,
          hwi :=
            { ePort := port s.hwi.ePort, lPort := port s.hwi.lPort, down := Vector.replicate 16 down,
              up := Vector.replicate 16 up, policing := Vector.replicate 16 false, shelfCount := 0,
              shelfArmed := true, shelfReported := false, byteWaits := Vector.replicate 16 false,
              eSent := s.hwi.eSent, lSent := s.hwi.lSent },
          lsv := Vector.replicate 16 line, dgu := Vector.replicate 16 digits,
          rsc :=
            { parts := [], busLoad := Vector.replicate 4 (Vector.replicate 24 0),
              occupancy := Vector.replicate 4 (Vector.replicate 24 0), startPointer := Vector.replicate 4 0,
              cycleSlot := 0, slotTimer := 50, requests := [] },
          csq := Vector.replicate 24 none, itu := { queue := [], inProgress := none },
          mgp :=
            { eAssembler := none, lAssembler := none, relay := none, relayPair := none, relayBuffer := [],
              replySlot := none, urgent := [], routine := [], urgentLost := false, routineLost := false,
              runCount := 0,
              sending := none, address := s.mgp.address,
              counters :=
                { ePort := count, lPort := count, overrun := 0, relayDropped := 0, urgentLost := 0, routineLost := 0 } },
          lkm := { state := .acquiring, badCount := 0, lastRun := 0, recovery := 0 },
          tmu := { meters := Vector.replicate 8 meter, globalFrozen := false } })

/-! Lines. -/

/-- R66, R67: the byte of a line in IDLE or QUALIFYING, with its seizure qualification: the first closed interval, the
hit, the count, and the state to which a qualified seizure sends the line. No test is on the line, the byte shows no
fault, and the interval is not that in which a part stopped ringing there (R55). In IDLE an open interval leaves the
seizure count at 0 (log 14). -/
def Obligations.SeizureOnALine : Prop :=
  ∀ (s : State) (n : LineId), s.testOn n = none → upFault (s.lByte n) = none → (s.line n).hold = false →
    (s.line n).loop = .opened →
    let r : LineRec := { s.line n with faultCount := 0 }
    let next (r : LineRec) := exec (.lineByte n) s = .next ((s.setLine n r).byteTaken n)
    (r.state = .idle → upLoop (s.lByte n) = .closed → next { r with state := .qualifying, seizureCount := 1 }) ∧
    (r.state = .idle → upLoop (s.lByte n) = .opened → next { r with seizureCount := 0 }) ∧
    (r.state = .qualifying → upLoop (s.lByte n) = .opened → next { r with state := .idle, seizureCount := 0 }) ∧
    (r.state = .qualifying → upLoop (s.lByte n) = .closed → r.seizureCount + 1 < s.timing.seizureQualify →
      next { r with seizureCount := r.seizureCount + 1 }) ∧
    (r.state = .qualifying → upLoop (s.lByte n) = .closed → s.timing.seizureQualify ≤ r.seizureCount + 1 →
      s.digits n = DigitRec.initial →
      let q : LineRec := { r with loop := .closed, seizureCount := 0, onHookCount := 0 }
      let goes (t : State) :=
        exec (.lineByte n) s = .next (t.byteTaken n) ∧ exec (.seizureQualify n) s = .next (t.byteTaken n)
      let down := (s.down n).noLsv
      let inLink := s.lkm.state = .acquiring ∨ s.lkm.state = .linked ∨ s.lkm.state = .warning
      let codes := ∃ p e, s.party n p = some e ∧ e.code ≠ []
      let through := s.withLine n
        { q with state := .through, faultReason := none, lockoutTimer := none, lockoutPhase := none }
        DigitRec.initial down ⟨false, none, false⟩
      let collecting := s.withLine n { q with state := .collecting }
        { DigitRec.initial with collection := some ⟨.firstDigit, 2000⟩ }
        { down with collecting := some .dialTone } ⟨false, none, true⟩
      let replaying := s.withLine n { q with state := .replaying }
        { DigitRec.initial with generator := .toneWait, generatorTimer := 100 }
        down { s.up n with onHook := true, replay := some .closed }
      let lockout := (s.withLine n
        { q with state := .lockout, faultReason := none, lockoutTimer := some 6000, lockoutPhase := some .tone }
        DigitRec.initial { down with lockout := some .hangupTone } ⟨false, none, true⟩).reported
        [.notice (.lineLockout n), .peg .lockout (some n)]
      (inLink → (s.attr n).handling = .exchange → goes through) ∧
      (inLink → (s.attr n).handling = .isLocal → codes → goes collecting) ∧
      (inLink → (s.attr n).handling = .isLocal → ¬ codes → goes replaying) ∧
      (s.lkm.state = .isolated → codes → goes collecting) ∧
      (s.lkm.state = .isolated → ¬ codes → goes lockout) ∧
      (s.lkm.state = .released → goes through))

/-- R68, R128, R129, R138: seizure qualification on a line in CALL with its loop OPEN and no ringing part, and what
the call makes of the seizure: glare in WAITING, an answer in RINGING and REVERT_RINGING, nothing in a state whose
rule does not take it (R122). That the answered party stays absent until the test result is the model's choice (log
37). -/
def Obligations.SeizureInACall : Prop :=
  ∀ (s : State) (n : LineId) (c : CallNo) (rec : CallRec), s.untested n → upFault (s.lByte n) = none →
    (s.line n).state = .call → (s.line n).loop = .opened → (s.line n).hold = false →
    (∀ p ∈ s.rsc.parts, p.line = n → ∀ k, p.status ≠ .placed k false) →
    s.callOn n = some c → s.callRec c = some rec →
    let r : LineRec := { s.line n with faultCount := 0 }
    let next (r : LineRec) := exec (.lineByte n) s = .next ((s.setLine n r).byteTaken n)
    (upLoop (s.lByte n) = .opened → next { r with seizureCount := 0 }) ∧
    (upLoop (s.lByte n) = .closed → r.seizureCount + 1 < s.timing.seizureQualify →
      next { r with seizureCount := r.seizureCount + 1 }) ∧
    (upLoop (s.lByte n) = .closed → s.timing.seizureQualify ≤ r.seizureCount + 1 →
      let q : LineRec := { r with loop := .closed, seizureCount := 0, onHookCount := 0 }
      let goes (t : State) :=
        exec (.lineByte n) s = .next (t.byteTaken n) ∧ exec (.callSeizure n) s = .next (t.byteTaken n)
      let down : DownClaims := { (s.down n).noLsv with call := none }
      (rec.state ≠ .waiting → rec.state ≠ .ringing → rec.state ≠ .revertRinging → goes (s.setLine n q)) ∧
      (rec.state = .waiting → s.linked = true →
        goes (((s.freed c rec).withLine n
          { q with state := .through, faultReason := none, lockoutTimer := none, lockoutPhase := none }
          DigitRec.initial down ⟨false, none, false⟩).reported
          [.notice (.callEnd (callEndOf c rec .glare)), .peg .glare (some n)])) ∧
      (rec.state = .waiting → s.linked = false →
        goes (((s.freed c rec).withLine n
          { q with state := .lockout, faultReason := none, lockoutTimer := some 6000, lockoutPhase := some .tone }
          DigitRec.initial { down with lockout := some .hangupTone } ⟨false, none, true⟩).reported
          [.notice (.lineLockout n), .peg .lockout (some n), .notice (.callEnd (callEndOf c rec .glare)),
           .peg .glare (some n)])) ∧
      answerLeads s n c rec q [] goes)

/-- R54, R129, R138: trip qualification on a line in CALL with a ringing part, and the answer that a qualified trip
is. The part's own claim says which field counts: the trip field where it carries RING, else the loop field. That the
answered party stays absent until the test result is the model's choice (log 37). -/
def Obligations.TripOfARingingPart : Prop :=
  ∀ (s : State) (n : LineId) (older younger : List RingPart) (p : RingPart) (k : Slot), s.untested n →
    upFault (s.lByte n) = none → (s.line n).state = .call → (s.line n).loop = .opened → (s.line n).hold = false →
    s.rsc.parts = older ++ p :: younger → (∀ o ∈ older ++ younger, o.line ≠ n ∧ o.call ≠ p.call) →
    p.line = n → p.status = .placed k false →
    let r : LineRec := { s.line n with faultCount := 0 }
    let next (r : LineRec) := exec (.lineByte n) s = .next ((s.setLine n r).byteTaken n)
    let ringOn := ∃ b l, (s.down n).ring = some (.ring b l)
    let counts := ringOn ∧ upTrip (s.lByte n) = true ∨ ¬ ringOn ∧ upLoop (s.lByte n) = .closed
    (p.tripDelivered = true → next r) ∧
    (p.tripDelivered = false → ¬ counts → next { r with tripCount := 0 }) ∧
    (p.tripDelivered = false → counts → r.tripCount + 1 < s.timing.tripQualify →
      next { r with tripCount := r.tripCount + 1 }) ∧
    (p.tripDelivered = false → counts → s.timing.tripQualify ≤ r.tripCount + 1 →
      let q : LineRec := { r with loop := .closed, seizureCount := 0, onHookCount := 0, tripCount := 0 }
      let goes (t : State) :=
        exec (.lineByte n) s = .next (t.byteTaken n) ∧ exec (.trip n) s = .next (t.byteTaken n)
      let parts := older ++ { p with tripDelivered := true } :: younger
      let t : State := { s with rsc := { s.rsc with parts := parts } }
      ((∀ rec, s.callRec p.call = some rec → rec.line = n → rec.state ≠ .ringing ∧ rec.state ≠ .revertRinging) →
        goes ((t.setLine n q).reported [.peg .trip (some n)])) ∧
      ∀ rec, s.callRec p.call = some rec → rec.line = n →
        answerLeads t n p.call rec q [.peg .trip (some n)] goes)

/-- R69, R115, R116, R131, R134, R135, R139, R140: on-hook qualification, where a qualified on-hook sends the line,
and what the call of a line in CALL makes of it, with the test that the on-hook aborts where the call's test runs
alone. On a line in THROUGH the request is aborted too, waiting or in progress, for the exchange, for a call in
IDENTIFYING, or for both in the order of the list, and the next test then begins. That a call takes the aborted result
and the on-hook as one pair at its place in the list, before the TEST_ABORTED peg, is log 12. The count of a line in
COLLECTING or REPLAYING runs beside the Digit Unit's work and is not stated here. That an answer test aborted by an
on-hook leaves the answered party absent is the model's choice (log 37). -/
def Obligations.OnHookOfALine : Prop :=
  ∀ (s : State) (n : LineId), upFault (s.lByte n) = none → (s.line n).loop = .closed →
    let r : LineRec := { s.line n with faultCount := 0 }
    let next (r : LineRec) := exec (.lineByte n) s = .next ((s.setLine n r).byteTaken n)
    let held := r.state = .through ∨ r.state = .lockout ∨ r.state = .call
    (s.testOn n = none → held → upLoop (s.lByte n) = .closed → next { r with onHookCount := 0 }) ∧
    (s.testOn n = none → held → upLoop (s.lByte n) = .opened → r.onHookCount + 1 < s.timing.onHookQualify →
      next { r with onHookCount := r.onHookCount + 1 }) ∧
    (upLoop (s.lByte n) = .opened → s.timing.onHookQualify ≤ r.onHookCount + 1 →
      let q : LineRec := { r with loop := .opened, seizureCount := 0, onHookCount := 0 }
      let idle : LineRec := { q with state := .idle, faultReason := none, lockoutTimer := none, lockoutPhase := none }
      let goes (t : State) :=
        exec (.lineByte n) s = .next (t.byteTaken n) ∧ exec (.onHook n) s = .next (t.byteTaken n)
      let down := (s.down n).noLsv
      let idles (t : State) (down : DownClaims) := t.withLine n idle DigitRec.initial down ⟨false, none, false⟩
      let abort : Report := .peg .testAborted (some n)
      let exch : Report := .notice (.identity n .aborted none none)
      let rings (c : CallNo) (rec : CallRec) (sp : Spec) (limit done : Nat) : State :=
        let rec' : CallRec := { rec with
          state := .revertRinging, hangupTimer := none, ringPart := true, ringLimit := some limit,
          cyclesRung := done }
        { s.handed [.place c n sp limit done] with csq := tset s.csq c (some rec') }
      let unheard (rec : CallRec) : CallRec :=
        { rec with answered := some .unidentified, testResult := some .aborted }
      (s.untested n → r.state = .collecting ∨ r.state = .replaying ∨ r.state = .through ∨ r.state = .lockout →
        goes (idles s down)) ∧
      (r.state = .through → ∀ older younger rs, s.testOn n = none → (∀ q ∈ older ++ younger, q.line ≠ n) →
        s.itu.queue = older ++ ⟨n, rs⟩ :: younger →
        let left : Itu := { s.itu with queue := older ++ younger }
        (rs = [.exchange] → goes ((idles { s with itu := left } down).reported [exch, abort])) ∧
        ∀ c rec, s.callRec c = some rec → rec.line = n → rec.state = .identifying →
          let ended : Report := .notice (.callEnd (callEndOf c (unheard rec) .answered))
          let ends (reports : List Report) :=
            goes ((idles { s.freed c rec with itu := left } { down with call := none }).reported reports)
          (rs = [.call c] → ends [ended, abort]) ∧ (rs = [.call c, .exchange] → ends [ended, exch, abort]) ∧
            (rs = [.exchange, .call c] → ends [exch, ended, abort])) ∧
      (r.state = .through → ∀ x : Test, s.itu.inProgress = some x → x.line = n → (∀ q ∈ s.itu.queue, q.line ≠ n) →
        let ends (t : State) (down : DownClaims) (reports : List Report) :=
          (s.itu.queue = [] → goes ((idles { t with itu := ⟨[], none⟩ } down).reported reports)) ∧
          ∀ q rest, s.itu.queue = q :: rest →
            let v := idles { t with itu := ⟨rest, some ⟨q.line, q.requesters, 0, true⟩⟩ } down
            let begun := tset v.hwi.down q.line { s.down q.line with test := some .test }
            goes (({ v with hwi := { v.hwi with down := begun } } : State).reported reports)
        (x.requesters = [.exchange] → ends s { down with test := none } [exch, abort]) ∧
        ∀ c rec, s.callRec c = some rec → rec.line = n → rec.state = .identifying →
          let ended : Report := .notice (.callEnd (callEndOf c (unheard rec) .answered))
          let ends := ends (s.freed c rec) { down with call := none, test := none }
          (x.requesters = [.call c] → ends [ended, abort]) ∧
          (x.requesters = [.call c, .exchange] → ends [ended, exch, abort]) ∧
          (x.requesters = [.exchange, .call c] → ends [exch, ended, abort])) ∧
      ∀ c rec, r.state = .call → s.callOn n = some c → s.callRec c = some rec →
        (s.untested n → rec.state = .waiting ∨ rec.state = .ringing ∨ rec.state = .revertRinging →
          goes (s.setLine n q)) ∧
        (s.untested n → rec.state = .talk →
          let result := if rec.answered ≠ none ∧ rec.answered = rec.caller.map .party then .completedUnconfirmed
            else .completed
          goes ((idles (s.freed c rec) { down with call := none }).reported
            [.notice (.callEnd (callEndOf c rec result))])) ∧
        (s.untested n → rec.state = .hangupWait → ∀ sp, s.specOf n rec.called = some sp →
          goes ((rings c rec sp s.timing.revertCycles 0).withLine n q (s.digits n)
            { s.down n with call := some .feed } (s.up n))) ∧
        ∀ x : Test, s.itu = ⟨[], some x⟩ → x.line = n → x.requesters = [.call c] →
          (rec.state = .identifyCaller → ∀ sp, s.specOf n rec.called = some sp →
            goes (({ rings c rec sp s.timing.revertCycles 0 with itu := ⟨[], none⟩ }.withLine n q (s.digits n)
              { s.down n with call := some .feed, test := none } (s.up n)).reported [abort])) ∧
          (rec.state = .answerTest → ∀ sp limit, s.specOf n rec.called = some sp → rec.ringLimit = some limit →
            rec.cyclesRung < limit →
            goes (({ rings c rec sp limit rec.cyclesRung with itu := ⟨[], none⟩ }.withLine n q (s.digits n)
              { s.down n with call := some .feed, test := none } (s.up n)).reported [abort])) ∧
          (rec.state = .answerTest → ∀ limit, rec.ringLimit = some limit → limit ≤ rec.cyclesRung →
            goes ((idles { s.freed c rec with itu := ⟨[], none⟩ } { down with call := none, test := none }).reported
              [.notice (.callEnd (callEndOf c rec .noAnswer)), .peg .noAnswer (some n), abort])) ∧
          (rec.state = .identifying →
            goes ((idles { s.freed c rec with itu := ⟨[], none⟩ } { down with call := none, test := none }).reported
              [.notice (.callEnd (callEndOf c (unheard rec) .answered)), abort])))

/-- R72, R73, R115, R116: a byte that shows a fault raises the fault count of a line, beside the qualification of its
state; the count's end takes a line of any other state into FAULT whole: its record, its claims, the end of its call,
the abort of its request, and its notice. That the end of the call comes before the abort is log 12, and that a
FAULT_ENTRY short of that count changes nothing is log 3, both the model's choice. -/
def Obligations.FaultEntryTakesTheLineWhole : Prop :=
  ∀ (s : State) (n : LineId) (reason : FaultReason), (s.line n).state ≠ .fault →
    upFault (s.lByte n) = some reason →
    let r := s.line n
    (r.faultCount + 1 < 20 →
      let counted : LineRec := { r with faultCount := r.faultCount + 1 }
      let next (r : LineRec) := exec (.lineByte n) s = .next ((s.setLine n r).byteTaken n)
      exec (.faultEntry n) s = .next s ∧
      (s.testOn n = none → r.state = .idle → r.loop = .opened → r.hold = false → upLoop (s.lByte n) = .opened →
        next { counted with seizureCount := 0 }) ∧
      (s.testOn n = none → r.state = .through ∨ r.state = .lockout ∨ r.state = .call → r.loop = .closed →
        upLoop (s.lByte n) = .closed → next { counted with onHookCount := 0 })) ∧
    (20 ≤ r.faultCount + 1 →
      let q : LineRec :=
        { r with
          state := .fault, loop := .opened, seizureCount := 0, onHookCount := 0, faultCount := 0, clearCount := 0,
          faultReason := some reason, blockRecorded := r.blockRecorded || decide (r.state = .blocked),
          lockoutTimer := none, lockoutPhase := none }
      let down : DownClaims := { (s.down n).noLsv with fault := some .feedOff }
      let reports : List Report := [.notice (.lineFault n reason), .peg .lineFault (some n)]
      let goes (t : State) :=
        exec (.lineByte n) s = .next (t.byteTaken n) ∧ exec (.faultEntry n) s = .next (t.byteTaken n)
      let faulted (t : State) (itu : Itu) (d : DownClaims) : State :=
        { t with itu := itu }.withLine n q DigitRec.initial d ⟨true, none, false⟩
      (s.callOn n = none → abortLeads s n (faulted s) down [] reports goes) ∧
      ∀ c rec, s.callOn n = some c → s.callRec c = some rec →
        abortLeads s n (faulted (s.freed c rec)) { down with call := none }
          [.notice (.callEnd (callEndOf c rec .fault))] reports goes)

/-- R72, R74: the counts of a BLOCKED and of a faulted line with no ringing part, and what a faulted line goes to when
the fault has cleared. -/
def Obligations.FaultClearing : Prop :=
  ∀ (s : State) (n : LineId), s.testOn n = none →
    (∀ p ∈ s.rsc.parts, p.line = n → ∀ k, p.status ≠ .placed k false) →
    let r := s.line n
    let fault := upFault (s.lByte n)
    let next (r : LineRec) := exec (.lineByte n) s = .next ((s.setLine n r).byteTaken n)
    (r.state = .blocked → fault = none → next { r with faultCount := 0 }) ∧
    (r.state = .blocked → fault ≠ none → r.faultCount + 1 < 20 → next { r with faultCount := r.faultCount + 1 }) ∧
    (r.state = .fault → fault ≠ none ∨ s.hwi.lPort.good = false → next { r with clearCount := 0 }) ∧
    (r.state = .fault → fault = none → s.hwi.lPort.good = true → r.clearCount + 1 < 400 →
      next { r with clearCount := r.clearCount + 1 }) ∧
    (r.state = .fault → fault = none → s.hwi.lPort.good = true → 400 ≤ r.clearCount + 1 → r.loop = .opened →
      let goes (t : State) :=
        exec (.lineByte n) s = .next (t.byteTaken n) ∧ exec (.faultCleared n) s = .next (t.byteTaken n)
      let q : LineRec := { r with clearCount := 0, blockRecorded := false, faultReason := none }
      let down := (s.down n).noLsv
      (r.blockRecorded = true → goes ((s.withLine n
        { q with state := .blocked, seizureCount := 0, onHookCount := 0, lockoutTimer := none, lockoutPhase := none }
        DigitRec.initial { down with blocked := some .feedOff } ⟨false, none, true⟩).reported
        [.notice (.lineRecovered n .blocked)])) ∧
      (r.blockRecorded = false → upLoop (s.lByte n) = .opened → goes ((s.withLine n
        { q with state := .idle, lockoutTimer := none, lockoutPhase := none }
        DigitRec.initial down ⟨false, none, false⟩).reported [.notice (.lineRecovered n .idle)])) ∧
      (r.blockRecorded = false → upLoop (s.lByte n) = .closed → goes ((s.withLine n
        { q with
          state := .lockout, loop := .closed, seizureCount := 0, onHookCount := 0, lockoutTimer := some 6000,
          lockoutPhase := some .tone }
        DigitRec.initial { down with lockout := some .hangupTone } ⟨false, none, true⟩).reported
        [.notice (.lineRecovered n .lockout), .notice (.lineLockout n), .peg .lockout (some n)])))

/-- R75, R151, R152, R158: the close of an L-port interval: the bytes in force, handed to every line, the mark, the
shelf-loss count and its one report, and the abort of a missing interval. Shelf loss, once reported, takes every line
not in FAULT into FAULT with reason SHELF, ends its call, and leaves each line in FAULT as it stands but for the
bridge. A command with nothing reported changes nothing, which is the model's choice (log 3). -/
def Obligations.ShelfIsWatched : Prop :=
  (∀ s : State,
     let p := s.hwi.lPort
     let closed : RxPort :=
       { p with inForce := p.lastGood, good := p.validTaken, validTaken := false, frameSeen := false }
     let h : Hwi := { s.hwi with lPort := closed, byteWaits := Vector.replicate 16 true }
     let hwi : Hwi :=
       if p.validTaken then { h with shelfCount := 0, shelfArmed := true }
       else if 20 ≤ s.hwi.shelfCount + 1 ∧ s.hwi.shelfArmed = true then
         { h with shelfCount := 20, shelfArmed := false, shelfReported := true }
       else { h with shelfCount := min 20 (s.hwi.shelfCount + 1) }
     (p.frameSeen = true ∨ s.mgp.lAssembler = none → exec .lPortIntervalClose s = .next { s with hwi := hwi }) ∧
     (p.frameSeen = false → s.mgp.lAssembler ≠ none →
       let k := s.mgp.counters
       let port : PortCounters := { k.lPort with abort := if k.lPort.abort < 65535 then k.lPort.abort + 1 else 65535 }
       let mgp : Mgp := { s.mgp with lAssembler := none, counters := { k with lPort := port } }
       exec .lPortIntervalClose s = .next (State.peg { s with hwi := hwi, mgp := mgp } .msgDiscarded none))) ∧
  (∀ s : State, (s.hwi.shelfReported = false → exec .shelfLoss s = .next s) ∧
     (s.hwi.shelfReported = true → ∃ t, exec .shelfLoss s = .next t ∧
       (∀ n, (s.line n).state = .fault → t.line n = s.line n ∧ t.digits n = s.digits n ∧ t.up n = s.up n ∧
         ({ t.down n with test := none } : DownClaims) = { s.down n with test := none }) ∧
       (∀ n, (s.line n).state ≠ .fault →
         t.line n =
           { s.line n with
             state := .fault, loop := .opened, seizureCount := 0, onHookCount := 0, faultCount := 0, clearCount := 0,
             faultReason := some .shelf,
             blockRecorded := (s.line n).blockRecorded || decide ((s.line n).state = .blocked),
             lockoutTimer := none, lockoutPhase := none } ∧
         t.digits n = DigitRec.initial ∧ t.up n = ⟨true, none, false⟩ ∧
         (t.down n).fault = some .feedOff ∧ (t.down n).blocked = none ∧ (t.down n).lockout = none ∧
         (t.down n).collecting = none ∧ (t.down n).ring = (s.down n).ring ∧
         ∀ c, s.callOn n = some c → t.callRec c = none) ∧
       t.hwi.shelfReported = false ∧
       ({ s with hwi := { s.hwi with shelfReported := false } } : State).restStands t))

/-! Digits. -/

/-- R85, R86, R87, R88, R89, R90, R91, R92, R93, R94, R95, R96, R97, R132, R134: collection. A digit ends on a line in
COLLECTING: the buffer with the digit is an opening of a code, a code, or neither. Then an interval that ends no
digit: breaks and makes, the first break that removes the collection timer, the first open interval that removes dial
tone, an invalid element that restarts the collection. No test is on the line, and its byte shows no fault. That
REVERT REFUSED comes before the notice of the lockout is log 12, and that a mismatch finds the link RELEASED as it
finds it ISOLATED is log 20. -/
def Obligations.DigitEndsInCollection : Prop :=
  (∀ (s : State) (n : LineId), s.testOn n = none → upFault (s.lByte n) = none → upLoop (s.lByte n) = .closed →
     (s.line n).state = .collecting → (s.line n).loop = .closed → (s.digits n).phase = .make →
     40 ≤ (s.digits n).element + 1 → (s.digits n).buffer.length < 12 →
     let buffer := (s.digits n).buffer ++ [if (s.digits n).pulses = 10 then 0 else (s.digits n).pulses]
     let r : LineRec := { s.line n with faultCount := 0, onHookCount := 0 }
     let d : DigitRec := { s.digits n with phase := .waiting, element := 0, pulses := 0, buffer := buffer }
     let down := (s.down n).noLsv
     let goes (t : State) :=
       exec (.lineByte n) s = .next (t.byteTaken n) ∧ exec (.digitEnd n) s = .next (t.byteTaken n)
     let isCode (p : PartyId) := ∃ e, s.party n p = some e ∧ e.code = buffer
     let opens := ∃ p e, s.party n p = some e ∧ buffer.length < e.code.length ∧ buffer <+: e.code
     let lockout := s.withLine n
       { r with state := .lockout, faultReason := none, lockoutTimer := some 6000, lockoutPhase := some .tone }
       DigitRec.initial { down with lockout := some .hangupTone } ⟨false, none, true⟩
     let locked : List Report := [.notice (.lineLockout n), .peg .lockout (some n)]
     ((∀ p, ¬ isCode p) → opens → goes (s.withLine n r { d with collection := some ⟨.interDigit, 1000⟩ }
       (s.down n) (s.up n))) ∧
     ((∀ p, ¬ isCode p) → ¬ opens → s.linked = true → goes (s.withLine n { r with state := .replaying }
       { d with collection := none, generator := .toneWait, generatorTimer := 100, sending := none, quiet := 0 }
       down { s.up n with onHook := true, replay := some .closed })) ∧
     ((∀ p, ¬ isCode p) → ¬ opens → s.linked = false → goes (lockout.reported locked)) ∧
     ∀ p, isCode p → (∀ q, isCode q → q = p) →
       ((∀ c, s.callRec c ≠ none) → goes (lockout.reported (.notice (.revertRefused n p) :: locked))) ∧
       ∀ c, s.callRec c = none → (∀ k, k < c → s.callRec k ≠ none) → s.itu = ⟨[], none⟩ →
         let made : CallRec :=
           { kind := .rv, origin := .isLocal, line := n, called := p, caller := none, state := .identifyCaller,
             ringPart := false, ringLimit := none, cyclesRung := 0, answerIdentify := none, reRevert := some 0,
             hangupTimer := none, answered := none, testResult := none }
         goes (({ s with csq := tset s.csq c (some made), itu := ⟨[], some ⟨n, [.call c], 0, true⟩⟩ }.withLine n
           { r with state := .call, lockoutTimer := none, lockoutPhase := none } DigitRec.initial
           { down with call := some .feed, test := some .test } ⟨false, none, true⟩).reported
           [.notice (.revertLocalStart c n p), .peg .revertStarted (some n)])) ∧
  (∀ (s : State) (n : LineId), s.testOn n = none → upFault (s.lByte n) = none → (s.line n).state = .collecting →
     (s.line n).loop = .closed →
       (upLoop (s.lByte n) = .opened → (s.line n).onHookCount + 1 < s.timing.onHookQualify) →
     let loop := upLoop (s.lByte n)
     let r : LineRec :=
       { s.line n with
         faultCount := 0, onHookCount := if loop = .opened then (s.line n).onHookCount + 1 else 0 }
     let down : DownClaims := if loop = .opened then { s.down n with collecting := some .feed } else s.down n
     let next (d : DigitRec) (down : DownClaims) :=
       exec (.lineByte n) s = .next ((s.withLine n r d down (s.up n)).byteTaken n)
     receiverLeads (s.digits n) loop (fun d => next d down) (fun d => next { d with collection := none } down)
       (fun d => next { d with buffer := [], collection := some ⟨.firstDigit, 2000⟩ }
         { s.down n with collecting := some .dialTone }))

/-- R77, R92, R96, R135: the expiries of the lockout timer, of the collection timer, and of a hang-up timer. A command
of a timer that is not due changes nothing, which is the model's choice (log 4). That a collection timeout finds the
link RELEASED as it finds it ISOLATED is log 20. -/
def Obligations.LineAndCallTimersExpire : Prop :=
  ∀ (s : State) (n : LineId),
    let r := s.line n
    let down := (s.down n).noLsv
    let lockout : LineRec :=
      { r with state := .lockout, faultReason := none, lockoutTimer := some 6000, lockoutPhase := some .tone }
    let locked : List Report := [.notice (.lineLockout n), .peg .lockout (some n)]
    let isDue := r.state = .lockout ∧ r.lockoutPhase = some .tone ∧ r.lockoutTimer = some 0
    (isDue → exec (.lockoutTimerExpiry n) s = .next (s.withLine n { r with lockoutPhase := some .feedOff }
      (s.digits n) { s.down n with lockout := some .feedOff } (s.up n))) ∧
    (¬ isDue → exec (.lockoutTimerExpiry n) s = .next s) ∧
    (r.state = .collecting → r.loop = .closed → ∀ k, (s.digits n).collection = some ⟨k, 0⟩ →
      (s.linked = true → exec (.collectionTimeout n) s = .next (s.withLine n { r with state := .replaying }
        { s.digits n with
          collection := none, generator := .toneWait, generatorTimer := 100, sending := none, quiet := 0 }
        down { s.up n with onHook := true, replay := some .closed })) ∧
      (s.linked = false → exec (.collectionTimeout n) s = .next ((s.withLine n lockout DigitRec.initial
        { down with lockout := some .hangupTone } ⟨false, none, true⟩).reported locked))) ∧
    (r.state ≠ .collecting ∨ (∀ k, (s.digits n).collection ≠ some ⟨k, 0⟩) →
      exec (.collectionTimeout n) s = .next s) ∧
    ∀ c rec, s.callRec c = some rec →
      (rec.state = .hangupWait → rec.hangupTimer = some 0 → rec.line = n → r.state = .call → r.loop = .closed →
        s.untested n →
        exec (.hangupTimerExpiry c) s = .next (((s.freed c rec).withLine n lockout DigitRec.initial
          { down with call := none, lockout := some .hangupTone } ⟨false, none, true⟩).reported
          (locked ++ [.notice (.callEnd (callEndOf c rec .abandoned)), .peg .revertAbandoned (some n)]))) ∧
      (rec.state ≠ .hangupWait ∨ rec.hangupTimer ≠ some 0 → exec (.hangupTimerExpiry c) s = .next s)

/-- R85, R86, R87, R89, R90, R98, R99, R100, R101, R102, R103, R104: the replay generator and the receiver beside it:
the expiry of the generator timer, the end of a replay in the event that brings it about, a digit that joins the
buffer or is the 13th, the end of a discard, dial tone heard, and an interval that ends no digit, with the quiet
count, an invalid element dropping the digit alone. A command of a timer that is not due changes nothing (log 4), and
so does one of a replay's end that does not come about (log 3). That a 13th digit is judged before DIAL_TONE is heard
in the same byte is the model's choice (log 34). That the generator timer holds 0 in STALL is the model's choice (log
39). -/
def Obligations.ReplayOfDigits : Prop :=
  (∀ (s : State) (n : LineId), (s.line n).loop = .closed →
     let r := s.line n
     let d := s.digits n
     let down := s.down n
     let next (d : DigitRec) (l : Loop) :=
       exec (.generatorTimerExpiry n) s = .next (s.withLine n r d down { s.up n with replay := some l })
     let through := s.withLine n
       { r with state := .through, faultReason := none, lockoutTimer := none, lockoutPhase := none }
       DigitRec.initial down.noLsv ⟨false, none, false⟩
     let seeks := d.generator = .toneWait ∨ d.generator = .interDigit
     (r.state = .replaying → d.generatorTimer = 0 →
       (seeks → ∀ x rest, d.buffer = x :: rest →
         next { d with
           buffer := rest, sending := some ⟨x, if x = 0 then 10 else x⟩, generator := .brk, generatorTimer := 12 }
           .opened) ∧
       (seeks → d.buffer = [] → d.quiet < 400 →
         next { d with sending := none, generator := .stall, generatorTimer := 0 } .closed) ∧
       (seeks → d.buffer = [] → 400 ≤ d.quiet → exec (.generatorTimerExpiry n) s = .next through ∧
         ((∀ t, exec (.lineByte n) s = .next t → (t.line n).state ≠ .through) →
           exec (.replayEnd n) s = .next through)) ∧
       (d.generator = .brk → ∀ g, d.sending = some g → 1 < g.pulsesLeft →
         next { d with sending := some { g with pulsesLeft := g.pulsesLeft - 1 }, generator := .make, generatorTimer := 8 }
           .closed) ∧
       (d.generator = .brk → ∀ g, d.sending = some g → g.pulsesLeft = 1 →
         let sent : DigitRec :=
           { d with sending := some { g with pulsesLeft := 0 }, generator := .interDigit, generatorTimer := 80 }
         exec (.generatorTimerExpiry n) s = .next
           ((s.withLine n r sent down { s.up n with replay := some .closed }).reported
             [.peg .digitReplayed (some n)])) ∧
       (d.generator = .make → next { d with generator := .brk, generatorTimer := 12 } .opened)) ∧
     (r.state ≠ .replaying ∨ d.generatorTimer ≠ 0 ∨ d.generator = .off ∨ d.generator = .stall →
       exec (.generatorTimerExpiry n) s = .next s) ∧
     (r.state ≠ .replaying → exec (.replayEnd n) s = .next s) ∧
     (r.state = .replaying → s.testOn n = none → upFault (s.lByte n) = none → upLoop (s.lByte n) = .closed →
       d.generator = .stall → d.buffer = [] → d.phase = .waiting → 400 ≤ d.quiet + 1 →
       let ended := s.withLine n
         { r with
           state := .through, faultCount := 0, onHookCount := 0, faultReason := none, lockoutTimer := none,
           lockoutPhase := none }
         DigitRec.initial down.noLsv ⟨false, none, false⟩
       exec (.lineByte n) s = .next (ended.byteTaken n) ∧ exec (.replayEnd n) s = .next (ended.byteTaken n))) ∧
  (∀ (s : State) (n : LineId), s.testOn n = none → upFault (s.lByte n) = none → upLoop (s.lByte n) = .closed →
     (s.line n).loop = .closed →
     let d := s.digits n
     let r : LineRec := { s.line n with faultCount := 0, onHookCount := 0 }
     let digit := if d.pulses = 10 then 0 else d.pulses
     let ended : DigitRec :=
       { d with phase := .waiting, element := 0, pulses := 0, quiet := min 400 (d.quiet + 1) }
     let sending (x : Nat) : Option DigitInSending := some ⟨x, if x = 0 then 10 else x⟩
     let both (c : Instr) (t : State) :=
       exec (.lineByte n) s = .next (t.byteTaken n) ∧ exec c s = .next (t.byteTaken n)
     let toneHeard := d.generator = .toneWait ∧ downCode (s.eByte n) = some .dialTone
     (r.state = .replaying → d.phase = .make → 40 ≤ d.element + 1 → d.buffer.length < 12 → d.generator ≠ .stall →
       ¬ toneHeard → both (.digitEnd n) (s.withLine n r { ended with buffer := d.buffer ++ [digit] }
         (s.down n) (s.up n))) ∧
     (r.state = .replaying → d.phase = .make → 40 ≤ d.element + 1 → d.buffer = [] → d.generator = .stall →
       both (.digitEnd n) (s.withLine n r
         { ended with buffer := [], sending := sending digit, generator := .brk, generatorTimer := 12 }
         (s.down n) { s.up n with replay := some .opened })) ∧
     (r.state = .collecting ∨ r.state = .replaying → d.phase = .make → 40 ≤ d.element + 1 → d.buffer.length = 12 →
       both (.digitEnd n) ((s.withLine n
         { r with state := .lockout, faultReason := none, lockoutTimer := some 6000, lockoutPhase := some .tone }
         DigitRec.initial { (s.down n).noLsv with lockout := some .hangupTone } ⟨false, none, true⟩).reported
         [.notice (.lineLockout n), .peg .lockout (some n)])) ∧
     (r.state = .collecting → d.phase = .discarding → 40 ≤ d.element + 1 →
       both (.discardEnd n) (s.withLine n r { d with phase := .waiting, element := 0 } (s.down n) (s.up n))) ∧
     (r.state = .replaying → d.phase = .discarding → 40 ≤ d.element + 1 → d.generator ≠ .stall → ¬ toneHeard →
       both (.discardEnd n) (s.withLine n r { ended with pulses := d.pulses } (s.down n) (s.up n))) ∧
     (r.state = .replaying → d.phase = .waiting → toneHeard → ∀ x rest, d.buffer = x :: rest →
       exec (.lineByte n) s = .next ((s.withLine n r
         { d with
           quiet := min 400 (d.quiet + 1), buffer := rest, sending := sending x, generator := .brk,
           generatorTimer := 12 }
         (s.down n) { s.up n with replay := some .opened }).byteTaken n)) ∧
     (r.state = .replaying → d.phase = .waiting → toneHeard → d.buffer = [] → d.quiet + 1 < 400 →
       exec (.lineByte n) s = .next ((s.withLine n r
         { d with quiet := d.quiet + 1, sending := none, generator := .stall, generatorTimer := 0 }
         (s.down n) { s.up n with replay := some .closed }).byteTaken n))) ∧
  (∀ (s : State) (n : LineId), s.testOn n = none → upFault (s.lByte n) = none → (s.line n).state = .replaying →
     (s.line n).loop = .closed →
       (upLoop (s.lByte n) = .opened → (s.line n).onHookCount + 1 < s.timing.onHookQualify) →
     let loop := upLoop (s.lByte n)
     let quiet := if loop = .opened then 0 else min 400 ((s.digits n).quiet + 1)
     ¬ ((s.digits n).generator = .toneWait ∧ downCode (s.eByte n) = some .dialTone) →
     ¬ ((s.digits n).generator = .stall ∧ (s.digits n).buffer = [] ∧ 400 ≤ quiet) →
     let r : LineRec :=
       { s.line n with
         faultCount := 0, onHookCount := if loop = .opened then (s.line n).onHookCount + 1 else 0 }
     let next (d : DigitRec) := exec (.lineByte n) s = .next ((s.withLine n r d (s.down n) (s.up n)).byteTaken n)
     receiverLeads { s.digits n with quiet := quiet } loop next (fun d => next { d with collection := none }) next)

/-! The Management Port's queues and the upstream slot. -/

/-- R171, R176: a notice joins the tail of its queue while the queue has room; on a full queue it is dropped: the lost
indicator of its class comes on, the class's lost counter rises by one, staying at 65535, and NOTICE_LOST is pegged. -/
def Obligations.NoticeJoinsItsQueueOrIsLost : Prop :=
  ∀ (s : State) (n : Notice),
    let k := s.mgp.counters
    let up (x : Nat) := if x < 65535 then x + 1 else 65535
    let with' (m : Mgp) : State := { s with mgp := m }
    (noticeUrgent n = true → s.mgp.urgent.length < 8 →
      s.notify n = with' { s.mgp with urgent := s.mgp.urgent ++ [n] }) ∧
    (noticeUrgent n = false → s.mgp.routine.length < 16 →
      s.notify n = with' { s.mgp with routine := s.mgp.routine ++ [n] }) ∧
    (noticeUrgent n = true → 8 ≤ s.mgp.urgent.length →
      s.notify n = (with' { s.mgp with
        urgentLost := true, counters := { k with urgentLost := up k.urgentLost } }).peg .noticeLost none) ∧
    (noticeUrgent n = false → 16 ≤ s.mgp.routine.length →
      s.notify n = (with' { s.mgp with
        routineLost := true, counters := { k with routineLost := up k.routineLost } }).peg .noticeLost none)

/-- R168, R170, R171: the hold-off expiry makes the reply eligible; a relayed message or a notice whose last byte has
gone leaves its queue and frees the slot. A command of what has not come about changes nothing (log 4, log 18). -/
def Obligations.UpstreamItemsLeave : Prop :=
  ∀ s : State,
    let with' (m : Mgp) : State := { s with mgp := m }
    (∀ rep, s.mgp.replySlot = some rep → rep.holdOff = some 0 →
      exec .replyHoldOffExpiry s = .next (with' { s.mgp with replySlot := some { rep with holdOff := none } })) ∧
    ((∀ rep, s.mgp.replySlot = some rep → rep.holdOff ≠ some 0) → exec .replyHoldOffExpiry s = .next s) ∧
    (s.mgp.sending = some ⟨.relayed, []⟩ → ∀ m rest, s.mgp.relayBuffer = m :: rest →
      exec .relayedMessageSent s = .next (with' { s.mgp with sending := none, relayBuffer := rest })) ∧
    (s.mgp.sending ≠ some ⟨.relayed, []⟩ → exec .relayedMessageSent s = .next s) ∧
    (s.mgp.sending = some ⟨.urgent, []⟩ → ∀ n rest, s.mgp.urgent = n :: rest →
      exec .noticeSent s = .next (with' { s.mgp with sending := none, urgent := rest })) ∧
    (s.mgp.sending = some ⟨.routine, []⟩ → ∀ n rest, s.mgp.routine = n :: rest →
      exec .noticeSent s = .next (with' { s.mgp with sending := none, routine := rest })) ∧
    (s.mgp.sending ≠ some ⟨.urgent, []⟩ → s.mgp.sending ≠ some ⟨.routine, []⟩ → exec .noticeSent s = .next s)

/-! The highway. -/

/-- R148, R155, R156, R157, R160, R161, R165, R170, R171, R172: the frames of an interval, composed from the state
before any event of it: the byte of each line by the ranks of its claims, the PASS candidate policed, the management
bytes, and the check. At a free upstream slot the arbiter chooses an eligible reply first; then a relayed message, but
after two of them in a row a notice that may be begun; the urgent queue before the routine. A notice carries the lost
indicator of its class, which goes off as it begins; the urgent queue is the first of R176's classes. Each notice is
sent with the code and the fields of R176, its named values as R173 numbers them. A finished message holds the slot
until its sent command, and fill is sent (log 18). Where a line's policing mark comes on in the frame, its peg may
drop a METER notice and so mark the routine class again. That a notice carries the part address of the moment its
sending begins is the model's choice (log 35). -/
def Obligations.FramesOfAnInterval : Prop :=
  (∀ s : State, ∃ t l e, exec .frameSend s = .next t ∧ t.hwi.lSent = some l ∧ t.hwi.eSent = some e ∧
     l.sync = 0x9C ∧ e.sync = 0x9C ∧
     l.check = crc8 (l.sync :: (l.lines.toList ++ [l.mgmt1, l.mgmt2])) ∧
     e.check = crc8 (e.sync :: (e.lines.toList ++ [e.mgmt1, e.mgmt2])) ∧
     (∀ n,
       let c := s.down n
       let claims := [c.fault, c.blocked, c.test, c.ring, c.call, c.lockout, c.collecting]
       let foreign := downCode (s.eByte n) = none ∨ downCode (s.eByte n) = some .test ∨
         ∃ b leg, downCode (s.eByte n) = some (.ring b leg)
       (∀ code older younger, claims = older ++ some code :: younger → (∀ x ∈ older, x = none) →
         tget l.lines n = downByte code) ∧
       ((∀ x ∈ claims, x = none) → s.linked = true → ¬ foreign → ∀ code, downCode (s.eByte n) = some code →
         tget l.lines n = downByte code) ∧
       ((∀ x ∈ claims, x = none) → s.linked = false ∨ foreign → tget l.lines n = 0) ∧
       (tget t.hwi.policing n = true ↔ (∀ x ∈ claims, x = none) ∧ s.linked = true ∧ foreign)) ∧
     (∀ n,
       let c := s.up n
       (c.fault = true → tget e.lines n = s.lByte n) ∧
       (c.fault = false → ∀ x, c.replay = some x →
         tget e.lines n = upByte x (upTrip (s.lByte n)) (upStatus (s.lByte n)) (upReading (s.lByte n))) ∧
       (c.fault = false → c.replay = none → c.onHook = true →
         tget e.lines n =
           upByte .opened false (if upStatus (s.lByte n) = 1 then 1 else 0) (upReading (s.lByte n))) ∧
       (c.fault = false → c.replay = none → c.onHook = false → tget e.lines n = s.lByte n)) ∧
     (∀ b1 b2, s.mgp.relayPair = some (b1, b2) → l.mgmt1 = b1 ∧ l.mgmt2 = b2) ∧
     (s.mgp.relayPair = none → l.mgmt1 = 0xFF ∧ l.mgmt2 = 0xFF) ∧ t.mgp.relayPair = none ∧
     (∀ x b1 b2 rest, s.mgp.sending = some ⟨x, b1 :: b2 :: rest⟩ →
       e.mgmt1 = b1 ∧ e.mgmt2 = b2 ∧ t.mgp.sending = some ⟨x, rest⟩) ∧
     (∀ x b, s.mgp.sending = some ⟨x, [b]⟩ → e.mgmt1 = b ∧ e.mgmt2 = 0xFF ∧ t.mgp.sending = some ⟨x, []⟩) ∧
     (∀ x, s.mgp.sending = some ⟨x, []⟩ →
       e.mgmt1 = 0xFF ∧ e.mgmt2 = 0xFF ∧ t.mgp.sending = some ⟨x, []⟩)) ∧
  (∀ s : State, s.mgp.sending = none → ∃ t e, exec .frameSend s = .next t ∧ t.hwi.eSent = some e ∧
     let m := s.mgp
     let source : Byte := match m.address with
       | some a => BitVec.ofNat 8 a.val
       | none => 31
     let mayNotice := s.linked = true ∧ (m.urgent ≠ [] ∨ m.routine ≠ [])
     let replies := ∃ rep, m.replySlot = some rep ∧ rep.holdOff = none
     let indicators (urgent routine : Bool) :=
       t.mgp.urgentLost = urgent ∧
         ((∀ n, tget t.hwi.policing n = true → tget s.hwi.policing n = true) → t.mgp.routineLost = routine)
     let begins (x : UpstreamItem) (bytes : List Byte) (run : Nat) :=
       e.mgmt1 = bytes.getD 0 0xFF ∧ e.mgmt2 = bytes.getD 1 0xFF ∧ t.mgp.sending = some ⟨x, bytes.drop 2⟩ ∧
         t.mgp.runCount = run ∧
         indicators (m.urgentLost && decide (x ≠ .urgent)) (m.routineLost && decide (x ≠ .routine))
     let marked (lost : Bool) (n : Notice) : List Byte := (if lost then 1 else 0) :: noticeFields n
     (∀ rep, m.replySlot = some rep → rep.holdOff = none →
       begins .reply (message rep.destination source 2 rep.code rep.payload) m.runCount) ∧
     (¬ replies → (m.runCount < 2 ∨ ¬ mayNotice) → ∀ x rest, m.relayBuffer = x :: rest →
       begins .relayed x (min 2 (m.runCount + 1))) ∧
     (¬ replies → (m.relayBuffer = [] ∨ 2 ≤ m.runCount) → s.linked = true → ∀ n rest, m.urgent = n :: rest →
       begins .urgent (message 31 source 3 (noticeCode n) (marked m.urgentLost n)) 0) ∧
     (¬ replies → (m.relayBuffer = [] ∨ 2 ≤ m.runCount) → s.linked = true → m.urgent = [] →
       ∀ n rest, m.routine = n :: rest →
       begins .routine (message 31 source 3 (noticeCode n) (marked m.routineLost n)) 0) ∧
     (¬ replies → m.relayBuffer = [] → ¬ mayNotice →
       e.mgmt1 = 0xFF ∧ e.mgmt2 = 0xFF ∧ t.mgp.sending = none ∧ t.mgp.runCount = m.runCount ∧
         indicators m.urgentLost m.routineLost)) ∧
  (let number (v : Nat) : Byte := BitVec.ofNat 8 v
   let absent (v : Option Nat) : Byte := match v with
     | some v => number v
     | none => 0xFF
   let one (p : PartyId) : Nat := p.val + 1
   let reply (a : Answered) : Nat := match a with
     | .party p => one p
     | .unidentified => 0
   let sent (n : Notice) (urgent : Bool) (code : Byte) (fields : List Byte) :=
     noticeUrgent n = urgent ∧ noticeCode n = code ∧ noticeFields n = fields
   (∀ e : CallEnd, sent (.callEnd e) true 0x81
     [number e.call.val, number (callKindCode e.kind), number (originCode e.origin), number e.line.val,
      number (one e.called), absent (e.caller.map one), number (endResultCode e.result),
        absent (e.answered.map reply),
      absent (e.testResult.map testOutcomeCode), number e.cyclesRung, absent e.reRevert]) ∧
   (∀ c k l a again, sent (.answer c k l a again) true 0x82
     [number c.val, number (callKindCode k), number l.val, absent (a.map reply), absent again]) ∧
   (∀ l why, sent (.lineFault l why) true 0x83 [number l.val, 0, number (faultReasonCode why)]) ∧
   (∀ l entered, sent (.lineRecovered l entered) true 0x83 [number l.val, 1, number (lineStateCode entered)]) ∧
   (∀ l, sent (.lineLockout l) false 0x83 [number l.val, 2, 0xFF]) ∧
   (∀ l outcome p reading, sent (.identity l outcome p reading) false 0x84
     [number l.val, number (testOutcomeCode outcome), absent (p.map one), absent reading]) ∧
   (∀ c l p, sent (.revertLocalStart c l p) false 0x85 [number c.val, number l.val, number (one p)]) ∧
   (∀ l p, sent (.revertRefused l p) false 0x86 [number l.val, number (one p)]) ∧
   (∀ event left bad, sent (.link event left bad) false 0x87
     [number (linkEventCode event), number (linkStateCode left), number (bad / 256), number bad]) ∧
   (∀ meters, sent (.meter meters) false 0x88 [meters]) ∧
   [CallKind.xr, .rv].map callKindCode = [0, 1] ∧ [Origin.exchange, .isLocal].map originCode = [0, 1] ∧
   [EndResult.answered, .noAnswer, .glare, .stopped, .fault, .blocked, .linkLost, .completed, .completedUnconfirmed,
     .abandoned, .selfRevert].map endResultCode = List.range 11 ∧
   [TestOutcome.party, .unidentified, .timeout, .aborted].map testOutcomeCode = List.range 4 ∧
   [FaultReason.ground, .foreign, .shelf].map faultReasonCode = List.range 3 ∧
   [LineState.idle, .qualifying, .collecting, .replaying, .through, .call, .lockout, .blocked, .fault].map
     lineStateCode = List.range 9 ∧
   [LinkEvent.warning, .linked, .isolated, .released, .restored].map linkEventCode = List.range 5 ∧
   [LinkState.acquiring, .linked, .warning, .isolated, .released].map linkStateCode = List.range 5)

/-- R156, and 00 section 5.2 as log 1 reads it: FRAME_SEND starts an interval. Every running timer counts one, and a
timer at 0 stays there; nothing else of the lines, calls and ring parts changes. FOREIGN_CODE is pegged for each line
whose policing mark comes on, and for no other; the order L0 to L15 of these pegs is the model's choice (log 12). -/
def Obligations.FrameSendCountsTheTimers : Prop :=
  ∀ s : State, ∃ t, exec .frameSend s = .next t ∧
    (∀ n, t.line n = { s.line n with lockoutTimer := (s.line n).lockoutTimer.map (· - 1), hold := false }) ∧
    (∀ n, t.digits n =
      { s.digits n with
        collection := (s.digits n).collection.map (fun x => { x with left := x.left - 1 }),
        generatorTimer := (s.digits n).generatorTimer - 1 }) ∧
    (∀ c, t.callRec c = (s.callRec c).map (fun r => { r with hangupTimer := r.hangupTimer.map (· - 1) })) ∧
    t.rsc = { s.rsc with slotTimer := s.rsc.slotTimer - 1 } ∧
    t.mgp.replySlot = s.mgp.replySlot.map (fun r => { r with holdOff := r.holdOff.map (· - 1) }) ∧
    t.itu = { s.itu with inProgress := s.itu.inProgress.map (fun x => { x with fresh := false }) } ∧
    (∀ n, t.down n = s.down n ∧ t.up n = s.up n) ∧ t.hwi.ePort = s.hwi.ePort ∧ t.hwi.lPort = s.hwi.lPort ∧
    t.ptb = s.ptb ∧ t.lkm = s.lkm ∧ t.pending = s.pending ∧
    let newly := lineIds.filter (fun n => tget t.hwi.policing n && !tget s.hwi.policing n)
    ∃ u : State, u.tmu = s.tmu ∧ u.mgp.urgent = s.mgp.urgent ∧ u.mgp.routine = s.mgp.routine ∧
      u.mgp.counters = s.mgp.counters ∧
      let v := u.reported (newly.map (fun n => .peg .foreignCode (some n)))
      t.tmu = v.tmu ∧ t.mgp.urgent = v.mgp.urgent ∧ t.mgp.routine = v.mgp.routine ∧ t.mgp.counters = v.mgp.counters

/-- R150, R151, R158, R163, R164, R165, R167, R168: the 20 bytes received as a frame (log 9) on an ALIGNED or HUNTING
port. First with no message under way on the port and none beginning: valid, failing its check, the first and the
second wrong sync, and a slip; the wrong-sync count stands where the port goes HUNTING (log 20). Then an invalid frame
or a slip with a message under way: the assembler returns to HUNT, the downstream relay to IDLE on the E-port, and the
message is discarded, counted and pegged. Last a valid frame that is taken: it begins a message, carries it on, or
ends it by a bad length or whole. A whole message is judged by its check and its kind and counted; a request for this
part or for all is taken (R169); a message of the L-port joins the relay buffer while it has room. The downstream
relay starts with a message not for this part alone, carries every pair of it to the L-port's next frame, and ends
with it. -/
def Obligations.FrameIsTaken : Prop :=
  (∀ (s : State) (p : Port) (f : Frame), f.mgmt1 ≠ 0xC3 →
     (p = .e → s.mgp.eAssembler = none) → (p = .l → s.mgp.lAssembler = none) →
     let q := s.port p
     let goes (c : Instr) (q : RxPort) := exec c s = .next (match p with
       | .e => { s with hwi := { s.hwi with ePort := q } }
       | .l => { s with hwi := { s.hwi with lPort := q } })
     let checks := f.check = crc8 (f.sync :: (f.lines.toList ++ [f.mgmt1, f.mgmt2]))
     (q.alignment = .hunting → exec (.frameReceived p f) s = .next s) ∧
     (q.alignment = .aligned → f.sync ≠ 0x9C → q.wrongSync = 0 →
       goes (.frameReceived p f) { q with wrongSync := 1, frameSeen := true }) ∧
     (q.alignment = .aligned → f.sync ≠ 0x9C → q.wrongSync ≠ 0 →
       goes (.frameReceived p f) { q with alignment := .hunting, frameSeen := true }) ∧
     (q.alignment = .aligned → f.sync = 0x9C → ¬ checks ∨ q.validTaken = true →
       goes (.frameReceived p f) { q with wrongSync := 0, frameSeen := true }) ∧
     (q.alignment = .aligned → f.sync = 0x9C → checks → q.validTaken = false →
       goes (.frameReceived p f)
         { q with wrongSync := 0, lastGood := f.lines, validTaken := true, frameSeen := true }) ∧
     (q.alignment = .aligned ∨ f.sync ≠ 0x9C ∨ ¬ checks → exec (.alignmentFound p f) s = .next s) ∧
     (q.alignment = .hunting → f.sync = 0x9C → checks → q.validTaken = false →
       goes (.alignmentFound p f)
         { q with
           alignment := .aligned, wrongSync := 0, lastGood := f.lines, validTaken := true, frameSeen := true }) ∧
     (q.alignment = .hunting → f.sync = 0x9C → checks → q.validTaken = true →
       goes (.alignmentFound p f) { q with alignment := .aligned, wrongSync := 0, frameSeen := true })) ∧
  (∀ (s : State) (p : Port) (f : Frame) (command : Instr) (after : RxPort),
     let q := s.port p
     let checks := f.check = crc8 (f.sync :: (f.lines.toList ++ [f.mgmt1, f.mgmt2]))
     (command = .frameReceived p f ∧ q.alignment = .aligned ∧ f.sync ≠ 0x9C ∧ q.wrongSync = 0 ∧
         after = { q with wrongSync := 1, frameSeen := true }) ∨
       (command = .frameReceived p f ∧ q.alignment = .aligned ∧ f.sync ≠ 0x9C ∧ q.wrongSync ≠ 0 ∧
         after = { q with alignment := .hunting, frameSeen := true }) ∨
       (command = .frameReceived p f ∧ q.alignment = .aligned ∧ f.sync = 0x9C ∧ (¬ checks ∨ q.validTaken = true) ∧
         after = { q with wrongSync := 0, frameSeen := true }) ∨
       (command = .alignmentFound p f ∧ q.alignment = .hunting ∧ f.sync = 0x9C ∧ checks ∧ q.validTaken = true ∧
         after = { q with alignment := .aligned, wrongSync := 0, frameSeen := true }) →
     let k := s.mgp.counters
     let up (c : PortCounters) : PortCounters := { c with abort := if c.abort < 65535 then c.abort + 1 else 65535 }
     let mgpE : Mgp := { s.mgp with eAssembler := none, relay := none, counters := { k with ePort := up k.ePort } }
     let mgpL : Mgp := { s.mgp with lAssembler := none, counters := { k with lPort := up k.lPort } }
     (p = .e → s.mgp.eAssembler ≠ none → exec command s =
       .next (State.peg { s with hwi := { s.hwi with ePort := after }, mgp := mgpE } .msgDiscarded none)) ∧
     (p = .l → s.mgp.lAssembler ≠ none → exec command s =
       .next (State.peg { s with hwi := { s.hwi with lPort := after }, mgp := mgpL } .msgDiscarded none))) ∧
  (∀ (s : State) (p : Port) (f : Frame) (command : Instr),
     let q := s.port p
     f.sync = 0x9C → f.check = crc8 (f.sync :: (f.lines.toList ++ [f.mgmt1, f.mgmt2])) → q.validTaken = false →
     (command = .frameReceived p f ∧ q.alignment = .aligned) ∨
       (command = .alignmentFound p f ∧ q.alignment = .hunting) →
     let after : RxPort :=
       { q with alignment := .aligned, wrongSync := 0, lastGood := f.lines, validTaken := true, frameSeen := true }
     let b1 := f.mgmt1
     let b2 := f.mgmt2
     let k := s.mgp.counters
     let up (n : Nat) := if n < 65535 then n + 1 else 65535
     let length (all : List Byte) := (all.getD 5 0).toNat
     let goesOn (all : List Byte) := all.length < 6 ∨ (length all ≤ 32 ∧ all.length < 8 + length all)
     let tooLong (all : List Byte) := 6 ≤ all.length ∧ 32 < length all
     let ends (all : List Byte) := 6 ≤ all.length ∧ length all ≤ 32 ∧ 8 + length all ≤ all.length
     let agrees (all : List Byte) :=
       let check := (crc16 (all.take (6 + length all))).toNat
       (all.drop (6 + length all)).take 2 = [BitVec.ofNat 8 (check / 256), BitVec.ofNat 8 check]
     (p = .e →
       let at' (m : Mgp) : State := { s with hwi := { s.hwi with ePort := after }, mgp := m }
       let own (b : Byte) := ∃ a, s.mgp.address = some a ∧ a.val = b.toNat
       let pair := if s.mgp.relay = none then s.mgp.relayPair else some (b1, b2)
       let closed : Mgp := { s.mgp with eAssembler := none, relay := none, relayPair := pair }
       let counted (c : PortCounters) : State := at' { closed with counters := { k with ePort := c } }
       (s.mgp.eAssembler = none → b1 = 0xC3 →
         (own b2 → exec command s = .next (at' { s.mgp with eAssembler := some [b1, b2] })) ∧
         (¬ own b2 → exec command s = .next (at' { s.mgp with
           eAssembler := some [b1, b2], relay := some [b1, b2], relayPair := some (b1, b2) }))) ∧
       ∀ m, s.mgp.eAssembler = some m →
         let all := m ++ [b1, b2]
         (goesOn all → exec command s = .next (at' { s.mgp with
           eAssembler := some all, relay := s.mgp.relay.map (fun bs => bs ++ [b1, b2]), relayPair := pair })) ∧
         (tooLong all → exec command s =
           .next ((counted { k.ePort with length := up k.ePort.length }).peg .msgDiscarded none)) ∧
         (ends all → ¬ agrees all → exec command s =
           .next ((counted { k.ePort with check := up k.ePort.check }).peg .msgDiscarded none)) ∧
         (ends all → agrees all → all.getD 3 0 ≠ 1 → exec command s =
           .next ((counted { k.ePort with kind := up k.ePort.kind }).peg .msgDiscarded none)) ∧
         (ends all → agrees all → all.getD 3 0 = 1 →
           let valid := counted { k.ePort with valid := up k.ePort.valid }
           let code := all.getD 4 0
           let request (broadcast : Bool) : Req :=
             { source := all.getD 2 0, broadcast := broadcast, payload := (all.drop 6).take (length all) }
           (all.getD 1 0 = 31 → exec command s = .next (valid.handleRequest code (request true) (executeCode code))) ∧
           (own (all.getD 1 0) → exec command s =
             .next (valid.handleRequest code (request false) (executeCode code))) ∧
           (all.getD 1 0 ≠ 31 → ¬ own (all.getD 1 0) → exec command s = .next valid))) ∧
     (p = .l →
       let at' (m : Mgp) : State := { s with hwi := { s.hwi with lPort := after }, mgp := m }
       let counted (c : PortCounters) : Mgp := { s.mgp with lAssembler := none, counters := { k with lPort := c } }
       (s.mgp.lAssembler = none → b1 = 0xC3 →
         exec command s = .next (at' { s.mgp with lAssembler := some [b1, b2] })) ∧
       ∀ m, s.mgp.lAssembler = some m →
         let all := m ++ [b1, b2]
         let kindKnown := all.getD 3 0 = 1 ∨ all.getD 3 0 = 2 ∨ all.getD 3 0 = 3
         let valid := counted { k.lPort with valid := up k.lPort.valid }
         (goesOn all → exec command s = .next (at' { s.mgp with lAssembler := some all })) ∧
         (tooLong all → exec command s =
           .next ((at' (counted { k.lPort with length := up k.lPort.length })).peg .msgDiscarded none)) ∧
         (ends all → ¬ agrees all → exec command s =
           .next ((at' (counted { k.lPort with check := up k.lPort.check })).peg .msgDiscarded none)) ∧
         (ends all → agrees all → ¬ kindKnown → exec command s =
           .next ((at' (counted { k.lPort with kind := up k.lPort.kind })).peg .msgDiscarded none)) ∧
         (ends all → agrees all → kindKnown → s.mgp.relayBuffer.length < 2 → exec command s =
           .next (at' { valid with relayBuffer := s.mgp.relayBuffer ++ [all.take (8 + length all)] })) ∧
         (ends all → agrees all → kindKnown → 2 ≤ s.mgp.relayBuffer.length → exec command s =
           .next ((at' { valid with counters := { valid.counters with relayDropped := up k.relayDropped } }).peg
             .msgDiscarded none))))

/-! The link. -/

/-- R151, R181, R182, R187, R188: the close of an E-port interval in which no message is aborted: the counts, the
bytes in force, and the changes of link state other than the long timeout. A command of a change that does not come
about changes nothing (log 3). -/
def Obligations.EPortIntervalCloses : Prop :=
  ∀ s : State, s.hwi.ePort.frameSeen = true ∨ s.mgp.eAssembler = none →
    let p := s.hwi.ePort
    let good := p.validTaken
    let k := s.lkm
    let bad := min 12000 (k.badCount + 1)
    let run := if k.badCount = 0 then k.lastRun else k.badCount
    let recovery := min 200 (k.recovery + 1)
    let closed : RxPort := { p with inForce := p.lastGood, good := good, validTaken := false, frameSeen := false }
    let link (st : LinkState) (bad run rec' : Nat) : State :=
      { s with hwi := { s.hwi with ePort := closed }, lkm := ⟨st, bad, run, rec'⟩ }
    let goes (t : State) := exec .ePortIntervalClose s = .next t
    let isDue (t : Option Nat) := t = some bad
    let stands (c : Instr) := exec c s = .next s
    let down := k.state = .isolated ∨ k.state = .released
    (good = true → k.state = .acquiring ∨ k.state = .linked → goes (link .linked 0 run k.recovery)) ∧
    (good = true → k.state = .warning →
      goes ((link .linked 0 run k.recovery).reported [.notice (.link .linked .warning run)])) ∧
    (good = true → down → recovery < 200 → goes (link k.state 0 run recovery) ∧ stands .linkRestored) ∧
    (good = true → down → 200 ≤ recovery →
      let t := (link .linked 0 run 0).reported [.notice (.link .restored k.state run)]
      goes t ∧ exec .linkRestored s = .next t) ∧
    (good = true → stands .shortTimeout ∧ stands .longTimeout) ∧
    (good = false → down → goes (link k.state bad k.lastRun 0) ∧ stands .shortTimeout ∧ stands .longTimeout) ∧
    (good = false → stands .linkRestored) ∧
    (good = false → ¬ down → ¬ isDue s.timing.longTimeout → k.state = .warning ∨ ¬ isDue s.timing.shortTimeout →
      goes (link k.state bad k.lastRun 0) ∧ stands .shortTimeout ∧ stands .longTimeout) ∧
    (good = false → k.state = .acquiring ∨ k.state = .linked → ¬ isDue s.timing.longTimeout →
      isDue s.timing.shortTimeout →
      let t := (link .warning bad k.lastRun 0).reported [.notice (.link .warning k.state bad)]
      goes t ∧ exec .shortTimeout s = .next t)

/-- R82, R183, R184, R185: the long timeout with action ISOLATE: the link record, and each line. Calls, tests and ring
parts stand. -/
def Obligations.LongTimeoutIsolates : Prop :=
  ∀ s : State, s.hwi.ePort.validTaken = false → s.lkm.state ≠ .isolated → s.lkm.state ≠ .released →
    let bad := min 12000 (s.lkm.badCount + 1)
    s.timing.longTimeout = some bad → s.timing.longAction = .isolate →
    ∃ t, exec .ePortIntervalClose s = .next t ∧ exec .longTimeout s = .next t ∧
      t.lkm = ⟨.isolated, bad, s.lkm.lastRun, 0⟩ ∧ t.csq = s.csq ∧ t.rsc = s.rsc ∧ t.itu = s.itu ∧ t.ptb = s.ptb ∧
      ∀ n,
        let r := s.line n
        let locked := t.line n = { r with
            state := .lockout, loop := .closed, seizureCount := if r.loop = .closed then r.seizureCount else 0,
            onHookCount := if r.loop = .closed then r.onHookCount else 0, faultReason := none,
            lockoutTimer := some 6000, lockoutPhase := some .tone } ∧
          t.digits n = DigitRec.initial ∧ t.up n = ⟨false, none, true⟩ ∧
          t.down n = { (s.down n).noLsv with lockout := some .hangupTone }
        (r.state = .replaying → locked) ∧
        (r.state = .through → s.callOn n = none → locked) ∧
        (r.state = .through → s.callOn n ≠ none →
          t.line n = { r with state := .call, lockoutTimer := none, lockoutPhase := none } ∧
          t.digits n = DigitRec.initial ∧ t.up n = ⟨false, none, false⟩ ∧ t.down n = (s.down n).noLsv) ∧
        (r.state ≠ .replaying → r.state ≠ .through → t.line n = r ∧ t.digits n = s.digits n ∧ t.up n = s.up n ∧
          t.down n = s.down n)

/-- R39, R82, R143, R183, R186: the long timeout with action RELEASE: every test is aborted, every ring part and every
call goes, and no line is left in COLLECTING, REPLAYING, LOCKOUT, CALL or BLOCKED. -/
def Obligations.LongTimeoutReleases : Prop :=
  ∀ s : State, s.hwi.ePort.validTaken = false → s.lkm.state ≠ .isolated → s.lkm.state ≠ .released →
    let bad := min 12000 (s.lkm.badCount + 1)
    s.timing.longTimeout = some bad → s.timing.longAction = .release →
    ∃ t, exec .ePortIntervalClose s = .next t ∧ exec .longTimeout s = .next t ∧
      t.lkm = ⟨.released, bad, s.lkm.lastRun, 0⟩ ∧ (∀ c, t.callRec c = none) ∧ t.itu = ⟨[], none⟩ ∧
      t.rsc.parts = [] ∧ (∀ b sl, tget (tget t.rsc.busLoad b) sl = 0) ∧
      (∀ g sl, tget (tget t.rsc.occupancy g) sl = 0) ∧ t.rsc.startPointer = s.rsc.startPointer ∧
      t.rsc.cycleSlot = s.rsc.cycleSlot ∧ t.rsc.slotTimer = s.rsc.slotTimer ∧ t.ptb = s.ptb ∧
      ∀ n,
        let st := (s.line n).state
        (st = .collecting ∨ st = .replaying ∨ st = .lockout ∨ st = .call →
          ((s.line n).loop = .closed → (t.line n).state = .through) ∧
          ((s.line n).loop = .opened → (t.line n).state = .idle) ∧ t.digits n = DigitRec.initial) ∧
        (st = .blocked → (t.line n).state = .idle ∧ (t.line n).loop = .opened) ∧
        (st = .idle ∨ st = .qualifying ∨ st = .through ∨ st = .fault → (t.line n).state = st) ∧
        (t.line n).loop = (if st = .blocked then .opened else (s.line n).loop)

/-! Ring parts. -/

/-- R20, R21, R24, R26, R27, R28, R29, R30, R31, R33, R34, R36, R38, R50, R122, R136, R137: the requests taken by the
RSC. A place request: refused above the capacity of its bus, which ends a call in REVERT_RINGING; placed at the first
offset that passes; else queued, with the pass that follows; a call that still holds a part is not given a second (log
20). That a refused place request is followed by the release request of the ended call is the model's reading (log
15), and that RING_REFUSED is pegged before the call ends is its choice (log 12). A placed or queued request of a call
in REVERT_RINGING is followed by the stage request of alternation (log 16). A release, a stage and an amend request,
with the pass that follows over the parts that wait; of a call that has no ring part each of the three changes nothing
(R38, R50). Requests are taken in the order handed: a command of another kind than the oldest changes nothing (log 6).
A place request that still waits when its call has ended makes its part all the same (log 32). That an amend takes its
steps and its pass for any cadence it names, the one the part has included, is the model's choice (log 33). The
RING_REFUSED peg of a stage request is log 13. -/
def Obligations.RingRequestsAreTaken : Prop :=
  (∀ (s : State) (c : CallNo) (n : LineId) (sp : Spec) (limit done : Nat) (rest : List RscRequest),
     s.rsc.requests = .place c n sp limit done :: rest →
     let g := (s.attr n).group
     let made (st : PartStatus) : RingPart :=
       { call := c, line := n, group := g, spec := sp, status := st, cycleLimit := limit, cyclesCompleted := done,
         staged := none, ringingBegun := false, tripDelivered := false }
     let u : State := { s with rsc := { s.rsc with requests := rest } }
     let next (t : State) := exec .placeRequest s = .next t
     let fresh := ∀ p ∈ s.rsc.parts, p.call ≠ c
     let reverts (rec : CallRec) := s.callRec c = some rec ∧ rec.line = n ∧ rec.state = .revertRinging
     let taken (t : State) :=
       ((∀ rec, ¬ reverts rec) → next t) ∧
       ∀ rec, reverts rec →
         ((s.attr n).backRing = true → ∀ called caller q, s.specOf n rec.called = some called → rec.caller = some q →
           s.specOf n q = some caller → called ≠ caller →
           next (t.handed [.stage c (if sp = called then caller else called)])) ∧
         ((s.attr n).backRing = false ∨ (∀ q, rec.caller = some q → s.specOf n q = s.specOf n rec.called) → next t)
     (¬ fresh → next u) ∧
     (fresh → s.capacity sp.bus < sp.bell →
       ((∀ rec, ¬ reverts rec) → next (u.reported [.peg .ringRefused (some n)])) ∧
       ∀ rec, reverts rec → s.untested n → (s.line n).state = .call →
         let q := s.line n
         let idle : LineRec :=
           { q with
             state := .idle, loop := .opened, seizureCount := if q.loop = .opened then q.seizureCount else 0,
             onHookCount := if q.loop = .opened then q.onHookCount else 0, faultReason := none,
             lockoutTimer := none, lockoutPhase := none }
         next (((u.freed c rec).withLine n idle DigitRec.initial { (s.down n).noLsv with call := none }
           ⟨false, none, false⟩).reported
           [.peg .ringRefused (some n), .notice (.callEnd (callEndOf c rec .noAnswer)), .peg .noAnswer (some n)])) ∧
     (fresh → sp.bell ≤ s.capacity sp.bus → noneBlocks s.rsc.parts sp.bus → ∀ k, s.firstFit sp g k →
       ∃ map, s.mapAdded map sp g k ∧ taken (u.foundPlace map s.rsc.parts [] (made (.queued 0)) k)) ∧
     (fresh → sp.bell ≤ s.capacity sp.bus → partsDistinct s.rsc.parts →
       ¬ noneBlocks s.rsc.parts sp.bus ∨ (∀ k, ¬ s.fitsAt sp g k) →
       ∃ t, State.passes
           ((u.withParts (s.rsc.parts ++ [made (.queued 0)]) s).reported [.peg .ringQueued (some n)]) t ∧
         taken t)) ∧
  (∀ (s : State) (older younger : List RingPart) (p : RingPart) (rest : List RscRequest),
     s.rsc.parts = older ++ p :: younger → partsDistinct s.rsc.parts →
     let u : State := { s with rsc := { s.rsc with requests := rest } }
     let gone := older ++ younger
     let changed (q : RingPart) := u.withParts (older ++ q :: younger) s
     let leads (c : Instr) (t : State) := ∃ v, t.passes v ∧ exec c s = .next v
     (s.rsc.requests = .release p.call :: rest →
       (∀ m, p.status = .queued m → leads .releaseRequest (u.withParts gone s)) ∧
       (∀ k, p.status = .placed k true →
         ∃ t, s.mapRemoved t p.spec p.group k ∧ leads .releaseRequest (u.withParts gone t)) ∧
       (∀ k, p.status = .placed k false → ∃ t, s.mapRemoved t p.spec p.group k ∧
         leads .releaseRequest ((u.withParts gone t).withLine p.line
           { s.line p.line with tripCount := 0, seizureCount := 0, hold := true } (s.digits p.line)
           { s.down p.line with ring := none } (s.up p.line)))) ∧
     (∀ sp, s.rsc.requests = .stage p.call sp :: rest →
       (s.capacity sp.bus < sp.bell → exec .stageRequest s = .next (u.reported [.peg .ringRefused (some p.line)])) ∧
       (sp.bell ≤ s.capacity sp.bus →
         exec .stageRequest s = .next (changed { p with staged := some ⟨some sp, none⟩ }))) ∧
     (∀ cad limit, s.rsc.requests = .amend p.call cad limit :: rest →
       let p' : RingPart := { p with cycleLimit := limit.getD p.cycleLimit }
       (∀ k, p.status = .placed k false → exec .amendRequest s = .next (changed
         { p with staged := some ⟨cad.map (fun x => { p.spec with cadence := x }), limit⟩ })) ∧
       ((∀ k, p.status ≠ .placed k false) → cad = none → exec .amendRequest s = .next (changed p')) ∧
       (∀ m x, p.status = .queued m → cad = some x →
         leads .amendRequest (changed { p' with spec := { p.spec with cadence := x } })) ∧
       (∀ k x, p.status = .placed k true → cad = some x →
         let sp : Spec := { p.spec with cadence := x }
         let now : RingPart := { p' with spec := sp }
         ∃ v, s.mapRemoved v p.spec p.group k ∧ v.ptb = s.ptb ∧ v.rsc.startPointer = s.rsc.startPointer ∧
           (noneBlocks older sp.bus → v.fitsAt sp p.group k → ∃ t, v.mapAdded t sp p.group k ∧
             leads .amendRequest ((u.withParts (overtakenBy sp.bus older ++ now :: younger) t).reported
               [.peg .ringPlaced (some p.line)])) ∧
           (noneBlocks older sp.bus → ¬ v.fitsAt sp p.group k → ∀ k', v.firstFit sp p.group k' →
             ∃ t, v.mapAdded t sp p.group k' ∧ leads .amendRequest (u.foundPlace t older younger now k')) ∧
           (¬ noneBlocks older sp.bus ∨ (∀ k', ¬ v.fitsAt sp p.group k') →
             leads .amendRequest ((u.withParts (older ++ { now with status := .queued 0 } :: younger) v).reported
               [.peg .ringQueued (some p.line)]))))) ∧
  (∀ s : State,
     ((∀ c n sp l d, s.rsc.requests.head? ≠ some (.place c n sp l d)) → exec .placeRequest s = .next s) ∧
     ((∀ c sp, s.rsc.requests.head? ≠ some (.stage c sp)) → exec .stageRequest s = .next s) ∧
     ((∀ c x l, s.rsc.requests.head? ≠ some (.amend c x l)) → exec .amendRequest s = .next s) ∧
     ((∀ c, s.rsc.requests.head? ≠ some (.release c)) → exec .releaseRequest s = .next s)) ∧
  (∀ (s : State) (c : CallNo) (rest : List RscRequest), (∀ p ∈ s.rsc.parts, p.call ≠ c) →
     let u : State := { s with rsc := { s.rsc with requests := rest } }
     (s.rsc.requests = .release c :: rest → exec .releaseRequest s = .next u) ∧
     (∀ sp, s.rsc.requests = .stage c sp :: rest → exec .stageRequest s = .next u) ∧
     (∀ cad limit, s.rsc.requests = .amend c cad limit :: rest → exec .amendRequest s = .next u))

/-- R34, R43, R44, R45, R46, R47, R49, R122, R128, R130, R137, R138: the work of a slot timer expiry on one ring part,
the other parts, which may wait in the queue, having none at it. A command of a timer that is not due changes nothing
(log 4). -/
def Obligations.SlotTimerExpires : Prop :=
  ∀ s : State, (s.rsc.slotTimer ≠ 0 → exec .slotTimerExpiry s = .next s) ∧ (s.rsc.slotTimer = 0 →
    let slot := s.rsc.cycleSlot + 1
    let u : State := { s with rsc := { s.rsc with slotTimer := 50, cycleSlot := slot } }
    let next (t : State) := exec .slotTimerExpiry s = .next t
    let rests (p : RingPart) := (∃ m, p.status = .queued m) ∨ ∃ k, p.status = .placed k true ∧ k ≠ slot
    ((∀ p ∈ s.rsc.parts, rests p) → next u) ∧
    ∀ (older younger : List RingPart) (p : RingPart), s.rsc.parts = older ++ p :: younger →
      (∀ o ∈ older ++ younger, rests o ∧ o.call ≠ p.call) →
      let n := p.line
      let count := p.cyclesCompleted + 1
      let code (k : Slot) : DownCode :=
        if ringOnSlot (s.cadence p.spec.cadence) k slot then .ring p.spec.bus p.spec.leg else .feed
      let with' (q : RingPart) := u.withParts (older ++ q :: younger) s
      let claimed (t : State) (r : LineRec) (ring : Option DownCode) : State :=
        t.withLine n r (s.digits n) { s.down n with ring := ring } (s.up n)
      let begun : LineRec := { s.line n with seizureCount := 0, tripCount := 0, hold := true }
      let started := with' { p with status := .placed slot false, ringingBegun := true }
      let counted := with' { p with cyclesCompleted := count }
      (∀ k, p.status = .placed k false → k ≠ slot → next (claimed u (s.line n) (some (code k)))) ∧
      (p.status = .placed slot true →
        p.ringingBegun = true ∨ (∀ rec, s.callRec p.call = some rec → rec.line ≠ n) →
        next (claimed started begun (some (code slot)))) ∧
      (p.status = .placed slot true → p.ringingBegun = false → ∀ rec, s.callRec p.call = some rec → rec.line = n →
        (rec.state = .waiting →
          next (claimed { started with csq := tset s.csq p.call (some { rec with state := .ringing }) } begun
            (some (code slot)))) ∧
        (rec.state ≠ .waiting → next (claimed started begun (some (code slot))))) ∧
      (p.status = .placed slot false → p.staged = none → count < p.cycleLimit →
        boundaryTells s p none p.spec (claimed counted (s.line n) (some (code slot))) next) ∧
      (p.status = .placed slot false → p.cycleLimit ≤ count → partsDistinct s.rsc.parts →
        ∃ t, s.mapRemoved t p.spec p.group slot ∧ ∃ v,
          State.passes (claimed (u.withParts (older ++ younger) t) begun none) v ∧
          exhaustedTells s p none begun v next))

/-- R34, R50, R51, R52, R122, R126, R130, R137, R138: a staged change at a cycle boundary before the limit: its limit
replaces the part's, which may end the ringing there, and becomes the call's ring limit; its spec replaces the part's
at the same offset where it passes, else the part is moved by the search or rejoins the queue with its cycles kept; a
placement pass over the parts that wait follows; the call takes the report by its state. The other parts have no work
at the expiry. That a call in IDENTIFYING takes the limit is log 29. -/
def Obligations.StagedChangeApplies : Prop :=
  ∀ (s : State) (older younger : List RingPart) (p : RingPart) (slot : Slot) (spec : Option Spec)
    (limit : Option Nat), s.rsc.slotTimer = 0 → slot = s.rsc.cycleSlot + 1 →
    s.rsc.parts = older ++ p :: younger → partsDistinct s.rsc.parts →
    (∀ o ∈ older ++ younger, (∃ m, o.status = .queued m) ∨ ∃ k, o.status = .placed k true ∧ k ≠ slot) →
    p.status = .placed slot false → p.staged = some ⟨spec, limit⟩ → p.cyclesCompleted + 1 < p.cycleLimit →
    let n := p.line
    let count := p.cyclesCompleted + 1
    let l := limit.getD p.cycleLimit
    let u : State := { s with rsc := { s.rsc with slotTimer := 50, cycleSlot := slot } }
    let code (sp : Spec) : DownCode :=
      if ringOnSlot (s.cadence sp.cadence) slot slot then .ring sp.bus sp.leg else .feed
    let next (t : State) := exec .slotTimerExpiry s = .next t
    let q (sp : Spec) (st : PartStatus) : RingPart :=
      { p with spec := sp, status := st, cycleLimit := l, cyclesCompleted := count, staged := none }
    let claimed (t : State) (r : LineRec) (ring : Option DownCode) : State :=
      t.withLine n r (s.digits n) { s.down n with ring := ring } (s.up n)
    let stopped : LineRec := { s.line n with seizureCount := 0, tripCount := 0, hold := true }
    let reported (held : Spec) (t : State) := ∃ v, t.passes v ∧ boundaryTells s p limit held v next
    (l ≤ count → ∃ t, s.mapRemoved t p.spec p.group slot ∧ ∃ v,
      State.passes (claimed (u.withParts (older ++ younger) t) stopped none) v ∧
        exhaustedTells s p limit stopped v next) ∧
    (spec = none → count < l →
      reported p.spec (claimed (u.withParts (older ++ q p.spec p.status :: younger) s) (s.line n)
        (some (code p.spec)))) ∧
    (∀ sp, spec = some sp → count < l → ∃ v, s.mapRemoved v p.spec p.group slot ∧ v.ptb = s.ptb ∧
      v.rsc.startPointer = s.rsc.startPointer ∧
      (noneBlocks older sp.bus → v.fitsAt sp p.group slot → ∃ t, v.mapAdded t sp p.group slot ∧
        reported sp (claimed (u.withParts (overtakenBy sp.bus older ++ q sp p.status :: younger) t) (s.line n)
          (some (code sp)))) ∧
      (noneBlocks older sp.bus → ¬ v.fitsAt sp p.group slot → ∀ k, v.firstFit sp p.group k →
        ∃ t, v.mapAdded t sp p.group k ∧
          reported sp ((claimed u stopped none).foundPlace t older younger (q sp p.status) k)) ∧
      (¬ noneBlocks older sp.bus ∨ (∀ k, ¬ v.fitsAt sp p.group k) →
        reported sp ((claimed (u.withParts (older ++ q sp (.queued 0) :: younger) v) stopped none).reported
          [.peg .ringQueued (some n)])))

/-! Requests on calls. -/

/-- R121, R122, R124, R125: RING. An accepted one makes the record, takes the line to CALL, and has its place request
taken in the event; no other request waits. -/
def Obligations.Ring : Prop :=
  ∀ (s : State) (r : Req), s.hears r → (r.payload.length ≠ 4 → refuses (.ring r) s 1 r 1) ∧
    ∀ line party cycles identify : Nat, numbers r.payload = [line, party, cycles, identify] →
      let inRange := 1 ≤ party ∧ party ≤ 8 ∧ cycles ≤ 31 ∧ identify ≤ 2
      (¬ inRange → refuses (.ring r) s 1 r 1) ∧ (inRange → 15 < line → refuses (.ring r) s 1 r 2) ∧
      ∀ (n : LineId) (p : PartyId), n.val = line → p.val + 1 = party → inRange →
        let st := (s.line n).state
        let shut := st = .blocked ∨ st = .fault ∨ s.lkm.state = .released
        (shut → refuses (.ring r) s 1 r 6) ∧ (¬ shut → st ≠ .idle → refuses (.ring r) s 1 r 5) ∧
        (¬ shut → st = .idle → s.party n p = none → refuses (.ring r) s 1 r 3) ∧
        ∀ e, s.party n p = some e → ¬ shut → st = .idle →
          (s.capacity e.spec.bus < e.spec.bell →
            answers (.ring r) s 1 r (s.reported [.peg .ringRefused (some n)]) [8]) ∧
          (e.spec.bell ≤ s.capacity e.spec.bus → (∀ c, s.callRec c ≠ none) → refuses (.ring r) s 1 r 7) ∧
          (e.spec.bell ≤ s.capacity e.spec.bus → s.rsc.requests = [] → ∀ c, s.callRec c = none →
            (∀ k, k < c → s.callRec k ≠ none) →
            let a := s.attr n
            let limit := if cycles = 0 then a.defaultCycles else cycles
            let made : CallRec :=
              { kind := .xr, origin := .exchange, line := n, called := p, caller := none, state := .waiting,
                ringPart := true, ringLimit := some limit, cyclesRung := 0,
                answerIdentify := some (if identify = 2 then a.answerIdentifyDefault else decide (identify = 1)),
                reRevert := none, hangupTimer := none, answered := none, testResult := none }
            let u : State := { s with csq := tset s.csq c (some made) }
            let v := u.withLine n { s.line n with state := .call, lockoutTimer := none, lockoutPhase := none }
              DigitRec.initial (s.down n).noLsv ⟨false, none, false⟩
            ∃ t, exec .placeRequest (v.handed [.place c n e.spec limit 0]) = .next t ∧
              answers (.ring r) s 1 r t [0, byteOf c.val])

/-- R117, R122, R127, R131, R141: RING STOP, for a call with or without a test request, waiting or in progress, its
own or one with the exchange. Where the line of an XR in IDENTIFYING goes depends on the link state at the stop. The
release request of a ring part is taken in the event; no other request waits (the order of one against the end of the
call is log 38). That a CALL END in IDENTIFYING or ANSWER_TEST carries no answered party is the model's choice (log
37). -/
def Obligations.RingStop : Prop :=
  ∀ (s : State) (r : Req), s.hears r → (r.payload.length ≠ 1 → refuses (.ringStop r) s 2 r 1) ∧
    ∀ b : Byte, r.payload = [b] → (23 < b.toNat → refuses (.ringStop r) s 2 r 1) ∧
      ∀ c : CallNo, c.val = b.toNat → (s.callRec c = none → refuses (.ringStop r) s 2 r 11) ∧
        ∀ rec, s.callRec c = some rec → (rec.state = .talk → refuses (.ringStop r) s 2 r 6) ∧
          let n := rec.line
          let q := s.line n
          let ends : Report := .notice (.callEnd (callEndOf c rec .stopped))
          let stops (t : State) (reports : List Report) :=
            (rec.ringPart = false → answers (.ringStop r) s 2 r (t.reported reports) [0]) ∧
            (rec.ringPart = true → s.rsc.requests = [] → ∃ u, exec .releaseRequest (t.reported reports) = .next u ∧
              answers (.ringStop r) s 2 r u [0])
          let idle : LineRec :=
            { q with
              state := .idle, loop := .opened, seizureCount := if q.loop = .opened then q.seizureCount else 0,
              onHookCount := if q.loop = .opened then q.onHookCount else 0, faultReason := none,
              lockoutTimer := none, lockoutPhase := none }
          let lockout : LineRec :=
            { q with state := .lockout, faultReason := none, lockoutTimer := some 6000, lockoutPhase := some .tone }
          let through : LineRec :=
            { q with state := .through, faultReason := none, lockoutTimer := none, lockoutPhase := none }
          let locked : List Report := [.notice (.lineLockout n), .peg .lockout (some n)]
          ∀ (v : State) (first : List Report), s.withdraws n c v first →
            let freed := v.freed c rec
            let down : DownClaims := { (v.down n).noLsv with call := none }
            let goesIdle := stops (freed.withLine n idle DigitRec.initial down ⟨false, none, false⟩) (first ++ [ends])
            let goesLockout := stops (freed.withLine n lockout DigitRec.initial
              { down with lockout := some .hangupTone } ⟨false, none, true⟩) (first ++ locked ++ [ends])
            (q.state = .call → rec.kind = .xr → rec.state = .waiting ∨ rec.state = .ringing → goesIdle) ∧
            (q.state = .call → rec.kind = .rv → rec.state ≠ .talk → q.loop = .opened → goesIdle) ∧
            (q.state = .call → rec.kind = .rv → rec.state ≠ .talk → q.loop = .closed → goesLockout) ∧
            (q.state = .through → rec.kind = .xr → rec.state = .identifying →
              stops (freed.withLine n q (s.digits n) { v.down n with call := none } (s.up n)) (first ++ [ends])) ∧
            (q.state = .call → rec.kind = .xr → rec.state = .identifying → s.linked = true → q.loop = .closed →
              stops (freed.withLine n through DigitRec.initial down ⟨false, none, false⟩) (first ++ [ends])) ∧
            (q.state = .call → rec.kind = .xr → rec.state = .identifying → s.linked = false → q.loop = .closed →
              goesLockout)

/-- R122, R126: RING AMEND. An accepted amend is taken in the event; no other request waits. That an amend of a call
without a ring part is answered APPLIED is log 20. -/
def Obligations.RingAmend : Prop :=
  ∀ (s : State) (r : Req), s.hears r → (r.payload.length ≠ 3 → refuses (.ringAmend r) s 3 r 1) ∧
    ∀ call cad cycles : Nat, numbers r.payload = [call, cad, cycles] →
      let good := call ≤ 23 ∧ cycles ≤ 31 ∧ (cad = 255 ∨ cad ≤ 15) ∧ ¬ (cad = 255 ∧ cycles = 0)
      (¬ good → refuses (.ringAmend r) s 3 r 1) ∧
      ∀ c : CallNo, c.val = call → good → (s.callRec c = none → refuses (.ringAmend r) s 3 r 11) ∧
        ∀ rec, s.callRec c = some rec →
          let rings := rec.state = .waiting ∨ rec.state = .ringing
          let names := cad ≤ 15 ∧ s.cadence (Fin.ofNat 16 cad) = []
          (rec.kind = .rv → refuses (.ringAmend r) s 3 r 12) ∧
          (rec.kind = .xr → ¬ rings → refuses (.ringAmend r) s 3 r 6) ∧
          (rec.kind = .xr → rings → names → refuses (.ringAmend r) s 3 r 4) ∧
          (rec.kind = .xr → rings → ¬ names → s.rsc.requests = [] →
            let limit := if cycles = 0 then none else some cycles
            let q : RscRequest := .amend c (if cad = 255 then none else some (Fin.ofNat 16 cad)) limit
            let now : CallRec := { rec with ringLimit := limit.or rec.ringLimit }
            ((∃ p, s.part c = some p ∧ ∃ k, p.status = .placed k false) →
              ∃ t, exec .amendRequest (s.handed [q]) = .next t ∧ answers (.ringAmend r) s 3 r t [0, 1]) ∧
            ((∀ p, s.part c = some p → ∀ k, p.status ≠ .placed k false) →
              let u := s.handed [q]
              ∃ t, exec .amendRequest { u with csq := tset s.csq c (some now) } = .next t ∧
                answers (.ringAmend r) s 3 r t [0, 0]))

/-- R121, R133, R134, R135: REVERT. The bridge is idle where the caller is to be identified. -/
def Obligations.Revert : Prop :=
  ∀ (s : State) (r : Req), s.hears r → (r.payload.length ≠ 3 → refuses (.revert r) s 4 r 1) ∧
    ∀ line called caller : Nat, numbers r.payload = [line, called, caller] →
      let good := 1 ≤ called ∧ called ≤ 8 ∧ caller ≤ 8 ∧ caller ≠ called
      (¬ good → refuses (.revert r) s 4 r 1) ∧ (good → 15 < line → refuses (.revert r) s 4 r 2) ∧
      ∀ (n : LineId) (p : PartyId), n.val = line → p.val + 1 = called → good →
        let here := s.lkm.state ≠ .released ∧ s.callOn n = none ∧ (s.line n).state = .through
        (s.lkm.state = .released → refuses (.revert r) s 4 r 6) ∧
        (s.lkm.state ≠ .released → s.callOn n ≠ none → refuses (.revert r) s 4 r 5) ∧
        (s.lkm.state ≠ .released → s.callOn n = none → (s.line n).state ≠ .through → refuses (.revert r) s 4 r 6) ∧
        (here → s.party n p = none → refuses (.revert r) s 4 r 3) ∧
        (here → s.party n p ≠ none → (∃ q : PartyId, q.val + 1 = caller ∧ s.party n q = none) →
          refuses (.revert r) s 4 r 3) ∧
        ∀ e, here → s.party n p = some e → (∀ q : PartyId, q.val + 1 = caller → s.party n q ≠ none) →
          (s.capacity e.spec.bus < e.spec.bell →
            answers (.revert r) s 4 r (s.reported [.peg .ringRefused (some n)]) [8]) ∧
          (e.spec.bell ≤ s.capacity e.spec.bus → (∀ c, s.callRec c ≠ none) → refuses (.revert r) s 4 r 7) ∧
          (e.spec.bell ≤ s.capacity e.spec.bus → ∀ c, s.callRec c = none → (∀ k, k < c → s.callRec k ≠ none) →
            let made (q : Option PartyId) (st : CallState) (timer : Option Nat) : CallRec :=
              { kind := .rv, origin := .exchange, line := n, called := p, caller := q, state := st,
                ringPart := false, ringLimit := none, cyclesRung := 0, answerIdentify := none, reRevert := some 0,
                hangupTimer := timer, answered := none, testResult := none }
            let taken (t : State) (down : DownClaims) : State :=
              (t.withLine n { s.line n with state := .call, lockoutTimer := none, lockoutPhase := none }
                DigitRec.initial down ⟨false, none, true⟩).reported [.peg .revertStarted (some n)]
            (∀ q : PartyId, q.val + 1 = caller →
              let rec' := made (some q) .hangupWait (some s.timing.hangupWait)
              answers (.revert r) s 4 r (taken { s with csq := tset s.csq c (some rec') }
                { (s.down n).noLsv with call := some .hangupTone }) [0, byteOf c.val]) ∧
            (caller = 0 → s.itu = ⟨[], none⟩ →
              let rec' := made none .identifyCaller none
              answers (.revert r) s 4 r
                (taken { s with csq := tset s.csq c (some rec'), itu := ⟨[], some ⟨n, [.call c], 0, true⟩⟩ }
                  { (s.down n).noLsv with call := some .feed, test := some .test }) [0, byteOf c.val]))

/-! Requests on lines. -/

/-- R78, R79, R80, R81, R115, R116: LINE BLOCK and LINE UNBLOCK. An accepted block of a line in no FAULT ends its
call, aborts its request, waiting or in progress, and leaves the line BLOCKED. That the end of the call comes before
the abort is log 12. -/
def Obligations.LineBlockAndUnblock : Prop :=
  ∀ (s : State) (r : Req), s.hears r →
    (r.payload.length ≠ 1 → refuses (.lineBlock r) s 9 r 1 ∧ refuses (.lineUnblock r) s 10 r 1) ∧
    (∀ b : Byte, r.payload = [b] → 15 < b.toNat → refuses (.lineBlock r) s 9 r 2 ∧
      refuses (.lineUnblock r) s 10 r 2) ∧
    ∀ (b : Byte) (n : LineId), r.payload = [b] → n.val = b.toNat →
      let q := s.line n
      let blocks (t : State) := answers (.lineBlock r) s 9 r t [0]
      let unblocks (t : State) := answers (.lineUnblock r) s 10 r t [0]
      let shut : LineRec :=
        { q with
          state := .blocked, loop := .opened, seizureCount := 0, onHookCount := 0, faultReason := none,
          lockoutTimer := none, lockoutPhase := none }
      let down : DownClaims := { (s.down n).noLsv with blocked := some .feedOff }
      let shuts (t : State) (itu : Itu) (d : DownClaims) : State :=
        { t with itu := itu }.withLine n shut DigitRec.initial d ⟨false, none, true⟩
      (q.state = .fault → blocks (s.setLine n { q with blockRecorded := true })) ∧
      (q.state = .blocked → blocks s) ∧
      (q.state ≠ .fault → q.state ≠ .blocked → s.callOn n = none → abortLeads s n (shuts s) down [] [] blocks) ∧
      (q.state ≠ .fault → q.state ≠ .blocked → ∀ c rec, s.callOn n = some c → s.callRec c = some rec →
        abortLeads s n (shuts (s.freed c rec)) { down with call := none }
          [.notice (.callEnd (callEndOf c rec .blocked))] [] blocks) ∧
      (q.state = .blocked → q.loop = .opened → unblocks (s.withLine n
        { q with state := .idle, faultReason := none, lockoutTimer := none, lockoutPhase := none } DigitRec.initial
        (s.down n).noLsv ⟨false, none, false⟩)) ∧
      (q.state = .fault → q.blockRecorded = true → unblocks (s.setLine n { q with blockRecorded := false })) ∧
      (q.state ≠ .blocked → ¬ (q.state = .fault ∧ q.blockRecorded = true) → refuses (.lineUnblock r) s 10 r 6)

/-- R107, R108, R110, R111, R118: IDENTIFY: its checks, and where its request goes: to an idle bridge, to the end of
the queue, or to the request of the line, in progress or waiting. Check 3 asks for a closed loop; that an IDENTIFY
taken before an on-hook that qualifies in the byte handed over and not yet taken is accepted all the same, by R118, is
the model's choice (log 31). -/
def Obligations.Identify : Prop :=
  ∀ (s : State) (r : Req), s.hears r → (r.payload.length ≠ 1 → refuses (.identify r) s 8 r 1) ∧
    (∀ b : Byte, r.payload = [b] → 15 < b.toNat → refuses (.identify r) s 8 r 2) ∧
    ∀ (b : Byte) (n : LineId), r.payload = [b] → n.val = b.toNat →
      let onHook := upLoop (s.lByte n) = .opened ∧ (s.line n).loop = .closed ∧
        (upFault (s.lByte n) = none ∨ (s.line n).faultCount + 1 < 20) ∧
        s.timing.onHookQualify ≤ (s.line n).onHookCount + 1 ∧ tget s.hwi.byteWaits n = true
      let open' := (s.line n).state = .through ∧ (upLoop (s.lByte n) = .closed ∨ onHook)
      let with' (i : Itu) (down : DownClaims) : State :=
        { s with itu := i, hwi := { s.hwi with down := tset s.hwi.down n down } }
      let goes (t : State) (k : Nat) := answers (.identify r) s 8 r t [0, b, byteOf k]
      (¬ open' → refuses (.identify r) s 8 r 6) ∧
      (open' → s.itu = ⟨[], none⟩ →
        goes (with' ⟨[], some ⟨n, [.exchange], 0, true⟩⟩ { s.down n with test := some .test }) 0) ∧
      ∀ x, open' → s.itu.inProgress = some x →
        (x.line = n → .exchange ∈ x.requesters → refuses (.identify r) s 8 r 9) ∧
        (x.line = n → .exchange ∉ x.requesters →
          goes (with' { s.itu with inProgress := some { x with requesters := x.requesters ++ [.exchange] } }
            (s.down n))
            0) ∧
        (x.line ≠ n → ∀ older rs younger, s.itu.queue = older ++ ⟨n, rs⟩ :: younger →
          (∀ q ∈ older ++ younger, q.line ≠ n) →
          (.exchange ∈ rs → refuses (.identify r) s 8 r 9) ∧
          (.exchange ∉ rs →
            goes (with' { s.itu with queue := older ++ ⟨n, rs ++ [.exchange]⟩ :: younger } (s.down n))
              (1 + older.length))) ∧
        (x.line ≠ n → (∀ q ∈ s.itu.queue, q.line ≠ n) →
          goes (with' { s.itu with queue := s.itu.queue ++ [⟨n, [.exchange]⟩] } (s.down n)) (1 + s.itu.queue.length))

/-- R83, R147, R173, R174: LINE QUERY and CALL QUERY return the fields of the line, of the call's record and of its
ring part, and change no state, the named values as R173 numbers them. A ring part whose place request still waits is
answered as log 17 says. -/
def Obligations.Queries : Prop :=
  (∀ (s : State) (r : Req), s.hears r →
    let absent (n : Option Nat) : Byte := match n with
      | some n => byteOf n
      | none => 0xFF
    (r.payload.length ≠ 1 → refuses (.lineQuery r) s 11 r 1 ∧ refuses (.callQuery r) s 12 r 1) ∧
    (∀ b : Byte, r.payload = [b] → (15 < b.toNat → refuses (.lineQuery r) s 11 r 2) ∧
      (23 < b.toNat → refuses (.callQuery r) s 12 r 1)) ∧
    (∀ (b : Byte) (n : LineId), r.payload = [b] → n.val = b.toNat →
      let q := s.line n
      answers (.lineQuery r) s 11 r s
        [0, b, byteOf (lineStateCode q.state), if q.loop = .closed then 1 else 0,
         if upLoop (s.lByte n) = .closed then 1 else 0, absent (q.faultReason.map faultReasonCode),
         if q.blockRecorded then 1 else 0, absent (q.lockoutPhase.map lockoutPhaseCode),
         absent ((s.callOn n).map Fin.val), byteOf (s.digits n).buffer.length]) ∧
    ∀ (b : Byte) (c : CallNo), r.payload = [b] → c.val = b.toNat →
      (s.callRec c = none → refuses (.callQuery r) s 12 r 11) ∧
      ∀ k, s.callRec c = some k →
        let timer := k.hangupTimer.getD 0xFFFF
        let fields : List Byte :=
          [b, byteOf (callKindCode k.kind), byteOf (originCode k.origin), byteOf k.line.val,
            byteOf (k.called.val + 1),
           absent (k.caller.map (fun p => p.val + 1)), byteOf (callStateCode k.state), if k.ringPart then 1 else 0,
           absent k.ringLimit, byteOf k.cyclesRung, absent (k.answerIdentify.map (fun x => if x then 1 else 0)),
           absent k.reRevert, byteOf (timer / 256), byteOf timer, absent (k.answered.map answeredCode),
           absent (k.testResult.map testOutcomeCode)]
        (k.ringPart = false → answers (.callQuery r) s 12 r s (0 :: fields)) ∧
        (k.ringPart = true → s.part c = none →
          answers (.callQuery r) s 12 r s (0 :: fields ++ List.replicate 11 0xFF)) ∧
        ∀ p, k.ringPart = true → s.part c = some p →
          let status : List Byte := match p.status with
            | .queued _ => [0, 0xFF, 0xFF]
            | .placed x pending => [1, byteOf x.val, if pending then 1 else 0]
          let passed : Byte := match p.status with
            | .queued m => byteOf m
            | .placed _ _ => 0xFF
          let staged : List Byte := match p.staged with
            | some ⟨some sp, _⟩ =>
              [byteOf (sp.bus.val + 1), byteOf (legCode sp.leg), byteOf sp.cadence.val, byteOf sp.bell]
            | _ => [0xFF, 0xFF, 0xFF, 0xFF]
          answers (.callQuery r) s 12 r s
            (0 :: fields ++ status ++ [byteOf p.cycleLimit, byteOf p.cyclesCompleted, passed] ++ staged ++
              [absent (p.staged.bind (fun ch => ch.limit))])) ∧
  [LineState.idle, .qualifying, .collecting, .replaying, .through, .call, .lockout, .blocked, .fault].map
      lineStateCode =
    List.range 9 ∧
  [FaultReason.ground, .foreign, .shelf].map faultReasonCode = List.range 3 ∧
  [LockoutPhase.tone, .feedOff].map lockoutPhaseCode = List.range 2 ∧
  [CallKind.xr, .rv].map callKindCode = List.range 2 ∧ [Origin.exchange, .isLocal].map originCode = List.range 2 ∧
  [CallState.waiting, .ringing, .identifying, .identifyCaller, .hangupWait, .revertRinging, .answerTest, .talk].map
    callStateCode = List.range 8 ∧
  (∀ p : PartyId, answeredCode (.party p) = p.val + 1) ∧ answeredCode .unidentified = 0 ∧
  [TestOutcome.party, .unidentified, .timeout, .aborted].map testOutcomeCode = List.range 4 ∧
  [Leg.tip, .ring, .bridged].map legCode = List.range 3

/-! Identity tests. -/

/-- R111, R112, R113, R114, R115: the test in progress takes the byte of its line: it waits, or ends with a party, as
UNIDENTIFIED, or by its timeout, for the exchange as its one requester; then the next test begins. The LSV finds
nothing in the byte. A TEST_TIMEOUT with no timeout to come changes nothing (log 3). -/
def Obligations.TestOfTheExchangeEnds : Prop :=
  ∀ (s : State) (x : Test), s.itu.inProgress = some x → x.fresh = false → x.requesters = [.exchange] →
    s.quietClosed x.line → (s.line x.line).state = .through →
    let n := x.line
    let b := s.lByte n
    let usable := 9 ≤ x.interval + 1 ∧ s.hwi.lPort.good = true ∧ upStatus b = 1
    let class' (p : PartyId) := ∃ e, s.party n p = some e ∧ e.identityClass = some (upReading b)
    let heard := s.setLine n { s.line n with faultCount := 0, onHookCount := 0 }
    let left : State := { heard with
      hwi := { s.hwi with down := tset s.hwi.down n { s.down n with test := none } }, itu := ⟨[], none⟩ }
    let next (t : State) := exec (.lineByte n) s = .next (t.byteTaken n)
    let ends (notice : Notice) (pegs : List PegEvent) (goes : State → Prop) :=
      let reports := .notice notice :: pegs.map (fun e => .peg e (some n))
      (s.itu.queue = [] → goes (left.reported reports)) ∧
      ∀ q rest, s.itu.queue = q :: rest → q.line ≠ n →
        let begun := tset left.hwi.down q.line { s.down q.line with test := some .test }
        goes (State.reported { left with
          hwi := { left.hwi with down := begun }, itu := ⟨rest, some ⟨q.line, q.requesters, 0, true⟩⟩ } reports)
    (¬ usable → x.interval + 1 < 60 →
      next { heard with itu := { s.itu with inProgress := some { x with interval := x.interval + 1 } } } ∧
        exec .testTimeout s = .next s) ∧
    (¬ usable → 60 ≤ x.interval + 1 →
      ends (.identity n .timeout none none) [.testTimeout] (fun t => next t ∧ exec .testTimeout s = .next (t.byteTaken n))) ∧
    (usable → upReading b ≠ 15 → ∀ p, class' p → (∀ o, class' o → o = p) →
      ends (.identity n .party (some p) (some (upReading b))) [.testDone] next) ∧
    (usable → upReading b = 15 ∨ (∀ p, ¬ class' p) →
      ends (.identity n .unidentified none (some (upReading b))) [.testDone, .testUnidentified] next)

/-- R113, R115, R131, R134, R135, R139, R140, R141: the results of a call's test: in IDENTIFYING, in IDENTIFY_CALLER
and in ANSWER_TEST. An XR's line goes to LOCKOUT in isolated service; in linked service it stays in THROUGH, or goes
there from CALL (R143). The call is the test's one requester, no other test waits, and the LSV finds nothing in the
byte. That a re-revert leaves the answered party absent is the model's choice (log 37). -/
def Obligations.TestOfACallEnds : Prop :=
  ∀ (s : State) (x : Test) (c : CallNo) (rec : CallRec), s.itu = ⟨[], some x⟩ → x.fresh = false →
    x.requesters = [.call c] → s.quietClosed x.line → s.callRec c = some rec → rec.line = x.line →
    let n := x.line
    let b := s.lByte n
    let q : LineRec := { s.line n with faultCount := 0, onHookCount := 0 }
    let usable := 9 ≤ x.interval + 1 ∧ s.hwi.lPort.good = true ∧ upStatus b = 1
    let class' (p : PartyId) := upReading b ≠ 15 ∧ ∃ e, s.party n p = some e ∧ e.identityClass = some (upReading b)
    let one (p : PartyId) := usable ∧ class' p ∧ ∀ o, class' o → o = p
    let none' := usable ∧ ∀ p, ¬ class' p
    let late := ¬ usable ∧ 60 ≤ x.interval + 1
    let next (t : State) := exec (.lineByte n) s = .next (t.byteTaken n)
    let u : State := { s with itu := ⟨[], none⟩ }
    let freed : State := { s.freed c rec with itu := ⟨[], none⟩ }
    let here (r : CallRec) : State := { u with csq := tset s.csq c (some r) }
    let down := { s.down n with test := none }
    let lockout : LineRec :=
      { q with state := .lockout, faultReason := none, lockoutTimer := some 6000, lockoutPhase := some .tone }
    let locked : List Report := [.notice (.lineLockout n), .peg .lockout (some n)]
    let done : List Report := [.peg .testDone (some n)]
    let unid : List Report := done ++ [.peg .testUnidentified (some n)]
    let timeout : List Report := [.peg .testTimeout (some n)]
    let through : LineRec :=
      { q with state := .through, faultReason := none, lockoutTimer := none, lockoutPhase := none }
    let answered (a : Answered) (outcome : TestOutcome) (reports : List Report) :=
      let ends : List Report :=
        .notice (.callEnd (callEndOf c { rec with answered := some a, testResult := some outcome } .answered)) ::
          reports
      ((s.line n).state = .through → s.linked = true →
        next ((freed.withLine n q (s.digits n) { down with call := none } (s.up n)).reported ends)) ∧
      ((s.line n).state = .call → s.linked = true →
        next ((freed.withLine n through DigitRec.initial { down.noLsv with call := none } ⟨false, none,
            false⟩).reported
          ends)) ∧
      ((s.line n).state = .call → s.linked = false →
        next ((freed.withLine n lockout DigitRec.initial
          { down.noLsv with call := none, lockout := some .hangupTone } ⟨false, none, true⟩).reported
            (locked ++ ends)))
    (rec.state = .identifying →
      (∀ p, one p → answered (.party p) .party done) ∧ (none' → answered .unidentified .unidentified unid) ∧
        (late → answered .unidentified .timeout timeout)) ∧
    (rec.state = .identifyCaller → (s.line n).state = .call →
      (∀ p, one p → p = rec.called → next ((freed.withLine n lockout DigitRec.initial
        { down.noLsv with call := none, lockout := some .hangupTone } ⟨false, none, true⟩).reported
        (locked ++ [.notice (.callEnd (callEndOf c rec .selfRevert))] ++ done))) ∧
      (let waits (r : CallRec) (reports : List Report) :=
        next (((here { r with state := .hangupWait, hangupTimer := some s.timing.hangupWait }).withLine n q
          (s.digits n)
          { down with call := some .hangupTone } (s.up n)).reported reports)
       (∀ p, one p → p ≠ rec.called → waits { rec with caller := some p } done) ∧ (none' → waits rec unid) ∧
         (late → waits rec timeout))) ∧
    (rec.state = .answerTest → (s.line n).state = .call →
      let again : CallRec := { rec with
        state := .hangupWait, hangupTimer := some s.timing.hangupWait, cyclesRung := 0,
        reRevert := rec.reRevert.map (· + 1) }
      let talks (a : Answered) (reports : List Report) :=
        next (((here { rec with state := .talk, answered := some a }).withLine n q (s.digits n)
          { down with call := some .feed } (s.up n)).reported
          ([.notice (.answer c .rv n (some a) rec.reRevert), .peg .revertCompleted (some n)] ++ reports))
      (∀ p, one p → rec.caller = some p → rec.reRevert.getD 0 < 2 →
        next (((here again).withLine n q (s.digits n) { down with call := some .hangupTone } (s.up n)).reported
          (.peg .reRevert (some n) :: done))) ∧
      (∀ p, one p → rec.caller ≠ some p ∨ 2 ≤ rec.reRevert.getD 0 → talks (.party p) done) ∧
      (none' → talks .unidentified unid) ∧ (late → talks .unidentified timeout))
end

