-- ==== Sys2Proof/Laws/State.lean ====
section
/-! SUPPORT. What each update of State leaves as it stands, and what it sets. -/

namespace Sys2Proof.Machine

/-! What each update sets. -/

@[simp] theorem State.line_setLine_self (s : State) (n : LineId) (r : LineRec) : (s.setLine n r).line n = r := by
  simp [State.line, State.setLine]

theorem State.line_setLine (s : State) (n m : LineId) (r : LineRec) :
    (s.setLine n r).line m = if n = m then r else s.line m := by
  simp [State.line, State.setLine, tget_tset]

@[simp] theorem State.line_setLine_ne (s : State) {n m : LineId} (r : LineRec) (h : m ≠ n) :
    (s.setLine n r).line m = s.line m := by
  simp [State.line_setLine, Ne.symm h]

@[simp] theorem State.line_modLine_self (s : State) (n : LineId) (f : LineRec → LineRec) :
    (s.modLine n f).line n = f (s.line n) := by
  simp [State.modLine]

theorem State.line_modLine (s : State) (n m : LineId) (f : LineRec → LineRec) :
    (s.modLine n f).line m = if n = m then f (s.line m) else s.line m := by
  simp only [State.modLine, State.line_setLine]
  split
  · subst_vars; rfl
  · rfl

@[simp] theorem State.line_modLine_ne (s : State) {n m : LineId} (f : LineRec → LineRec) (h : m ≠ n) :
    (s.modLine n f).line m = s.line m := by
  simp [State.line_modLine, Ne.symm h]

@[simp] theorem State.digits_setDigits_self (s : State) (n : LineId) (d : DigitRec) :
    (s.setDigits n d).digits n = d := by
  simp [State.digits, State.setDigits]

@[simp] theorem State.digits_setDigits_ne (s : State) {n m : LineId} (d : DigitRec) (h : m ≠ n) :
    (s.setDigits n d).digits m = s.digits m := by
  simp [State.digits, State.setDigits, tget_tset, Ne.symm h]

@[simp] theorem State.digits_modDigits_self (s : State) (n : LineId) (f : DigitRec → DigitRec) :
    (s.modDigits n f).digits n = f (s.digits n) := by
  simp [State.modDigits]

@[simp] theorem State.digits_modDigits_ne (s : State) {n m : LineId} (f : DigitRec → DigitRec) (h : m ≠ n) :
    (s.modDigits n f).digits m = s.digits m := by
  simp [State.modDigits, h]

@[simp] theorem State.down_setDown_self (s : State) (n : LineId) (c : DownClaims) : (s.setDown n c).down n = c := by
  simp [State.down, State.setDown]

@[simp] theorem State.down_setDown_ne (s : State) {n m : LineId} (c : DownClaims) (h : m ≠ n) :
    (s.setDown n c).down m = s.down m := by
  simp [State.down, State.setDown, tget_tset, Ne.symm h]

@[simp] theorem State.down_modDown_self (s : State) (n : LineId) (f : DownClaims → DownClaims) :
    (s.modDown n f).down n = f (s.down n) := by
  simp [State.modDown]

@[simp] theorem State.down_modDown_ne (s : State) {n m : LineId} (f : DownClaims → DownClaims) (h : m ≠ n) :
    (s.modDown n f).down m = s.down m := by
  simp [State.modDown, h]

@[simp] theorem State.up_setUp_self (s : State) (n : LineId) (c : UpClaims) : (s.setUp n c).up n = c := by
  simp [State.up, State.setUp]

@[simp] theorem State.up_setUp_ne (s : State) {n m : LineId} (c : UpClaims) (h : m ≠ n) :
    (s.setUp n c).up m = s.up m := by
  simp [State.up, State.setUp, tget_tset, Ne.symm h]

@[simp] theorem State.up_modUp_self (s : State) (n : LineId) (f : UpClaims → UpClaims) :
    (s.modUp n f).up n = f (s.up n) := by
  simp [State.modUp]

@[simp] theorem State.up_modUp_ne (s : State) {n m : LineId} (f : UpClaims → UpClaims) (h : m ≠ n) :
    (s.modUp n f).up m = s.up m := by
  simp [State.modUp, h]

@[simp] theorem State.callRec_setCall_self (s : State) (c : CallNo) (r : Option CallRec) :
    (s.setCall c r).callRec c = r := by
  simp [State.callRec, State.setCall]

@[simp] theorem State.callRec_setCall_ne (s : State) {c k : CallNo} (r : Option CallRec) (h : k ≠ c) :
    (s.setCall c r).callRec k = s.callRec k := by
  simp [State.callRec, State.setCall, tget_tset, Ne.symm h]

@[simp] theorem State.callRec_modCall_self (s : State) (c : CallNo) (f : CallRec → CallRec) :
    (s.modCall c f).callRec c = (s.callRec c).map f := by
  simp [State.modCall]

@[simp] theorem State.callRec_modCall_ne (s : State) {c k : CallNo} (f : CallRec → CallRec) (h : k ≠ c) :
    (s.modCall c f).callRec k = s.callRec k := by
  simp [State.modCall, h]

@[simp] theorem State.setRsc_rsc (s : State) (r : Rsc) : (s.setRsc r).rsc = r := rfl
@[simp] theorem State.setItu_itu (s : State) (i : Itu) : (s.setItu i).itu = i := rfl
@[simp] theorem State.setLkm_lkm (s : State) (l : Lkm) : (s.setLkm l).lkm = l := rfl
@[simp] theorem State.setPtb_ptb (s : State) (t : Ptb) : (s.setPtb t).ptb = t := rfl
@[simp] theorem State.setTmu_tmu (s : State) (t : Tmu) : (s.setTmu t).tmu = t := rfl
@[simp] theorem State.setMgp_mgp (s : State) (m : Mgp) : (s.setMgp m).mgp = m := rfl
@[simp] theorem State.setHwi_hwi (s : State) (h : Hwi) : (s.setHwi h).hwi = h := rfl
@[simp] theorem State.hand_requests (s : State) (q : RscRequest) :
    (s.hand q).rsc.requests = s.rsc.requests ++ [q] := rfl
@[simp] theorem State.modPart_parts (s : State) (c : CallNo) (f : RingPart → RingPart) :
    (s.modPart c f).rsc.parts = s.rsc.parts.map (fun p => if p.call = c then f p else p) := rfl
@[simp] theorem State.modCounters_mgp (s : State) (f : Counters → Counters) :
    (s.modCounters f).mgp = { s.mgp with counters := f s.mgp.counters } := rfl

/-! What `setLine` leaves as it stands. -/

@[simp] theorem State.setLine_pending (s : State) (n : LineId) (r : LineRec) :
    (s.setLine n r).pending = s.pending := rfl
@[simp] theorem State.setLine_pins (s : State) (n : LineId) (r : LineRec) :
    (s.setLine n r).pins = s.pins := rfl
@[simp] theorem State.setLine_dgu (s : State) (n : LineId) (r : LineRec) :
    (s.setLine n r).dgu = s.dgu := rfl
@[simp] theorem State.setLine_ptb (s : State) (n : LineId) (r : LineRec) :
    (s.setLine n r).ptb = s.ptb := rfl
@[simp] theorem State.setLine_csq (s : State) (n : LineId) (r : LineRec) :
    (s.setLine n r).csq = s.csq := rfl
@[simp] theorem State.setLine_itu (s : State) (n : LineId) (r : LineRec) :
    (s.setLine n r).itu = s.itu := rfl
@[simp] theorem State.setLine_mgp (s : State) (n : LineId) (r : LineRec) :
    (s.setLine n r).mgp = s.mgp := rfl
@[simp] theorem State.setLine_lkm (s : State) (n : LineId) (r : LineRec) :
    (s.setLine n r).lkm = s.lkm := rfl
@[simp] theorem State.setLine_tmu (s : State) (n : LineId) (r : LineRec) :
    (s.setLine n r).tmu = s.tmu := rfl
@[simp] theorem State.setLine_hwi (s : State) (n : LineId) (r : LineRec) :
    (s.setLine n r).hwi = s.hwi := rfl
@[simp] theorem State.setLine_rsc (s : State) (n : LineId) (r : LineRec) :
    (s.setLine n r).rsc = s.rsc := rfl
@[simp] theorem State.digits_setLine (s : State) (n : LineId) (r : LineRec) (m : LineId) :
    (s.setLine n r).digits m = s.digits m := rfl
@[simp] theorem State.down_setLine (s : State) (n : LineId) (r : LineRec) (m : LineId) :
    (s.setLine n r).down m = s.down m := rfl
@[simp] theorem State.up_setLine (s : State) (n : LineId) (r : LineRec) (m : LineId) :
    (s.setLine n r).up m = s.up m := rfl
@[simp] theorem State.lByte_setLine (s : State) (n : LineId) (r : LineRec) (m : LineId) :
    (s.setLine n r).lByte m = s.lByte m := rfl
@[simp] theorem State.eByte_setLine (s : State) (n : LineId) (r : LineRec) (m : LineId) :
    (s.setLine n r).eByte m = s.eByte m := rfl
@[simp] theorem State.callRec_setLine (s : State) (n : LineId) (r : LineRec) (k : CallNo) :
    (s.setLine n r).callRec k = s.callRec k := rfl
@[simp] theorem State.callOn_setLine (s : State) (n : LineId) (r : LineRec) (m : LineId) :
    (s.setLine n r).callOn m = s.callOn m := rfl
@[simp] theorem State.freeCall_setLine (s : State) (n : LineId) (r : LineRec) :
    (s.setLine n r).freeCall = s.freeCall := rfl
@[simp] theorem State.attr_setLine (s : State) (n : LineId) (r : LineRec) (m : LineId) :
    (s.setLine n r).attr m = s.attr m := rfl
@[simp] theorem State.party_setLine (s : State) (n : LineId) (r : LineRec) (m : LineId) (p : PartyId) :
    (s.setLine n r).party m p = s.party m p := rfl
@[simp] theorem State.specOf_setLine (s : State) (n : LineId) (r : LineRec) (m : LineId) (p : PartyId) :
    (s.setLine n r).specOf m p = s.specOf m p := rfl
@[simp] theorem State.cadence_setLine (s : State) (n : LineId) (r : LineRec) (x : CadenceId) :
    (s.setLine n r).cadence x = s.cadence x := rfl
@[simp] theorem State.capacity_setLine (s : State) (n : LineId) (r : LineRec) (x : BusId) :
    (s.setLine n r).capacity x = s.capacity x := rfl
@[simp] theorem State.exclusion_setLine (s : State) (n : LineId) (r : LineRec) (x : GroupId) :
    (s.setLine n r).exclusion x = s.exclusion x := rfl
@[simp] theorem State.timing_setLine (s : State) (n : LineId) (r : LineRec) :
    (s.setLine n r).timing = s.timing := rfl
@[simp] theorem State.linked_setLine (s : State) (n : LineId) (r : LineRec) :
    (s.setLine n r).linked = s.linked := rfl
@[simp] theorem State.testOn_setLine (s : State) (n : LineId) (r : LineRec) (m : LineId) :
    (s.setLine n r).testOn m = s.testOn m := rfl
@[simp] theorem State.part_setLine (s : State) (n : LineId) (r : LineRec) (k : CallNo) :
    (s.setLine n r).part k = s.part k := rfl
@[simp] theorem State.waitQueue_setLine (s : State) (n : LineId) (r : LineRec) :
    (s.setLine n r).waitQueue = s.waitQueue := rfl
@[simp] theorem State.meter_setLine (s : State) (n : LineId) (r : LineRec) (x : MeterId) :
    (s.setLine n r).meter x = s.meter x := rfl

/-! What `modLine` leaves as it stands. -/

@[simp] theorem State.modLine_pending (s : State) (n : LineId) (f : LineRec → LineRec) :
    (s.modLine n f).pending = s.pending := rfl
@[simp] theorem State.modLine_pins (s : State) (n : LineId) (f : LineRec → LineRec) :
    (s.modLine n f).pins = s.pins := rfl
@[simp] theorem State.modLine_dgu (s : State) (n : LineId) (f : LineRec → LineRec) :
    (s.modLine n f).dgu = s.dgu := rfl
@[simp] theorem State.modLine_ptb (s : State) (n : LineId) (f : LineRec → LineRec) :
    (s.modLine n f).ptb = s.ptb := rfl
@[simp] theorem State.modLine_csq (s : State) (n : LineId) (f : LineRec → LineRec) :
    (s.modLine n f).csq = s.csq := rfl
@[simp] theorem State.modLine_itu (s : State) (n : LineId) (f : LineRec → LineRec) :
    (s.modLine n f).itu = s.itu := rfl
@[simp] theorem State.modLine_mgp (s : State) (n : LineId) (f : LineRec → LineRec) :
    (s.modLine n f).mgp = s.mgp := rfl
@[simp] theorem State.modLine_lkm (s : State) (n : LineId) (f : LineRec → LineRec) :
    (s.modLine n f).lkm = s.lkm := rfl
@[simp] theorem State.modLine_tmu (s : State) (n : LineId) (f : LineRec → LineRec) :
    (s.modLine n f).tmu = s.tmu := rfl
@[simp] theorem State.modLine_hwi (s : State) (n : LineId) (f : LineRec → LineRec) :
    (s.modLine n f).hwi = s.hwi := rfl
@[simp] theorem State.modLine_rsc (s : State) (n : LineId) (f : LineRec → LineRec) :
    (s.modLine n f).rsc = s.rsc := rfl
@[simp] theorem State.digits_modLine (s : State) (n : LineId) (f : LineRec → LineRec) (m : LineId) :
    (s.modLine n f).digits m = s.digits m := rfl
@[simp] theorem State.down_modLine (s : State) (n : LineId) (f : LineRec → LineRec) (m : LineId) :
    (s.modLine n f).down m = s.down m := rfl
@[simp] theorem State.up_modLine (s : State) (n : LineId) (f : LineRec → LineRec) (m : LineId) :
    (s.modLine n f).up m = s.up m := rfl
@[simp] theorem State.lByte_modLine (s : State) (n : LineId) (f : LineRec → LineRec) (m : LineId) :
    (s.modLine n f).lByte m = s.lByte m := rfl
@[simp] theorem State.eByte_modLine (s : State) (n : LineId) (f : LineRec → LineRec) (m : LineId) :
    (s.modLine n f).eByte m = s.eByte m := rfl
@[simp] theorem State.callRec_modLine (s : State) (n : LineId) (f : LineRec → LineRec) (k : CallNo) :
    (s.modLine n f).callRec k = s.callRec k := rfl
@[simp] theorem State.callOn_modLine (s : State) (n : LineId) (f : LineRec → LineRec) (m : LineId) :
    (s.modLine n f).callOn m = s.callOn m := rfl
@[simp] theorem State.freeCall_modLine (s : State) (n : LineId) (f : LineRec → LineRec) :
    (s.modLine n f).freeCall = s.freeCall := rfl
@[simp] theorem State.attr_modLine (s : State) (n : LineId) (f : LineRec → LineRec) (m : LineId) :
    (s.modLine n f).attr m = s.attr m := rfl
@[simp] theorem State.party_modLine (s : State) (n : LineId) (f : LineRec → LineRec) (m : LineId) (p : PartyId) :
    (s.modLine n f).party m p = s.party m p := rfl
@[simp] theorem State.specOf_modLine (s : State) (n : LineId) (f : LineRec → LineRec) (m : LineId) (p : PartyId) :
    (s.modLine n f).specOf m p = s.specOf m p := rfl
@[simp] theorem State.cadence_modLine (s : State) (n : LineId) (f : LineRec → LineRec) (x : CadenceId) :
    (s.modLine n f).cadence x = s.cadence x := rfl
@[simp] theorem State.capacity_modLine (s : State) (n : LineId) (f : LineRec → LineRec) (x : BusId) :
    (s.modLine n f).capacity x = s.capacity x := rfl
@[simp] theorem State.exclusion_modLine (s : State) (n : LineId) (f : LineRec → LineRec) (x : GroupId) :
    (s.modLine n f).exclusion x = s.exclusion x := rfl
@[simp] theorem State.timing_modLine (s : State) (n : LineId) (f : LineRec → LineRec) :
    (s.modLine n f).timing = s.timing := rfl
@[simp] theorem State.linked_modLine (s : State) (n : LineId) (f : LineRec → LineRec) :
    (s.modLine n f).linked = s.linked := rfl
@[simp] theorem State.testOn_modLine (s : State) (n : LineId) (f : LineRec → LineRec) (m : LineId) :
    (s.modLine n f).testOn m = s.testOn m := rfl
@[simp] theorem State.part_modLine (s : State) (n : LineId) (f : LineRec → LineRec) (k : CallNo) :
    (s.modLine n f).part k = s.part k := rfl
@[simp] theorem State.waitQueue_modLine (s : State) (n : LineId) (f : LineRec → LineRec) :
    (s.modLine n f).waitQueue = s.waitQueue := rfl
@[simp] theorem State.meter_modLine (s : State) (n : LineId) (f : LineRec → LineRec) (x : MeterId) :
    (s.modLine n f).meter x = s.meter x := rfl

/-! What `setDigits` leaves as it stands. -/

@[simp] theorem State.setDigits_pending (s : State) (n : LineId) (d : DigitRec) :
    (s.setDigits n d).pending = s.pending := rfl
@[simp] theorem State.setDigits_pins (s : State) (n : LineId) (d : DigitRec) :
    (s.setDigits n d).pins = s.pins := rfl
@[simp] theorem State.setDigits_lsv (s : State) (n : LineId) (d : DigitRec) :
    (s.setDigits n d).lsv = s.lsv := rfl
@[simp] theorem State.setDigits_ptb (s : State) (n : LineId) (d : DigitRec) :
    (s.setDigits n d).ptb = s.ptb := rfl
@[simp] theorem State.setDigits_csq (s : State) (n : LineId) (d : DigitRec) :
    (s.setDigits n d).csq = s.csq := rfl
@[simp] theorem State.setDigits_itu (s : State) (n : LineId) (d : DigitRec) :
    (s.setDigits n d).itu = s.itu := rfl
@[simp] theorem State.setDigits_mgp (s : State) (n : LineId) (d : DigitRec) :
    (s.setDigits n d).mgp = s.mgp := rfl
@[simp] theorem State.setDigits_lkm (s : State) (n : LineId) (d : DigitRec) :
    (s.setDigits n d).lkm = s.lkm := rfl
@[simp] theorem State.setDigits_tmu (s : State) (n : LineId) (d : DigitRec) :
    (s.setDigits n d).tmu = s.tmu := rfl
@[simp] theorem State.setDigits_hwi (s : State) (n : LineId) (d : DigitRec) :
    (s.setDigits n d).hwi = s.hwi := rfl
@[simp] theorem State.setDigits_rsc (s : State) (n : LineId) (d : DigitRec) :
    (s.setDigits n d).rsc = s.rsc := rfl
@[simp] theorem State.line_setDigits (s : State) (n : LineId) (d : DigitRec) (m : LineId) :
    (s.setDigits n d).line m = s.line m := rfl
@[simp] theorem State.down_setDigits (s : State) (n : LineId) (d : DigitRec) (m : LineId) :
    (s.setDigits n d).down m = s.down m := rfl
@[simp] theorem State.up_setDigits (s : State) (n : LineId) (d : DigitRec) (m : LineId) :
    (s.setDigits n d).up m = s.up m := rfl
@[simp] theorem State.lByte_setDigits (s : State) (n : LineId) (d : DigitRec) (m : LineId) :
    (s.setDigits n d).lByte m = s.lByte m := rfl
@[simp] theorem State.eByte_setDigits (s : State) (n : LineId) (d : DigitRec) (m : LineId) :
    (s.setDigits n d).eByte m = s.eByte m := rfl
@[simp] theorem State.callRec_setDigits (s : State) (n : LineId) (d : DigitRec) (k : CallNo) :
    (s.setDigits n d).callRec k = s.callRec k := rfl
@[simp] theorem State.callOn_setDigits (s : State) (n : LineId) (d : DigitRec) (m : LineId) :
    (s.setDigits n d).callOn m = s.callOn m := rfl
@[simp] theorem State.freeCall_setDigits (s : State) (n : LineId) (d : DigitRec) :
    (s.setDigits n d).freeCall = s.freeCall := rfl
@[simp] theorem State.attr_setDigits (s : State) (n : LineId) (d : DigitRec) (m : LineId) :
    (s.setDigits n d).attr m = s.attr m := rfl
@[simp] theorem State.party_setDigits (s : State) (n : LineId) (d : DigitRec) (m : LineId) (p : PartyId) :
    (s.setDigits n d).party m p = s.party m p := rfl
@[simp] theorem State.specOf_setDigits (s : State) (n : LineId) (d : DigitRec) (m : LineId) (p : PartyId) :
    (s.setDigits n d).specOf m p = s.specOf m p := rfl
@[simp] theorem State.cadence_setDigits (s : State) (n : LineId) (d : DigitRec) (x : CadenceId) :
    (s.setDigits n d).cadence x = s.cadence x := rfl
@[simp] theorem State.capacity_setDigits (s : State) (n : LineId) (d : DigitRec) (x : BusId) :
    (s.setDigits n d).capacity x = s.capacity x := rfl
@[simp] theorem State.exclusion_setDigits (s : State) (n : LineId) (d : DigitRec) (x : GroupId) :
    (s.setDigits n d).exclusion x = s.exclusion x := rfl
@[simp] theorem State.timing_setDigits (s : State) (n : LineId) (d : DigitRec) :
    (s.setDigits n d).timing = s.timing := rfl
@[simp] theorem State.linked_setDigits (s : State) (n : LineId) (d : DigitRec) :
    (s.setDigits n d).linked = s.linked := rfl
@[simp] theorem State.testOn_setDigits (s : State) (n : LineId) (d : DigitRec) (m : LineId) :
    (s.setDigits n d).testOn m = s.testOn m := rfl
@[simp] theorem State.part_setDigits (s : State) (n : LineId) (d : DigitRec) (k : CallNo) :
    (s.setDigits n d).part k = s.part k := rfl
@[simp] theorem State.waitQueue_setDigits (s : State) (n : LineId) (d : DigitRec) :
    (s.setDigits n d).waitQueue = s.waitQueue := rfl
@[simp] theorem State.meter_setDigits (s : State) (n : LineId) (d : DigitRec) (x : MeterId) :
    (s.setDigits n d).meter x = s.meter x := rfl

/-! What `modDigits` leaves as it stands. -/

@[simp] theorem State.modDigits_pending (s : State) (n : LineId) (f : DigitRec → DigitRec) :
    (s.modDigits n f).pending = s.pending := rfl
@[simp] theorem State.modDigits_pins (s : State) (n : LineId) (f : DigitRec → DigitRec) :
    (s.modDigits n f).pins = s.pins := rfl
@[simp] theorem State.modDigits_lsv (s : State) (n : LineId) (f : DigitRec → DigitRec) :
    (s.modDigits n f).lsv = s.lsv := rfl
@[simp] theorem State.modDigits_ptb (s : State) (n : LineId) (f : DigitRec → DigitRec) :
    (s.modDigits n f).ptb = s.ptb := rfl
@[simp] theorem State.modDigits_csq (s : State) (n : LineId) (f : DigitRec → DigitRec) :
    (s.modDigits n f).csq = s.csq := rfl
@[simp] theorem State.modDigits_itu (s : State) (n : LineId) (f : DigitRec → DigitRec) :
    (s.modDigits n f).itu = s.itu := rfl
@[simp] theorem State.modDigits_mgp (s : State) (n : LineId) (f : DigitRec → DigitRec) :
    (s.modDigits n f).mgp = s.mgp := rfl
@[simp] theorem State.modDigits_lkm (s : State) (n : LineId) (f : DigitRec → DigitRec) :
    (s.modDigits n f).lkm = s.lkm := rfl
@[simp] theorem State.modDigits_tmu (s : State) (n : LineId) (f : DigitRec → DigitRec) :
    (s.modDigits n f).tmu = s.tmu := rfl
@[simp] theorem State.modDigits_hwi (s : State) (n : LineId) (f : DigitRec → DigitRec) :
    (s.modDigits n f).hwi = s.hwi := rfl
@[simp] theorem State.modDigits_rsc (s : State) (n : LineId) (f : DigitRec → DigitRec) :
    (s.modDigits n f).rsc = s.rsc := rfl
@[simp] theorem State.line_modDigits (s : State) (n : LineId) (f : DigitRec → DigitRec) (m : LineId) :
    (s.modDigits n f).line m = s.line m := rfl
@[simp] theorem State.down_modDigits (s : State) (n : LineId) (f : DigitRec → DigitRec) (m : LineId) :
    (s.modDigits n f).down m = s.down m := rfl
@[simp] theorem State.up_modDigits (s : State) (n : LineId) (f : DigitRec → DigitRec) (m : LineId) :
    (s.modDigits n f).up m = s.up m := rfl
@[simp] theorem State.lByte_modDigits (s : State) (n : LineId) (f : DigitRec → DigitRec) (m : LineId) :
    (s.modDigits n f).lByte m = s.lByte m := rfl
@[simp] theorem State.eByte_modDigits (s : State) (n : LineId) (f : DigitRec → DigitRec) (m : LineId) :
    (s.modDigits n f).eByte m = s.eByte m := rfl
@[simp] theorem State.callRec_modDigits (s : State) (n : LineId) (f : DigitRec → DigitRec) (k : CallNo) :
    (s.modDigits n f).callRec k = s.callRec k := rfl
@[simp] theorem State.callOn_modDigits (s : State) (n : LineId) (f : DigitRec → DigitRec) (m : LineId) :
    (s.modDigits n f).callOn m = s.callOn m := rfl
@[simp] theorem State.freeCall_modDigits (s : State) (n : LineId) (f : DigitRec → DigitRec) :
    (s.modDigits n f).freeCall = s.freeCall := rfl
@[simp] theorem State.attr_modDigits (s : State) (n : LineId) (f : DigitRec → DigitRec) (m : LineId) :
    (s.modDigits n f).attr m = s.attr m := rfl
@[simp] theorem State.party_modDigits (s : State) (n : LineId) (f : DigitRec → DigitRec) (m : LineId) (p : PartyId) :
    (s.modDigits n f).party m p = s.party m p := rfl
@[simp] theorem State.specOf_modDigits (s : State) (n : LineId) (f : DigitRec → DigitRec) (m : LineId) (p : PartyId) :
    (s.modDigits n f).specOf m p = s.specOf m p := rfl
@[simp] theorem State.cadence_modDigits (s : State) (n : LineId) (f : DigitRec → DigitRec) (x : CadenceId) :
    (s.modDigits n f).cadence x = s.cadence x := rfl
@[simp] theorem State.capacity_modDigits (s : State) (n : LineId) (f : DigitRec → DigitRec) (x : BusId) :
    (s.modDigits n f).capacity x = s.capacity x := rfl
@[simp] theorem State.exclusion_modDigits (s : State) (n : LineId) (f : DigitRec → DigitRec) (x : GroupId) :
    (s.modDigits n f).exclusion x = s.exclusion x := rfl
@[simp] theorem State.timing_modDigits (s : State) (n : LineId) (f : DigitRec → DigitRec) :
    (s.modDigits n f).timing = s.timing := rfl
@[simp] theorem State.linked_modDigits (s : State) (n : LineId) (f : DigitRec → DigitRec) :
    (s.modDigits n f).linked = s.linked := rfl
@[simp] theorem State.testOn_modDigits (s : State) (n : LineId) (f : DigitRec → DigitRec) (m : LineId) :
    (s.modDigits n f).testOn m = s.testOn m := rfl
@[simp] theorem State.part_modDigits (s : State) (n : LineId) (f : DigitRec → DigitRec) (k : CallNo) :
    (s.modDigits n f).part k = s.part k := rfl
@[simp] theorem State.waitQueue_modDigits (s : State) (n : LineId) (f : DigitRec → DigitRec) :
    (s.modDigits n f).waitQueue = s.waitQueue := rfl
@[simp] theorem State.meter_modDigits (s : State) (n : LineId) (f : DigitRec → DigitRec) (x : MeterId) :
    (s.modDigits n f).meter x = s.meter x := rfl

/-! What `setDown` leaves as it stands. -/

@[simp] theorem State.setDown_pending (s : State) (n : LineId) (c : DownClaims) :
    (s.setDown n c).pending = s.pending := rfl
@[simp] theorem State.setDown_pins (s : State) (n : LineId) (c : DownClaims) :
    (s.setDown n c).pins = s.pins := rfl
@[simp] theorem State.setDown_lsv (s : State) (n : LineId) (c : DownClaims) :
    (s.setDown n c).lsv = s.lsv := rfl
@[simp] theorem State.setDown_dgu (s : State) (n : LineId) (c : DownClaims) :
    (s.setDown n c).dgu = s.dgu := rfl
@[simp] theorem State.setDown_ptb (s : State) (n : LineId) (c : DownClaims) :
    (s.setDown n c).ptb = s.ptb := rfl
@[simp] theorem State.setDown_csq (s : State) (n : LineId) (c : DownClaims) :
    (s.setDown n c).csq = s.csq := rfl
@[simp] theorem State.setDown_itu (s : State) (n : LineId) (c : DownClaims) :
    (s.setDown n c).itu = s.itu := rfl
@[simp] theorem State.setDown_mgp (s : State) (n : LineId) (c : DownClaims) :
    (s.setDown n c).mgp = s.mgp := rfl
@[simp] theorem State.setDown_lkm (s : State) (n : LineId) (c : DownClaims) :
    (s.setDown n c).lkm = s.lkm := rfl
@[simp] theorem State.setDown_tmu (s : State) (n : LineId) (c : DownClaims) :
    (s.setDown n c).tmu = s.tmu := rfl
@[simp] theorem State.setDown_hwi_ePort (s : State) (n : LineId) (c : DownClaims) :
    (s.setDown n c).hwi.ePort = s.hwi.ePort := rfl
@[simp] theorem State.setDown_hwi_lPort (s : State) (n : LineId) (c : DownClaims) :
    (s.setDown n c).hwi.lPort = s.hwi.lPort := rfl
@[simp] theorem State.setDown_hwi_up (s : State) (n : LineId) (c : DownClaims) :
    (s.setDown n c).hwi.up = s.hwi.up := rfl
@[simp] theorem State.setDown_hwi_policing (s : State) (n : LineId) (c : DownClaims) :
    (s.setDown n c).hwi.policing = s.hwi.policing := rfl
@[simp] theorem State.setDown_hwi_shelfCount (s : State) (n : LineId) (c : DownClaims) :
    (s.setDown n c).hwi.shelfCount = s.hwi.shelfCount := rfl
@[simp] theorem State.setDown_hwi_shelfArmed (s : State) (n : LineId) (c : DownClaims) :
    (s.setDown n c).hwi.shelfArmed = s.hwi.shelfArmed := rfl
@[simp] theorem State.setDown_hwi_shelfReported (s : State) (n : LineId) (c : DownClaims) :
    (s.setDown n c).hwi.shelfReported = s.hwi.shelfReported := rfl
@[simp] theorem State.setDown_hwi_byteWaits (s : State) (n : LineId) (c : DownClaims) :
    (s.setDown n c).hwi.byteWaits = s.hwi.byteWaits := rfl
@[simp] theorem State.setDown_hwi_eSent (s : State) (n : LineId) (c : DownClaims) :
    (s.setDown n c).hwi.eSent = s.hwi.eSent := rfl
@[simp] theorem State.setDown_hwi_lSent (s : State) (n : LineId) (c : DownClaims) :
    (s.setDown n c).hwi.lSent = s.hwi.lSent := rfl
@[simp] theorem State.setDown_rsc (s : State) (n : LineId) (c : DownClaims) :
    (s.setDown n c).rsc = s.rsc := rfl
@[simp] theorem State.line_setDown (s : State) (n : LineId) (c : DownClaims) (m : LineId) :
    (s.setDown n c).line m = s.line m := rfl
@[simp] theorem State.digits_setDown (s : State) (n : LineId) (c : DownClaims) (m : LineId) :
    (s.setDown n c).digits m = s.digits m := rfl
@[simp] theorem State.up_setDown (s : State) (n : LineId) (c : DownClaims) (m : LineId) :
    (s.setDown n c).up m = s.up m := rfl
@[simp] theorem State.lByte_setDown (s : State) (n : LineId) (c : DownClaims) (m : LineId) :
    (s.setDown n c).lByte m = s.lByte m := rfl
@[simp] theorem State.eByte_setDown (s : State) (n : LineId) (c : DownClaims) (m : LineId) :
    (s.setDown n c).eByte m = s.eByte m := rfl
@[simp] theorem State.callRec_setDown (s : State) (n : LineId) (c : DownClaims) (k : CallNo) :
    (s.setDown n c).callRec k = s.callRec k := rfl
@[simp] theorem State.callOn_setDown (s : State) (n : LineId) (c : DownClaims) (m : LineId) :
    (s.setDown n c).callOn m = s.callOn m := rfl
@[simp] theorem State.freeCall_setDown (s : State) (n : LineId) (c : DownClaims) :
    (s.setDown n c).freeCall = s.freeCall := rfl
@[simp] theorem State.attr_setDown (s : State) (n : LineId) (c : DownClaims) (m : LineId) :
    (s.setDown n c).attr m = s.attr m := rfl
@[simp] theorem State.party_setDown (s : State) (n : LineId) (c : DownClaims) (m : LineId) (p : PartyId) :
    (s.setDown n c).party m p = s.party m p := rfl
@[simp] theorem State.specOf_setDown (s : State) (n : LineId) (c : DownClaims) (m : LineId) (p : PartyId) :
    (s.setDown n c).specOf m p = s.specOf m p := rfl
@[simp] theorem State.cadence_setDown (s : State) (n : LineId) (c : DownClaims) (x : CadenceId) :
    (s.setDown n c).cadence x = s.cadence x := rfl
@[simp] theorem State.capacity_setDown (s : State) (n : LineId) (c : DownClaims) (x : BusId) :
    (s.setDown n c).capacity x = s.capacity x := rfl
@[simp] theorem State.exclusion_setDown (s : State) (n : LineId) (c : DownClaims) (x : GroupId) :
    (s.setDown n c).exclusion x = s.exclusion x := rfl
@[simp] theorem State.timing_setDown (s : State) (n : LineId) (c : DownClaims) :
    (s.setDown n c).timing = s.timing := rfl
@[simp] theorem State.linked_setDown (s : State) (n : LineId) (c : DownClaims) :
    (s.setDown n c).linked = s.linked := rfl
@[simp] theorem State.testOn_setDown (s : State) (n : LineId) (c : DownClaims) (m : LineId) :
    (s.setDown n c).testOn m = s.testOn m := rfl
@[simp] theorem State.part_setDown (s : State) (n : LineId) (c : DownClaims) (k : CallNo) :
    (s.setDown n c).part k = s.part k := rfl
@[simp] theorem State.waitQueue_setDown (s : State) (n : LineId) (c : DownClaims) :
    (s.setDown n c).waitQueue = s.waitQueue := rfl
@[simp] theorem State.meter_setDown (s : State) (n : LineId) (c : DownClaims) (x : MeterId) :
    (s.setDown n c).meter x = s.meter x := rfl

/-! What `modDown` leaves as it stands. -/

@[simp] theorem State.modDown_pending (s : State) (n : LineId) (f : DownClaims → DownClaims) :
    (s.modDown n f).pending = s.pending := rfl
@[simp] theorem State.modDown_pins (s : State) (n : LineId) (f : DownClaims → DownClaims) :
    (s.modDown n f).pins = s.pins := rfl
@[simp] theorem State.modDown_lsv (s : State) (n : LineId) (f : DownClaims → DownClaims) :
    (s.modDown n f).lsv = s.lsv := rfl
@[simp] theorem State.modDown_dgu (s : State) (n : LineId) (f : DownClaims → DownClaims) :
    (s.modDown n f).dgu = s.dgu := rfl
@[simp] theorem State.modDown_ptb (s : State) (n : LineId) (f : DownClaims → DownClaims) :
    (s.modDown n f).ptb = s.ptb := rfl
@[simp] theorem State.modDown_csq (s : State) (n : LineId) (f : DownClaims → DownClaims) :
    (s.modDown n f).csq = s.csq := rfl
@[simp] theorem State.modDown_itu (s : State) (n : LineId) (f : DownClaims → DownClaims) :
    (s.modDown n f).itu = s.itu := rfl
@[simp] theorem State.modDown_mgp (s : State) (n : LineId) (f : DownClaims → DownClaims) :
    (s.modDown n f).mgp = s.mgp := rfl
@[simp] theorem State.modDown_lkm (s : State) (n : LineId) (f : DownClaims → DownClaims) :
    (s.modDown n f).lkm = s.lkm := rfl
@[simp] theorem State.modDown_tmu (s : State) (n : LineId) (f : DownClaims → DownClaims) :
    (s.modDown n f).tmu = s.tmu := rfl
@[simp] theorem State.modDown_hwi_ePort (s : State) (n : LineId) (f : DownClaims → DownClaims) :
    (s.modDown n f).hwi.ePort = s.hwi.ePort := rfl
@[simp] theorem State.modDown_hwi_lPort (s : State) (n : LineId) (f : DownClaims → DownClaims) :
    (s.modDown n f).hwi.lPort = s.hwi.lPort := rfl
@[simp] theorem State.modDown_hwi_up (s : State) (n : LineId) (f : DownClaims → DownClaims) :
    (s.modDown n f).hwi.up = s.hwi.up := rfl
@[simp] theorem State.modDown_hwi_policing (s : State) (n : LineId) (f : DownClaims → DownClaims) :
    (s.modDown n f).hwi.policing = s.hwi.policing := rfl
@[simp] theorem State.modDown_hwi_shelfCount (s : State) (n : LineId) (f : DownClaims → DownClaims) :
    (s.modDown n f).hwi.shelfCount = s.hwi.shelfCount := rfl
@[simp] theorem State.modDown_hwi_shelfArmed (s : State) (n : LineId) (f : DownClaims → DownClaims) :
    (s.modDown n f).hwi.shelfArmed = s.hwi.shelfArmed := rfl
@[simp] theorem State.modDown_hwi_shelfReported (s : State) (n : LineId) (f : DownClaims → DownClaims) :
    (s.modDown n f).hwi.shelfReported = s.hwi.shelfReported := rfl
@[simp] theorem State.modDown_hwi_byteWaits (s : State) (n : LineId) (f : DownClaims → DownClaims) :
    (s.modDown n f).hwi.byteWaits = s.hwi.byteWaits := rfl
@[simp] theorem State.modDown_hwi_eSent (s : State) (n : LineId) (f : DownClaims → DownClaims) :
    (s.modDown n f).hwi.eSent = s.hwi.eSent := rfl
@[simp] theorem State.modDown_hwi_lSent (s : State) (n : LineId) (f : DownClaims → DownClaims) :
    (s.modDown n f).hwi.lSent = s.hwi.lSent := rfl
@[simp] theorem State.modDown_rsc (s : State) (n : LineId) (f : DownClaims → DownClaims) :
    (s.modDown n f).rsc = s.rsc := rfl
@[simp] theorem State.line_modDown (s : State) (n : LineId) (f : DownClaims → DownClaims) (m : LineId) :
    (s.modDown n f).line m = s.line m := rfl
@[simp] theorem State.digits_modDown (s : State) (n : LineId) (f : DownClaims → DownClaims) (m : LineId) :
    (s.modDown n f).digits m = s.digits m := rfl
@[simp] theorem State.up_modDown (s : State) (n : LineId) (f : DownClaims → DownClaims) (m : LineId) :
    (s.modDown n f).up m = s.up m := rfl
@[simp] theorem State.lByte_modDown (s : State) (n : LineId) (f : DownClaims → DownClaims) (m : LineId) :
    (s.modDown n f).lByte m = s.lByte m := rfl
@[simp] theorem State.eByte_modDown (s : State) (n : LineId) (f : DownClaims → DownClaims) (m : LineId) :
    (s.modDown n f).eByte m = s.eByte m := rfl
@[simp] theorem State.callRec_modDown (s : State) (n : LineId) (f : DownClaims → DownClaims) (k : CallNo) :
    (s.modDown n f).callRec k = s.callRec k := rfl
@[simp] theorem State.callOn_modDown (s : State) (n : LineId) (f : DownClaims → DownClaims) (m : LineId) :
    (s.modDown n f).callOn m = s.callOn m := rfl
@[simp] theorem State.freeCall_modDown (s : State) (n : LineId) (f : DownClaims → DownClaims) :
    (s.modDown n f).freeCall = s.freeCall := rfl
@[simp] theorem State.attr_modDown (s : State) (n : LineId) (f : DownClaims → DownClaims) (m : LineId) :
    (s.modDown n f).attr m = s.attr m := rfl
@[simp] theorem State.party_modDown (s : State) (n : LineId) (f : DownClaims → DownClaims) (m : LineId) (p : PartyId) :
    (s.modDown n f).party m p = s.party m p := rfl
@[simp] theorem State.specOf_modDown (s : State) (n : LineId) (f : DownClaims → DownClaims) (m : LineId) (p : PartyId) :
    (s.modDown n f).specOf m p = s.specOf m p := rfl
@[simp] theorem State.cadence_modDown (s : State) (n : LineId) (f : DownClaims → DownClaims) (x : CadenceId) :
    (s.modDown n f).cadence x = s.cadence x := rfl
@[simp] theorem State.capacity_modDown (s : State) (n : LineId) (f : DownClaims → DownClaims) (x : BusId) :
    (s.modDown n f).capacity x = s.capacity x := rfl
@[simp] theorem State.exclusion_modDown (s : State) (n : LineId) (f : DownClaims → DownClaims) (x : GroupId) :
    (s.modDown n f).exclusion x = s.exclusion x := rfl
@[simp] theorem State.timing_modDown (s : State) (n : LineId) (f : DownClaims → DownClaims) :
    (s.modDown n f).timing = s.timing := rfl
@[simp] theorem State.linked_modDown (s : State) (n : LineId) (f : DownClaims → DownClaims) :
    (s.modDown n f).linked = s.linked := rfl
@[simp] theorem State.testOn_modDown (s : State) (n : LineId) (f : DownClaims → DownClaims) (m : LineId) :
    (s.modDown n f).testOn m = s.testOn m := rfl
@[simp] theorem State.part_modDown (s : State) (n : LineId) (f : DownClaims → DownClaims) (k : CallNo) :
    (s.modDown n f).part k = s.part k := rfl
@[simp] theorem State.waitQueue_modDown (s : State) (n : LineId) (f : DownClaims → DownClaims) :
    (s.modDown n f).waitQueue = s.waitQueue := rfl
@[simp] theorem State.meter_modDown (s : State) (n : LineId) (f : DownClaims → DownClaims) (x : MeterId) :
    (s.modDown n f).meter x = s.meter x := rfl

/-! What `setUp` leaves as it stands. -/

@[simp] theorem State.setUp_pending (s : State) (n : LineId) (c : UpClaims) :
    (s.setUp n c).pending = s.pending := rfl
@[simp] theorem State.setUp_pins (s : State) (n : LineId) (c : UpClaims) :
    (s.setUp n c).pins = s.pins := rfl
@[simp] theorem State.setUp_lsv (s : State) (n : LineId) (c : UpClaims) :
    (s.setUp n c).lsv = s.lsv := rfl
@[simp] theorem State.setUp_dgu (s : State) (n : LineId) (c : UpClaims) :
    (s.setUp n c).dgu = s.dgu := rfl
@[simp] theorem State.setUp_ptb (s : State) (n : LineId) (c : UpClaims) :
    (s.setUp n c).ptb = s.ptb := rfl
@[simp] theorem State.setUp_csq (s : State) (n : LineId) (c : UpClaims) :
    (s.setUp n c).csq = s.csq := rfl
@[simp] theorem State.setUp_itu (s : State) (n : LineId) (c : UpClaims) :
    (s.setUp n c).itu = s.itu := rfl
@[simp] theorem State.setUp_mgp (s : State) (n : LineId) (c : UpClaims) :
    (s.setUp n c).mgp = s.mgp := rfl
@[simp] theorem State.setUp_lkm (s : State) (n : LineId) (c : UpClaims) :
    (s.setUp n c).lkm = s.lkm := rfl
@[simp] theorem State.setUp_tmu (s : State) (n : LineId) (c : UpClaims) :
    (s.setUp n c).tmu = s.tmu := rfl
@[simp] theorem State.setUp_hwi_ePort (s : State) (n : LineId) (c : UpClaims) :
    (s.setUp n c).hwi.ePort = s.hwi.ePort := rfl
@[simp] theorem State.setUp_hwi_lPort (s : State) (n : LineId) (c : UpClaims) :
    (s.setUp n c).hwi.lPort = s.hwi.lPort := rfl
@[simp] theorem State.setUp_hwi_down (s : State) (n : LineId) (c : UpClaims) :
    (s.setUp n c).hwi.down = s.hwi.down := rfl
@[simp] theorem State.setUp_hwi_policing (s : State) (n : LineId) (c : UpClaims) :
    (s.setUp n c).hwi.policing = s.hwi.policing := rfl
@[simp] theorem State.setUp_hwi_shelfCount (s : State) (n : LineId) (c : UpClaims) :
    (s.setUp n c).hwi.shelfCount = s.hwi.shelfCount := rfl
@[simp] theorem State.setUp_hwi_shelfArmed (s : State) (n : LineId) (c : UpClaims) :
    (s.setUp n c).hwi.shelfArmed = s.hwi.shelfArmed := rfl
@[simp] theorem State.setUp_hwi_shelfReported (s : State) (n : LineId) (c : UpClaims) :
    (s.setUp n c).hwi.shelfReported = s.hwi.shelfReported := rfl
@[simp] theorem State.setUp_hwi_byteWaits (s : State) (n : LineId) (c : UpClaims) :
    (s.setUp n c).hwi.byteWaits = s.hwi.byteWaits := rfl
@[simp] theorem State.setUp_hwi_eSent (s : State) (n : LineId) (c : UpClaims) :
    (s.setUp n c).hwi.eSent = s.hwi.eSent := rfl
@[simp] theorem State.setUp_hwi_lSent (s : State) (n : LineId) (c : UpClaims) :
    (s.setUp n c).hwi.lSent = s.hwi.lSent := rfl
@[simp] theorem State.setUp_rsc (s : State) (n : LineId) (c : UpClaims) :
    (s.setUp n c).rsc = s.rsc := rfl
@[simp] theorem State.line_setUp (s : State) (n : LineId) (c : UpClaims) (m : LineId) :
    (s.setUp n c).line m = s.line m := rfl
@[simp] theorem State.digits_setUp (s : State) (n : LineId) (c : UpClaims) (m : LineId) :
    (s.setUp n c).digits m = s.digits m := rfl
@[simp] theorem State.down_setUp (s : State) (n : LineId) (c : UpClaims) (m : LineId) :
    (s.setUp n c).down m = s.down m := rfl
@[simp] theorem State.lByte_setUp (s : State) (n : LineId) (c : UpClaims) (m : LineId) :
    (s.setUp n c).lByte m = s.lByte m := rfl
@[simp] theorem State.eByte_setUp (s : State) (n : LineId) (c : UpClaims) (m : LineId) :
    (s.setUp n c).eByte m = s.eByte m := rfl
@[simp] theorem State.callRec_setUp (s : State) (n : LineId) (c : UpClaims) (k : CallNo) :
    (s.setUp n c).callRec k = s.callRec k := rfl
@[simp] theorem State.callOn_setUp (s : State) (n : LineId) (c : UpClaims) (m : LineId) :
    (s.setUp n c).callOn m = s.callOn m := rfl
@[simp] theorem State.freeCall_setUp (s : State) (n : LineId) (c : UpClaims) :
    (s.setUp n c).freeCall = s.freeCall := rfl
@[simp] theorem State.attr_setUp (s : State) (n : LineId) (c : UpClaims) (m : LineId) :
    (s.setUp n c).attr m = s.attr m := rfl
@[simp] theorem State.party_setUp (s : State) (n : LineId) (c : UpClaims) (m : LineId) (p : PartyId) :
    (s.setUp n c).party m p = s.party m p := rfl
@[simp] theorem State.specOf_setUp (s : State) (n : LineId) (c : UpClaims) (m : LineId) (p : PartyId) :
    (s.setUp n c).specOf m p = s.specOf m p := rfl
@[simp] theorem State.cadence_setUp (s : State) (n : LineId) (c : UpClaims) (x : CadenceId) :
    (s.setUp n c).cadence x = s.cadence x := rfl
@[simp] theorem State.capacity_setUp (s : State) (n : LineId) (c : UpClaims) (x : BusId) :
    (s.setUp n c).capacity x = s.capacity x := rfl
@[simp] theorem State.exclusion_setUp (s : State) (n : LineId) (c : UpClaims) (x : GroupId) :
    (s.setUp n c).exclusion x = s.exclusion x := rfl
@[simp] theorem State.timing_setUp (s : State) (n : LineId) (c : UpClaims) :
    (s.setUp n c).timing = s.timing := rfl
@[simp] theorem State.linked_setUp (s : State) (n : LineId) (c : UpClaims) :
    (s.setUp n c).linked = s.linked := rfl
@[simp] theorem State.testOn_setUp (s : State) (n : LineId) (c : UpClaims) (m : LineId) :
    (s.setUp n c).testOn m = s.testOn m := rfl
@[simp] theorem State.part_setUp (s : State) (n : LineId) (c : UpClaims) (k : CallNo) :
    (s.setUp n c).part k = s.part k := rfl
@[simp] theorem State.waitQueue_setUp (s : State) (n : LineId) (c : UpClaims) :
    (s.setUp n c).waitQueue = s.waitQueue := rfl
@[simp] theorem State.meter_setUp (s : State) (n : LineId) (c : UpClaims) (x : MeterId) :
    (s.setUp n c).meter x = s.meter x := rfl

/-! What `modUp` leaves as it stands. -/

@[simp] theorem State.modUp_pending (s : State) (n : LineId) (f : UpClaims → UpClaims) :
    (s.modUp n f).pending = s.pending := rfl
@[simp] theorem State.modUp_pins (s : State) (n : LineId) (f : UpClaims → UpClaims) :
    (s.modUp n f).pins = s.pins := rfl
@[simp] theorem State.modUp_lsv (s : State) (n : LineId) (f : UpClaims → UpClaims) :
    (s.modUp n f).lsv = s.lsv := rfl
@[simp] theorem State.modUp_dgu (s : State) (n : LineId) (f : UpClaims → UpClaims) :
    (s.modUp n f).dgu = s.dgu := rfl
@[simp] theorem State.modUp_ptb (s : State) (n : LineId) (f : UpClaims → UpClaims) :
    (s.modUp n f).ptb = s.ptb := rfl
@[simp] theorem State.modUp_csq (s : State) (n : LineId) (f : UpClaims → UpClaims) :
    (s.modUp n f).csq = s.csq := rfl
@[simp] theorem State.modUp_itu (s : State) (n : LineId) (f : UpClaims → UpClaims) :
    (s.modUp n f).itu = s.itu := rfl
@[simp] theorem State.modUp_mgp (s : State) (n : LineId) (f : UpClaims → UpClaims) :
    (s.modUp n f).mgp = s.mgp := rfl
@[simp] theorem State.modUp_lkm (s : State) (n : LineId) (f : UpClaims → UpClaims) :
    (s.modUp n f).lkm = s.lkm := rfl
@[simp] theorem State.modUp_tmu (s : State) (n : LineId) (f : UpClaims → UpClaims) :
    (s.modUp n f).tmu = s.tmu := rfl
@[simp] theorem State.modUp_hwi_ePort (s : State) (n : LineId) (f : UpClaims → UpClaims) :
    (s.modUp n f).hwi.ePort = s.hwi.ePort := rfl
@[simp] theorem State.modUp_hwi_lPort (s : State) (n : LineId) (f : UpClaims → UpClaims) :
    (s.modUp n f).hwi.lPort = s.hwi.lPort := rfl
@[simp] theorem State.modUp_hwi_down (s : State) (n : LineId) (f : UpClaims → UpClaims) :
    (s.modUp n f).hwi.down = s.hwi.down := rfl
@[simp] theorem State.modUp_hwi_policing (s : State) (n : LineId) (f : UpClaims → UpClaims) :
    (s.modUp n f).hwi.policing = s.hwi.policing := rfl
@[simp] theorem State.modUp_hwi_shelfCount (s : State) (n : LineId) (f : UpClaims → UpClaims) :
    (s.modUp n f).hwi.shelfCount = s.hwi.shelfCount := rfl
@[simp] theorem State.modUp_hwi_shelfArmed (s : State) (n : LineId) (f : UpClaims → UpClaims) :
    (s.modUp n f).hwi.shelfArmed = s.hwi.shelfArmed := rfl
@[simp] theorem State.modUp_hwi_shelfReported (s : State) (n : LineId) (f : UpClaims → UpClaims) :
    (s.modUp n f).hwi.shelfReported = s.hwi.shelfReported := rfl
@[simp] theorem State.modUp_hwi_byteWaits (s : State) (n : LineId) (f : UpClaims → UpClaims) :
    (s.modUp n f).hwi.byteWaits = s.hwi.byteWaits := rfl
@[simp] theorem State.modUp_hwi_eSent (s : State) (n : LineId) (f : UpClaims → UpClaims) :
    (s.modUp n f).hwi.eSent = s.hwi.eSent := rfl
@[simp] theorem State.modUp_hwi_lSent (s : State) (n : LineId) (f : UpClaims → UpClaims) :
    (s.modUp n f).hwi.lSent = s.hwi.lSent := rfl
@[simp] theorem State.modUp_rsc (s : State) (n : LineId) (f : UpClaims → UpClaims) :
    (s.modUp n f).rsc = s.rsc := rfl
@[simp] theorem State.line_modUp (s : State) (n : LineId) (f : UpClaims → UpClaims) (m : LineId) :
    (s.modUp n f).line m = s.line m := rfl
@[simp] theorem State.digits_modUp (s : State) (n : LineId) (f : UpClaims → UpClaims) (m : LineId) :
    (s.modUp n f).digits m = s.digits m := rfl
@[simp] theorem State.down_modUp (s : State) (n : LineId) (f : UpClaims → UpClaims) (m : LineId) :
    (s.modUp n f).down m = s.down m := rfl
@[simp] theorem State.lByte_modUp (s : State) (n : LineId) (f : UpClaims → UpClaims) (m : LineId) :
    (s.modUp n f).lByte m = s.lByte m := rfl
@[simp] theorem State.eByte_modUp (s : State) (n : LineId) (f : UpClaims → UpClaims) (m : LineId) :
    (s.modUp n f).eByte m = s.eByte m := rfl
@[simp] theorem State.callRec_modUp (s : State) (n : LineId) (f : UpClaims → UpClaims) (k : CallNo) :
    (s.modUp n f).callRec k = s.callRec k := rfl
@[simp] theorem State.callOn_modUp (s : State) (n : LineId) (f : UpClaims → UpClaims) (m : LineId) :
    (s.modUp n f).callOn m = s.callOn m := rfl
@[simp] theorem State.freeCall_modUp (s : State) (n : LineId) (f : UpClaims → UpClaims) :
    (s.modUp n f).freeCall = s.freeCall := rfl
@[simp] theorem State.attr_modUp (s : State) (n : LineId) (f : UpClaims → UpClaims) (m : LineId) :
    (s.modUp n f).attr m = s.attr m := rfl
@[simp] theorem State.party_modUp (s : State) (n : LineId) (f : UpClaims → UpClaims) (m : LineId) (p : PartyId) :
    (s.modUp n f).party m p = s.party m p := rfl
@[simp] theorem State.specOf_modUp (s : State) (n : LineId) (f : UpClaims → UpClaims) (m : LineId) (p : PartyId) :
    (s.modUp n f).specOf m p = s.specOf m p := rfl
@[simp] theorem State.cadence_modUp (s : State) (n : LineId) (f : UpClaims → UpClaims) (x : CadenceId) :
    (s.modUp n f).cadence x = s.cadence x := rfl
@[simp] theorem State.capacity_modUp (s : State) (n : LineId) (f : UpClaims → UpClaims) (x : BusId) :
    (s.modUp n f).capacity x = s.capacity x := rfl
@[simp] theorem State.exclusion_modUp (s : State) (n : LineId) (f : UpClaims → UpClaims) (x : GroupId) :
    (s.modUp n f).exclusion x = s.exclusion x := rfl
@[simp] theorem State.timing_modUp (s : State) (n : LineId) (f : UpClaims → UpClaims) :
    (s.modUp n f).timing = s.timing := rfl
@[simp] theorem State.linked_modUp (s : State) (n : LineId) (f : UpClaims → UpClaims) :
    (s.modUp n f).linked = s.linked := rfl
@[simp] theorem State.testOn_modUp (s : State) (n : LineId) (f : UpClaims → UpClaims) (m : LineId) :
    (s.modUp n f).testOn m = s.testOn m := rfl
@[simp] theorem State.part_modUp (s : State) (n : LineId) (f : UpClaims → UpClaims) (k : CallNo) :
    (s.modUp n f).part k = s.part k := rfl
@[simp] theorem State.waitQueue_modUp (s : State) (n : LineId) (f : UpClaims → UpClaims) :
    (s.modUp n f).waitQueue = s.waitQueue := rfl
@[simp] theorem State.meter_modUp (s : State) (n : LineId) (f : UpClaims → UpClaims) (x : MeterId) :
    (s.modUp n f).meter x = s.meter x := rfl

/-! What `setCall` leaves as it stands. -/

@[simp] theorem State.setCall_pending (s : State) (c : CallNo) (r : Option CallRec) :
    (s.setCall c r).pending = s.pending := rfl
@[simp] theorem State.setCall_pins (s : State) (c : CallNo) (r : Option CallRec) :
    (s.setCall c r).pins = s.pins := rfl
@[simp] theorem State.setCall_lsv (s : State) (c : CallNo) (r : Option CallRec) :
    (s.setCall c r).lsv = s.lsv := rfl
@[simp] theorem State.setCall_dgu (s : State) (c : CallNo) (r : Option CallRec) :
    (s.setCall c r).dgu = s.dgu := rfl
@[simp] theorem State.setCall_ptb (s : State) (c : CallNo) (r : Option CallRec) :
    (s.setCall c r).ptb = s.ptb := rfl
@[simp] theorem State.setCall_itu (s : State) (c : CallNo) (r : Option CallRec) :
    (s.setCall c r).itu = s.itu := rfl
@[simp] theorem State.setCall_mgp (s : State) (c : CallNo) (r : Option CallRec) :
    (s.setCall c r).mgp = s.mgp := rfl
@[simp] theorem State.setCall_lkm (s : State) (c : CallNo) (r : Option CallRec) :
    (s.setCall c r).lkm = s.lkm := rfl
@[simp] theorem State.setCall_tmu (s : State) (c : CallNo) (r : Option CallRec) :
    (s.setCall c r).tmu = s.tmu := rfl
@[simp] theorem State.setCall_hwi (s : State) (c : CallNo) (r : Option CallRec) :
    (s.setCall c r).hwi = s.hwi := rfl
@[simp] theorem State.setCall_rsc (s : State) (c : CallNo) (r : Option CallRec) :
    (s.setCall c r).rsc = s.rsc := rfl
@[simp] theorem State.line_setCall (s : State) (c : CallNo) (r : Option CallRec) (m : LineId) :
    (s.setCall c r).line m = s.line m := rfl
@[simp] theorem State.digits_setCall (s : State) (c : CallNo) (r : Option CallRec) (m : LineId) :
    (s.setCall c r).digits m = s.digits m := rfl
@[simp] theorem State.down_setCall (s : State) (c : CallNo) (r : Option CallRec) (m : LineId) :
    (s.setCall c r).down m = s.down m := rfl
@[simp] theorem State.up_setCall (s : State) (c : CallNo) (r : Option CallRec) (m : LineId) :
    (s.setCall c r).up m = s.up m := rfl
@[simp] theorem State.lByte_setCall (s : State) (c : CallNo) (r : Option CallRec) (m : LineId) :
    (s.setCall c r).lByte m = s.lByte m := rfl
@[simp] theorem State.eByte_setCall (s : State) (c : CallNo) (r : Option CallRec) (m : LineId) :
    (s.setCall c r).eByte m = s.eByte m := rfl
@[simp] theorem State.attr_setCall (s : State) (c : CallNo) (r : Option CallRec) (m : LineId) :
    (s.setCall c r).attr m = s.attr m := rfl
@[simp] theorem State.party_setCall (s : State) (c : CallNo) (r : Option CallRec) (m : LineId) (p : PartyId) :
    (s.setCall c r).party m p = s.party m p := rfl
@[simp] theorem State.specOf_setCall (s : State) (c : CallNo) (r : Option CallRec) (m : LineId) (p : PartyId) :
    (s.setCall c r).specOf m p = s.specOf m p := rfl
@[simp] theorem State.cadence_setCall (s : State) (c : CallNo) (r : Option CallRec) (x : CadenceId) :
    (s.setCall c r).cadence x = s.cadence x := rfl
@[simp] theorem State.capacity_setCall (s : State) (c : CallNo) (r : Option CallRec) (x : BusId) :
    (s.setCall c r).capacity x = s.capacity x := rfl
@[simp] theorem State.exclusion_setCall (s : State) (c : CallNo) (r : Option CallRec) (x : GroupId) :
    (s.setCall c r).exclusion x = s.exclusion x := rfl
@[simp] theorem State.timing_setCall (s : State) (c : CallNo) (r : Option CallRec) :
    (s.setCall c r).timing = s.timing := rfl
@[simp] theorem State.linked_setCall (s : State) (c : CallNo) (r : Option CallRec) :
    (s.setCall c r).linked = s.linked := rfl
@[simp] theorem State.testOn_setCall (s : State) (c : CallNo) (r : Option CallRec) (m : LineId) :
    (s.setCall c r).testOn m = s.testOn m := rfl
@[simp] theorem State.part_setCall (s : State) (c : CallNo) (r : Option CallRec) (k : CallNo) :
    (s.setCall c r).part k = s.part k := rfl
@[simp] theorem State.waitQueue_setCall (s : State) (c : CallNo) (r : Option CallRec) :
    (s.setCall c r).waitQueue = s.waitQueue := rfl
@[simp] theorem State.meter_setCall (s : State) (c : CallNo) (r : Option CallRec) (x : MeterId) :
    (s.setCall c r).meter x = s.meter x := rfl

/-! What `modCall` leaves as it stands. -/

@[simp] theorem State.modCall_pending (s : State) (c : CallNo) (f : CallRec → CallRec) :
    (s.modCall c f).pending = s.pending := rfl
@[simp] theorem State.modCall_pins (s : State) (c : CallNo) (f : CallRec → CallRec) :
    (s.modCall c f).pins = s.pins := rfl
@[simp] theorem State.modCall_lsv (s : State) (c : CallNo) (f : CallRec → CallRec) :
    (s.modCall c f).lsv = s.lsv := rfl
@[simp] theorem State.modCall_dgu (s : State) (c : CallNo) (f : CallRec → CallRec) :
    (s.modCall c f).dgu = s.dgu := rfl
@[simp] theorem State.modCall_ptb (s : State) (c : CallNo) (f : CallRec → CallRec) :
    (s.modCall c f).ptb = s.ptb := rfl
@[simp] theorem State.modCall_itu (s : State) (c : CallNo) (f : CallRec → CallRec) :
    (s.modCall c f).itu = s.itu := rfl
@[simp] theorem State.modCall_mgp (s : State) (c : CallNo) (f : CallRec → CallRec) :
    (s.modCall c f).mgp = s.mgp := rfl
@[simp] theorem State.modCall_lkm (s : State) (c : CallNo) (f : CallRec → CallRec) :
    (s.modCall c f).lkm = s.lkm := rfl
@[simp] theorem State.modCall_tmu (s : State) (c : CallNo) (f : CallRec → CallRec) :
    (s.modCall c f).tmu = s.tmu := rfl
@[simp] theorem State.modCall_hwi (s : State) (c : CallNo) (f : CallRec → CallRec) :
    (s.modCall c f).hwi = s.hwi := rfl
@[simp] theorem State.modCall_rsc (s : State) (c : CallNo) (f : CallRec → CallRec) :
    (s.modCall c f).rsc = s.rsc := rfl
@[simp] theorem State.line_modCall (s : State) (c : CallNo) (f : CallRec → CallRec) (m : LineId) :
    (s.modCall c f).line m = s.line m := rfl
@[simp] theorem State.digits_modCall (s : State) (c : CallNo) (f : CallRec → CallRec) (m : LineId) :
    (s.modCall c f).digits m = s.digits m := rfl
@[simp] theorem State.down_modCall (s : State) (c : CallNo) (f : CallRec → CallRec) (m : LineId) :
    (s.modCall c f).down m = s.down m := rfl
@[simp] theorem State.up_modCall (s : State) (c : CallNo) (f : CallRec → CallRec) (m : LineId) :
    (s.modCall c f).up m = s.up m := rfl
@[simp] theorem State.lByte_modCall (s : State) (c : CallNo) (f : CallRec → CallRec) (m : LineId) :
    (s.modCall c f).lByte m = s.lByte m := rfl
@[simp] theorem State.eByte_modCall (s : State) (c : CallNo) (f : CallRec → CallRec) (m : LineId) :
    (s.modCall c f).eByte m = s.eByte m := rfl
@[simp] theorem State.attr_modCall (s : State) (c : CallNo) (f : CallRec → CallRec) (m : LineId) :
    (s.modCall c f).attr m = s.attr m := rfl
@[simp] theorem State.party_modCall (s : State) (c : CallNo) (f : CallRec → CallRec) (m : LineId) (p : PartyId) :
    (s.modCall c f).party m p = s.party m p := rfl
@[simp] theorem State.specOf_modCall (s : State) (c : CallNo) (f : CallRec → CallRec) (m : LineId) (p : PartyId) :
    (s.modCall c f).specOf m p = s.specOf m p := rfl
@[simp] theorem State.cadence_modCall (s : State) (c : CallNo) (f : CallRec → CallRec) (x : CadenceId) :
    (s.modCall c f).cadence x = s.cadence x := rfl
@[simp] theorem State.capacity_modCall (s : State) (c : CallNo) (f : CallRec → CallRec) (x : BusId) :
    (s.modCall c f).capacity x = s.capacity x := rfl
@[simp] theorem State.exclusion_modCall (s : State) (c : CallNo) (f : CallRec → CallRec) (x : GroupId) :
    (s.modCall c f).exclusion x = s.exclusion x := rfl
@[simp] theorem State.timing_modCall (s : State) (c : CallNo) (f : CallRec → CallRec) :
    (s.modCall c f).timing = s.timing := rfl
@[simp] theorem State.linked_modCall (s : State) (c : CallNo) (f : CallRec → CallRec) :
    (s.modCall c f).linked = s.linked := rfl
@[simp] theorem State.testOn_modCall (s : State) (c : CallNo) (f : CallRec → CallRec) (m : LineId) :
    (s.modCall c f).testOn m = s.testOn m := rfl
@[simp] theorem State.part_modCall (s : State) (c : CallNo) (f : CallRec → CallRec) (k : CallNo) :
    (s.modCall c f).part k = s.part k := rfl
@[simp] theorem State.waitQueue_modCall (s : State) (c : CallNo) (f : CallRec → CallRec) :
    (s.modCall c f).waitQueue = s.waitQueue := rfl
@[simp] theorem State.meter_modCall (s : State) (c : CallNo) (f : CallRec → CallRec) (x : MeterId) :
    (s.modCall c f).meter x = s.meter x := rfl

/-! What `hand` leaves as it stands. -/

@[simp] theorem State.hand_pending (s : State) (q : RscRequest) :
    (s.hand q).pending = s.pending := rfl
@[simp] theorem State.hand_pins (s : State) (q : RscRequest) :
    (s.hand q).pins = s.pins := rfl
@[simp] theorem State.hand_lsv (s : State) (q : RscRequest) :
    (s.hand q).lsv = s.lsv := rfl
@[simp] theorem State.hand_dgu (s : State) (q : RscRequest) :
    (s.hand q).dgu = s.dgu := rfl
@[simp] theorem State.hand_ptb (s : State) (q : RscRequest) :
    (s.hand q).ptb = s.ptb := rfl
@[simp] theorem State.hand_csq (s : State) (q : RscRequest) :
    (s.hand q).csq = s.csq := rfl
@[simp] theorem State.hand_itu (s : State) (q : RscRequest) :
    (s.hand q).itu = s.itu := rfl
@[simp] theorem State.hand_mgp (s : State) (q : RscRequest) :
    (s.hand q).mgp = s.mgp := rfl
@[simp] theorem State.hand_lkm (s : State) (q : RscRequest) :
    (s.hand q).lkm = s.lkm := rfl
@[simp] theorem State.hand_tmu (s : State) (q : RscRequest) :
    (s.hand q).tmu = s.tmu := rfl
@[simp] theorem State.hand_hwi (s : State) (q : RscRequest) :
    (s.hand q).hwi = s.hwi := rfl
@[simp] theorem State.hand_rsc_parts (s : State) (q : RscRequest) :
    (s.hand q).rsc.parts = s.rsc.parts := rfl
@[simp] theorem State.hand_rsc_busLoad (s : State) (q : RscRequest) :
    (s.hand q).rsc.busLoad = s.rsc.busLoad := rfl
@[simp] theorem State.hand_rsc_occupancy (s : State) (q : RscRequest) :
    (s.hand q).rsc.occupancy = s.rsc.occupancy := rfl
@[simp] theorem State.hand_rsc_startPointer (s : State) (q : RscRequest) :
    (s.hand q).rsc.startPointer = s.rsc.startPointer := rfl
@[simp] theorem State.hand_rsc_cycleSlot (s : State) (q : RscRequest) :
    (s.hand q).rsc.cycleSlot = s.rsc.cycleSlot := rfl
@[simp] theorem State.hand_rsc_slotTimer (s : State) (q : RscRequest) :
    (s.hand q).rsc.slotTimer = s.rsc.slotTimer := rfl
@[simp] theorem State.line_hand (s : State) (q : RscRequest) (m : LineId) :
    (s.hand q).line m = s.line m := rfl
@[simp] theorem State.digits_hand (s : State) (q : RscRequest) (m : LineId) :
    (s.hand q).digits m = s.digits m := rfl
@[simp] theorem State.down_hand (s : State) (q : RscRequest) (m : LineId) :
    (s.hand q).down m = s.down m := rfl
@[simp] theorem State.up_hand (s : State) (q : RscRequest) (m : LineId) :
    (s.hand q).up m = s.up m := rfl
@[simp] theorem State.lByte_hand (s : State) (q : RscRequest) (m : LineId) :
    (s.hand q).lByte m = s.lByte m := rfl
@[simp] theorem State.eByte_hand (s : State) (q : RscRequest) (m : LineId) :
    (s.hand q).eByte m = s.eByte m := rfl
@[simp] theorem State.callRec_hand (s : State) (q : RscRequest) (k : CallNo) :
    (s.hand q).callRec k = s.callRec k := rfl
@[simp] theorem State.callOn_hand (s : State) (q : RscRequest) (m : LineId) :
    (s.hand q).callOn m = s.callOn m := rfl
@[simp] theorem State.freeCall_hand (s : State) (q : RscRequest) :
    (s.hand q).freeCall = s.freeCall := rfl
@[simp] theorem State.attr_hand (s : State) (q : RscRequest) (m : LineId) :
    (s.hand q).attr m = s.attr m := rfl
@[simp] theorem State.party_hand (s : State) (q : RscRequest) (m : LineId) (p : PartyId) :
    (s.hand q).party m p = s.party m p := rfl
@[simp] theorem State.specOf_hand (s : State) (q : RscRequest) (m : LineId) (p : PartyId) :
    (s.hand q).specOf m p = s.specOf m p := rfl
@[simp] theorem State.cadence_hand (s : State) (q : RscRequest) (x : CadenceId) :
    (s.hand q).cadence x = s.cadence x := rfl
@[simp] theorem State.capacity_hand (s : State) (q : RscRequest) (x : BusId) :
    (s.hand q).capacity x = s.capacity x := rfl
@[simp] theorem State.exclusion_hand (s : State) (q : RscRequest) (x : GroupId) :
    (s.hand q).exclusion x = s.exclusion x := rfl
@[simp] theorem State.timing_hand (s : State) (q : RscRequest) :
    (s.hand q).timing = s.timing := rfl
@[simp] theorem State.linked_hand (s : State) (q : RscRequest) :
    (s.hand q).linked = s.linked := rfl
@[simp] theorem State.testOn_hand (s : State) (q : RscRequest) (m : LineId) :
    (s.hand q).testOn m = s.testOn m := rfl
@[simp] theorem State.part_hand (s : State) (q : RscRequest) (k : CallNo) :
    (s.hand q).part k = s.part k := rfl
@[simp] theorem State.waitQueue_hand (s : State) (q : RscRequest) :
    (s.hand q).waitQueue = s.waitQueue := rfl
@[simp] theorem State.meter_hand (s : State) (q : RscRequest) (x : MeterId) :
    (s.hand q).meter x = s.meter x := rfl

/-! What `modPart` leaves as it stands. -/

@[simp] theorem State.modPart_pending (s : State) (c : CallNo) (f : RingPart → RingPart) :
    (s.modPart c f).pending = s.pending := rfl
@[simp] theorem State.modPart_pins (s : State) (c : CallNo) (f : RingPart → RingPart) :
    (s.modPart c f).pins = s.pins := rfl
@[simp] theorem State.modPart_lsv (s : State) (c : CallNo) (f : RingPart → RingPart) :
    (s.modPart c f).lsv = s.lsv := rfl
@[simp] theorem State.modPart_dgu (s : State) (c : CallNo) (f : RingPart → RingPart) :
    (s.modPart c f).dgu = s.dgu := rfl
@[simp] theorem State.modPart_ptb (s : State) (c : CallNo) (f : RingPart → RingPart) :
    (s.modPart c f).ptb = s.ptb := rfl
@[simp] theorem State.modPart_csq (s : State) (c : CallNo) (f : RingPart → RingPart) :
    (s.modPart c f).csq = s.csq := rfl
@[simp] theorem State.modPart_itu (s : State) (c : CallNo) (f : RingPart → RingPart) :
    (s.modPart c f).itu = s.itu := rfl
@[simp] theorem State.modPart_mgp (s : State) (c : CallNo) (f : RingPart → RingPart) :
    (s.modPart c f).mgp = s.mgp := rfl
@[simp] theorem State.modPart_lkm (s : State) (c : CallNo) (f : RingPart → RingPart) :
    (s.modPart c f).lkm = s.lkm := rfl
@[simp] theorem State.modPart_tmu (s : State) (c : CallNo) (f : RingPart → RingPart) :
    (s.modPart c f).tmu = s.tmu := rfl
@[simp] theorem State.modPart_hwi (s : State) (c : CallNo) (f : RingPart → RingPart) :
    (s.modPart c f).hwi = s.hwi := rfl
@[simp] theorem State.modPart_rsc_busLoad (s : State) (c : CallNo) (f : RingPart → RingPart) :
    (s.modPart c f).rsc.busLoad = s.rsc.busLoad := rfl
@[simp] theorem State.modPart_rsc_occupancy (s : State) (c : CallNo) (f : RingPart → RingPart) :
    (s.modPart c f).rsc.occupancy = s.rsc.occupancy := rfl
@[simp] theorem State.modPart_rsc_startPointer (s : State) (c : CallNo) (f : RingPart → RingPart) :
    (s.modPart c f).rsc.startPointer = s.rsc.startPointer := rfl
@[simp] theorem State.modPart_rsc_cycleSlot (s : State) (c : CallNo) (f : RingPart → RingPart) :
    (s.modPart c f).rsc.cycleSlot = s.rsc.cycleSlot := rfl
@[simp] theorem State.modPart_rsc_slotTimer (s : State) (c : CallNo) (f : RingPart → RingPart) :
    (s.modPart c f).rsc.slotTimer = s.rsc.slotTimer := rfl
@[simp] theorem State.modPart_rsc_requests (s : State) (c : CallNo) (f : RingPart → RingPart) :
    (s.modPart c f).rsc.requests = s.rsc.requests := rfl
@[simp] theorem State.line_modPart (s : State) (c : CallNo) (f : RingPart → RingPart) (m : LineId) :
    (s.modPart c f).line m = s.line m := rfl
@[simp] theorem State.digits_modPart (s : State) (c : CallNo) (f : RingPart → RingPart) (m : LineId) :
    (s.modPart c f).digits m = s.digits m := rfl
@[simp] theorem State.down_modPart (s : State) (c : CallNo) (f : RingPart → RingPart) (m : LineId) :
    (s.modPart c f).down m = s.down m := rfl
@[simp] theorem State.up_modPart (s : State) (c : CallNo) (f : RingPart → RingPart) (m : LineId) :
    (s.modPart c f).up m = s.up m := rfl
@[simp] theorem State.lByte_modPart (s : State) (c : CallNo) (f : RingPart → RingPart) (m : LineId) :
    (s.modPart c f).lByte m = s.lByte m := rfl
@[simp] theorem State.eByte_modPart (s : State) (c : CallNo) (f : RingPart → RingPart) (m : LineId) :
    (s.modPart c f).eByte m = s.eByte m := rfl
@[simp] theorem State.callRec_modPart (s : State) (c : CallNo) (f : RingPart → RingPart) (k : CallNo) :
    (s.modPart c f).callRec k = s.callRec k := rfl
@[simp] theorem State.callOn_modPart (s : State) (c : CallNo) (f : RingPart → RingPart) (m : LineId) :
    (s.modPart c f).callOn m = s.callOn m := rfl
@[simp] theorem State.freeCall_modPart (s : State) (c : CallNo) (f : RingPart → RingPart) :
    (s.modPart c f).freeCall = s.freeCall := rfl
@[simp] theorem State.attr_modPart (s : State) (c : CallNo) (f : RingPart → RingPart) (m : LineId) :
    (s.modPart c f).attr m = s.attr m := rfl
@[simp] theorem State.party_modPart (s : State) (c : CallNo) (f : RingPart → RingPart) (m : LineId) (p : PartyId) :
    (s.modPart c f).party m p = s.party m p := rfl
@[simp] theorem State.specOf_modPart (s : State) (c : CallNo) (f : RingPart → RingPart) (m : LineId) (p : PartyId) :
    (s.modPart c f).specOf m p = s.specOf m p := rfl
@[simp] theorem State.cadence_modPart (s : State) (c : CallNo) (f : RingPart → RingPart) (x : CadenceId) :
    (s.modPart c f).cadence x = s.cadence x := rfl
@[simp] theorem State.capacity_modPart (s : State) (c : CallNo) (f : RingPart → RingPart) (x : BusId) :
    (s.modPart c f).capacity x = s.capacity x := rfl
@[simp] theorem State.exclusion_modPart (s : State) (c : CallNo) (f : RingPart → RingPart) (x : GroupId) :
    (s.modPart c f).exclusion x = s.exclusion x := rfl
@[simp] theorem State.timing_modPart (s : State) (c : CallNo) (f : RingPart → RingPart) :
    (s.modPart c f).timing = s.timing := rfl
@[simp] theorem State.linked_modPart (s : State) (c : CallNo) (f : RingPart → RingPart) :
    (s.modPart c f).linked = s.linked := rfl
@[simp] theorem State.testOn_modPart (s : State) (c : CallNo) (f : RingPart → RingPart) (m : LineId) :
    (s.modPart c f).testOn m = s.testOn m := rfl
@[simp] theorem State.meter_modPart (s : State) (c : CallNo) (f : RingPart → RingPart) (x : MeterId) :
    (s.modPart c f).meter x = s.meter x := rfl

/-! What `mapAdd` leaves as it stands. -/

@[simp] theorem State.mapAdd_pending (s : State) (sp : Spec) (g : GroupId) (k : Slot) :
    (s.mapAdd sp g k).pending = s.pending := rfl
@[simp] theorem State.mapAdd_pins (s : State) (sp : Spec) (g : GroupId) (k : Slot) :
    (s.mapAdd sp g k).pins = s.pins := rfl
@[simp] theorem State.mapAdd_lsv (s : State) (sp : Spec) (g : GroupId) (k : Slot) :
    (s.mapAdd sp g k).lsv = s.lsv := rfl
@[simp] theorem State.mapAdd_dgu (s : State) (sp : Spec) (g : GroupId) (k : Slot) :
    (s.mapAdd sp g k).dgu = s.dgu := rfl
@[simp] theorem State.mapAdd_ptb (s : State) (sp : Spec) (g : GroupId) (k : Slot) :
    (s.mapAdd sp g k).ptb = s.ptb := rfl
@[simp] theorem State.mapAdd_csq (s : State) (sp : Spec) (g : GroupId) (k : Slot) :
    (s.mapAdd sp g k).csq = s.csq := rfl
@[simp] theorem State.mapAdd_itu (s : State) (sp : Spec) (g : GroupId) (k : Slot) :
    (s.mapAdd sp g k).itu = s.itu := rfl
@[simp] theorem State.mapAdd_mgp (s : State) (sp : Spec) (g : GroupId) (k : Slot) :
    (s.mapAdd sp g k).mgp = s.mgp := rfl
@[simp] theorem State.mapAdd_lkm (s : State) (sp : Spec) (g : GroupId) (k : Slot) :
    (s.mapAdd sp g k).lkm = s.lkm := rfl
@[simp] theorem State.mapAdd_tmu (s : State) (sp : Spec) (g : GroupId) (k : Slot) :
    (s.mapAdd sp g k).tmu = s.tmu := rfl
@[simp] theorem State.mapAdd_hwi (s : State) (sp : Spec) (g : GroupId) (k : Slot) :
    (s.mapAdd sp g k).hwi = s.hwi := rfl
@[simp] theorem State.mapAdd_rsc_parts (s : State) (sp : Spec) (g : GroupId) (k : Slot) :
    (s.mapAdd sp g k).rsc.parts = s.rsc.parts := rfl
@[simp] theorem State.mapAdd_rsc_startPointer (s : State) (sp : Spec) (g : GroupId) (k : Slot) :
    (s.mapAdd sp g k).rsc.startPointer = s.rsc.startPointer := rfl
@[simp] theorem State.mapAdd_rsc_cycleSlot (s : State) (sp : Spec) (g : GroupId) (k : Slot) :
    (s.mapAdd sp g k).rsc.cycleSlot = s.rsc.cycleSlot := rfl
@[simp] theorem State.mapAdd_rsc_slotTimer (s : State) (sp : Spec) (g : GroupId) (k : Slot) :
    (s.mapAdd sp g k).rsc.slotTimer = s.rsc.slotTimer := rfl
@[simp] theorem State.mapAdd_rsc_requests (s : State) (sp : Spec) (g : GroupId) (k : Slot) :
    (s.mapAdd sp g k).rsc.requests = s.rsc.requests := rfl
@[simp] theorem State.line_mapAdd (s : State) (sp : Spec) (g : GroupId) (k : Slot) (m : LineId) :
    (s.mapAdd sp g k).line m = s.line m := rfl
@[simp] theorem State.digits_mapAdd (s : State) (sp : Spec) (g : GroupId) (k : Slot) (m : LineId) :
    (s.mapAdd sp g k).digits m = s.digits m := rfl
@[simp] theorem State.down_mapAdd (s : State) (sp : Spec) (g : GroupId) (k : Slot) (m : LineId) :
    (s.mapAdd sp g k).down m = s.down m := rfl
@[simp] theorem State.up_mapAdd (s : State) (sp : Spec) (g : GroupId) (k : Slot) (m : LineId) :
    (s.mapAdd sp g k).up m = s.up m := rfl
@[simp] theorem State.lByte_mapAdd (s : State) (sp : Spec) (g : GroupId) (k : Slot) (m : LineId) :
    (s.mapAdd sp g k).lByte m = s.lByte m := rfl
@[simp] theorem State.eByte_mapAdd (s : State) (sp : Spec) (g : GroupId) (k : Slot) (m : LineId) :
    (s.mapAdd sp g k).eByte m = s.eByte m := rfl
@[simp] theorem State.callRec_mapAdd (s : State) (sp : Spec) (g : GroupId) (k : Slot) (k1 : CallNo) :
    (s.mapAdd sp g k).callRec k1 = s.callRec k1 := rfl
@[simp] theorem State.callOn_mapAdd (s : State) (sp : Spec) (g : GroupId) (k : Slot) (m : LineId) :
    (s.mapAdd sp g k).callOn m = s.callOn m := rfl
@[simp] theorem State.freeCall_mapAdd (s : State) (sp : Spec) (g : GroupId) (k : Slot) :
    (s.mapAdd sp g k).freeCall = s.freeCall := rfl
@[simp] theorem State.attr_mapAdd (s : State) (sp : Spec) (g : GroupId) (k : Slot) (m : LineId) :
    (s.mapAdd sp g k).attr m = s.attr m := rfl
@[simp] theorem State.party_mapAdd (s : State) (sp : Spec) (g : GroupId) (k : Slot) (m : LineId) (p : PartyId) :
    (s.mapAdd sp g k).party m p = s.party m p := rfl
@[simp] theorem State.specOf_mapAdd (s : State) (sp : Spec) (g : GroupId) (k : Slot) (m : LineId) (p : PartyId) :
    (s.mapAdd sp g k).specOf m p = s.specOf m p := rfl
@[simp] theorem State.cadence_mapAdd (s : State) (sp : Spec) (g : GroupId) (k : Slot) (x : CadenceId) :
    (s.mapAdd sp g k).cadence x = s.cadence x := rfl
@[simp] theorem State.capacity_mapAdd (s : State) (sp : Spec) (g : GroupId) (k : Slot) (x : BusId) :
    (s.mapAdd sp g k).capacity x = s.capacity x := rfl
@[simp] theorem State.exclusion_mapAdd (s : State) (sp : Spec) (g : GroupId) (k : Slot) (x : GroupId) :
    (s.mapAdd sp g k).exclusion x = s.exclusion x := rfl
@[simp] theorem State.timing_mapAdd (s : State) (sp : Spec) (g : GroupId) (k : Slot) :
    (s.mapAdd sp g k).timing = s.timing := rfl
@[simp] theorem State.linked_mapAdd (s : State) (sp : Spec) (g : GroupId) (k : Slot) :
    (s.mapAdd sp g k).linked = s.linked := rfl
@[simp] theorem State.testOn_mapAdd (s : State) (sp : Spec) (g : GroupId) (k : Slot) (m : LineId) :
    (s.mapAdd sp g k).testOn m = s.testOn m := rfl
@[simp] theorem State.part_mapAdd (s : State) (sp : Spec) (g : GroupId) (k : Slot) (k1 : CallNo) :
    (s.mapAdd sp g k).part k1 = s.part k1 := rfl
@[simp] theorem State.waitQueue_mapAdd (s : State) (sp : Spec) (g : GroupId) (k : Slot) :
    (s.mapAdd sp g k).waitQueue = s.waitQueue := rfl
@[simp] theorem State.meter_mapAdd (s : State) (sp : Spec) (g : GroupId) (k : Slot) (x : MeterId) :
    (s.mapAdd sp g k).meter x = s.meter x := rfl

/-! What `mapRemove` leaves as it stands. -/

@[simp] theorem State.mapRemove_pending (s : State) (sp : Spec) (g : GroupId) (k : Slot) :
    (s.mapRemove sp g k).pending = s.pending := rfl
@[simp] theorem State.mapRemove_pins (s : State) (sp : Spec) (g : GroupId) (k : Slot) :
    (s.mapRemove sp g k).pins = s.pins := rfl
@[simp] theorem State.mapRemove_lsv (s : State) (sp : Spec) (g : GroupId) (k : Slot) :
    (s.mapRemove sp g k).lsv = s.lsv := rfl
@[simp] theorem State.mapRemove_dgu (s : State) (sp : Spec) (g : GroupId) (k : Slot) :
    (s.mapRemove sp g k).dgu = s.dgu := rfl
@[simp] theorem State.mapRemove_ptb (s : State) (sp : Spec) (g : GroupId) (k : Slot) :
    (s.mapRemove sp g k).ptb = s.ptb := rfl
@[simp] theorem State.mapRemove_csq (s : State) (sp : Spec) (g : GroupId) (k : Slot) :
    (s.mapRemove sp g k).csq = s.csq := rfl
@[simp] theorem State.mapRemove_itu (s : State) (sp : Spec) (g : GroupId) (k : Slot) :
    (s.mapRemove sp g k).itu = s.itu := rfl
@[simp] theorem State.mapRemove_mgp (s : State) (sp : Spec) (g : GroupId) (k : Slot) :
    (s.mapRemove sp g k).mgp = s.mgp := rfl
@[simp] theorem State.mapRemove_lkm (s : State) (sp : Spec) (g : GroupId) (k : Slot) :
    (s.mapRemove sp g k).lkm = s.lkm := rfl
@[simp] theorem State.mapRemove_tmu (s : State) (sp : Spec) (g : GroupId) (k : Slot) :
    (s.mapRemove sp g k).tmu = s.tmu := rfl
@[simp] theorem State.mapRemove_hwi (s : State) (sp : Spec) (g : GroupId) (k : Slot) :
    (s.mapRemove sp g k).hwi = s.hwi := rfl
@[simp] theorem State.mapRemove_rsc_parts (s : State) (sp : Spec) (g : GroupId) (k : Slot) :
    (s.mapRemove sp g k).rsc.parts = s.rsc.parts := rfl
@[simp] theorem State.mapRemove_rsc_startPointer (s : State) (sp : Spec) (g : GroupId) (k : Slot) :
    (s.mapRemove sp g k).rsc.startPointer = s.rsc.startPointer := rfl
@[simp] theorem State.mapRemove_rsc_cycleSlot (s : State) (sp : Spec) (g : GroupId) (k : Slot) :
    (s.mapRemove sp g k).rsc.cycleSlot = s.rsc.cycleSlot := rfl
@[simp] theorem State.mapRemove_rsc_slotTimer (s : State) (sp : Spec) (g : GroupId) (k : Slot) :
    (s.mapRemove sp g k).rsc.slotTimer = s.rsc.slotTimer := rfl
@[simp] theorem State.mapRemove_rsc_requests (s : State) (sp : Spec) (g : GroupId) (k : Slot) :
    (s.mapRemove sp g k).rsc.requests = s.rsc.requests := rfl
@[simp] theorem State.line_mapRemove (s : State) (sp : Spec) (g : GroupId) (k : Slot) (m : LineId) :
    (s.mapRemove sp g k).line m = s.line m := rfl
@[simp] theorem State.digits_mapRemove (s : State) (sp : Spec) (g : GroupId) (k : Slot) (m : LineId) :
    (s.mapRemove sp g k).digits m = s.digits m := rfl
@[simp] theorem State.down_mapRemove (s : State) (sp : Spec) (g : GroupId) (k : Slot) (m : LineId) :
    (s.mapRemove sp g k).down m = s.down m := rfl
@[simp] theorem State.up_mapRemove (s : State) (sp : Spec) (g : GroupId) (k : Slot) (m : LineId) :
    (s.mapRemove sp g k).up m = s.up m := rfl
@[simp] theorem State.lByte_mapRemove (s : State) (sp : Spec) (g : GroupId) (k : Slot) (m : LineId) :
    (s.mapRemove sp g k).lByte m = s.lByte m := rfl
@[simp] theorem State.eByte_mapRemove (s : State) (sp : Spec) (g : GroupId) (k : Slot) (m : LineId) :
    (s.mapRemove sp g k).eByte m = s.eByte m := rfl
@[simp] theorem State.callRec_mapRemove (s : State) (sp : Spec) (g : GroupId) (k : Slot) (k1 : CallNo) :
    (s.mapRemove sp g k).callRec k1 = s.callRec k1 := rfl
@[simp] theorem State.callOn_mapRemove (s : State) (sp : Spec) (g : GroupId) (k : Slot) (m : LineId) :
    (s.mapRemove sp g k).callOn m = s.callOn m := rfl
@[simp] theorem State.freeCall_mapRemove (s : State) (sp : Spec) (g : GroupId) (k : Slot) :
    (s.mapRemove sp g k).freeCall = s.freeCall := rfl
@[simp] theorem State.attr_mapRemove (s : State) (sp : Spec) (g : GroupId) (k : Slot) (m : LineId) :
    (s.mapRemove sp g k).attr m = s.attr m := rfl
@[simp] theorem State.party_mapRemove (s : State) (sp : Spec) (g : GroupId) (k : Slot) (m : LineId) (p : PartyId) :
    (s.mapRemove sp g k).party m p = s.party m p := rfl
@[simp] theorem State.specOf_mapRemove (s : State) (sp : Spec) (g : GroupId) (k : Slot) (m : LineId) (p : PartyId) :
    (s.mapRemove sp g k).specOf m p = s.specOf m p := rfl
@[simp] theorem State.cadence_mapRemove (s : State) (sp : Spec) (g : GroupId) (k : Slot) (x : CadenceId) :
    (s.mapRemove sp g k).cadence x = s.cadence x := rfl
@[simp] theorem State.capacity_mapRemove (s : State) (sp : Spec) (g : GroupId) (k : Slot) (x : BusId) :
    (s.mapRemove sp g k).capacity x = s.capacity x := rfl
@[simp] theorem State.exclusion_mapRemove (s : State) (sp : Spec) (g : GroupId) (k : Slot) (x : GroupId) :
    (s.mapRemove sp g k).exclusion x = s.exclusion x := rfl
@[simp] theorem State.timing_mapRemove (s : State) (sp : Spec) (g : GroupId) (k : Slot) :
    (s.mapRemove sp g k).timing = s.timing := rfl
@[simp] theorem State.linked_mapRemove (s : State) (sp : Spec) (g : GroupId) (k : Slot) :
    (s.mapRemove sp g k).linked = s.linked := rfl
@[simp] theorem State.testOn_mapRemove (s : State) (sp : Spec) (g : GroupId) (k : Slot) (m : LineId) :
    (s.mapRemove sp g k).testOn m = s.testOn m := rfl
@[simp] theorem State.part_mapRemove (s : State) (sp : Spec) (g : GroupId) (k : Slot) (k1 : CallNo) :
    (s.mapRemove sp g k).part k1 = s.part k1 := rfl
@[simp] theorem State.waitQueue_mapRemove (s : State) (sp : Spec) (g : GroupId) (k : Slot) :
    (s.mapRemove sp g k).waitQueue = s.waitQueue := rfl
@[simp] theorem State.meter_mapRemove (s : State) (sp : Spec) (g : GroupId) (k : Slot) (x : MeterId) :
    (s.mapRemove sp g k).meter x = s.meter x := rfl

/-! What `setRsc` leaves as it stands. -/

@[simp] theorem State.setRsc_pending (s : State) (r : Rsc) :
    (s.setRsc r).pending = s.pending := rfl
@[simp] theorem State.setRsc_pins (s : State) (r : Rsc) :
    (s.setRsc r).pins = s.pins := rfl
@[simp] theorem State.setRsc_lsv (s : State) (r : Rsc) :
    (s.setRsc r).lsv = s.lsv := rfl
@[simp] theorem State.setRsc_dgu (s : State) (r : Rsc) :
    (s.setRsc r).dgu = s.dgu := rfl
@[simp] theorem State.setRsc_ptb (s : State) (r : Rsc) :
    (s.setRsc r).ptb = s.ptb := rfl
@[simp] theorem State.setRsc_csq (s : State) (r : Rsc) :
    (s.setRsc r).csq = s.csq := rfl
@[simp] theorem State.setRsc_itu (s : State) (r : Rsc) :
    (s.setRsc r).itu = s.itu := rfl
@[simp] theorem State.setRsc_mgp (s : State) (r : Rsc) :
    (s.setRsc r).mgp = s.mgp := rfl
@[simp] theorem State.setRsc_lkm (s : State) (r : Rsc) :
    (s.setRsc r).lkm = s.lkm := rfl
@[simp] theorem State.setRsc_tmu (s : State) (r : Rsc) :
    (s.setRsc r).tmu = s.tmu := rfl
@[simp] theorem State.setRsc_hwi (s : State) (r : Rsc) :
    (s.setRsc r).hwi = s.hwi := rfl
@[simp] theorem State.line_setRsc (s : State) (r : Rsc) (m : LineId) :
    (s.setRsc r).line m = s.line m := rfl
@[simp] theorem State.digits_setRsc (s : State) (r : Rsc) (m : LineId) :
    (s.setRsc r).digits m = s.digits m := rfl
@[simp] theorem State.down_setRsc (s : State) (r : Rsc) (m : LineId) :
    (s.setRsc r).down m = s.down m := rfl
@[simp] theorem State.up_setRsc (s : State) (r : Rsc) (m : LineId) :
    (s.setRsc r).up m = s.up m := rfl
@[simp] theorem State.lByte_setRsc (s : State) (r : Rsc) (m : LineId) :
    (s.setRsc r).lByte m = s.lByte m := rfl
@[simp] theorem State.eByte_setRsc (s : State) (r : Rsc) (m : LineId) :
    (s.setRsc r).eByte m = s.eByte m := rfl
@[simp] theorem State.callRec_setRsc (s : State) (r : Rsc) (k : CallNo) :
    (s.setRsc r).callRec k = s.callRec k := rfl
@[simp] theorem State.callOn_setRsc (s : State) (r : Rsc) (m : LineId) :
    (s.setRsc r).callOn m = s.callOn m := rfl
@[simp] theorem State.freeCall_setRsc (s : State) (r : Rsc) :
    (s.setRsc r).freeCall = s.freeCall := rfl
@[simp] theorem State.attr_setRsc (s : State) (r : Rsc) (m : LineId) :
    (s.setRsc r).attr m = s.attr m := rfl
@[simp] theorem State.party_setRsc (s : State) (r : Rsc) (m : LineId) (p : PartyId) :
    (s.setRsc r).party m p = s.party m p := rfl
@[simp] theorem State.specOf_setRsc (s : State) (r : Rsc) (m : LineId) (p : PartyId) :
    (s.setRsc r).specOf m p = s.specOf m p := rfl
@[simp] theorem State.cadence_setRsc (s : State) (r : Rsc) (x : CadenceId) :
    (s.setRsc r).cadence x = s.cadence x := rfl
@[simp] theorem State.capacity_setRsc (s : State) (r : Rsc) (x : BusId) :
    (s.setRsc r).capacity x = s.capacity x := rfl
@[simp] theorem State.exclusion_setRsc (s : State) (r : Rsc) (x : GroupId) :
    (s.setRsc r).exclusion x = s.exclusion x := rfl
@[simp] theorem State.timing_setRsc (s : State) (r : Rsc) :
    (s.setRsc r).timing = s.timing := rfl
@[simp] theorem State.linked_setRsc (s : State) (r : Rsc) :
    (s.setRsc r).linked = s.linked := rfl
@[simp] theorem State.testOn_setRsc (s : State) (r : Rsc) (m : LineId) :
    (s.setRsc r).testOn m = s.testOn m := rfl
@[simp] theorem State.meter_setRsc (s : State) (r : Rsc) (x : MeterId) :
    (s.setRsc r).meter x = s.meter x := rfl

/-! What `setItu` leaves as it stands. -/

@[simp] theorem State.setItu_pending (s : State) (i : Itu) :
    (s.setItu i).pending = s.pending := rfl
@[simp] theorem State.setItu_pins (s : State) (i : Itu) :
    (s.setItu i).pins = s.pins := rfl
@[simp] theorem State.setItu_lsv (s : State) (i : Itu) :
    (s.setItu i).lsv = s.lsv := rfl
@[simp] theorem State.setItu_dgu (s : State) (i : Itu) :
    (s.setItu i).dgu = s.dgu := rfl
@[simp] theorem State.setItu_ptb (s : State) (i : Itu) :
    (s.setItu i).ptb = s.ptb := rfl
@[simp] theorem State.setItu_csq (s : State) (i : Itu) :
    (s.setItu i).csq = s.csq := rfl
@[simp] theorem State.setItu_mgp (s : State) (i : Itu) :
    (s.setItu i).mgp = s.mgp := rfl
@[simp] theorem State.setItu_lkm (s : State) (i : Itu) :
    (s.setItu i).lkm = s.lkm := rfl
@[simp] theorem State.setItu_tmu (s : State) (i : Itu) :
    (s.setItu i).tmu = s.tmu := rfl
@[simp] theorem State.setItu_hwi (s : State) (i : Itu) :
    (s.setItu i).hwi = s.hwi := rfl
@[simp] theorem State.setItu_rsc (s : State) (i : Itu) :
    (s.setItu i).rsc = s.rsc := rfl
@[simp] theorem State.line_setItu (s : State) (i : Itu) (m : LineId) :
    (s.setItu i).line m = s.line m := rfl
@[simp] theorem State.digits_setItu (s : State) (i : Itu) (m : LineId) :
    (s.setItu i).digits m = s.digits m := rfl
@[simp] theorem State.down_setItu (s : State) (i : Itu) (m : LineId) :
    (s.setItu i).down m = s.down m := rfl
@[simp] theorem State.up_setItu (s : State) (i : Itu) (m : LineId) :
    (s.setItu i).up m = s.up m := rfl
@[simp] theorem State.lByte_setItu (s : State) (i : Itu) (m : LineId) :
    (s.setItu i).lByte m = s.lByte m := rfl
@[simp] theorem State.eByte_setItu (s : State) (i : Itu) (m : LineId) :
    (s.setItu i).eByte m = s.eByte m := rfl
@[simp] theorem State.callRec_setItu (s : State) (i : Itu) (k : CallNo) :
    (s.setItu i).callRec k = s.callRec k := rfl
@[simp] theorem State.callOn_setItu (s : State) (i : Itu) (m : LineId) :
    (s.setItu i).callOn m = s.callOn m := rfl
@[simp] theorem State.freeCall_setItu (s : State) (i : Itu) :
    (s.setItu i).freeCall = s.freeCall := rfl
@[simp] theorem State.attr_setItu (s : State) (i : Itu) (m : LineId) :
    (s.setItu i).attr m = s.attr m := rfl
@[simp] theorem State.party_setItu (s : State) (i : Itu) (m : LineId) (p : PartyId) :
    (s.setItu i).party m p = s.party m p := rfl
@[simp] theorem State.specOf_setItu (s : State) (i : Itu) (m : LineId) (p : PartyId) :
    (s.setItu i).specOf m p = s.specOf m p := rfl
@[simp] theorem State.cadence_setItu (s : State) (i : Itu) (x : CadenceId) :
    (s.setItu i).cadence x = s.cadence x := rfl
@[simp] theorem State.capacity_setItu (s : State) (i : Itu) (x : BusId) :
    (s.setItu i).capacity x = s.capacity x := rfl
@[simp] theorem State.exclusion_setItu (s : State) (i : Itu) (x : GroupId) :
    (s.setItu i).exclusion x = s.exclusion x := rfl
@[simp] theorem State.timing_setItu (s : State) (i : Itu) :
    (s.setItu i).timing = s.timing := rfl
@[simp] theorem State.linked_setItu (s : State) (i : Itu) :
    (s.setItu i).linked = s.linked := rfl
@[simp] theorem State.part_setItu (s : State) (i : Itu) (k : CallNo) :
    (s.setItu i).part k = s.part k := rfl
@[simp] theorem State.waitQueue_setItu (s : State) (i : Itu) :
    (s.setItu i).waitQueue = s.waitQueue := rfl
@[simp] theorem State.meter_setItu (s : State) (i : Itu) (x : MeterId) :
    (s.setItu i).meter x = s.meter x := rfl

/-! What `setLkm` leaves as it stands. -/

@[simp] theorem State.setLkm_pending (s : State) (l : Lkm) :
    (s.setLkm l).pending = s.pending := rfl
@[simp] theorem State.setLkm_pins (s : State) (l : Lkm) :
    (s.setLkm l).pins = s.pins := rfl
@[simp] theorem State.setLkm_lsv (s : State) (l : Lkm) :
    (s.setLkm l).lsv = s.lsv := rfl
@[simp] theorem State.setLkm_dgu (s : State) (l : Lkm) :
    (s.setLkm l).dgu = s.dgu := rfl
@[simp] theorem State.setLkm_ptb (s : State) (l : Lkm) :
    (s.setLkm l).ptb = s.ptb := rfl
@[simp] theorem State.setLkm_csq (s : State) (l : Lkm) :
    (s.setLkm l).csq = s.csq := rfl
@[simp] theorem State.setLkm_itu (s : State) (l : Lkm) :
    (s.setLkm l).itu = s.itu := rfl
@[simp] theorem State.setLkm_mgp (s : State) (l : Lkm) :
    (s.setLkm l).mgp = s.mgp := rfl
@[simp] theorem State.setLkm_tmu (s : State) (l : Lkm) :
    (s.setLkm l).tmu = s.tmu := rfl
@[simp] theorem State.setLkm_hwi (s : State) (l : Lkm) :
    (s.setLkm l).hwi = s.hwi := rfl
@[simp] theorem State.setLkm_rsc (s : State) (l : Lkm) :
    (s.setLkm l).rsc = s.rsc := rfl
@[simp] theorem State.line_setLkm (s : State) (l : Lkm) (m : LineId) :
    (s.setLkm l).line m = s.line m := rfl
@[simp] theorem State.digits_setLkm (s : State) (l : Lkm) (m : LineId) :
    (s.setLkm l).digits m = s.digits m := rfl
@[simp] theorem State.down_setLkm (s : State) (l : Lkm) (m : LineId) :
    (s.setLkm l).down m = s.down m := rfl
@[simp] theorem State.up_setLkm (s : State) (l : Lkm) (m : LineId) :
    (s.setLkm l).up m = s.up m := rfl
@[simp] theorem State.lByte_setLkm (s : State) (l : Lkm) (m : LineId) :
    (s.setLkm l).lByte m = s.lByte m := rfl
@[simp] theorem State.eByte_setLkm (s : State) (l : Lkm) (m : LineId) :
    (s.setLkm l).eByte m = s.eByte m := rfl
@[simp] theorem State.callRec_setLkm (s : State) (l : Lkm) (k : CallNo) :
    (s.setLkm l).callRec k = s.callRec k := rfl
@[simp] theorem State.callOn_setLkm (s : State) (l : Lkm) (m : LineId) :
    (s.setLkm l).callOn m = s.callOn m := rfl
@[simp] theorem State.freeCall_setLkm (s : State) (l : Lkm) :
    (s.setLkm l).freeCall = s.freeCall := rfl
@[simp] theorem State.attr_setLkm (s : State) (l : Lkm) (m : LineId) :
    (s.setLkm l).attr m = s.attr m := rfl
@[simp] theorem State.party_setLkm (s : State) (l : Lkm) (m : LineId) (p : PartyId) :
    (s.setLkm l).party m p = s.party m p := rfl
@[simp] theorem State.specOf_setLkm (s : State) (l : Lkm) (m : LineId) (p : PartyId) :
    (s.setLkm l).specOf m p = s.specOf m p := rfl
@[simp] theorem State.cadence_setLkm (s : State) (l : Lkm) (x : CadenceId) :
    (s.setLkm l).cadence x = s.cadence x := rfl
@[simp] theorem State.capacity_setLkm (s : State) (l : Lkm) (x : BusId) :
    (s.setLkm l).capacity x = s.capacity x := rfl
@[simp] theorem State.exclusion_setLkm (s : State) (l : Lkm) (x : GroupId) :
    (s.setLkm l).exclusion x = s.exclusion x := rfl
@[simp] theorem State.timing_setLkm (s : State) (l : Lkm) :
    (s.setLkm l).timing = s.timing := rfl
@[simp] theorem State.testOn_setLkm (s : State) (l : Lkm) (m : LineId) :
    (s.setLkm l).testOn m = s.testOn m := rfl
@[simp] theorem State.part_setLkm (s : State) (l : Lkm) (k : CallNo) :
    (s.setLkm l).part k = s.part k := rfl
@[simp] theorem State.waitQueue_setLkm (s : State) (l : Lkm) :
    (s.setLkm l).waitQueue = s.waitQueue := rfl
@[simp] theorem State.meter_setLkm (s : State) (l : Lkm) (x : MeterId) :
    (s.setLkm l).meter x = s.meter x := rfl

/-! What `setPtb` leaves as it stands. -/

@[simp] theorem State.setPtb_pending (s : State) (t : Ptb) :
    (s.setPtb t).pending = s.pending := rfl
@[simp] theorem State.setPtb_pins (s : State) (t : Ptb) :
    (s.setPtb t).pins = s.pins := rfl
@[simp] theorem State.setPtb_lsv (s : State) (t : Ptb) :
    (s.setPtb t).lsv = s.lsv := rfl
@[simp] theorem State.setPtb_dgu (s : State) (t : Ptb) :
    (s.setPtb t).dgu = s.dgu := rfl
@[simp] theorem State.setPtb_csq (s : State) (t : Ptb) :
    (s.setPtb t).csq = s.csq := rfl
@[simp] theorem State.setPtb_itu (s : State) (t : Ptb) :
    (s.setPtb t).itu = s.itu := rfl
@[simp] theorem State.setPtb_mgp (s : State) (t : Ptb) :
    (s.setPtb t).mgp = s.mgp := rfl
@[simp] theorem State.setPtb_lkm (s : State) (t : Ptb) :
    (s.setPtb t).lkm = s.lkm := rfl
@[simp] theorem State.setPtb_tmu (s : State) (t : Ptb) :
    (s.setPtb t).tmu = s.tmu := rfl
@[simp] theorem State.setPtb_hwi (s : State) (t : Ptb) :
    (s.setPtb t).hwi = s.hwi := rfl
@[simp] theorem State.setPtb_rsc (s : State) (t : Ptb) :
    (s.setPtb t).rsc = s.rsc := rfl
@[simp] theorem State.line_setPtb (s : State) (t : Ptb) (m : LineId) :
    (s.setPtb t).line m = s.line m := rfl
@[simp] theorem State.digits_setPtb (s : State) (t : Ptb) (m : LineId) :
    (s.setPtb t).digits m = s.digits m := rfl
@[simp] theorem State.down_setPtb (s : State) (t : Ptb) (m : LineId) :
    (s.setPtb t).down m = s.down m := rfl
@[simp] theorem State.up_setPtb (s : State) (t : Ptb) (m : LineId) :
    (s.setPtb t).up m = s.up m := rfl
@[simp] theorem State.lByte_setPtb (s : State) (t : Ptb) (m : LineId) :
    (s.setPtb t).lByte m = s.lByte m := rfl
@[simp] theorem State.eByte_setPtb (s : State) (t : Ptb) (m : LineId) :
    (s.setPtb t).eByte m = s.eByte m := rfl
@[simp] theorem State.callRec_setPtb (s : State) (t : Ptb) (k : CallNo) :
    (s.setPtb t).callRec k = s.callRec k := rfl
@[simp] theorem State.callOn_setPtb (s : State) (t : Ptb) (m : LineId) :
    (s.setPtb t).callOn m = s.callOn m := rfl
@[simp] theorem State.freeCall_setPtb (s : State) (t : Ptb) :
    (s.setPtb t).freeCall = s.freeCall := rfl
@[simp] theorem State.linked_setPtb (s : State) (t : Ptb) :
    (s.setPtb t).linked = s.linked := rfl
@[simp] theorem State.testOn_setPtb (s : State) (t : Ptb) (m : LineId) :
    (s.setPtb t).testOn m = s.testOn m := rfl
@[simp] theorem State.part_setPtb (s : State) (t : Ptb) (k : CallNo) :
    (s.setPtb t).part k = s.part k := rfl
@[simp] theorem State.waitQueue_setPtb (s : State) (t : Ptb) :
    (s.setPtb t).waitQueue = s.waitQueue := rfl
@[simp] theorem State.meter_setPtb (s : State) (t : Ptb) (x : MeterId) :
    (s.setPtb t).meter x = s.meter x := rfl

/-! What `setTmu` leaves as it stands. -/

@[simp] theorem State.setTmu_pending (s : State) (t : Tmu) :
    (s.setTmu t).pending = s.pending := rfl
@[simp] theorem State.setTmu_pins (s : State) (t : Tmu) :
    (s.setTmu t).pins = s.pins := rfl
@[simp] theorem State.setTmu_lsv (s : State) (t : Tmu) :
    (s.setTmu t).lsv = s.lsv := rfl
@[simp] theorem State.setTmu_dgu (s : State) (t : Tmu) :
    (s.setTmu t).dgu = s.dgu := rfl
@[simp] theorem State.setTmu_ptb (s : State) (t : Tmu) :
    (s.setTmu t).ptb = s.ptb := rfl
@[simp] theorem State.setTmu_csq (s : State) (t : Tmu) :
    (s.setTmu t).csq = s.csq := rfl
@[simp] theorem State.setTmu_itu (s : State) (t : Tmu) :
    (s.setTmu t).itu = s.itu := rfl
@[simp] theorem State.setTmu_mgp (s : State) (t : Tmu) :
    (s.setTmu t).mgp = s.mgp := rfl
@[simp] theorem State.setTmu_lkm (s : State) (t : Tmu) :
    (s.setTmu t).lkm = s.lkm := rfl
@[simp] theorem State.setTmu_hwi (s : State) (t : Tmu) :
    (s.setTmu t).hwi = s.hwi := rfl
@[simp] theorem State.setTmu_rsc (s : State) (t : Tmu) :
    (s.setTmu t).rsc = s.rsc := rfl
@[simp] theorem State.line_setTmu (s : State) (t : Tmu) (m : LineId) :
    (s.setTmu t).line m = s.line m := rfl
@[simp] theorem State.digits_setTmu (s : State) (t : Tmu) (m : LineId) :
    (s.setTmu t).digits m = s.digits m := rfl
@[simp] theorem State.down_setTmu (s : State) (t : Tmu) (m : LineId) :
    (s.setTmu t).down m = s.down m := rfl
@[simp] theorem State.up_setTmu (s : State) (t : Tmu) (m : LineId) :
    (s.setTmu t).up m = s.up m := rfl
@[simp] theorem State.lByte_setTmu (s : State) (t : Tmu) (m : LineId) :
    (s.setTmu t).lByte m = s.lByte m := rfl
@[simp] theorem State.eByte_setTmu (s : State) (t : Tmu) (m : LineId) :
    (s.setTmu t).eByte m = s.eByte m := rfl
@[simp] theorem State.callRec_setTmu (s : State) (t : Tmu) (k : CallNo) :
    (s.setTmu t).callRec k = s.callRec k := rfl
@[simp] theorem State.callOn_setTmu (s : State) (t : Tmu) (m : LineId) :
    (s.setTmu t).callOn m = s.callOn m := rfl
@[simp] theorem State.freeCall_setTmu (s : State) (t : Tmu) :
    (s.setTmu t).freeCall = s.freeCall := rfl
@[simp] theorem State.attr_setTmu (s : State) (t : Tmu) (m : LineId) :
    (s.setTmu t).attr m = s.attr m := rfl
@[simp] theorem State.party_setTmu (s : State) (t : Tmu) (m : LineId) (p : PartyId) :
    (s.setTmu t).party m p = s.party m p := rfl
@[simp] theorem State.specOf_setTmu (s : State) (t : Tmu) (m : LineId) (p : PartyId) :
    (s.setTmu t).specOf m p = s.specOf m p := rfl
@[simp] theorem State.cadence_setTmu (s : State) (t : Tmu) (x : CadenceId) :
    (s.setTmu t).cadence x = s.cadence x := rfl
@[simp] theorem State.capacity_setTmu (s : State) (t : Tmu) (x : BusId) :
    (s.setTmu t).capacity x = s.capacity x := rfl
@[simp] theorem State.exclusion_setTmu (s : State) (t : Tmu) (x : GroupId) :
    (s.setTmu t).exclusion x = s.exclusion x := rfl
@[simp] theorem State.timing_setTmu (s : State) (t : Tmu) :
    (s.setTmu t).timing = s.timing := rfl
@[simp] theorem State.linked_setTmu (s : State) (t : Tmu) :
    (s.setTmu t).linked = s.linked := rfl
@[simp] theorem State.testOn_setTmu (s : State) (t : Tmu) (m : LineId) :
    (s.setTmu t).testOn m = s.testOn m := rfl
@[simp] theorem State.part_setTmu (s : State) (t : Tmu) (k : CallNo) :
    (s.setTmu t).part k = s.part k := rfl
@[simp] theorem State.waitQueue_setTmu (s : State) (t : Tmu) :
    (s.setTmu t).waitQueue = s.waitQueue := rfl

/-! What `setMgp` leaves as it stands. -/

@[simp] theorem State.setMgp_pending (s : State) (m : Mgp) :
    (s.setMgp m).pending = s.pending := rfl
@[simp] theorem State.setMgp_pins (s : State) (m : Mgp) :
    (s.setMgp m).pins = s.pins := rfl
@[simp] theorem State.setMgp_lsv (s : State) (m : Mgp) :
    (s.setMgp m).lsv = s.lsv := rfl
@[simp] theorem State.setMgp_dgu (s : State) (m : Mgp) :
    (s.setMgp m).dgu = s.dgu := rfl
@[simp] theorem State.setMgp_ptb (s : State) (m : Mgp) :
    (s.setMgp m).ptb = s.ptb := rfl
@[simp] theorem State.setMgp_csq (s : State) (m : Mgp) :
    (s.setMgp m).csq = s.csq := rfl
@[simp] theorem State.setMgp_itu (s : State) (m : Mgp) :
    (s.setMgp m).itu = s.itu := rfl
@[simp] theorem State.setMgp_lkm (s : State) (m : Mgp) :
    (s.setMgp m).lkm = s.lkm := rfl
@[simp] theorem State.setMgp_tmu (s : State) (m : Mgp) :
    (s.setMgp m).tmu = s.tmu := rfl
@[simp] theorem State.setMgp_hwi (s : State) (m : Mgp) :
    (s.setMgp m).hwi = s.hwi := rfl
@[simp] theorem State.setMgp_rsc (s : State) (m : Mgp) :
    (s.setMgp m).rsc = s.rsc := rfl
@[simp] theorem State.line_setMgp (s : State) (m : Mgp) (m1 : LineId) :
    (s.setMgp m).line m1 = s.line m1 := rfl
@[simp] theorem State.digits_setMgp (s : State) (m : Mgp) (m1 : LineId) :
    (s.setMgp m).digits m1 = s.digits m1 := rfl
@[simp] theorem State.down_setMgp (s : State) (m : Mgp) (m1 : LineId) :
    (s.setMgp m).down m1 = s.down m1 := rfl
@[simp] theorem State.up_setMgp (s : State) (m : Mgp) (m1 : LineId) :
    (s.setMgp m).up m1 = s.up m1 := rfl
@[simp] theorem State.lByte_setMgp (s : State) (m : Mgp) (m1 : LineId) :
    (s.setMgp m).lByte m1 = s.lByte m1 := rfl
@[simp] theorem State.eByte_setMgp (s : State) (m : Mgp) (m1 : LineId) :
    (s.setMgp m).eByte m1 = s.eByte m1 := rfl
@[simp] theorem State.callRec_setMgp (s : State) (m : Mgp) (k : CallNo) :
    (s.setMgp m).callRec k = s.callRec k := rfl
@[simp] theorem State.callOn_setMgp (s : State) (m : Mgp) (m1 : LineId) :
    (s.setMgp m).callOn m1 = s.callOn m1 := rfl
@[simp] theorem State.freeCall_setMgp (s : State) (m : Mgp) :
    (s.setMgp m).freeCall = s.freeCall := rfl
@[simp] theorem State.attr_setMgp (s : State) (m : Mgp) (m1 : LineId) :
    (s.setMgp m).attr m1 = s.attr m1 := rfl
@[simp] theorem State.party_setMgp (s : State) (m : Mgp) (m1 : LineId) (p : PartyId) :
    (s.setMgp m).party m1 p = s.party m1 p := rfl
@[simp] theorem State.specOf_setMgp (s : State) (m : Mgp) (m1 : LineId) (p : PartyId) :
    (s.setMgp m).specOf m1 p = s.specOf m1 p := rfl
@[simp] theorem State.cadence_setMgp (s : State) (m : Mgp) (x : CadenceId) :
    (s.setMgp m).cadence x = s.cadence x := rfl
@[simp] theorem State.capacity_setMgp (s : State) (m : Mgp) (x : BusId) :
    (s.setMgp m).capacity x = s.capacity x := rfl
@[simp] theorem State.exclusion_setMgp (s : State) (m : Mgp) (x : GroupId) :
    (s.setMgp m).exclusion x = s.exclusion x := rfl
@[simp] theorem State.timing_setMgp (s : State) (m : Mgp) :
    (s.setMgp m).timing = s.timing := rfl
@[simp] theorem State.linked_setMgp (s : State) (m : Mgp) :
    (s.setMgp m).linked = s.linked := rfl
@[simp] theorem State.testOn_setMgp (s : State) (m : Mgp) (m1 : LineId) :
    (s.setMgp m).testOn m1 = s.testOn m1 := rfl
@[simp] theorem State.part_setMgp (s : State) (m : Mgp) (k : CallNo) :
    (s.setMgp m).part k = s.part k := rfl
@[simp] theorem State.waitQueue_setMgp (s : State) (m : Mgp) :
    (s.setMgp m).waitQueue = s.waitQueue := rfl
@[simp] theorem State.meter_setMgp (s : State) (m : Mgp) (x : MeterId) :
    (s.setMgp m).meter x = s.meter x := rfl

/-! What `setHwi` leaves as it stands. -/

@[simp] theorem State.setHwi_pending (s : State) (h : Hwi) :
    (s.setHwi h).pending = s.pending := rfl
@[simp] theorem State.setHwi_pins (s : State) (h : Hwi) :
    (s.setHwi h).pins = s.pins := rfl
@[simp] theorem State.setHwi_lsv (s : State) (h : Hwi) :
    (s.setHwi h).lsv = s.lsv := rfl
@[simp] theorem State.setHwi_dgu (s : State) (h : Hwi) :
    (s.setHwi h).dgu = s.dgu := rfl
@[simp] theorem State.setHwi_ptb (s : State) (h : Hwi) :
    (s.setHwi h).ptb = s.ptb := rfl
@[simp] theorem State.setHwi_csq (s : State) (h : Hwi) :
    (s.setHwi h).csq = s.csq := rfl
@[simp] theorem State.setHwi_itu (s : State) (h : Hwi) :
    (s.setHwi h).itu = s.itu := rfl
@[simp] theorem State.setHwi_mgp (s : State) (h : Hwi) :
    (s.setHwi h).mgp = s.mgp := rfl
@[simp] theorem State.setHwi_lkm (s : State) (h : Hwi) :
    (s.setHwi h).lkm = s.lkm := rfl
@[simp] theorem State.setHwi_tmu (s : State) (h : Hwi) :
    (s.setHwi h).tmu = s.tmu := rfl
@[simp] theorem State.setHwi_rsc (s : State) (h : Hwi) :
    (s.setHwi h).rsc = s.rsc := rfl
@[simp] theorem State.line_setHwi (s : State) (h : Hwi) (m : LineId) :
    (s.setHwi h).line m = s.line m := rfl
@[simp] theorem State.digits_setHwi (s : State) (h : Hwi) (m : LineId) :
    (s.setHwi h).digits m = s.digits m := rfl
@[simp] theorem State.callRec_setHwi (s : State) (h : Hwi) (k : CallNo) :
    (s.setHwi h).callRec k = s.callRec k := rfl
@[simp] theorem State.callOn_setHwi (s : State) (h : Hwi) (m : LineId) :
    (s.setHwi h).callOn m = s.callOn m := rfl
@[simp] theorem State.freeCall_setHwi (s : State) (h : Hwi) :
    (s.setHwi h).freeCall = s.freeCall := rfl
@[simp] theorem State.attr_setHwi (s : State) (h : Hwi) (m : LineId) :
    (s.setHwi h).attr m = s.attr m := rfl
@[simp] theorem State.party_setHwi (s : State) (h : Hwi) (m : LineId) (p : PartyId) :
    (s.setHwi h).party m p = s.party m p := rfl
@[simp] theorem State.specOf_setHwi (s : State) (h : Hwi) (m : LineId) (p : PartyId) :
    (s.setHwi h).specOf m p = s.specOf m p := rfl
@[simp] theorem State.cadence_setHwi (s : State) (h : Hwi) (x : CadenceId) :
    (s.setHwi h).cadence x = s.cadence x := rfl
@[simp] theorem State.capacity_setHwi (s : State) (h : Hwi) (x : BusId) :
    (s.setHwi h).capacity x = s.capacity x := rfl
@[simp] theorem State.exclusion_setHwi (s : State) (h : Hwi) (x : GroupId) :
    (s.setHwi h).exclusion x = s.exclusion x := rfl
@[simp] theorem State.timing_setHwi (s : State) (h : Hwi) :
    (s.setHwi h).timing = s.timing := rfl
@[simp] theorem State.linked_setHwi (s : State) (h : Hwi) :
    (s.setHwi h).linked = s.linked := rfl
@[simp] theorem State.testOn_setHwi (s : State) (h : Hwi) (m : LineId) :
    (s.setHwi h).testOn m = s.testOn m := rfl
@[simp] theorem State.part_setHwi (s : State) (h : Hwi) (k : CallNo) :
    (s.setHwi h).part k = s.part k := rfl
@[simp] theorem State.waitQueue_setHwi (s : State) (h : Hwi) :
    (s.setHwi h).waitQueue = s.waitQueue := rfl
@[simp] theorem State.meter_setHwi (s : State) (h : Hwi) (x : MeterId) :
    (s.setHwi h).meter x = s.meter x := rfl

/-! What `modCounters` leaves as it stands. -/

@[simp] theorem State.modCounters_pending (s : State) (f : Counters → Counters) :
    (s.modCounters f).pending = s.pending := rfl
@[simp] theorem State.modCounters_pins (s : State) (f : Counters → Counters) :
    (s.modCounters f).pins = s.pins := rfl
@[simp] theorem State.modCounters_lsv (s : State) (f : Counters → Counters) :
    (s.modCounters f).lsv = s.lsv := rfl
@[simp] theorem State.modCounters_dgu (s : State) (f : Counters → Counters) :
    (s.modCounters f).dgu = s.dgu := rfl
@[simp] theorem State.modCounters_ptb (s : State) (f : Counters → Counters) :
    (s.modCounters f).ptb = s.ptb := rfl
@[simp] theorem State.modCounters_csq (s : State) (f : Counters → Counters) :
    (s.modCounters f).csq = s.csq := rfl
@[simp] theorem State.modCounters_itu (s : State) (f : Counters → Counters) :
    (s.modCounters f).itu = s.itu := rfl
@[simp] theorem State.modCounters_lkm (s : State) (f : Counters → Counters) :
    (s.modCounters f).lkm = s.lkm := rfl
@[simp] theorem State.modCounters_tmu (s : State) (f : Counters → Counters) :
    (s.modCounters f).tmu = s.tmu := rfl
@[simp] theorem State.modCounters_hwi (s : State) (f : Counters → Counters) :
    (s.modCounters f).hwi = s.hwi := rfl
@[simp] theorem State.modCounters_rsc (s : State) (f : Counters → Counters) :
    (s.modCounters f).rsc = s.rsc := rfl
@[simp] theorem State.line_modCounters (s : State) (f : Counters → Counters) (m : LineId) :
    (s.modCounters f).line m = s.line m := rfl
@[simp] theorem State.digits_modCounters (s : State) (f : Counters → Counters) (m : LineId) :
    (s.modCounters f).digits m = s.digits m := rfl
@[simp] theorem State.down_modCounters (s : State) (f : Counters → Counters) (m : LineId) :
    (s.modCounters f).down m = s.down m := rfl
@[simp] theorem State.up_modCounters (s : State) (f : Counters → Counters) (m : LineId) :
    (s.modCounters f).up m = s.up m := rfl
@[simp] theorem State.lByte_modCounters (s : State) (f : Counters → Counters) (m : LineId) :
    (s.modCounters f).lByte m = s.lByte m := rfl
@[simp] theorem State.eByte_modCounters (s : State) (f : Counters → Counters) (m : LineId) :
    (s.modCounters f).eByte m = s.eByte m := rfl
@[simp] theorem State.callRec_modCounters (s : State) (f : Counters → Counters) (k : CallNo) :
    (s.modCounters f).callRec k = s.callRec k := rfl
@[simp] theorem State.callOn_modCounters (s : State) (f : Counters → Counters) (m : LineId) :
    (s.modCounters f).callOn m = s.callOn m := rfl
@[simp] theorem State.freeCall_modCounters (s : State) (f : Counters → Counters) :
    (s.modCounters f).freeCall = s.freeCall := rfl
@[simp] theorem State.attr_modCounters (s : State) (f : Counters → Counters) (m : LineId) :
    (s.modCounters f).attr m = s.attr m := rfl
@[simp] theorem State.party_modCounters (s : State) (f : Counters → Counters) (m : LineId) (p : PartyId) :
    (s.modCounters f).party m p = s.party m p := rfl
@[simp] theorem State.specOf_modCounters (s : State) (f : Counters → Counters) (m : LineId) (p : PartyId) :
    (s.modCounters f).specOf m p = s.specOf m p := rfl
@[simp] theorem State.cadence_modCounters (s : State) (f : Counters → Counters) (x : CadenceId) :
    (s.modCounters f).cadence x = s.cadence x := rfl
@[simp] theorem State.capacity_modCounters (s : State) (f : Counters → Counters) (x : BusId) :
    (s.modCounters f).capacity x = s.capacity x := rfl
@[simp] theorem State.exclusion_modCounters (s : State) (f : Counters → Counters) (x : GroupId) :
    (s.modCounters f).exclusion x = s.exclusion x := rfl
@[simp] theorem State.timing_modCounters (s : State) (f : Counters → Counters) :
    (s.modCounters f).timing = s.timing := rfl
@[simp] theorem State.linked_modCounters (s : State) (f : Counters → Counters) :
    (s.modCounters f).linked = s.linked := rfl
@[simp] theorem State.testOn_modCounters (s : State) (f : Counters → Counters) (m : LineId) :
    (s.modCounters f).testOn m = s.testOn m := rfl
@[simp] theorem State.part_modCounters (s : State) (f : Counters → Counters) (k : CallNo) :
    (s.modCounters f).part k = s.part k := rfl
@[simp] theorem State.waitQueue_modCounters (s : State) (f : Counters → Counters) :
    (s.modCounters f).waitQueue = s.waitQueue := rfl
@[simp] theorem State.meter_modCounters (s : State) (f : Counters → Counters) (x : MeterId) :
    (s.modCounters f).meter x = s.meter x := rfl

/-! What `peg` leaves as it stands. -/

@[simp] theorem State.peg_pending (s : State) (e : PegEvent) (l : Option LineId) :
    (s.peg e l).pending = s.pending := by simp only [State.peg]
@[simp] theorem State.peg_pins (s : State) (e : PegEvent) (l : Option LineId) :
    (s.peg e l).pins = s.pins := by simp only [State.peg]
@[simp] theorem State.peg_lsv (s : State) (e : PegEvent) (l : Option LineId) :
    (s.peg e l).lsv = s.lsv := by simp only [State.peg]
@[simp] theorem State.peg_dgu (s : State) (e : PegEvent) (l : Option LineId) :
    (s.peg e l).dgu = s.dgu := by simp only [State.peg]
@[simp] theorem State.peg_ptb (s : State) (e : PegEvent) (l : Option LineId) :
    (s.peg e l).ptb = s.ptb := by simp only [State.peg]
@[simp] theorem State.peg_csq (s : State) (e : PegEvent) (l : Option LineId) :
    (s.peg e l).csq = s.csq := by simp only [State.peg]
@[simp] theorem State.peg_itu (s : State) (e : PegEvent) (l : Option LineId) :
    (s.peg e l).itu = s.itu := by simp only [State.peg]
@[simp] theorem State.peg_lkm (s : State) (e : PegEvent) (l : Option LineId) :
    (s.peg e l).lkm = s.lkm := by simp only [State.peg]
@[simp] theorem State.peg_hwi (s : State) (e : PegEvent) (l : Option LineId) :
    (s.peg e l).hwi = s.hwi := by simp only [State.peg]
@[simp] theorem State.peg_rsc (s : State) (e : PegEvent) (l : Option LineId) :
    (s.peg e l).rsc = s.rsc := by simp only [State.peg]
@[simp] theorem State.line_peg (s : State) (e : PegEvent) (l : Option LineId) (m : LineId) :
    (s.peg e l).line m = s.line m := by simp only [State.peg, State.line]
@[simp] theorem State.digits_peg (s : State) (e : PegEvent) (l : Option LineId) (m : LineId) :
    (s.peg e l).digits m = s.digits m := by simp only [State.peg, State.digits]
@[simp] theorem State.down_peg (s : State) (e : PegEvent) (l : Option LineId) (m : LineId) :
    (s.peg e l).down m = s.down m := by simp only [State.peg, State.down]
@[simp] theorem State.up_peg (s : State) (e : PegEvent) (l : Option LineId) (m : LineId) :
    (s.peg e l).up m = s.up m := by simp only [State.peg, State.up]
@[simp] theorem State.lByte_peg (s : State) (e : PegEvent) (l : Option LineId) (m : LineId) :
    (s.peg e l).lByte m = s.lByte m := by simp only [State.peg, State.lByte]
@[simp] theorem State.eByte_peg (s : State) (e : PegEvent) (l : Option LineId) (m : LineId) :
    (s.peg e l).eByte m = s.eByte m := by simp only [State.peg, State.eByte]
@[simp] theorem State.callRec_peg (s : State) (e : PegEvent) (l : Option LineId) (k : CallNo) :
    (s.peg e l).callRec k = s.callRec k := by simp only [State.peg, State.callRec]
@[simp] theorem State.callOn_peg (s : State) (e : PegEvent) (l : Option LineId) (m : LineId) :
    (s.peg e l).callOn m = s.callOn m := by simp only [State.peg, State.callOn, State.callRec]
@[simp] theorem State.freeCall_peg (s : State) (e : PegEvent) (l : Option LineId) :
    (s.peg e l).freeCall = s.freeCall := by simp only [State.peg, State.freeCall, State.callRec]
@[simp] theorem State.attr_peg (s : State) (e : PegEvent) (l : Option LineId) (m : LineId) :
    (s.peg e l).attr m = s.attr m := by simp only [State.peg, State.attr]
@[simp] theorem State.party_peg (s : State) (e : PegEvent) (l : Option LineId) (m : LineId) (p : PartyId) :
    (s.peg e l).party m p = s.party m p := by simp only [State.peg, State.party]
@[simp] theorem State.specOf_peg (s : State) (e : PegEvent) (l : Option LineId) (m : LineId) (p : PartyId) :
    (s.peg e l).specOf m p = s.specOf m p := by simp only [State.peg, State.specOf, State.party]
@[simp] theorem State.cadence_peg (s : State) (e : PegEvent) (l : Option LineId) (x : CadenceId) :
    (s.peg e l).cadence x = s.cadence x := by simp only [State.peg, State.cadence]
@[simp] theorem State.capacity_peg (s : State) (e : PegEvent) (l : Option LineId) (x : BusId) :
    (s.peg e l).capacity x = s.capacity x := by simp only [State.peg, State.capacity]
@[simp] theorem State.exclusion_peg (s : State) (e : PegEvent) (l : Option LineId) (x : GroupId) :
    (s.peg e l).exclusion x = s.exclusion x := by simp only [State.peg, State.exclusion]
@[simp] theorem State.timing_peg (s : State) (e : PegEvent) (l : Option LineId) :
    (s.peg e l).timing = s.timing := by simp only [State.peg, State.timing]
@[simp] theorem State.linked_peg (s : State) (e : PegEvent) (l : Option LineId) :
    (s.peg e l).linked = s.linked := by simp only [State.peg, State.linked]
@[simp] theorem State.testOn_peg (s : State) (e : PegEvent) (l : Option LineId) (m : LineId) :
    (s.peg e l).testOn m = s.testOn m := by simp only [State.peg, State.testOn]
@[simp] theorem State.part_peg (s : State) (e : PegEvent) (l : Option LineId) (k : CallNo) :
    (s.peg e l).part k = s.part k := by simp only [State.peg, State.part]
@[simp] theorem State.waitQueue_peg (s : State) (e : PegEvent) (l : Option LineId) :
    (s.peg e l).waitQueue = s.waitQueue := by simp only [State.peg, State.waitQueue]

/-! What `notify` leaves as it stands. -/

@[simp] theorem State.notify_pending (s : State) (x : Notice) :
    (s.notify x).pending = s.pending := by simp only [State.notify]
@[simp] theorem State.notify_pins (s : State) (x : Notice) :
    (s.notify x).pins = s.pins := by simp only [State.notify]
@[simp] theorem State.notify_lsv (s : State) (x : Notice) :
    (s.notify x).lsv = s.lsv := by simp only [State.notify]
@[simp] theorem State.notify_dgu (s : State) (x : Notice) :
    (s.notify x).dgu = s.dgu := by simp only [State.notify]
@[simp] theorem State.notify_ptb (s : State) (x : Notice) :
    (s.notify x).ptb = s.ptb := by simp only [State.notify]
@[simp] theorem State.notify_csq (s : State) (x : Notice) :
    (s.notify x).csq = s.csq := by simp only [State.notify]
@[simp] theorem State.notify_itu (s : State) (x : Notice) :
    (s.notify x).itu = s.itu := by simp only [State.notify]
@[simp] theorem State.notify_lkm (s : State) (x : Notice) :
    (s.notify x).lkm = s.lkm := by simp only [State.notify]
@[simp] theorem State.notify_hwi (s : State) (x : Notice) :
    (s.notify x).hwi = s.hwi := by simp only [State.notify]
@[simp] theorem State.notify_rsc (s : State) (x : Notice) :
    (s.notify x).rsc = s.rsc := by simp only [State.notify]
@[simp] theorem State.line_notify (s : State) (x : Notice) (m : LineId) :
    (s.notify x).line m = s.line m := by simp only [State.notify, State.line]
@[simp] theorem State.digits_notify (s : State) (x : Notice) (m : LineId) :
    (s.notify x).digits m = s.digits m := by simp only [State.notify, State.digits]
@[simp] theorem State.down_notify (s : State) (x : Notice) (m : LineId) :
    (s.notify x).down m = s.down m := by simp only [State.notify, State.down]
@[simp] theorem State.up_notify (s : State) (x : Notice) (m : LineId) :
    (s.notify x).up m = s.up m := by simp only [State.notify, State.up]
@[simp] theorem State.lByte_notify (s : State) (x : Notice) (m : LineId) :
    (s.notify x).lByte m = s.lByte m := by simp only [State.notify, State.lByte]
@[simp] theorem State.eByte_notify (s : State) (x : Notice) (m : LineId) :
    (s.notify x).eByte m = s.eByte m := by simp only [State.notify, State.eByte]
@[simp] theorem State.callRec_notify (s : State) (x : Notice) (k : CallNo) :
    (s.notify x).callRec k = s.callRec k := by simp only [State.notify, State.callRec]
@[simp] theorem State.callOn_notify (s : State) (x : Notice) (m : LineId) :
    (s.notify x).callOn m = s.callOn m := by simp only [State.notify, State.callOn, State.callRec]
@[simp] theorem State.freeCall_notify (s : State) (x : Notice) :
    (s.notify x).freeCall = s.freeCall := by simp only [State.notify, State.freeCall, State.callRec]
@[simp] theorem State.attr_notify (s : State) (x : Notice) (m : LineId) :
    (s.notify x).attr m = s.attr m := by simp only [State.notify, State.attr]
@[simp] theorem State.party_notify (s : State) (x : Notice) (m : LineId) (p : PartyId) :
    (s.notify x).party m p = s.party m p := by simp only [State.notify, State.party]
@[simp] theorem State.specOf_notify (s : State) (x : Notice) (m : LineId) (p : PartyId) :
    (s.notify x).specOf m p = s.specOf m p := by simp only [State.notify, State.specOf, State.party]
@[simp] theorem State.cadence_notify (s : State) (x : Notice) (x1 : CadenceId) :
    (s.notify x).cadence x1 = s.cadence x1 := by simp only [State.notify, State.cadence]
@[simp] theorem State.capacity_notify (s : State) (x : Notice) (x1 : BusId) :
    (s.notify x).capacity x1 = s.capacity x1 := by simp only [State.notify, State.capacity]
@[simp] theorem State.exclusion_notify (s : State) (x : Notice) (x1 : GroupId) :
    (s.notify x).exclusion x1 = s.exclusion x1 := by simp only [State.notify, State.exclusion]
@[simp] theorem State.timing_notify (s : State) (x : Notice) :
    (s.notify x).timing = s.timing := by simp only [State.notify, State.timing]
@[simp] theorem State.linked_notify (s : State) (x : Notice) :
    (s.notify x).linked = s.linked := by simp only [State.notify, State.linked]
@[simp] theorem State.testOn_notify (s : State) (x : Notice) (m : LineId) :
    (s.notify x).testOn m = s.testOn m := by simp only [State.notify, State.testOn]
@[simp] theorem State.part_notify (s : State) (x : Notice) (k : CallNo) :
    (s.notify x).part k = s.part k := by simp only [State.notify, State.part]
@[simp] theorem State.waitQueue_notify (s : State) (x : Notice) :
    (s.notify x).waitQueue = s.waitQueue := by simp only [State.notify, State.waitQueue]

/-! What `raise` leaves as it stands. -/

@[simp] theorem State.raise_pending (s : State) (i : MeterId) :
    (s.raise i).pending = s.pending := by simp only [State.raise]
@[simp] theorem State.raise_pins (s : State) (i : MeterId) :
    (s.raise i).pins = s.pins := by simp only [State.raise]
@[simp] theorem State.raise_lsv (s : State) (i : MeterId) :
    (s.raise i).lsv = s.lsv := by simp only [State.raise]
@[simp] theorem State.raise_dgu (s : State) (i : MeterId) :
    (s.raise i).dgu = s.dgu := by simp only [State.raise]
@[simp] theorem State.raise_ptb (s : State) (i : MeterId) :
    (s.raise i).ptb = s.ptb := by simp only [State.raise]
@[simp] theorem State.raise_csq (s : State) (i : MeterId) :
    (s.raise i).csq = s.csq := by simp only [State.raise]
@[simp] theorem State.raise_itu (s : State) (i : MeterId) :
    (s.raise i).itu = s.itu := by simp only [State.raise]
@[simp] theorem State.raise_lkm (s : State) (i : MeterId) :
    (s.raise i).lkm = s.lkm := by simp only [State.raise]
@[simp] theorem State.raise_hwi (s : State) (i : MeterId) :
    (s.raise i).hwi = s.hwi := by simp only [State.raise]
@[simp] theorem State.raise_rsc (s : State) (i : MeterId) :
    (s.raise i).rsc = s.rsc := by simp only [State.raise]
@[simp] theorem State.line_raise (s : State) (i : MeterId) (m : LineId) :
    (s.raise i).line m = s.line m := by simp only [State.raise, State.line]
@[simp] theorem State.digits_raise (s : State) (i : MeterId) (m : LineId) :
    (s.raise i).digits m = s.digits m := by simp only [State.raise, State.digits]
@[simp] theorem State.down_raise (s : State) (i : MeterId) (m : LineId) :
    (s.raise i).down m = s.down m := by simp only [State.raise, State.down]
@[simp] theorem State.up_raise (s : State) (i : MeterId) (m : LineId) :
    (s.raise i).up m = s.up m := by simp only [State.raise, State.up]
@[simp] theorem State.lByte_raise (s : State) (i : MeterId) (m : LineId) :
    (s.raise i).lByte m = s.lByte m := by simp only [State.raise, State.lByte]
@[simp] theorem State.eByte_raise (s : State) (i : MeterId) (m : LineId) :
    (s.raise i).eByte m = s.eByte m := by simp only [State.raise, State.eByte]
@[simp] theorem State.callRec_raise (s : State) (i : MeterId) (k : CallNo) :
    (s.raise i).callRec k = s.callRec k := by simp only [State.raise, State.callRec]
@[simp] theorem State.callOn_raise (s : State) (i : MeterId) (m : LineId) :
    (s.raise i).callOn m = s.callOn m := by simp only [State.raise, State.callOn, State.callRec]
@[simp] theorem State.freeCall_raise (s : State) (i : MeterId) :
    (s.raise i).freeCall = s.freeCall := by simp only [State.raise, State.freeCall, State.callRec]
@[simp] theorem State.attr_raise (s : State) (i : MeterId) (m : LineId) :
    (s.raise i).attr m = s.attr m := by simp only [State.raise, State.attr]
@[simp] theorem State.party_raise (s : State) (i : MeterId) (m : LineId) (p : PartyId) :
    (s.raise i).party m p = s.party m p := by simp only [State.raise, State.party]
@[simp] theorem State.specOf_raise (s : State) (i : MeterId) (m : LineId) (p : PartyId) :
    (s.raise i).specOf m p = s.specOf m p := by simp only [State.raise, State.specOf, State.party]
@[simp] theorem State.cadence_raise (s : State) (i : MeterId) (x : CadenceId) :
    (s.raise i).cadence x = s.cadence x := by simp only [State.raise, State.cadence]
@[simp] theorem State.capacity_raise (s : State) (i : MeterId) (x : BusId) :
    (s.raise i).capacity x = s.capacity x := by simp only [State.raise, State.capacity]
@[simp] theorem State.exclusion_raise (s : State) (i : MeterId) (x : GroupId) :
    (s.raise i).exclusion x = s.exclusion x := by simp only [State.raise, State.exclusion]
@[simp] theorem State.timing_raise (s : State) (i : MeterId) :
    (s.raise i).timing = s.timing := by simp only [State.raise, State.timing]
@[simp] theorem State.linked_raise (s : State) (i : MeterId) :
    (s.raise i).linked = s.linked := by simp only [State.raise, State.linked]
@[simp] theorem State.testOn_raise (s : State) (i : MeterId) (m : LineId) :
    (s.raise i).testOn m = s.testOn m := by simp only [State.raise, State.testOn]
@[simp] theorem State.part_raise (s : State) (i : MeterId) (k : CallNo) :
    (s.raise i).part k = s.part k := by simp only [State.raise, State.part]
@[simp] theorem State.waitQueue_raise (s : State) (i : MeterId) :
    (s.raise i).waitQueue = s.waitQueue := by simp only [State.raise, State.waitQueue]

/-! Placement reports leave every state as it is (R60). -/

@[simp] theorem State.reportPlacement_eq (s : State) (c : CallNo) : s.reportPlacement c = s := by
  unfold State.reportPlacement
  split
  · split <;> rfl
  · rfl

/-- The reports of any list of calls leave the state as it is. -/
theorem State.reportPlacements_eq (l : List CallNo) (s : State) :
    l.foldl (fun s c => s.reportPlacement c) s = s := by
  induction l generalizing s with
  | nil => rfl
  | cons c l ih => rw [List.foldl_cons, State.reportPlacement_eq, ih]

/-- A pass is its scan: the reports that follow it change nothing. -/
theorem State.pass_eq_scan (s : State) : s.pass = s.scan := by
  exact State.reportPlacements_eq _ _

@[simp] theorem State.passAfter_eq (s : State) (placed : List CallNo) : s.passAfter placed = s.pass := by
  rw [State.pass_eq_scan]; exact State.reportPlacements_eq _ _

/-! A line's byte taken. -/

@[simp] theorem State.byteTaken_pending (s : State) (n : LineId) : (s.byteTaken n).pending = s.pending := rfl
@[simp] theorem State.byteTaken_pins (s : State) (n : LineId) : (s.byteTaken n).pins = s.pins := rfl
@[simp] theorem State.byteTaken_lsv (s : State) (n : LineId) : (s.byteTaken n).lsv = s.lsv := rfl
@[simp] theorem State.byteTaken_dgu (s : State) (n : LineId) : (s.byteTaken n).dgu = s.dgu := rfl
@[simp] theorem State.byteTaken_ptb (s : State) (n : LineId) : (s.byteTaken n).ptb = s.ptb := rfl
@[simp] theorem State.byteTaken_rsc (s : State) (n : LineId) : (s.byteTaken n).rsc = s.rsc := rfl
@[simp] theorem State.byteTaken_csq (s : State) (n : LineId) : (s.byteTaken n).csq = s.csq := rfl
@[simp] theorem State.byteTaken_itu (s : State) (n : LineId) : (s.byteTaken n).itu = s.itu := rfl
@[simp] theorem State.byteTaken_mgp (s : State) (n : LineId) : (s.byteTaken n).mgp = s.mgp := rfl
@[simp] theorem State.byteTaken_lkm (s : State) (n : LineId) : (s.byteTaken n).lkm = s.lkm := rfl
@[simp] theorem State.byteTaken_tmu (s : State) (n : LineId) : (s.byteTaken n).tmu = s.tmu := rfl
@[simp] theorem State.byteTaken_hwi_ePort (s : State) (n : LineId) :
    (s.byteTaken n).hwi.ePort = s.hwi.ePort := rfl
@[simp] theorem State.byteTaken_hwi_lPort (s : State) (n : LineId) :
    (s.byteTaken n).hwi.lPort = s.hwi.lPort := rfl
@[simp] theorem State.byteTaken_hwi_down (s : State) (n : LineId) :
    (s.byteTaken n).hwi.down = s.hwi.down := rfl
@[simp] theorem State.byteTaken_hwi_up (s : State) (n : LineId) :
    (s.byteTaken n).hwi.up = s.hwi.up := rfl
@[simp] theorem State.byteTaken_hwi_policing (s : State) (n : LineId) :
    (s.byteTaken n).hwi.policing = s.hwi.policing := rfl
@[simp] theorem State.byteTaken_hwi_shelfCount (s : State) (n : LineId) :
    (s.byteTaken n).hwi.shelfCount = s.hwi.shelfCount := rfl
@[simp] theorem State.byteTaken_hwi_shelfArmed (s : State) (n : LineId) :
    (s.byteTaken n).hwi.shelfArmed = s.hwi.shelfArmed := rfl
@[simp] theorem State.byteTaken_hwi_shelfReported (s : State) (n : LineId) :
    (s.byteTaken n).hwi.shelfReported = s.hwi.shelfReported := rfl
@[simp] theorem State.byteTaken_hwi_eSent (s : State) (n : LineId) :
    (s.byteTaken n).hwi.eSent = s.hwi.eSent := rfl
@[simp] theorem State.byteTaken_hwi_lSent (s : State) (n : LineId) :
    (s.byteTaken n).hwi.lSent = s.hwi.lSent := rfl
@[simp] theorem State.byteTaken_hwi_byteWaits (s : State) (n : LineId) :
    (s.byteTaken n).hwi.byteWaits = tset s.hwi.byteWaits n false := rfl
@[simp] theorem State.line_byteTaken (s : State) (n : LineId) (m : LineId) : (s.byteTaken n).line m = s.line m := rfl
@[simp] theorem State.digits_byteTaken (s : State) (n : LineId) (m : LineId) : (s.byteTaken n).digits m = s.digits m := rfl
@[simp] theorem State.down_byteTaken (s : State) (n : LineId) (m : LineId) : (s.byteTaken n).down m = s.down m := rfl
@[simp] theorem State.up_byteTaken (s : State) (n : LineId) (m : LineId) : (s.byteTaken n).up m = s.up m := rfl
@[simp] theorem State.lByte_byteTaken (s : State) (n : LineId) (m : LineId) : (s.byteTaken n).lByte m = s.lByte m := rfl
@[simp] theorem State.eByte_byteTaken (s : State) (n : LineId) (m : LineId) : (s.byteTaken n).eByte m = s.eByte m := rfl
@[simp] theorem State.callRec_byteTaken (s : State) (n : LineId) (m : CallNo) : (s.byteTaken n).callRec m = s.callRec m := rfl
@[simp] theorem State.part_byteTaken (s : State) (n : LineId) (m : CallNo) : (s.byteTaken n).part m = s.part m := rfl

end Sys2Proof.Machine
end

