-- ==== Sys2Proof/Laws/Fixed.lean ====
section
/-! SUPPORT. What no event of a line, a digit unit, a test, a call or a ring part changes: the tables, the link, the
receive ports, the sent frames, and the Management Port but for its notices and counters. -/

namespace Sys2Proof.Machine

/-- The parts of State that stand in every operation below the requests and the link. -/
structure Fixed where
  pending : List Instr
  pins : BitVec 5
  ptb : Ptb
  lkm : Lkm
  ePort : RxPort
  lPort : RxPort
  policing : Vector Bool 16
  shelfCount : Nat
  shelfArmed : Bool
  shelfReported : Bool
  byteWaits : Vector Bool 16
  eSent : Option Frame
  lSent : Option Frame
  eAssembler : Option (List Byte)
  lAssembler : Option (List Byte)
  relay : Option (List Byte)
  relayPair : Option (Byte × Byte)
  relayBuffer : List (List Byte)
  replySlot : Option Reply
  runCount : Nat
  sending : Option Sending
  address : Option Address

/-- The Management Port but for its notices and counters. -/
def Mgp.still (m : Mgp) : Option (List Byte) × Option (List Byte) × Option (List Byte) × Option (Byte × Byte) ×
    List (List Byte) × Option Reply × Nat × Option Sending × Option Address :=
  (m.eAssembler, m.lAssembler, m.relay, m.relayPair, m.relayBuffer, m.replySlot, m.runCount, m.sending, m.address)

def State.fixed (s : State) : Fixed where
  pending := s.pending
  pins := s.pins
  ptb := s.ptb
  lkm := s.lkm
  ePort := s.hwi.ePort
  lPort := s.hwi.lPort
  policing := s.hwi.policing
  shelfCount := s.hwi.shelfCount
  shelfArmed := s.hwi.shelfArmed
  shelfReported := s.hwi.shelfReported
  byteWaits := s.hwi.byteWaits
  eSent := s.hwi.eSent
  lSent := s.hwi.lSent
  eAssembler := s.mgp.eAssembler
  lAssembler := s.mgp.lAssembler
  relay := s.mgp.relay
  relayPair := s.mgp.relayPair
  relayBuffer := s.mgp.relayBuffer
  replySlot := s.mgp.replySlot
  runCount := s.mgp.runCount
  sending := s.mgp.sending
  address := s.mgp.address

/-- A fold of operations that keep a view keeps it. -/
theorem foldl_keeps {α β σ : Type} (g : σ → β) (f : σ → α → σ) (h : ∀ s a, g (f s a) = g s) (l : List α) (s : σ) :
    g (l.foldl f s) = g s := by
  induction l generalizing s with
  | nil => rfl
  | cons a l ih => rw [List.foldl_cons, ih, h]

/-! Pegs and notices. -/

@[simp] theorem Mgp.still_noticeDropped (m : Mgp) (n : Notice) : (noticeDropped m n).still = m.still := by
  simp only [noticeDropped, Mgp.still]; split <;> rfl

@[simp] theorem Mgp.still_noticeJoined (m : Mgp) (n : Notice) : (noticeJoined m n).still = m.still := by
  simp only [noticeJoined, Mgp.still]; split <;> rfl

@[simp] theorem pegChain_still (fuel : Nat) (e : PegEvent) (l : Option LineId) (x : Tmu × Mgp) :
    (pegChain fuel e l x).2.still = x.2.still := by
  induction fuel generalizing e l x with
  | zero => rfl
  | succ fuel ih =>
    rw [pegChain]
    apply foldl_keeps (fun y : Tmu × Mgp => y.2.still)
    intro y i
    dsimp only
    split
    · split
      · split
        · rw [ih]; simp
        · simp
      · rfl
    · rfl

@[simp] theorem noticeInto_still (n : Notice) (x : Tmu × Mgp) : (noticeInto n x).2.still = x.2.still := by
  simp only [noticeInto]; split <;> simp

@[simp] theorem raiseMeter_still (i : MeterId) (x : Tmu × Mgp) : (raiseMeter i x).2.still = x.2.still := by
  simp only [raiseMeter]; split <;> simp

theorem State.fixed_of_mgp (s : State) (t : Tmu) {m : Mgp} (h : m.still = s.mgp.still) :
    State.fixed { s with tmu := t, mgp := m } = s.fixed := by
  simp only [Mgp.still, Prod.mk.injEq] at h
  obtain ⟨h1, h2, h3, h4, h5, h6, h7, h8, h9⟩ := h
  simp [State.fixed, *]

@[simp] theorem State.fixed_peg (s : State) (e : PegEvent) (l : Option LineId) : (s.peg e l).fixed = s.fixed := by
  unfold State.peg; exact s.fixed_of_mgp _ (by simp)

@[simp] theorem State.fixed_notify (s : State) (n : Notice) : (s.notify n).fixed = s.fixed := by
  unfold State.notify; exact s.fixed_of_mgp _ (by simp)

@[simp] theorem State.fixed_raise (s : State) (i : MeterId) : (s.raise i).fixed = s.fixed := by
  unfold State.raise; exact s.fixed_of_mgp _ (by simp)

/-! The updates. -/

@[simp] theorem State.fixed_setLine (s : State) (n : LineId) (r : LineRec) : (s.setLine n r).fixed = s.fixed := rfl
@[simp] theorem State.fixed_modLine (s : State) (n : LineId) (f : LineRec → LineRec) :
    (s.modLine n f).fixed = s.fixed := rfl
@[simp] theorem State.fixed_setDigits (s : State) (n : LineId) (d : DigitRec) :
    (s.setDigits n d).fixed = s.fixed := rfl
@[simp] theorem State.fixed_modDigits (s : State) (n : LineId) (f : DigitRec → DigitRec) :
    (s.modDigits n f).fixed = s.fixed := rfl
@[simp] theorem State.fixed_setDown (s : State) (n : LineId) (c : DownClaims) :
    (s.setDown n c).fixed = s.fixed := rfl
@[simp] theorem State.fixed_modDown (s : State) (n : LineId) (f : DownClaims → DownClaims) :
    (s.modDown n f).fixed = s.fixed := rfl
@[simp] theorem State.fixed_setUp (s : State) (n : LineId) (c : UpClaims) : (s.setUp n c).fixed = s.fixed := rfl
@[simp] theorem State.fixed_modUp (s : State) (n : LineId) (f : UpClaims → UpClaims) :
    (s.modUp n f).fixed = s.fixed := rfl
@[simp] theorem State.fixed_setCall (s : State) (c : CallNo) (r : Option CallRec) :
    (s.setCall c r).fixed = s.fixed := rfl
@[simp] theorem State.fixed_modCall (s : State) (c : CallNo) (f : CallRec → CallRec) :
    (s.modCall c f).fixed = s.fixed := rfl
@[simp] theorem State.fixed_setRsc (s : State) (r : Rsc) : (s.setRsc r).fixed = s.fixed := rfl
@[simp] theorem State.fixed_hand (s : State) (q : RscRequest) : (s.hand q).fixed = s.fixed := rfl
@[simp] theorem State.fixed_modPart (s : State) (c : CallNo) (f : RingPart → RingPart) :
    (s.modPart c f).fixed = s.fixed := rfl
@[simp] theorem State.fixed_mapAdd (s : State) (sp : Spec) (g : GroupId) (k : Slot) :
    (s.mapAdd sp g k).fixed = s.fixed := rfl
@[simp] theorem State.fixed_mapRemove (s : State) (sp : Spec) (g : GroupId) (k : Slot) :
    (s.mapRemove sp g k).fixed = s.fixed := rfl
@[simp] theorem State.fixed_setItu (s : State) (i : Itu) : (s.setItu i).fixed = s.fixed := rfl
@[simp] theorem State.fixed_modCounters (s : State) (f : Counters → Counters) :
    (s.modCounters f).fixed = s.fixed := rfl
@[simp] theorem State.fixed_setTmu (s : State) (t : Tmu) : (s.setTmu t).fixed = s.fixed := rfl

/-! What the view gives. -/

theorem State.pending_of_fixed {s t : State} (h : t.fixed = s.fixed) : t.pending = s.pending := congrArg Fixed.pending h
theorem State.pins_of_fixed {s t : State} (h : t.fixed = s.fixed) : t.pins = s.pins := congrArg Fixed.pins h
theorem State.ptb_of_fixed {s t : State} (h : t.fixed = s.fixed) : t.ptb = s.ptb := congrArg Fixed.ptb h
theorem State.lkm_of_fixed {s t : State} (h : t.fixed = s.fixed) : t.lkm = s.lkm := congrArg Fixed.lkm h
theorem State.ePort_of_fixed {s t : State} (h : t.fixed = s.fixed) : t.hwi.ePort = s.hwi.ePort := congrArg Fixed.ePort h
theorem State.lPort_of_fixed {s t : State} (h : t.fixed = s.fixed) : t.hwi.lPort = s.hwi.lPort := congrArg Fixed.lPort h
theorem State.policing_of_fixed {s t : State} (h : t.fixed = s.fixed) : t.hwi.policing = s.hwi.policing := congrArg Fixed.policing h
theorem State.shelfCount_of_fixed {s t : State} (h : t.fixed = s.fixed) : t.hwi.shelfCount = s.hwi.shelfCount := congrArg Fixed.shelfCount h
theorem State.shelfArmed_of_fixed {s t : State} (h : t.fixed = s.fixed) : t.hwi.shelfArmed = s.hwi.shelfArmed := congrArg Fixed.shelfArmed h
theorem State.shelfReported_of_fixed {s t : State} (h : t.fixed = s.fixed) : t.hwi.shelfReported = s.hwi.shelfReported := congrArg Fixed.shelfReported h
theorem State.byteWaits_of_fixed {s t : State} (h : t.fixed = s.fixed) : t.hwi.byteWaits = s.hwi.byteWaits :=
  congrArg Fixed.byteWaits h
theorem State.eSent_of_fixed {s t : State} (h : t.fixed = s.fixed) : t.hwi.eSent = s.hwi.eSent := congrArg Fixed.eSent h
theorem State.lSent_of_fixed {s t : State} (h : t.fixed = s.fixed) : t.hwi.lSent = s.hwi.lSent := congrArg Fixed.lSent h
theorem State.eAssembler_of_fixed {s t : State} (h : t.fixed = s.fixed) : t.mgp.eAssembler = s.mgp.eAssembler := congrArg Fixed.eAssembler h
theorem State.lAssembler_of_fixed {s t : State} (h : t.fixed = s.fixed) : t.mgp.lAssembler = s.mgp.lAssembler := congrArg Fixed.lAssembler h
theorem State.relay_of_fixed {s t : State} (h : t.fixed = s.fixed) : t.mgp.relay = s.mgp.relay := congrArg Fixed.relay h
theorem State.relayPair_of_fixed {s t : State} (h : t.fixed = s.fixed) : t.mgp.relayPair = s.mgp.relayPair := congrArg Fixed.relayPair h
theorem State.relayBuffer_of_fixed {s t : State} (h : t.fixed = s.fixed) : t.mgp.relayBuffer = s.mgp.relayBuffer := congrArg Fixed.relayBuffer h
theorem State.replySlot_of_fixed {s t : State} (h : t.fixed = s.fixed) : t.mgp.replySlot = s.mgp.replySlot := congrArg Fixed.replySlot h
theorem State.runCount_of_fixed {s t : State} (h : t.fixed = s.fixed) : t.mgp.runCount = s.mgp.runCount := congrArg Fixed.runCount h
theorem State.sending_of_fixed {s t : State} (h : t.fixed = s.fixed) : t.mgp.sending = s.mgp.sending := congrArg Fixed.sending h
theorem State.address_of_fixed {s t : State} (h : t.fixed = s.fixed) : t.mgp.address = s.mgp.address := congrArg Fixed.address h

theorem State.timing_of_fixed {s t : State} (h : t.fixed = s.fixed) : t.timing = s.timing := by
  simp only [State.timing, State.ptb_of_fixed h]

theorem State.linked_of_fixed {s t : State} (h : t.fixed = s.fixed) : t.linked = s.linked := by
  simp only [State.linked, State.lkm_of_fixed h]

/-! The operations, file by file. -/

@[simp] theorem State.fixed_discard (s : State) (p : Port) (reason : DiscardReason) :
    (s.discard p reason).fixed = s.fixed := by
  simp only [State.discard]
  all_goals simp

@[simp] theorem State.fixed_discardDigits (s : State) (n : LineId) :
    (s.discardDigits n).fixed = s.fixed := by
  simp only [State.discardDigits]
  all_goals simp

@[simp] theorem State.fixed_clearLine (s : State) (n : LineId) : (s.clearLine n).fixed = s.fixed := by
  simp only [State.clearLine]
  all_goals simp

@[simp] theorem State.fixed_enterIdle (s : State) (n : LineId) : (s.enterIdle n).fixed = s.fixed := by
  simp only [State.enterIdle]
  all_goals simp

@[simp] theorem State.fixed_enterThrough (s : State) (n : LineId) : (s.enterThrough n).fixed = s.fixed := by
  simp only [State.enterThrough]
  all_goals simp

@[simp] theorem State.fixed_enterCall (s : State) (n : LineId) (kind : CallKind) :
    (s.enterCall n kind).fixed = s.fixed := by
  simp only [State.enterCall]
  all_goals simp

@[simp] theorem State.fixed_enterLockout (s : State) (n : LineId) : (s.enterLockout n).fixed = s.fixed := by
  simp only [State.enterLockout]
  all_goals simp

@[simp] theorem State.fixed_enterCollecting (s : State) (n : LineId) :
    (s.enterCollecting n).fixed = s.fixed := by
  simp only [State.enterCollecting]
  all_goals simp

@[simp] theorem State.fixed_enterReplaying (s : State) (n : LineId) :
    (s.enterReplaying n).fixed = s.fixed := by
  simp only [State.enterReplaying]
  all_goals simp

@[simp] theorem State.fixed_enterBlocked (s : State) (n : LineId) : (s.enterBlocked n).fixed = s.fixed := by
  simp only [State.enterBlocked]
  all_goals simp

@[simp] theorem State.fixed_beginTest (s : State) (q : TestRequest) : (s.beginTest q).fixed = s.fixed := by
  simp only [State.beginTest]
  all_goals simp

@[simp] theorem State.fixed_nextTest (s : State) : s.nextTest.fixed = s.fixed := by
  simp only [State.nextTest]
  repeat' split
  all_goals simp

@[simp] theorem State.fixed_dropTest (s : State) (n : LineId) : (s.dropTest n).fixed = s.fixed := by
  simp only [State.dropTest]
  all_goals simp

@[simp] theorem State.fixed_requestTest (s : State) (n : LineId) (x : Requester) :
    (s.requestTest n x).fixed = s.fixed := by
  simp only [State.requestTest]
  repeat' split
  all_goals simp

@[simp] theorem State.fixed_withdrawTest (s : State) (c : CallNo) (n : LineId) :
    (s.withdrawTest c n).fixed = s.fixed := by
  simp only [State.withdrawTest]
  repeat' split
  all_goals simp

@[simp] theorem State.fixed_notifyAborted (s : State) (n : LineId) (rs : List Requester) :
    (s.notifyAborted n rs).fixed = s.fixed := by
  simp only [State.notifyAborted]
  repeat' split
  all_goals simp

@[simp] theorem State.fixed_abortTest (s : State) (n : LineId) : (s.abortTest n).fixed = s.fixed := by
  simp only [State.abortTest]
  repeat' split
  all_goals simp

@[simp] theorem State.fixed_direct (s : State) (n : LineId) (d : Direction) :
    (s.direct n d).fixed = s.fixed := by
  simp only [State.direct]
  repeat' split
  all_goals simp

@[simp] theorem State.fixed_releaseRing (s : State) (c : CallNo) : (s.releaseRing c).fixed = s.fixed := by
  simp only [State.releaseRing]
  repeat' split
  all_goals simp

@[simp] theorem State.fixed_pegOpt (s : State) (e : Option PegEvent) (n : LineId) :
    (s.pegOpt e n).fixed = s.fixed := by
  simp only [State.pegOpt]
  repeat' split
  all_goals simp

@[simp] theorem State.fixed_endCall (s : State) (c : CallNo) (result : EndResult) (d : Direction) (e : Option PegEvent) (withdraw : Bool) :
    (s.endCall c result d e withdraw).fixed = s.fixed := by
  simp only [State.endCall]
  repeat' split
  all_goals simp

@[simp] theorem State.fixed_enterFault (s : State) (n : LineId) (reason : FaultReason) :
    (s.enterFault n reason).fixed = s.fixed := by
  simp only [State.enterFault]
  repeat' split
  all_goals simp

@[simp] theorem State.fixed_blockLine (s : State) (n : LineId) : (s.blockLine n).fixed = s.fixed := by
  simp only [State.blockLine]
  repeat' split
  all_goals simp

@[simp] theorem State.fixed_putAt (s : State) (c : CallNo) (sp : Spec) (g : GroupId) (k : Slot) (pending : Bool) :
    (s.putAt c sp g k pending).fixed = s.fixed := by
  simp only [State.putAt]
  all_goals simp

@[simp] theorem State.fixed_placeBySearch (s : State) (c : CallNo) (n : LineId) (sp : Spec) (g : GroupId) (k : Slot) :
    (s.placeBySearch c n sp g k).fixed = s.fixed := by
  simp only [State.placeBySearch]
  all_goals simp

@[simp] theorem State.fixed_judgeQueued (s : State) (c : CallNo) : (s.judgeQueued c).fixed = s.fixed := by
  simp only [State.judgeQueued]
  repeat' split
  all_goals simp

@[simp] theorem State.fixed_pass (s : State) : s.pass.fixed = s.fixed := by
  rw [State.pass_eq_scan]
  exact foldl_keeps State.fixed _ (fun s c => s.fixed_judgeQueued c) _ s

@[simp] theorem State.fixed_joinQueue (s : State) (c : CallNo) (n : LineId) :
    (s.joinQueue c n).fixed = s.fixed := by
  simp only [State.joinQueue]
  all_goals simp

@[simp] theorem State.fixed_stopRinging (s : State) (n : LineId) : (s.stopRinging n).fixed = s.fixed := by
  simp only [State.stopRinging]
  all_goals simp

@[simp] theorem State.fixed_removePart (s : State) (p : RingPart) : (s.removePart p).fixed = s.fixed := by
  simp only [State.removePart]
  repeat' split
  all_goals simp

@[simp] theorem State.fixed_releasePart (s : State) (c : CallNo) : (s.releasePart c).fixed = s.fixed := by
  simp only [State.releasePart]
  repeat' split
  all_goals simp

@[simp] theorem State.fixed_createPart (s : State) (c : CallNo) (n : LineId) (sp : Spec) (limit completed : Nat) :
    (s.createPart c n sp limit completed).fixed = s.fixed := by
  simp only [State.createPart]
  repeat' split
  all_goals simp

@[simp] theorem State.fixed_amendPending (s : State) (p : RingPart) (k : Slot) (cad : CadenceId) :
    (s.amendPending p k cad).fixed = s.fixed := by
  simp only [State.amendPending]
  repeat' split
  all_goals simp

@[simp] theorem State.fixed_amendPart (s : State) (c : CallNo) (cad : Option CadenceId) (limit : Option Nat) :
    (s.amendPart c cad limit).fixed = s.fixed := by
  simp only [State.amendPart]
  repeat' split
  all_goals simp

@[simp] theorem State.fixed_stagePart (s : State) (c : CallNo) (sp : Spec) :
    (s.stagePart c sp).fixed = s.fixed := by
  simp only [State.stagePart]
  repeat' split
  all_goals simp

@[simp] theorem State.fixed_callClaim (s : State) (n : LineId) (code : DownCode) :
    (s.callClaim n code).fixed = s.fixed := by
  simp only [State.callClaim]
  all_goals simp

@[simp] theorem State.fixed_enterIdentifyCaller (s : State) (c : CallNo) (n : LineId) :
    (s.enterIdentifyCaller c n).fixed = s.fixed := by
  simp only [State.enterIdentifyCaller]
  all_goals simp

@[simp] theorem State.fixed_enterHangupWait (s : State) (c : CallNo) (n : LineId) :
    (s.enterHangupWait c n).fixed = s.fixed := by
  simp only [State.enterHangupWait]
  all_goals simp

@[simp] theorem State.fixed_requestRevertRinging (s : State) (c : CallNo) (n : LineId) (sp : Spec) (limit completed : Nat) :
    (s.requestRevertRinging c n sp limit completed).fixed = s.fixed := by
  simp only [State.requestRevertRinging]
  all_goals simp

@[simp] theorem State.fixed_enterRevertRinging (s : State) (c : CallNo) (limit completed : Nat) :
    (s.enterRevertRinging c limit completed).fixed = s.fixed := by
  simp only [State.enterRevertRinging]
  repeat' split
  all_goals simp

@[simp] theorem State.fixed_ringRevertAnew (s : State) (c : CallNo) :
    (s.ringRevertAnew c).fixed = s.fixed := by
  simp only [State.ringRevertAnew]
  all_goals simp

@[simp] theorem State.fixed_resumeRevertRinging (s : State) (c : CallNo) (r : CallRec) :
    (s.resumeRevertRinging c r).fixed = s.fixed := by
  simp only [State.resumeRevertRinging]
  repeat' split
  all_goals simp

@[simp] theorem State.fixed_enterTalk (s : State) (c : CallNo) (r : CallRec) (a : Answered) :
    (s.enterTalk c r a).fixed = s.fixed := by
  simp only [State.enterTalk]
  all_goals simp

@[simp] theorem State.fixed_revertMatch (s : State) (n : LineId) (p : PartyId) :
    (s.revertMatch n p).fixed = s.fixed := by
  simp only [State.revertMatch]
  repeat' split
  all_goals simp

@[simp] theorem State.fixed_answerRing (s : State) (c : CallNo) (r : CallRec) :
    (s.answerRing c r).fixed = s.fixed := by
  simp only [State.answerRing]
  repeat' split
  all_goals simp

@[simp] theorem State.fixed_answerRevert (s : State) (c : CallNo) (r : CallRec) :
    (s.answerRevert c r).fixed = s.fixed := by
  simp only [State.answerRevert]
  all_goals simp

@[simp] theorem State.fixed_csqTrip (s : State) (c : CallNo) (n : LineId) :
    (s.csqTrip c n).fixed = s.fixed := by
  simp only [State.csqTrip]
  repeat' split
  all_goals simp

@[simp] theorem State.fixed_csqSeizure (s : State) (c : CallNo) (n : LineId) :
    (s.csqSeizure c n).fixed = s.fixed := by
  simp only [State.csqSeizure]
  repeat' split
  all_goals simp

@[simp] theorem State.fixed_csqOnHook (s : State) (c : CallNo) (n : LineId) :
    (s.csqOnHook c n).fixed = s.fixed := by
  simp only [State.csqOnHook]
  repeat' split
  all_goals simp

@[simp] theorem State.fixed_callerIdentified (s : State) (c : CallNo) (r : CallRec) (res : TestResult) :
    (s.callerIdentified c r res).fixed = s.fixed := by
  simp only [State.callerIdentified]
  repeat' split
  all_goals simp

@[simp] theorem State.fixed_reRevert (s : State) (c : CallNo) (r : CallRec) :
    (s.reRevert c r).fixed = s.fixed := by
  simp only [State.reRevert]
  all_goals simp

@[simp] theorem State.fixed_answerTested (s : State) (c : CallNo) (r : CallRec) (res : TestResult) :
    (s.answerTested c r res).fixed = s.fixed := by
  simp only [State.answerTested]
  repeat' split
  all_goals simp

@[simp] theorem State.fixed_csqResult (s : State) (c : CallNo) (n : LineId) (res : TestResult) :
    (s.csqResult c n res).fixed = s.fixed := by
  simp only [State.csqResult]
  repeat' split
  all_goals simp

@[simp] theorem State.fixed_csqFirstRing (s : State) (c : CallNo) (n : LineId) :
    (s.csqFirstRing c n).fixed = s.fixed := by
  simp only [State.csqFirstRing]
  repeat' split
  all_goals simp

@[simp] theorem State.fixed_stageAlternation (s : State) (c : CallNo) (n : LineId) (held : Spec) :
    (s.stageAlternation c n held).fixed = s.fixed := by
  simp only [State.stageAlternation]
  repeat' split
  all_goals simp

@[simp] theorem State.fixed_csqBoundary (s : State) (c : CallNo) (n : LineId) (report : BoundaryReport) (held : Spec) :
    (s.csqBoundary c n report held).fixed = s.fixed := by
  simp only [State.csqBoundary]
  repeat' split
  all_goals simp

@[simp] theorem State.fixed_csqExhausted (s : State) (c : CallNo) (n : LineId) (completed : Nat) :
    (s.csqExhausted c n completed).fixed = s.fixed := by
  simp only [State.csqExhausted]
  repeat' split
  all_goals simp

@[simp] theorem State.fixed_csqPlaceRefused (s : State) (c : CallNo) (n : LineId) :
    (s.csqPlaceRefused c n).fixed = s.fixed := by
  simp only [State.csqPlaceRefused]
  repeat' split
  all_goals simp

@[simp] theorem State.fixed_csqRingLimit (s : State) (c : CallNo) (n : LineId) (limit : Option Nat) :
    (s.csqRingLimit c n limit).fixed = s.fixed := by
  simp only [State.csqRingLimit]
  repeat' split
  all_goals simp

@[simp] theorem State.fixed_setRingClaim (s : State) (n : LineId) (sp : Spec) (k : Slot) :
    (s.setRingClaim n sp k).fixed = s.fixed := by
  simp only [State.setRingClaim]
  all_goals simp

@[simp] theorem State.fixed_beginCycle (s : State) (p : RingPart) (k : Slot) :
    (s.beginCycle p k).fixed = s.fixed := by
  simp only [State.beginCycle]
  repeat' split
  all_goals simp

@[simp] theorem State.fixed_exhaustPart (s : State) (p : RingPart) : (s.exhaustPart p).fixed = s.fixed := by
  simp only [State.exhaustPart]
  all_goals simp

@[simp] theorem State.fixed_reportBoundary (s : State) (p : RingPart) (outcome : BoundaryOutcome) :
    (s.reportBoundary p outcome).fixed = s.fixed := by
  simp only [State.reportBoundary]
  repeat' split
  all_goals simp

@[simp] theorem State.fixed_applySpec (s : State) (p : RingPart) (k : Slot) (sp : Spec) :
    (s.applySpec p k sp).1.fixed = s.fixed := by
  simp only [State.applySpec]
  repeat' split
  all_goals simp

@[simp] theorem State.fixed_applyStaged (s : State) (p : RingPart) (k : Slot) (ch : StagedChange) :
    (s.applyStaged p k ch).fixed = s.fixed := by
  simp only [State.applyStaged]
  repeat' split
  all_goals simp

@[simp] theorem State.fixed_boundary (s : State) (p : RingPart) (k : Slot) :
    (s.boundary p k).fixed = s.fixed := by
  simp only [State.boundary]
  repeat' split
  all_goals simp

@[simp] theorem State.fixed_slotPart (s : State) (p : RingPart) : (s.slotPart p).fixed = s.fixed := by
  simp only [State.slotPart]
  repeat' split
  all_goals simp

@[simp] theorem State.fixed_slotBoundary (s : State) (c : CallNo) : (s.slotBoundary c).fixed = s.fixed := by
  simp only [State.slotBoundary]
  repeat' split
  all_goals simp

@[simp] theorem State.fixed_advanceSlot (s : State) : s.advanceSlot.fixed = s.fixed := by
  simp only [State.advanceSlot]
  all_goals simp

@[simp] theorem State.fixed_slotExpiry (s : State) : s.slotExpiry.fixed = s.fixed := by
  simp only [State.slotExpiry]
  rw [foldl_keeps State.fixed _ (fun s c => s.fixed_slotBoundary c),
    foldl_keeps State.fixed _ (fun s p => s.fixed_slotPart p)]
  simp

@[simp] theorem State.fixed_takePlace (s : State) (c : CallNo) (n : LineId) (sp : Spec) (limit completed : Nat) :
    (s.takePlace c n sp limit completed).fixed = s.fixed := by
  simp only [State.takePlace]
  repeat' split
  all_goals simp

@[simp] theorem State.fixed_takeRequest (s : State) (q : RscRequest) :
    (s.takeRequest q).fixed = s.fixed := by
  simp only [State.takeRequest]
  repeat' split
  all_goals simp

@[simp] theorem State.fixed_takeNext (s : State) : s.takeNext.fixed = s.fixed := by
  simp only [State.takeNext]
  repeat' split
  all_goals simp

@[simp] theorem State.fixed_drainBy (k : Nat) (s : State) : (State.drainBy k s).fixed = s.fixed := by
  induction k generalizing s with
  | zero => rfl
  | succ k ih =>
    simp only [State.drainBy]
    split
    · rfl
    · rw [ih]; simp

@[simp] theorem State.fixed_drain (s : State) : s.drain.fixed = s.fixed := by
  simp only [State.drain]
  all_goals simp

@[simp] theorem State.fixed_deliver (s : State) (n : LineId) (res : TestResult) (q : Requester) :
    (s.deliver n res q).fixed = s.fixed := by
  simp only [State.deliver]
  repeat' split
  all_goals simp

@[simp] theorem State.fixed_pegResult (s : State) (n : LineId) (q : TestResult) :
    (s.pegResult n q).fixed = s.fixed := by
  simp only [State.pegResult]
  repeat' split
  all_goals simp

@[simp] theorem State.fixed_endTest (s : State) (t : Test) (res : TestResult) :
    (s.endTest t res).fixed = s.fixed := by
  simp only [State.endTest, State.fixed_nextTest, State.fixed_pegResult]
  rw [foldl_keeps State.fixed _ (fun s x => s.fixed_deliver t.line res x)]
  simp

@[simp] theorem State.fixed_testByte (s : State) (n : LineId) (b : Byte) (good : Bool) :
    (s.testByte n b good).fixed = s.fixed := by
  simp only [State.testByte]
  repeat' split
  all_goals simp

@[simp] theorem State.fixed_setReplay (s : State) (n : LineId) (l : Loop) :
    (s.setReplay n l).fixed = s.fixed := by
  simp only [State.setReplay]
  all_goals simp

@[simp] theorem State.fixed_generatorTakes (s : State) (n : LineId) :
    (s.generatorTakes n).fixed = s.fixed := by
  simp only [State.generatorTakes]
  repeat' split
  all_goals simp

@[simp] theorem State.fixed_endReplayIfDone (s : State) (n : LineId) :
    (s.endReplayIfDone n).fixed = s.fixed := by
  simp only [State.endReplayIfDone]
  repeat' split
  all_goals simp

@[simp] theorem State.fixed_endBreak (s : State) (n : LineId) : (s.endBreak n).fixed = s.fixed := by
  simp only [State.endBreak]
  repeat' split
  all_goals simp

@[simp] theorem State.fixed_generatorExpiry (s : State) (n : LineId) :
    (s.generatorExpiry n).fixed = s.fixed := by
  simp only [State.generatorExpiry]
  repeat' split
  all_goals simp

@[simp] theorem State.fixed_mismatch (s : State) (n : LineId) : (s.mismatch n).fixed = s.fixed := by
  simp only [State.mismatch]
  repeat' split
  all_goals simp

@[simp] theorem State.fixed_matchDigit (s : State) (n : LineId) : (s.matchDigit n).fixed = s.fixed := by
  simp only [State.matchDigit]
  repeat' split
  all_goals simp

@[simp] theorem State.fixed_digitJoins (s : State) (n : LineId) (d : Nat) :
    (s.digitJoins n d).fixed = s.fixed := by
  simp only [State.digitJoins]
  repeat' split
  all_goals simp

@[simp] theorem State.fixed_restartCollection (s : State) (n : LineId) :
    (s.restartCollection n).fixed = s.fixed := by
  simp only [State.restartCollection]
  all_goals simp

@[simp] theorem State.fixed_takeReceived (s : State) (n : LineId) (q : Received) :
    (s.takeReceived n q).fixed = s.fixed := by
  simp only [State.takeReceived]
  repeat' split
  all_goals simp

@[simp] theorem State.fixed_receiveLoop (s : State) (n : LineId) (loop : Loop) :
    (s.receiveLoop n loop).fixed = s.fixed := by
  simp only [State.receiveLoop]
  all_goals simp

@[simp] theorem State.fixed_removeDialTone (s : State) (n : LineId) (loop : Loop) :
    (s.removeDialTone n loop).fixed = s.fixed := by
  simp only [State.removeDialTone]
  repeat' split
  all_goals simp

@[simp] theorem State.fixed_hearDialTone (s : State) (n : LineId) : (s.hearDialTone n).fixed = s.fixed := by
  simp only [State.hearDialTone]
  repeat' split
  all_goals simp

@[simp] theorem State.fixed_collectByte (s : State) (n : LineId) (loop : Loop) :
    (s.collectByte n loop).fixed = s.fixed := by
  simp only [State.collectByte]
  all_goals simp

@[simp] theorem State.fixed_replayByteEvent (s : State) (n : LineId) (loop : Loop) :
    (s.replayByteEvent n loop).fixed = s.fixed := by
  simp only [State.replayByteEvent]
  repeat' split
  all_goals simp

@[simp] theorem State.fixed_digitByte (s : State) (n : LineId) (before : LineState) (loop : Loop) :
    (s.digitByte n before loop).fixed = s.fixed := by
  simp only [State.digitByte]
  repeat' split
  all_goals simp

@[simp] theorem State.fixed_collectionExpiry (s : State) (n : LineId) :
    (s.collectionExpiry n).fixed = s.fixed := by
  simp only [State.collectionExpiry]
  repeat' split
  all_goals simp

@[simp] theorem State.fixed_seizureQualified (s : State) (n : LineId) :
    (s.seizureQualified n).fixed = s.fixed := by
  simp only [State.seizureQualified]
  repeat' split
  all_goals simp

@[simp] theorem State.fixed_callSeized (s : State) (n : LineId) : (s.callSeized n).fixed = s.fixed := by
  simp only [State.callSeized]
  repeat' split
  all_goals simp

@[simp] theorem State.fixed_deliverAborted (s : State) (n : LineId) (x : Requester) :
    (s.deliverAborted n x).fixed = s.fixed := by
  cases x <;> simp [State.deliverAborted]

@[simp] theorem State.fixed_dropRequest (s : State) (n : LineId) : (s.dropRequest n).fixed = s.fixed := by
  simp only [State.dropRequest]
  repeat' split
  all_goals simp

@[simp] theorem State.fixed_abortAtOnHook (s : State) (n : LineId) : (s.abortAtOnHook n).fixed = s.fixed := by
  have h := fun l t => foldl_keeps State.fixed _ (fun (s : State) x => s.fixed_deliverAborted n x) l t
  simp only [State.abortAtOnHook]
  repeat' split
  all_goals simp [h]

@[simp] theorem State.fixed_onHookQualified (s : State) (n : LineId) :
    (s.onHookQualified n).fixed = s.fixed := by
  simp only [State.onHookQualified]
  repeat' split
  all_goals simp

@[simp] theorem State.fixed_tripQualified (s : State) (n : LineId) :
    (s.tripQualified n).fixed = s.fixed := by
  simp only [State.tripQualified]
  repeat' split
  all_goals simp

@[simp] theorem State.fixed_faultRecovered (s : State) (n : LineId) (loop : Loop) :
    (s.faultRecovered n loop).fixed = s.fixed := by
  simp only [State.faultRecovered]
  repeat' split
  all_goals simp

@[simp] theorem State.fixed_takeVerdict (s : State) (n : LineId) (b : Byte) (q : Verdict) :
    (s.takeVerdict n b q).fixed = s.fixed := by
  simp only [State.takeVerdict]
  repeat' split
  all_goals simp

@[simp] theorem State.fixed_digitStep (s : State) (n : LineId) (before : LineState) (v : Verdict) (loop : Loop) :
    (s.digitStep n before v loop).fixed = s.fixed := by
  simp only [State.digitStep]
  repeat' split
  all_goals simp

/-! A byte event, which alone ends the waiting of its line's byte, keeps the rest. -/

/-- The fixed parts but for the bytes that wait. -/
def State.fixedRest (s : State) : Fixed := { s.fixed with byteWaits := Vector.replicate 16 false }

theorem State.fixedRest_of_fixed {s t : State} (h : t.fixed = s.fixed) : t.fixedRest = s.fixedRest := by
  simp only [State.fixedRest, h]

@[simp] theorem State.fixed_byteTaken (s : State) (n : LineId) :
    (s.byteTaken n).fixed = { s.fixed with byteWaits := tset s.hwi.byteWaits n false } := rfl

@[simp] theorem State.fixedRest_byteTaken (s : State) (n : LineId) : (s.byteTaken n).fixedRest = s.fixedRest := rfl

@[simp] theorem State.fixed_lineByteEvent (s : State) (n : LineId) :
    (s.lineByteEvent n).fixed = { s.fixed with byteWaits := tset s.hwi.byteWaits n false } := by
  simp only [State.lineByteEvent, State.fixed_byteTaken]
  rw [State.byteWaits_of_fixed (s := s) (by simp)]
  simp

@[simp] theorem State.fixedRest_lineByteEvent (s : State) (n : LineId) :
    (s.lineByteEvent n).fixedRest = s.fixedRest := by
  simp [State.fixedRest]

@[simp] theorem State.fixedRest_byteEventIf (s : State) (cond : Bool) (n : LineId) :
    (s.byteEventIf cond n).fixedRest = s.fixedRest := by
  simp only [State.byteEventIf]
  split <;> simp

@[simp] theorem State.fixedRest_replayEndEvent (s : State) (n : LineId) :
    (s.replayEndEvent n).fixedRest = s.fixedRest := by
  simp only [State.replayEndEvent]
  repeat' split
  all_goals first | rfl | simp | exact State.fixedRest_of_fixed (by simp)

@[simp] theorem State.fixedRest_testTimeoutEvent (s : State) : s.testTimeoutEvent.fixedRest = s.fixedRest := by
  simp only [State.testTimeoutEvent]
  repeat' split
  all_goals first | rfl | simp

@[simp] theorem State.fixed_lockoutExpiry (s : State) (n : LineId) :
    (s.lockoutExpiry n).fixed = s.fixed := by
  simp only [State.lockoutExpiry]
  repeat' split
  all_goals simp

@[simp] theorem State.fixed_setMeter (s : State) (i : MeterId) (m : Meter) :
    (s.setMeter i m).fixed = s.fixed := by
  simp only [State.setMeter]
  all_goals simp

@[simp] theorem State.fixed_setGlobalFreeze (s : State) (b : Bool) :
    (s.setGlobalFreeze b).fixed = s.fixed := by
  simp only [State.setGlobalFreeze]
  all_goals simp

@[simp] theorem State.fixed_sampleMeter (s : State) (i : MeterId) : (s.sampleMeter i).fixed = s.fixed := by
  simp only [State.sampleMeter]
  repeat' split
  all_goals simp

@[simp] theorem State.fixed_sample (s : State) : s.sample.fixed = s.fixed := by
  exact foldl_keeps State.fixed _ (fun s i => s.fixed_sampleMeter i) _ s

@[simp] theorem State.fixed_startRing (s : State) (c : CallNo) (n : LineId) (sp : Spec) (ch : RingChoice) :
    (s.startRing c n sp ch).fixed = s.fixed := by
  simp only [State.startRing]
  all_goals simp

@[simp] theorem State.fixed_stopCall (s : State) (c : CallNo) (r : CallRec) :
    (s.stopCall c r).fixed = s.fixed := by
  simp only [State.stopCall]
  repeat' split
  all_goals simp

@[simp] theorem State.fixed_amendLimit (s : State) (a : Amend) : (s.amendLimit a).fixed = s.fixed := by
  simp only [State.amendLimit]
  repeat' split
  all_goals simp

@[simp] theorem State.fixed_startRevert (s : State) (c : CallNo) (n : LineId) (p : RevertParties) :
    (s.startRevert c n p).fixed = s.fixed := by
  simp only [State.startRevert]
  repeat' split
  all_goals simp

@[simp] theorem State.fixed_takeBlock (s : State) (n : LineId) : (s.takeBlock n).fixed = s.fixed := by
  simp only [State.takeBlock]
  repeat' split
  all_goals simp

end Sys2Proof.Machine
end

