-- ==== Sys2Proof/Laws/Requests.lean ====
section
/-! SUPPORT. The three ways in which a request is handled (R169), one lemma each. -/

namespace Sys2Proof.Machine

variable {s : State} {code : Byte} {r : Req} {f : State → Req → State × Answer}

/-- An addressed request that finds the slot empty is executed, and its answer is put into the slot. -/
theorem State.handleRequest_addressed (hb : r.broadcast = false) (h : s.mgp.replySlot = none) :
    s.handleRequest code r f =
      (f s r).1.replied code r s.timing.replyHoldOff (answerPayload (f s r).2) (f s r).2.after := by
  simp only [State.handleRequest, State.replied, h, hb]
  rfl

/-- A broadcast request is executed, and what its answer makes take effect is taken at once. -/
theorem State.handleRequest_broadcast (h : r.broadcast = true) :
    s.handleRequest code r f = (f s r).1.applyAfter (f s r).2.after := by
  simp [State.handleRequest, h]

/-- An addressed request that finds the slot occupied is an overrun. -/
theorem State.handleRequest_occupied (h : r.broadcast = false) (hs : s.mgp.replySlot ≠ none) :
    s.handleRequest code r f = s.overrun := by
  simp only [State.handleRequest, h]
  cases hr : s.mgp.replySlot with
  | none => exact absurd hr hs
  | some _ => rfl

/-- A request that the part executes, with an answer that nothing waits on. -/
theorem State.handleRequest_hears (h : s.hears r) (ha : (f s r).2.after = .nothing) :
    s.handleRequest code r f =
      (f s r).1.replied code r s.timing.replyHoldOff (answerPayload (f s r).2) := by
  cases hb : r.broadcast with
  | true => simp [State.handleRequest_broadcast hb, ha, State.replied, hb, State.applyAfter]
  | false =>
    have hs : s.mgp.replySlot = none := by simpa [State.hears, hb] using h
    rw [State.handleRequest_addressed hb hs, ha]

/-- A handler that refuses leaves the state as it stands. -/
theorem refuses_of {c : Instr} {st : Status} (he : exec c s = .next (s.handleRequest code r f)) (h : s.hears r)
    (hf : f s r = (s, refuse st)) : refuses c s code r (byteOf (statusCode st)) := by
  unfold refuses answers
  rw [he, State.handleRequest_hears (f := f) h (by rw [hf]; rfl), hf]
  rfl

/-- A handler that accepts with these results. -/
theorem answers_of {c : Instr} {t : State} {res : List Byte} (he : exec c s = .next (s.handleRequest code r f))
    (h : s.hears r) (hf : f s r = (t, accept res)) : answers c s code r t (0 :: res) := by
  unfold answers
  rw [he, State.handleRequest_hears (f := f) h (by rw [hf]; rfl), hf]
  rfl

/-- The numbers of a payload determine it. -/
theorem payload_of_numbers {bs : List Byte} {ns : List Nat} (h : numbers bs = ns) : bs = ns.map byteOf := by
  subst h
  simp [numbers, byteOf, Function.comp_def]

@[simp] theorem numbers_length (bs : List Byte) : (numbers bs).length = bs.length := by simp [numbers]

theorem numbers_lt {bs : List Byte} {n : Nat} (h : n ∈ numbers bs) : n < 256 := by
  simp only [numbers, List.mem_map] at h
  obtain ⟨b, _, rfl⟩ := h
  exact b.isLt

@[simp] theorem lineOf_val (n : LineId) : lineOf n.val = some n := by simp [lineOf]
@[simp] theorem callOf_val (n : CallNo) : callOf n.val = some n := by simp [callOf]
@[simp] theorem meterOf_val (n : MeterId) : meterOf n.val = some n := by simp [meterOf]
@[simp] theorem cadenceOf_val (n : CadenceId) : cadenceOf n.val = some n := by simp [cadenceOf]
@[simp] theorem groupOf_val (n : GroupId) : groupOf n.val = some n := by simp [groupOf]
@[simp] theorem addressOf_val (n : Address) : addressOf n.val = some n := by simp [addressOf]
@[simp] theorem partyOf_val (n : PartyId) : partyOf (n.val + 1) = some n := by simp [partyOf]
@[simp] theorem busOf_val (n : BusId) : busOf (n.val + 1) = some n := by
  have := n.isLt
  simp [busOf]
@[simp] theorem legOfCode_legCode (l : Leg) : legOfCode (legCode l) = some l := by cases l <;> rfl

theorem lineOf_none {n : Nat} (h : 15 < n) : lineOf n = none := by simp [lineOf]; omega
theorem callOf_none {n : Nat} (h : 23 < n) : callOf n = none := by simp [callOf]; omega
theorem meterOf_none {n : Nat} (h : 7 < n) : meterOf n = none := by simp [meterOf]; omega
theorem cadenceOf_none {n : Nat} (h : 15 < n) : cadenceOf n = none := by simp [cadenceOf]; omega
theorem groupOf_none {n : Nat} (h : 3 < n) : groupOf n = none := by simp [groupOf]; omega
theorem addressOf_none {n : Nat} (h : 30 < n) : addressOf n = none := by simp [addressOf]; omega
theorem partyOf_none {n : Nat} (h : n = 0 ∨ 8 < n) : partyOf n = none := by simp [partyOf]; omega
theorem busOf_none {n : Nat} (h : n = 0 ∨ 4 < n) : busOf n = none := by simp [busOf]; omega

end Sys2Proof.Machine
end

