-- ==== Sys2Proof/Laws/Tables.lean ====
section
/-! SUPPORT. What the checks of the table writes say, each as a proposition over the state. -/

namespace Sys2Proof.Machine

@[simp] theorem mem_lineIds (n : LineId) : n ∈ lineIds := by revert n; decide
@[simp] theorem mem_partyIds (n : PartyId) : n ∈ partyIds := by revert n; decide
@[simp] theorem mem_busIds (n : BusId) : n ∈ busIds := by revert n; decide
@[simp] theorem mem_groupIds (n : GroupId) : n ∈ groupIds := by revert n; decide
@[simp] theorem mem_slotIds (n : Slot) : n ∈ slotIds := by revert n; decide
@[simp] theorem mem_callNos (n : CallNo) : n ∈ callNos := by revert n; decide
@[simp] theorem mem_cadenceIds (n : CadenceId) : n ∈ cadenceIds := by revert n; decide
@[simp] theorem mem_meterIds (n : MeterId) : n ∈ meterIds := by revert n; decide

/-- A running maximum exceeds a bound when its start or some value does. -/
theorem lt_foldl_max {α : Type} (f : α → Nat) (n : Nat) (l : List α) (a : Nat) :
    n < l.foldl (fun m x => max m (f x)) a ↔ n < a ∨ ∃ x ∈ l, n < f x := by
  induction l generalizing a with
  | nil => simp
  | cons x l ih => simp only [List.foldl_cons, ih, lt_max_iff, List.exists_mem_cons_iff, or_assoc]

theorem State.lt_peakLoad (s : State) (b : BusId) (n : Nat) :
    n < s.peakLoad b ↔ ∃ sl, n < tget (tget s.rsc.busLoad b) sl := by
  simp [State.peakLoad, lt_foldl_max]

theorem State.lt_peakOccupancy (s : State) (g : GroupId) (n : Nat) :
    n < s.peakOccupancy g ↔ ∃ sl, n < tget (tget s.rsc.occupancy g) sl := by
  simp [State.peakOccupancy, lt_foldl_max]

theorem RingPart.lt_waitingBell (p : RingPart) (b : BusId) (n : Nat) :
    n < p.waitingBell b ↔ ∃ sp : Spec, sp.bus = b ∧ n < sp.bell ∧
      (sp = p.spec ∧ (∃ k, p.status = .queued k) ∨ ∃ ch, p.staged = some ch ∧ ch.spec = some sp) := by
  unfold RingPart.waitingBell
  rw [lt_max_iff]
  constructor
  · rintro (h | h)
    · split at h
      · rename_i hq
        simp only [bellOn] at h
        split at h
        · refine ⟨p.spec, by assumption, h, Or.inl ⟨rfl, ?_⟩⟩
          unfold RingPart.isQueued at hq
          split at hq
          · rename_i k hk; exact ⟨k, hk⟩
          · simp at hq
        · omega
      · omega
    · split at h
      · rename_i sp l hst
        simp only [bellOn] at h
        split at h
        · exact ⟨sp, by assumption, h, Or.inr ⟨_, hst, rfl⟩⟩
        · omega
      · omega
  · rintro ⟨sp, hb, hlt, (⟨rfl, k, hk⟩ | ⟨ch, hch, hsp⟩)⟩
    · left; simp [RingPart.isQueued, hk, bellOn, hb, hlt]
    · right
      rw [hch]
      obtain ⟨x, y⟩ := ch
      simp only at hsp
      subst hsp
      simp [bellOn, hb, hlt]

theorem State.lt_waitingBell (s : State) (b : BusId) (n : Nat) :
    n < s.waitingBell b ↔ ∃ p ∈ s.rsc.parts, ∃ sp : Spec, sp.bus = b ∧ n < sp.bell ∧
      (sp = p.spec ∧ (∃ k, p.status = .queued k) ∨ ∃ ch, p.staged = some ch ∧ ch.spec = some sp) := by
  simp [State.waitingBell, lt_foldl_max, RingPart.lt_waitingBell]

theorem State.lineInUse_iff (s : State) (n : LineId) :
    s.lineInUse n = true ↔ s.callOn n ≠ none ∨ (s.line n).state = .collecting ∨ (s.line n).state = .replaying := by
  simp [State.lineInUse, Option.isSome_iff_ne_none, or_assoc]

theorem State.cadenceEntered_iff (s : State) (c : CadenceId) :
    s.cadenceEntered c = true ↔ ∃ n p e, s.party n p = some e ∧ e.spec.cadence = c := by
  simp only [State.cadenceEntered, List.any_eq_true, mem_lineIds, mem_partyIds, true_and]
  refine exists_congr fun n => exists_congr fun p => ?_
  cases s.party n p <;> simp

theorem State.cadenceRung_iff (s : State) (c : CadenceId) :
    s.cadenceRung c = true ↔ ∃ p ∈ s.rsc.parts,
      p.spec.cadence = c ∨ ∃ ch sp, p.staged = some ch ∧ ch.spec = some sp ∧ sp.cadence = c := by
  simp only [State.cadenceRung, List.any_eq_true]
  refine exists_congr fun p => and_congr Iff.rfl ?_
  rw [Bool.or_eq_true]
  refine or_congr (by simp) ?_
  constructor
  · intro hm
    split at hm
    · rename_i sp l hs; exact ⟨_, sp, hs, rfl, by simpa using hm⟩
    · simp at hm
  · rintro ⟨ch, sp, h1, h2, h3⟩
    obtain ⟨x, y⟩ := ch
    simp only at h2
    subst h2
    simp [h1, h3]

theorem codesClash_iff (a b : List Nat) : codesClash a b = true ↔ a ≠ [] ∧ b ≠ [] ∧ (a <+: b ∨ b <+: a) := by
  simp [codesClash, and_assoc, List.isPrefixOf_iff_prefix]

theorem classesClash_iff (a b : Option Nat) : classesClash a b = true ↔ a ≠ none ∧ a = b := by
  simp [classesClash, Option.isSome_iff_ne_none]

theorem State.entryClashes_iff (s : State) (n : LineId) (p : PartyId) (e : PartyEntry) :
    s.entryClashes n p e = true ↔ ∃ q o, q ≠ p ∧ s.party n q = some o ∧
      (e.identityClass ≠ none ∧ e.identityClass = o.identityClass ∨
        e.code ≠ [] ∧ o.code ≠ [] ∧ (e.code <+: o.code ∨ o.code <+: e.code)) := by
  simp only [State.entryClashes, List.any_eq_true, mem_partyIds, true_and, Bool.and_eq_true, decide_eq_true_eq]
  refine exists_congr fun q => ?_
  cases h : s.party n q with
  | none => simp
  | some o => simp [codesClash_iff, classesClash_iff]

/-- Some present party of the line holds a revert code (R67). -/
theorem State.hasCodes_iff (s : State) (n : LineId) : s.hasCodes n = true ↔ ∃ p e, s.party n p = some e ∧ e.code ≠ [] := by
  simp only [State.hasCodes, List.any_eq_true, mem_partyIds, true_and, decide_eq_true_eq]
  refine exists_congr fun p => ?_
  cases h : s.party n p <;> simp [State.codeOf, h]

/-- What a cadence write defines, when it is lawful (R8, R9 check 1). -/
theorem cadenceFrom_eq_some {count : Nat} {d l : List Nat} (hd : d.length = 8) :
    cadenceFrom count d = some l ↔ l = d.take count ∧ cadenceLawful (d.take count) ∧
      (count = 0 ∨ count = 2 ∨ count = 4 ∨ count = 6 ∨ count = 8) ∧ ∀ x ∈ d.drop count, x = 0 := by
  unfold cadenceFrom
  by_cases h0 : count = 0
  · subst h0
    simp only [if_true, List.take_zero, List.drop_zero, cadenceLawful, true_or, true_and, List.all_eq_true,
      decide_eq_true_eq]
    split <;> rename_i h
    · simp only [Option.some.injEq]
      exact ⟨fun he => ⟨he.symm, h⟩, fun he => he.1.symm⟩
    · simp only [reduceCtorEq, false_iff]
      exact fun he => h he.2
  · by_cases hc : count = 2 ∨ count = 4 ∨ count = 6 ∨ count = 8
    · have hl : (d.take count).length = count := by simp [hd]; omega
      have hne : d.take count ≠ [] := by intro hx; rw [hx] at hl; simp at hl; omega
      simp only [h0, if_false, cadenceLawful, hne, false_or, hl, hc, true_and, List.all_eq_true,
        decide_eq_true_eq]
      split <;> rename_i h
      · simp only [Option.some.injEq, eq_comm (a := d.take count)]
        exact ⟨fun he => ⟨he, ⟨h.1, h.2.1⟩, h.2.2⟩, fun he => he.1⟩
      · simp only [reduceCtorEq, false_iff]
        intro he
        exact h ⟨he.2.1.1, he.2.1.2, he.2.2⟩
    · simp [h0, hc]

theorem flagOf_eq {n : Nat} (h : n ≤ 1) : flagOf n = some (decide (n = 1)) := by
  obtain rfl | rfl : n = 0 ∨ n = 1 := by omega
  all_goals rfl

theorem flagOf_none {n : Nat} (h : 1 < n) : flagOf n = none := by
  unfold flagOf
  split <;> simp_all

end Sys2Proof.Machine
end

