-- ==== Sys2Proof/Laws/Lines.lean ====
section
/-! SUPPORT. What each entry into a line state leaves, in one record of the line; the reports as records. -/

namespace Sys2Proof

@[simp] theorem tset_tset {α : Type} {k : Nat} (t : Vector α k) (i : Fin k) (x y : α) :
    tset (tset t i x) i y = tset t i y := by
  apply table_ext; intro j; simp only [tget_tset]; split <;> rfl

@[simp] theorem tset_tget {α : Type} {k : Nat} (t : Vector α k) (i : Fin k) : tset t i (tget t i) = t := by
  apply table_ext; intro j; rw [tget_tset]; split <;> simp_all

/-- Writes of different entries commute. -/
theorem tset_comm {α : Type} {k : Nat} (t : Vector α k) {i j : Fin k} (x y : α) (h : i ≠ j) :
    tset (tset t i x) j y = tset (tset t j y) i x := by
  apply table_ext; intro m; simp only [tget_tset]; split <;> split <;> simp_all

end Sys2Proof

namespace Sys2Proof.Machine

variable (s : State) (n : LineId)

/-- A peg touches the meters and the notice queues alone, and reads nothing else. -/
theorem State.peg_eq (e : PegEvent) (l : Option LineId) : s.peg e l =
    { s with tmu := (pegChain chainFuel e l (s.tmu, s.mgp)).1, mgp := (pegChain chainFuel e l (s.tmu, s.mgp)).2 } := by
  unfold State.peg; rfl

/-- A notice touches the meters and the notice queues alone, and reads nothing else. -/
theorem State.notify_eq (x : Notice) : s.notify x =
    { s with tmu := (noticeInto x (s.tmu, s.mgp)).1, mgp := (noticeInto x (s.tmu, s.mgp)).2 } := by
  unfold State.notify; rfl

/-! What the reports leave. -/

/-- The reports touch the meters and the notice queues alone, and read nothing else. -/
theorem State.reported_uniform (l : List Report) : ∃ f : Tmu × Mgp → Tmu × Mgp, ∀ s : State,
    s.reported l = { s with tmu := (f (s.tmu, s.mgp)).1, mgp := (f (s.tmu, s.mgp)).2 } := by
  induction l with
  | nil => exact ⟨id, fun _ => rfl⟩
  | cons r l ih =>
    obtain ⟨f, hf⟩ := ih
    have hr : ∃ g : Tmu × Mgp → Tmu × Mgp, ∀ s : State,
        s.reported (r :: l) = ({ s with tmu := (g (s.tmu, s.mgp)).1, mgp := (g (s.tmu, s.mgp)).2 } : State).reported l := by
      cases r with
      | notice n => exact ⟨noticeInto n, fun s => congrArg (fun t => State.reported t l) (State.notify_eq s n)⟩
      | peg e i => exact ⟨pegChain chainFuel e i, fun s => congrArg (fun t => State.reported t l) (State.peg_eq s e i)⟩
    obtain ⟨g, hg⟩ := hr
    exact ⟨fun x => f (g x), fun s => by rw [hg, hf]⟩

/-- The reports commute with every update of the other fields. -/
theorem State.reported_update (l : List Report) (s t : State) (h : t.tmu = s.tmu) (h' : t.mgp = s.mgp) :
    t.reported l = { t with tmu := (s.reported l).tmu, mgp := (s.reported l).mgp } := by
  obtain ⟨f, hf⟩ := State.reported_uniform l
  rw [hf, hf, h, h']

theorem State.reported_append (s : State) (l m : List Report) : s.reported (l ++ m) = (s.reported l).reported m := by
  induction l generalizing s with
  | nil => rfl
  | cons r l ih => cases r <;> simp only [List.cons_append, State.reported, ih]

@[simp] theorem State.fixed_reported (s : State) (l : List Report) : (s.reported l).fixed = s.fixed := by
  induction l generalizing s with
  | nil => rfl
  | cons r l ih => cases r <;> simp [State.reported, ih]

@[simp] theorem State.pending_reported (s : State) (l : List Report) : (s.reported l).pending = s.pending := by
  obtain ⟨f, hf⟩ := State.reported_uniform l; rw [hf]
@[simp] theorem State.pins_reported (s : State) (l : List Report) : (s.reported l).pins = s.pins := by
  obtain ⟨f, hf⟩ := State.reported_uniform l; rw [hf]
@[simp] theorem State.hwi_reported (s : State) (l : List Report) : (s.reported l).hwi = s.hwi := by
  obtain ⟨f, hf⟩ := State.reported_uniform l; rw [hf]
@[simp] theorem State.lsv_reported (s : State) (l : List Report) : (s.reported l).lsv = s.lsv := by
  obtain ⟨f, hf⟩ := State.reported_uniform l; rw [hf]
@[simp] theorem State.dgu_reported (s : State) (l : List Report) : (s.reported l).dgu = s.dgu := by
  obtain ⟨f, hf⟩ := State.reported_uniform l; rw [hf]
@[simp] theorem State.ptb_reported (s : State) (l : List Report) : (s.reported l).ptb = s.ptb := by
  obtain ⟨f, hf⟩ := State.reported_uniform l; rw [hf]
@[simp] theorem State.rsc_reported (s : State) (l : List Report) : (s.reported l).rsc = s.rsc := by
  obtain ⟨f, hf⟩ := State.reported_uniform l; rw [hf]
@[simp] theorem State.csq_reported (s : State) (l : List Report) : (s.reported l).csq = s.csq := by
  obtain ⟨f, hf⟩ := State.reported_uniform l; rw [hf]
@[simp] theorem State.itu_reported (s : State) (l : List Report) : (s.reported l).itu = s.itu := by
  obtain ⟨f, hf⟩ := State.reported_uniform l; rw [hf]
@[simp] theorem State.lkm_reported (s : State) (l : List Report) : (s.reported l).lkm = s.lkm := by
  obtain ⟨f, hf⟩ := State.reported_uniform l; rw [hf]
@[simp] theorem State.line_reported (s : State) (l : List Report) (k : LineId) : (s.reported l).line k = s.line k := by
  obtain ⟨f, hf⟩ := State.reported_uniform l; rw [hf]; rfl
@[simp] theorem State.digits_reported (s : State) (l : List Report) (k : LineId) : (s.reported l).digits k = s.digits k := by
  obtain ⟨f, hf⟩ := State.reported_uniform l; rw [hf]; rfl
@[simp] theorem State.down_reported (s : State) (l : List Report) (k : LineId) : (s.reported l).down k = s.down k := by
  obtain ⟨f, hf⟩ := State.reported_uniform l; rw [hf]; rfl
@[simp] theorem State.up_reported (s : State) (l : List Report) (k : LineId) : (s.reported l).up k = s.up k := by
  obtain ⟨f, hf⟩ := State.reported_uniform l; rw [hf]; rfl
@[simp] theorem State.callRec_reported (s : State) (l : List Report) (k : CallNo) : (s.reported l).callRec k = s.callRec k := by
  obtain ⟨f, hf⟩ := State.reported_uniform l; rw [hf]; rfl
@[simp] theorem State.attr_reported (s : State) (l : List Report) (k : LineId) : (s.reported l).attr k = s.attr k := by
  obtain ⟨f, hf⟩ := State.reported_uniform l; rw [hf]; rfl
@[simp] theorem State.testOn_reported (s : State) (l : List Report) (k : LineId) : (s.reported l).testOn k = s.testOn k := by
  obtain ⟨f, hf⟩ := State.reported_uniform l; rw [hf]; rfl
@[simp] theorem State.lByte_reported (s : State) (l : List Report) (k : LineId) : (s.reported l).lByte k = s.lByte k := by
  obtain ⟨f, hf⟩ := State.reported_uniform l; rw [hf]; rfl
@[simp] theorem State.eByte_reported (s : State) (l : List Report) (k : LineId) : (s.reported l).eByte k = s.eByte k := by
  obtain ⟨f, hf⟩ := State.reported_uniform l; rw [hf]; rfl
@[simp] theorem State.part_reported (s : State) (l : List Report) (k : CallNo) : (s.reported l).part k = s.part k := by
  obtain ⟨f, hf⟩ := State.reported_uniform l; rw [hf]; rfl

/-! What the records of one line leave. -/

@[simp] theorem State.pending_withLine (s : State) (n : LineId) (r : LineRec) (d : DigitRec) (c : DownClaims) (u : UpClaims) :
    (s.withLine n r d c u).pending = s.pending := rfl
@[simp] theorem State.pins_withLine (s : State) (n : LineId) (r : LineRec) (d : DigitRec) (c : DownClaims) (u : UpClaims) :
    (s.withLine n r d c u).pins = s.pins := rfl
@[simp] theorem State.ptb_withLine (s : State) (n : LineId) (r : LineRec) (d : DigitRec) (c : DownClaims) (u : UpClaims) :
    (s.withLine n r d c u).ptb = s.ptb := rfl
@[simp] theorem State.rsc_withLine (s : State) (n : LineId) (r : LineRec) (d : DigitRec) (c : DownClaims) (u : UpClaims) :
    (s.withLine n r d c u).rsc = s.rsc := rfl
@[simp] theorem State.csq_withLine (s : State) (n : LineId) (r : LineRec) (d : DigitRec) (c : DownClaims) (u : UpClaims) :
    (s.withLine n r d c u).csq = s.csq := rfl
@[simp] theorem State.itu_withLine (s : State) (n : LineId) (r : LineRec) (d : DigitRec) (c : DownClaims) (u : UpClaims) :
    (s.withLine n r d c u).itu = s.itu := rfl
@[simp] theorem State.mgp_withLine (s : State) (n : LineId) (r : LineRec) (d : DigitRec) (c : DownClaims) (u : UpClaims) :
    (s.withLine n r d c u).mgp = s.mgp := rfl
@[simp] theorem State.lkm_withLine (s : State) (n : LineId) (r : LineRec) (d : DigitRec) (c : DownClaims) (u : UpClaims) :
    (s.withLine n r d c u).lkm = s.lkm := rfl
@[simp] theorem State.tmu_withLine (s : State) (n : LineId) (r : LineRec) (d : DigitRec) (c : DownClaims) (u : UpClaims) :
    (s.withLine n r d c u).tmu = s.tmu := rfl
@[simp] theorem State.callRec_withLine (s : State) (n : LineId) (r : LineRec) (d : DigitRec) (c : DownClaims) (u : UpClaims)
    (k : CallNo) : (s.withLine n r d c u).callRec k = s.callRec k := rfl
@[simp] theorem State.attr_withLine (s : State) (n : LineId) (r : LineRec) (d : DigitRec) (c : DownClaims) (u : UpClaims)
    (k : LineId) : (s.withLine n r d c u).attr k = s.attr k := rfl
@[simp] theorem State.testOn_withLine (s : State) (n : LineId) (r : LineRec) (d : DigitRec) (c : DownClaims) (u : UpClaims)
    (k : LineId) : (s.withLine n r d c u).testOn k = s.testOn k := rfl
@[simp] theorem State.lByte_withLine (s : State) (n : LineId) (r : LineRec) (d : DigitRec) (c : DownClaims) (u : UpClaims)
    (k : LineId) : (s.withLine n r d c u).lByte k = s.lByte k := rfl
@[simp] theorem State.eByte_withLine (s : State) (n : LineId) (r : LineRec) (d : DigitRec) (c : DownClaims) (u : UpClaims)
    (k : LineId) : (s.withLine n r d c u).eByte k = s.eByte k := rfl
@[simp] theorem State.part_withLine (s : State) (n : LineId) (r : LineRec) (d : DigitRec) (c : DownClaims) (u : UpClaims)
    (k : CallNo) : (s.withLine n r d c u).part k = s.part k := rfl
@[simp] theorem State.line_withLine_self (s : State) (n : LineId) (r : LineRec) (d : DigitRec) (c : DownClaims) (u : UpClaims) :
    (s.withLine n r d c u).line n = r := by simp [State.withLine, State.line]
@[simp] theorem State.digits_withLine_self (s : State) (n : LineId) (r : LineRec) (d : DigitRec) (c : DownClaims) (u : UpClaims) :
    (s.withLine n r d c u).digits n = d := by simp [State.withLine, State.digits]
@[simp] theorem State.down_withLine_self (s : State) (n : LineId) (r : LineRec) (d : DigitRec) (c : DownClaims) (u : UpClaims) :
    (s.withLine n r d c u).down n = c := by simp [State.withLine, State.down]
@[simp] theorem State.up_withLine_self (s : State) (n : LineId) (r : LineRec) (d : DigitRec) (c : DownClaims) (u : UpClaims) :
    (s.withLine n r d c u).up n = u := by simp [State.withLine, State.up]

@[simp] theorem State.withLine_setLine (s : State) (n : LineId) (q r : LineRec) (d : DigitRec) (c : DownClaims)
    (u : UpClaims) : (s.setLine n q).withLine n r d c u = s.withLine n r d c u := by
  simp [State.withLine, State.setLine]

@[simp] theorem State.withLine_setDigits (s : State) (n : LineId) (e : DigitRec) (r : LineRec) (d : DigitRec)
    (c : DownClaims) (u : UpClaims) : (s.setDigits n e).withLine n r d c u = s.withLine n r d c u := by
  simp [State.withLine, State.setDigits]

@[simp] theorem State.withLine_withLine (s : State) (n : LineId) (q : LineRec) (e : DigitRec) (k : DownClaims)
    (v : UpClaims) (r : LineRec) (d : DigitRec) (c : DownClaims) (u : UpClaims) :
    (s.withLine n q e k v).withLine n r d c u = s.withLine n r d c u := by
  simp [State.withLine]

@[simp] theorem State.modLine_withLine (s : State) (n : LineId) (r : LineRec) (d : DigitRec) (c : DownClaims)
    (u : UpClaims) (f : LineRec → LineRec) : (s.withLine n r d c u).modLine n f = s.withLine n (f r) d c u := by
  simp [State.withLine, State.modLine, State.setLine, State.line]

@[simp] theorem State.modDigits_withLine (s : State) (n : LineId) (r : LineRec) (d : DigitRec) (c : DownClaims)
    (u : UpClaims) (f : DigitRec → DigitRec) : (s.withLine n r d c u).modDigits n f = s.withLine n r (f d) c u := by
  simp [State.withLine, State.modDigits, State.setDigits, State.digits]

@[simp] theorem State.modDown_withLine (s : State) (n : LineId) (r : LineRec) (d : DigitRec) (c : DownClaims)
    (u : UpClaims) (f : DownClaims → DownClaims) : (s.withLine n r d c u).modDown n f = s.withLine n r d (f c) u := by
  simp [State.withLine, State.modDown, State.setDown, State.down]

@[simp] theorem State.modUp_withLine (s : State) (n : LineId) (r : LineRec) (d : DigitRec) (c : DownClaims)
    (u : UpClaims) (f : UpClaims → UpClaims) : (s.withLine n r d c u).modUp n f = s.withLine n r d c (f u) := by
  simp [State.withLine, State.modUp, State.setUp, State.up]

@[simp] theorem State.setLine_withLine (s : State) (n : LineId) (r : LineRec) (d : DigitRec) (c : DownClaims)
    (u : UpClaims) (x : LineRec) : (s.withLine n r d c u).setLine n x = s.withLine n x d c u := by
  simp [State.withLine, State.setLine]

@[simp] theorem State.setDigits_withLine (s : State) (n : LineId) (r : LineRec) (d : DigitRec) (c : DownClaims)
    (u : UpClaims) (x : DigitRec) : (s.withLine n r d c u).setDigits n x = s.withLine n r x c u := by
  simp [State.withLine, State.setDigits]

@[simp] theorem State.setDown_withLine (s : State) (n : LineId) (r : LineRec) (d : DigitRec) (c : DownClaims)
    (u : UpClaims) (x : DownClaims) : (s.withLine n r d c u).setDown n x = s.withLine n r d x u := by
  simp [State.withLine, State.setDown]

@[simp] theorem State.setUp_withLine (s : State) (n : LineId) (r : LineRec) (d : DigitRec) (c : DownClaims)
    (u : UpClaims) (x : UpClaims) : (s.withLine n r d c u).setUp n x = s.withLine n r d c x := by
  simp [State.withLine, State.setUp]

/-- A line record set alone. -/
theorem State.setLine_eq (s : State) (n : LineId) (r : LineRec) :
    s.setLine n r = s.withLine n r (s.digits n) (s.down n) (s.up n) := by
  simp [State.withLine, State.setLine, State.digits, State.down, State.up]

/-- No test that is in progress on the line takes this interval's byte: there is none, or it has just begun. -/
def State.testRests (s : State) (n : LineId) : Prop := ∀ x, s.testOn n = some x → x.fresh = true

theorem State.testRests_of_none {s : State} {n : LineId} (h : s.testOn n = none) : s.testRests n := by
  simp [State.testRests, h]

theorem State.testByte_of_rests {s : State} {n : LineId} (h : s.testRests n) (b : Byte) (good : Bool) :
    s.testByte n b good = s := by
  unfold State.testByte
  cases hx : s.testOn n with
  | none => rfl
  | some x => simp [h x hx]

/-! The entries. -/

/-- Everything an entry changes in the records of its line, before its reports. -/
theorem State.clearLine_eq : s.clearLine n =
    s.withLine n (s.line n) DigitRec.initial (s.down n).noLsv ⟨false, none, false⟩ := by
  simp [State.clearLine, State.discardDigits, State.withLine, State.modDown, State.modUp, State.setDigits, State.setDown,
    State.setUp, State.up, State.down, State.line]

theorem State.enterIdle_eq : s.enterIdle n =
    s.withLine n { ((s.line n).withLoop .opened).noLockout with state := .idle, faultReason := none }
      DigitRec.initial (s.down n).noLsv ⟨false, none, false⟩ := by
  simp [State.enterIdle, State.clearLine_eq, State.withLine, State.modLine, State.setLine, State.line]

theorem State.enterThrough_eq : s.enterThrough n =
    s.withLine n { ((s.line n).withLoop .closed).noLockout with state := .through, faultReason := none }
      DigitRec.initial (s.down n).noLsv ⟨false, none, false⟩ := by
  simp [State.enterThrough, State.clearLine_eq, State.withLine, State.modLine, State.setLine, State.line]

theorem State.enterCall_eq (k : CallKind) : s.enterCall n k =
    s.withLine n { (s.line n).noLockout with state := .call } DigitRec.initial (s.down n).noLsv
      ⟨false, none, decide (k = .rv)⟩ := by
  simp [State.enterCall, State.clearLine_eq, State.withLine, State.modLine, State.setLine, State.line, State.modUp,
    State.setUp, State.up]

theorem State.enterBlocked_eq : s.enterBlocked n =
    s.withLine n
      { (s.line n).noLockout with
        state := .blocked, loop := .opened, seizureCount := 0, onHookCount := 0, faultReason := none }
      DigitRec.initial { (s.down n).noLsv with blocked := some .feedOff } ⟨false, none, true⟩ := by
  simp [State.enterBlocked, State.clearLine_eq, State.withLine, State.modLine, State.setLine, State.line, State.modUp,
    State.setUp, State.up, State.modDown, State.setDown, State.down]

theorem State.enterCollecting_eq : s.enterCollecting n =
    s.withLine n { (s.line n).withLoop .closed with state := .collecting }
      { DigitRec.initial with collection := some { kind := .firstDigit, left := 2000 } }
      { (s.down n).noLsv with collecting := some .dialTone } ⟨false, none, true⟩ := by
  simp [State.enterCollecting, State.clearLine_eq, State.withLine, State.modLine, State.setLine, State.line, State.modUp,
    State.setUp, State.up, State.modDown, State.setDown, State.down, State.modDigits, State.setDigits, State.digits]

theorem State.enterReplaying_eq : s.enterReplaying n =
    s.withLine n { (s.line n).withLoop .closed with state := .replaying }
      { s.digits n with
        collection := none, generator := .toneWait, generatorTimer := 100, sending := none, quiet := 0 }
      (s.down n).noLsv { s.up n with onHook := true, replay := some .closed } := by
  simp [State.enterReplaying, State.withLine, State.modLine, State.setLine, State.line, State.modUp,
    State.setUp, State.up, State.modDown, State.setDown, State.down, State.modDigits, State.setDigits, State.digits]

theorem State.enterLockout_eq : s.enterLockout n =
    (s.withLine n
      { (s.line n).withLoop .closed with
        state := .lockout, faultReason := none, lockoutTimer := some 6000, lockoutPhase := some .tone }
      DigitRec.initial { (s.down n).noLsv with lockout := some .hangupTone } ⟨false, none, true⟩).reported
      [.notice (.lineLockout n), .peg .lockout (some n)] := by
  simp [State.enterLockout, State.clearLine_eq, State.withLine, State.modLine, State.setLine, State.line, State.modUp,
    State.setUp, State.up, State.modDown, State.setDown, State.down, State.reported, lockoutIntervals]

end Sys2Proof.Machine
end

