-- ==== Sys2Proof/Laws/Calls.lean ====
section
/-! SUPPORT. The end of a call and its direction of the line, as records; tests that do not stand. -/

namespace Sys2Proof.Machine

variable {s : State} {n : LineId} {c : CallNo} {r : CallRec}

/-- Where an end directs a line that it directs (R141 step 4), from a state that is not FAULT, BLOCKED or IDLE. -/
def directed (l : LineRec) (d : Direction) : LineRec :=
  match d with
  | .nowhere => l
  | .idle => { (l.withLoop .opened).noLockout with state := .idle, faultReason := none }
  | .through => { (l.withLoop .closed).noLockout with state := .through, faultReason := none }
  | .lockout =>
    { l.withLoop .closed with
      state := .lockout, faultReason := none, lockoutTimer := some 6000, lockoutPhase := some .tone }

theorem State.withLine_self (s : State) (n : LineId) : s.withLine n (s.line n) (s.digits n) (s.down n) (s.up n) = s := by
  simp [State.withLine, State.line, State.digits, State.down, State.up]

/-- A line in CALL directed (R141 step 4). -/
theorem State.direct_of_call (s : State) (h : (s.line n).state = .call) (d : Direction) : s.direct n d =
    match d with
    | .nowhere => s
    | .lockout => (s.withLine n (directed (s.line n) .lockout) DigitRec.initial
        { (s.down n).noLsv with lockout := some .hangupTone } ⟨false, none, true⟩).reported
        [.notice (.lineLockout n), .peg .lockout (some n)]
    | d => s.withLine n (directed (s.line n) d) DigitRec.initial (s.down n).noLsv ⟨false, none, false⟩ := by
  cases d <;> simp [State.direct, h, State.enterIdle_eq, State.enterThrough_eq, State.enterLockout_eq, directed]

@[simp] theorem State.direct_nowhere (s : State) (n : LineId) : s.direct n .nowhere = s := by
  unfold State.direct; split <;> rfl

/-- No request of the line: it has no requester. -/
theorem State.requestersOn_untested (h : s.untested n) : s.requestersOn n = [] := by
  have : s.itu.queue.find? (fun q => decide (q.line = n)) = none := by
    simpa using h.2
  simp [State.requestersOn, h.1, this]

/-- A call that holds no test request withdraws nothing (R117). -/
theorem State.withdrawTest_untested (h : s.untested n) : s.withdrawTest c n = s := by
  simp [State.withdrawTest, State.requestersOn_untested h]

/-- A line without a test request has none to abort (R116). -/
theorem State.abortTest_untested (h : s.untested n) : s.abortTest n = s := by
  have : s.itu.queue.any (fun q => decide (q.line = n)) = false := by
    simpa using h.2
  simp [State.abortTest, h.1, this]

/-- The reports of an aborted request (R116). -/
def abortReports (n : LineId) (rs : List Requester) : List Report :=
  (if .exchange ∈ rs then [.notice (.identity n .aborted none none)] else []) ++ [.peg .testAborted (some n)]

theorem State.reported_abort (s : State) (n : LineId) (rs : List Requester) :
    s.reported (abortReports n rs) = (s.notifyAborted n rs).peg .testAborted (some n) := by
  simp only [abortReports, State.notifyAborted, List.contains_iff_mem]
  split <;> rfl

/-- The abort of a waiting request (R116). -/
theorem State.abortTest_of_waiting {older younger : List TestRequest} {rs : List Requester}
    (h : s.testOn n = none) (hq : s.itu.queue = older ++ ⟨n, rs⟩ :: younger)
    (ho : ∀ q ∈ older ++ younger, q.line ≠ n) : s.abortTest n =
    State.reported { s with itu := { s.itu with queue := older ++ younger } } (abortReports n rs) := by
  have h1 : ∀ q ∈ older, q.line ≠ n := fun q hq => ho q (List.mem_append_left _ hq)
  have h2 : ∀ q ∈ younger, q.line ≠ n := fun q hq => ho q (List.mem_append_right _ hq)
  have hf : older.find? (fun q => decide (q.line = n)) = none := by simpa using h1
  have h3 : older.filter (fun q => decide (q.line ≠ n)) = older := List.filter_eq_self.2 (by simpa using h1)
  have h4 : younger.filter (fun q => decide (q.line ≠ n)) = younger := List.filter_eq_self.2 (by simpa using h2)
  have h5 : (older ++ ⟨n, rs⟩ :: younger).filter (fun q => decide (q.line ≠ n)) = older ++ younger := by
    rw [List.filter_append, h3, List.filter_cons_of_neg (by simp), h4]
  have hr : s.requestersOn n = rs := by simp [State.requestersOn, h, hq, List.find?_append, hf]
  have ha : s.itu.queue.any (fun q => decide (q.line = n)) = true := by simp [hq]
  simp only [State.abortTest, h, hr, ha, if_true, State.reported_abort]
  rw [hq, h5]; rfl

/-- The abort of the test in progress (R116), before the next test begins. -/
theorem State.abortTest_of_test {x : Test} (h : s.testOn n = some x) : s.abortTest n =
    ((s.dropTest n).reported (abortReports n x.requesters)).nextTest := by
  simp only [State.abortTest, State.requestersOn, h, State.reported_abort]

/-- A line without a request has none to abort at an on-hook. -/
theorem State.abortAtOnHook_untested (h : s.untested n) : s.abortAtOnHook n = s := by
  have : s.itu.queue.any (fun q => decide (q.line = n)) = false := by
    simpa using h.2
  simp [State.abortAtOnHook, h.1, this]

/-- The abort of the test in progress at an on-hook (R116): the claim, the requesters in order, the peg, the next. -/
theorem State.abortAtOnHook_of_test {x : Test} (h : s.testOn n = some x) : s.abortAtOnHook n =
    ((x.requesters.foldl (fun s x => s.deliverAborted n x) (s.dropTest n)).peg .testAborted (some n)).nextTest := by
  simp [State.abortAtOnHook, State.dropRequest, State.requestersOn, h]

/-- The abort of a waiting request at an on-hook (R116). -/
theorem State.abortAtOnHook_of_waiting {older younger : List TestRequest} {rs : List Requester}
    (h : s.testOn n = none) (hq : s.itu.queue = older ++ ⟨n, rs⟩ :: younger)
    (ho : ∀ q ∈ older ++ younger, q.line ≠ n) : s.abortAtOnHook n =
    (rs.foldl (fun s x => s.deliverAborted n x)
      (s.setItu { s.itu with queue := older ++ younger })).peg .testAborted (some n) := by
  have h1 : ∀ q ∈ older, q.line ≠ n := fun q hq => ho q (List.mem_append_left _ hq)
  have h2 : ∀ q ∈ younger, q.line ≠ n := fun q hq => ho q (List.mem_append_right _ hq)
  have hf : older.find? (fun q => decide (q.line = n)) = none := by simpa using h1
  have h3 : older.filter (fun q => decide (q.line ≠ n)) = older := List.filter_eq_self.2 (by simpa using h1)
  have h4 : younger.filter (fun q => decide (q.line ≠ n)) = younger := List.filter_eq_self.2 (by simpa using h2)
  have h5 : (older ++ ⟨n, rs⟩ :: younger).filter (fun q => decide (q.line ≠ n)) = older ++ younger := by
    rw [List.filter_append, h3, List.filter_cons_of_neg (by simp), h4]
  have hr : s.requestersOn n = rs := by simp [State.requestersOn, h, hq, List.find?_append, hf]
  have ha : s.itu.queue.any (fun q => decide (q.line = n)) = true := by simp [hq]
  simp only [State.abortAtOnHook, State.dropRequest, h, hr, ha, Option.isSome_none, Bool.false_eq_true, if_false,
    if_true]
  rw [hq, h5]

/-- A line's call is beside its request when the line has none. -/
theorem State.callBesideTest_untested (h : s.untested n) : s.callBesideTest n = s.callOn n := by
  cases hc : s.callOn n <;> simp [State.callBesideTest, State.requestersOn_untested h, hc]

/-- What the end of a call does (R141), when no test request of it stands or the test is aborted by the ITU itself. -/
theorem State.endCall_eq (hc : s.callRec c = some r) (result : EndResult) (d : Direction)
    (e : Option PegEvent) (w : Bool) (hu : w = true → s.untested r.line) :
    s.endCall c result d e w =
      ((((s.freed c r).modDown r.line (fun p => { p with call := none })).direct r.line d).reported
        ([.notice (.callEnd (callEndOf c r result))] ++ e.toList.map (fun e => .peg e (some r.line)))) := by
  have hr : s.releaseRing c = if r.ringPart then (s.hand (.release c)).modCall c (fun r => { r with ringPart := false }) else s := by
    simp [State.releaseRing, hc]
  have hw : (if w then (s.releaseRing c).withdrawTest c r.line else s.releaseRing c) = s.releaseRing c := by
    cases w with
    | false => rfl
    | true =>
      have hu' : (s.releaseRing c).untested r.line := by rw [hr]; split <;> exact hu rfl
      simp only [if_true, State.withdrawTest_untested hu']
  have key : ∀ (x : Vector (Option CallRec) 24) (t : State) (d : Direction),
      ({ t with csq := x } : State).direct r.line d = { t.direct r.line d with csq := x } := by
    intro x t d
    have h1 : ({ t with csq := x } : State).line r.line = t.line r.line := rfl
    simp only [State.direct, h1]
    split
    · rfl
    · rfl
    · rfl
    · cases d
      · rfl
      · simp only [State.enterIdle_eq]; rfl
      · simp only [State.enterThrough_eq]; split <;> rfl
      · simp only [State.enterLockout_eq]; split
        · rfl
        · obtain ⟨f, hf⟩ := State.reported_uniform [.notice (.lineLockout r.line), .peg .lockout (some r.line)]
          rw [hf, hf]; rfl
  unfold State.endCall
  simp only [hc, hw]
  have hf : ∀ u : State, (s.releaseRing c).modDown r.line (fun p => { p with call := none }) = u →
      (s.freed c r).modDown r.line (fun p => { p with call := none }) = { u with csq := tset s.csq c none } := by
    rintro u rfl
    rw [hr, State.freed]
    split
    · rfl
    · simp [State.handed, State.modDown, State.setDown, State.down]
  have hq : tset (s.releaseRing c).csq c none = tset s.csq c none := by
    rw [hr]; split
    · simp [State.modCall, State.setCall]
    · rfl
  have huc : ((s.releaseRing c).modDown r.line (fun p => { p with call := none })).csq = (s.releaseRing c).csq := rfl
  generalize hu : (s.releaseRing c).modDown r.line (fun p => { p with call := none }) = u at huc ⊢
  rw [hf u hu, key (tset s.csq c none) u d]
  generalize ht : u.direct r.line d = t
  have htc : t.csq = (s.releaseRing c).csq := by
    rw [← ht, ← huc]
    simp only [State.direct]
    split
    · rfl
    · rfl
    · rfl
    · cases d
      · rfl
      · simp only [State.enterIdle_eq]; rfl
      · simp only [State.enterThrough_eq]; split <;> rfl
      · simp only [State.enterLockout_eq]; split
        · rfl
        · simp
  have hp : (t.notify (.callEnd (callEndOf c r result))).pegOpt e r.line =
      t.reported ([.notice (.callEnd (callEndOf c r result))] ++ e.toList.map (fun e => .peg e (some r.line))) := by
    cases e <;> simp [State.pegOpt, State.reported]
  rw [hp]
  have := State.reported_update ([.notice (.callEnd (callEndOf c r result))] ++ e.toList.map (fun e => .peg e (some r.line)))
    t { t with csq := tset s.csq c none } rfl rfl
  rw [this]
  obtain ⟨f, hf⟩ := State.reported_uniform ([.notice (.callEnd (callEndOf c r result))] ++ e.toList.map (fun e => .peg e (some r.line)))
  rw [State.setCall, hf, ← hq, ← htc]

/-! What `freed` leaves. -/

@[simp] theorem State.pending_freed (s : State) (c : CallNo) (r : CallRec) : (s.freed c r).pending = s.pending := rfl
@[simp] theorem State.pins_freed (s : State) (c : CallNo) (r : CallRec) : (s.freed c r).pins = s.pins := rfl
@[simp] theorem State.hwi_freed (s : State) (c : CallNo) (r : CallRec) : (s.freed c r).hwi = s.hwi := rfl
@[simp] theorem State.lsv_freed (s : State) (c : CallNo) (r : CallRec) : (s.freed c r).lsv = s.lsv := rfl
@[simp] theorem State.dgu_freed (s : State) (c : CallNo) (r : CallRec) : (s.freed c r).dgu = s.dgu := rfl
@[simp] theorem State.ptb_freed (s : State) (c : CallNo) (r : CallRec) : (s.freed c r).ptb = s.ptb := rfl
@[simp] theorem State.itu_freed (s : State) (c : CallNo) (r : CallRec) : (s.freed c r).itu = s.itu := rfl
@[simp] theorem State.mgp_freed (s : State) (c : CallNo) (r : CallRec) : (s.freed c r).mgp = s.mgp := rfl
@[simp] theorem State.lkm_freed (s : State) (c : CallNo) (r : CallRec) : (s.freed c r).lkm = s.lkm := rfl
@[simp] theorem State.tmu_freed (s : State) (c : CallNo) (r : CallRec) : (s.freed c r).tmu = s.tmu := rfl
@[simp] theorem State.line_freed (s : State) (c : CallNo) (r : CallRec) (k : LineId) : (s.freed c r).line k = s.line k := rfl
@[simp] theorem State.digits_freed (s : State) (c : CallNo) (r : CallRec) (k : LineId) : (s.freed c r).digits k = s.digits k := rfl
@[simp] theorem State.down_freed (s : State) (c : CallNo) (r : CallRec) (k : LineId) : (s.freed c r).down k = s.down k := rfl
@[simp] theorem State.up_freed (s : State) (c : CallNo) (r : CallRec) (k : LineId) : (s.freed c r).up k = s.up k := rfl
@[simp] theorem State.testOn_freed (s : State) (c : CallNo) (r : CallRec) (k : LineId) : (s.freed c r).testOn k = s.testOn k := rfl

/-- The reports of an end: its notice, then the peg its rule names (R141 step 5). -/
def endReports (c : CallNo) (r : CallRec) (result : EndResult) (e : Option PegEvent) : List Report :=
  .notice (.callEnd (callEndOf c r result)) :: e.toList.map (fun e => .peg e (some r.line))

/-- The end of a call whose line stands in CALL (R141), when no test request of it stands or none is withdrawn. -/
theorem State.endCall_of_call_if (hc : s.callRec c = some r) (w : Bool) (hu : w = true → s.untested r.line)
    (hs : (s.line r.line).state = .call) (result : EndResult) (d : Direction) (e : Option PegEvent) :
    s.endCall c result d e w =
      match d with
      | .nowhere => ((s.freed c r).withLine r.line (s.line r.line) (s.digits r.line)
          { s.down r.line with call := none } (s.up r.line)).reported (endReports c r result e)
      | .lockout => ((s.freed c r).withLine r.line (directed (s.line r.line) .lockout) DigitRec.initial
          { (s.down r.line).noLsv with call := none, lockout := some .hangupTone } ⟨false, none, true⟩).reported
          (.notice (.lineLockout r.line) :: .peg .lockout (some r.line) :: endReports c r result e)
      | d => ((s.freed c r).withLine r.line (directed (s.line r.line) d) DigitRec.initial
          { (s.down r.line).noLsv with call := none } ⟨false, none, false⟩).reported (endReports c r result e) := by
  rw [State.endCall_eq hc result d e w hu, State.direct_of_call _ (by simpa using hs)]
  have hm : ∀ (q : LineRec) (x : DigitRec) (k : DownClaims) (u : UpClaims) (f : DownClaims → DownClaims),
      ((s.freed c r).modDown r.line f).withLine r.line q x k u = (s.freed c r).withLine r.line q x k u := by
    intro q x k u f
    simp [State.withLine, State.modDown, State.setDown]
  cases d
  · simp [endReports, State.modDown, State.setDown, State.withLine, State.line, State.digits, State.up]
  · simp only [endReports, hm]; simp [DownClaims.noLsv]
  · simp only [endReports, hm]; simp [DownClaims.noLsv]
  · simp only [endReports, hm, ← State.reported_append]; simp [DownClaims.noLsv]

/-- The end of a call whose line stands in CALL (R141), when no test request of it stands. -/
theorem State.endCall_of_call (hc : s.callRec c = some r) (hu : s.untested r.line)
    (hs : (s.line r.line).state = .call) (result : EndResult) (d : Direction) (e : Option PegEvent) (w : Bool) :
    s.endCall c result d e w =
      match d with
      | .nowhere => ((s.freed c r).withLine r.line (s.line r.line) (s.digits r.line)
          { s.down r.line with call := none } (s.up r.line)).reported (endReports c r result e)
      | .lockout => ((s.freed c r).withLine r.line (directed (s.line r.line) .lockout) DigitRec.initial
          { (s.down r.line).noLsv with call := none, lockout := some .hangupTone } ⟨false, none, true⟩).reported
          (.notice (.lineLockout r.line) :: .peg .lockout (some r.line) :: endReports c r result e)
      | d => ((s.freed c r).withLine r.line (directed (s.line r.line) d) DigitRec.initial
          { (s.down r.line).noLsv with call := none } ⟨false, none, false⟩).reported (endReports c r result e) :=
  State.endCall_of_call_if hc w (fun _ => hu) hs result d e

end Sys2Proof.Machine
end

