-- ==== Sys2Proof/Laws/Bytes.lean ====
section
/-! SUPPORT. The byte event of a line, by what the LSV finds in the byte. -/

namespace Sys2Proof.Machine

variable {s t : State} {n : LineId} {r : LineRec} {v : Verdict}

/-- The byte of a line not in FAULT that shows no fault is judged by its qualification alone (R64). -/
theorem State.judgeLine_of (hf : upFault (s.lByte n) = none) (hs : (s.line n).state ≠ .fault) :
    s.judgeLine n = ({ s.line n with faultCount := 0 } : LineRec).qualify s.timing (s.ringView n) (s.lByte n) := by
  simp [State.judgeLine, LineRec.judge, hs, hf]

/-- A line whose supervised loop is CLOSED runs on-hook qualification (R65). -/
theorem State.judgeLine_closed (hf : upFault (s.lByte n) = none) (hl : (s.line n).loop = .closed)
    (hs : (s.line n).state = .call ∨ (s.line n).state = .collecting ∨ (s.line n).state = .replaying ∨
      (s.line n).state = .through ∨ (s.line n).state = .lockout) :
    s.judgeLine n = ({ s.line n with faultCount := 0 } : LineRec).judgeOnHook s.timing (s.lByte n) := by
  rw [State.judgeLine_of hf (by rcases hs with h | h | h | h | h <;> simp [h])]
  rcases hs with h | h | h | h | h <;> simp [LineRec.qualify, h, hl]

/-- A line in THROUGH finds an on-hook in its byte in force exactly when the byte is open, enters no fault, and completes
the count of a closed loop (R69, R72). -/
theorem State.verdict_onHook_iff (h : (s.line n).state = .through) :
    s.verdict n = .onHook ↔
      upLoop (s.lByte n) = .opened ∧ (s.line n).loop = .closed ∧
        (upFault (s.lByte n) = none ∨ (s.line n).faultCount + 1 < 20) ∧
        s.timing.onHookQualify ≤ (s.line n).onHookCount + 1 := by
  have hq : ∀ r : LineRec, r.state = .through → r.loop = (s.line n).loop → r.onHookCount = (s.line n).onHookCount →
      ((r.qualify s.timing (s.ringView n) (s.lByte n)).2 = .onHook ↔
        upLoop (s.lByte n) = .opened ∧ (s.line n).loop = .closed ∧
          s.timing.onHookQualify ≤ (s.line n).onHookCount + 1) := by
    intro r hs hl hc
    unfold LineRec.qualify
    cases hr : (s.line n).loop <;> simp only [hs, hl, hr]
    · simp
    · unfold LineRec.judgeOnHook
      split_ifs <;> simp_all
  unfold State.verdict State.judgeLine LineRec.judge
  rw [if_neg (by simp [h])]
  cases hf : upFault (s.lByte n) with
  | none => simpa using hq { s.line n with faultCount := 0 } h rfl rfl
  | some reason =>
    have hq' := hq { s.line n with faultCount := (s.line n).faultCount + 1 } h rfl rfl
    by_cases hc : faultQualify ≤ (s.line n).faultCount + 1
    · have hc' : ¬ (s.line n).faultCount + 1 < 20 := Nat.not_lt.mpr hc
      simp [hc, hc']
    · have hc' : (s.line n).faultCount + 1 < 20 := Nat.not_le.mp hc
      simpa [hc, hc'] using hq'

theorem State.onHookMeets_iff (h : (s.line n).state = .through) :
    s.onHookMeets n = true ↔
      upLoop (s.lByte n) = .opened ∧ (s.line n).loop = .closed ∧
        (upFault (s.lByte n) = none ∨ (s.line n).faultCount + 1 < 20) ∧
        s.timing.onHookQualify ≤ (s.line n).onHookCount + 1 ∧ tget s.hwi.byteWaits n = true := by
  simp only [State.onHookMeets, Bool.and_eq_true, decide_eq_true_eq, State.verdict_onHook_iff h]
  tauto

/-- A byte event in which the LSV takes something, and no test of the line takes the byte after it. -/
theorem lineByte_of_verdict (hj : s.judgeLine n = (r, v)) (hv : v ≠ .nothing)
    (ht : (s.setLine n r).takeVerdict n (s.lByte n) v = t) (hu : t.testRests n) :
    exec (.lineByte n) s = .next (t.byteTaken n) := by
  simp only [exec, execLineByte, State.lineByteEvent, hj, ht, State.digitStep, hv, if_false,
    State.testByte_of_rests hu]

/-- A byte event in which the LSV takes nothing, on a line that the Digit Unit does not serve. -/
theorem lineByte_of_nothing (hj : s.judgeLine n = (r, .nothing)) (hd : (s.line n).state ≠ .collecting)
    (hr : (s.line n).state ≠ .replaying) (hu : s.testRests n) :
    exec (.lineByte n) s = .next ((s.setLine n r).byteTaken n) := by
  have hb : ∀ t : State, t.digitByte n (s.line n).state (upLoop (s.lByte n)) = t := by
    intro t; unfold State.digitByte; split <;> simp_all
  have hu' : (s.setLine n r).testRests n := hu
  simp only [exec, execLineByte, State.lineByteEvent, hj, State.takeVerdict, State.digitStep, if_true, hb,
    State.testByte_of_rests hu']

/-- A byte event in which the LSV takes nothing, on a line that the Digit Unit serves. -/
theorem lineByte_of_digits (hj : s.judgeLine n = (r, .nothing))
    (ht : (s.setLine n r).digitByte n (s.line n).state (upLoop (s.lByte n)) = t) (hu : t.testRests n) :
    exec (.lineByte n) s = .next (t.byteTaken n) := by
  simp only [exec, execLineByte, State.lineByteEvent, hj, State.takeVerdict, State.digitStep, if_true, ht,
    State.testByte_of_rests hu]

/-! An event row is the byte event, when the thing named comes about in it (log 3). -/

theorem seizureQualify_of (hj : s.judgeLine n = (r, .seizure)) :
    exec (.seizureQualify n) s = exec (.lineByte n) s := by
  simp [exec, execSeizureQualify, execLineByte, State.byteEventIf, State.verdict, hj]

theorem callSeizure_of (hj : s.judgeLine n = (r, .callSeizure)) :
    exec (.callSeizure n) s = exec (.lineByte n) s := by
  simp [exec, execCallSeizure, execLineByte, State.byteEventIf, State.verdict, hj]

theorem onHook_of (hj : s.judgeLine n = (r, .onHook)) : exec (.onHook n) s = exec (.lineByte n) s := by
  simp [exec, execOnHook, execLineByte, State.byteEventIf, State.verdict, hj]

theorem trip_of (hj : s.judgeLine n = (r, .trip)) : exec (.trip n) s = exec (.lineByte n) s := by
  simp [exec, execTrip, execLineByte, State.byteEventIf, State.verdict, hj]

theorem faultEntry_of {x : FaultReason} (hj : s.judgeLine n = (r, .faultEntry x)) :
    exec (.faultEntry n) s = exec (.lineByte n) s := by
  simp [exec, execFaultEntry, execLineByte, State.byteEventIf, State.verdict, hj, Verdict.isFaultEntry]

theorem faultCleared_of (hj : s.judgeLine n = (r, .faultCleared)) :
    exec (.faultCleared n) s = exec (.lineByte n) s := by
  simp [exec, execFaultCleared, execLineByte, State.byteEventIf, State.verdict, hj]

/-! Ring parts by line and by call. -/

/-- The one ringing part of a line, among parts of other lines and calls. -/
theorem State.ringingPart_of {s : State} {n : LineId} {older younger : List RingPart} {p : RingPart} {k : Slot}
    (hp : s.rsc.parts = older ++ p :: younger) (ho : ∀ o ∈ older ++ younger, o.line ≠ n ∧ o.call ≠ p.call)
    (hn : p.line = n) (hk : p.status = .placed k false) : s.ringingPart n = some p := by
  unfold State.ringingPart
  rw [hp, List.find?_append]
  have : older.find? (fun p => decide (p.line = n) && p.isRinging) = none := by
    rw [List.find?_eq_none]
    intro o h
    simp [(ho o (by simp [h])).1]
  simp only [this, Option.none_or]; simp [hn, RingPart.isRinging, hk]

/-- A ring claim carries RING when it names a bus and a leg. -/
theorem isRingCode_iff (x : Option DownCode) : isRingCode x = true ↔ ∃ b l, x = some (.ring b l) := by
  unfold isRingCode
  split <;> simp_all

/-- The part of a call changed, among parts of other calls. -/
theorem State.modPart_of {s : State} {n : LineId} {older younger : List RingPart} {p : RingPart}
    (hp : s.rsc.parts = older ++ p :: younger) (ho : ∀ o ∈ older ++ younger, o.line ≠ n ∧ o.call ≠ p.call) (f : RingPart → RingPart) :
    s.modPart p.call f = { s with rsc := { s.rsc with parts := older ++ f p :: younger } } := by
  have h : ∀ l : List RingPart, (∀ o ∈ l, o.call ≠ p.call) → l.map (fun q => if q.call = p.call then f q else q) = l := by
    intro l hl
    conv_rhs => rw [← List.map_id l]
    apply List.map_congr_left
    intro o h; simp [hl o h]
  simp only [State.modPart, hp, List.map_append, List.map_cons, if_true]
  rw [h older (fun o ho' => (ho o (by simp [ho'])).2), h younger (fun o ho' => (ho o (by simp [ho'])).2)]

/-- The release request of a call that holds a ring part (R141 step 1). -/
theorem State.releaseRing_eq {s : State} {c : CallNo} {rec : CallRec} (hr : s.callRec c = some rec) : s.releaseRing c =
    if rec.ringPart then { s.handed [.release c] with csq := tset s.csq c (some { rec with ringPart := false }) } else s := by
  have : tget s.csq c = some rec := hr
  simp only [State.releaseRing, hr]
  split
  · simp [State.modCall, State.setCall, State.hand, State.handed, State.callRec, this]
  · rfl

/-! The lowest free call number (R121). -/

theorem callNos_getElem : ∀ i : Fin 24, callNos[i.val]'(by have := i.isLt; simp [callNos]) = i := by decide

theorem State.freeCall_of {c : CallNo} (h : s.callRec c = none) (hl : ∀ k, k < c → s.callRec k ≠ none) :
    s.freeCall = some c := by
  unfold State.freeCall
  rw [List.find?_eq_some_iff_getElem]
  refine ⟨by simp [h], c.val, by have := c.isLt; simp [callNos], callNos_getElem c, ?_⟩
  intro j hj
  have hj24 : j < 24 := by omega
  have := hl ⟨j, hj24⟩ (by simpa [Fin.lt_def] using hj)
  rw [show callNos[j]'(by simpa [callNos] using hj24) = ⟨j, hj24⟩ from callNos_getElem ⟨j, hj24⟩]
  simpa [Option.isSome_iff_ne_none] using this

theorem State.freeCall_none (h : ∀ c, s.callRec c ≠ none) : s.freeCall = none := by
  unfold State.freeCall
  rw [List.find?_eq_none]
  intro c _
  simpa [Option.isSome_iff_ne_none] using h c

/-! The comparison with the revert codes (R93). -/

theorem State.codeOf_iff {p : PartyId} {b : List Nat} (hb : b ≠ []) :
    (s.codeOf n p ≠ [] ∧ s.codeOf n p = b) ↔ ∃ e, s.party n p = some e ∧ e.code = b := by
  cases h : s.party n p with
  | none => simp [State.codeOf, h]
  | some e => simp [State.codeOf, h]; rintro rfl; exact hb

theorem State.compareCodes_isCode {p : PartyId} {b : List Nat} (hb : b ≠ [])
    (h : ∃ e, s.party n p = some e ∧ e.code = b)
    (hu : ∀ q, (∃ e, s.party n q = some e ∧ e.code = b) → q = p) : s.compareCodes n b = .isCode p := by
  unfold State.compareCodes
  simp only [State.codeOf_iff hb]
  cases hf : partyIds.find? (fun p => decide (∃ e, s.party n p = some e ∧ e.code = b)) with
  | none =>
    rw [List.find?_eq_none] at hf
    exact absurd h (by simpa using hf p (by simp))
  | some q =>
    have := List.find?_some hf
    simp only [decide_eq_true_eq] at this
    rw [hu q this]

theorem State.compareCodes_other {b : List Nat} (hb : b ≠ []) (h : ∀ p, ¬ ∃ e, s.party n p = some e ∧ e.code = b) :
    s.compareCodes n b =
      if partyIds.any (fun p => decide (b.length < (s.codeOf n p).length) && (b.isPrefixOf (s.codeOf n p))) then .opening
      else .mismatch := by
  unfold State.compareCodes
  simp only [State.codeOf_iff hb]
  rw [List.find?_eq_none.2 (by intro p _; simpa using h p)]

theorem State.opens_iff {b : List Nat} :
    partyIds.any (fun p => decide (b.length < (s.codeOf n p).length) && (b.isPrefixOf (s.codeOf n p))) = true ↔
      ∃ p e, s.party n p = some e ∧ b.length < e.code.length ∧ b <+: e.code := by
  simp only [List.any_eq_true, mem_partyIds, true_and]
  refine exists_congr fun p => ?_
  cases h : s.party n p with
  | none => simp [State.codeOf, h]
  | some e => simp [State.codeOf, h]

/-! The bridge idle (R108, R111). -/

/-- A request for a test when the bridge is idle begins it. -/
theorem State.requestTest_idle (h : s.itu = ⟨[], none⟩) (x : Requester) : s.requestTest n x =
    { s with
      itu := ⟨[], some ⟨n, [x], 0, true⟩⟩,
      hwi := { s.hwi with down := tset s.hwi.down n { s.down n with test := some .test } } } := by
  simp [State.requestTest, h, State.beginTest, State.setItu, State.modDown, State.setDown, State.down]

/-- No ringing part is on the line. -/
theorem State.ringView_none (h : ∀ p ∈ s.rsc.parts, p.line = n → ∀ k, p.status ≠ .placed k false) :
    s.ringView n = none := by
  have : s.rsc.parts.find? (fun p => decide (p.line = n) && p.isRinging) = none := by
    rw [List.find?_eq_none]
    intro p hp
    simp only [Bool.and_eq_true, decide_eq_true_eq, not_and]
    intro hl hr
    unfold RingPart.isRinging at hr
    split at hr
    · rename_i k b hs
      exact h p hp hl k (by rw [hs]; simp at hr; rw [hr])
    · simp at hr
  simp [State.ringView, State.ringingPart, this]

/-- The call on a line has its record, and the record names the line. -/
theorem State.callOn_some {c : CallNo} (h : s.callOn n = some c) : ∃ r, s.callRec c = some r ∧ r.line = n := by
  have := List.find?_some h
  cases hr : s.callRec c with
  | some r => exact ⟨r, rfl, by simpa [hr] using this⟩
  | none => simp [hr] at this

theorem State.callOnLine_of {c : CallNo} {r : CallRec} (h : s.callRec c = some r) : s.callOnLine c r.line = some r := by
  simp [State.callOnLine, h]

end Sys2Proof.Machine
end

