-- ==== Sys2Proof/Laws/Faults.lean ====
section
/-! SUPPORT. What the abort of a test and the entry into FAULT leave and set, whatever calls and tests stand. -/

namespace Sys2Proof.Machine

variable (s : State) (n : LineId)

/-- A line's downstream claims but for the TEST claim, which the bridge may move. -/
def DownClaims.untest (c : DownClaims) : DownClaims := { c with test := none }

@[simp] theorem State.untest_nextTest (m : LineId) : (s.nextTest.down m).untest = (s.down m).untest := by
  unfold State.nextTest
  split
  · rfl
  · rename_i q rest _
    by_cases hm : m = q.line
    · subst hm; simp [State.beginTest, DownClaims.untest]
    · simp [State.beginTest, hm]

@[simp] theorem State.untest_dropTest (m : LineId) : ((s.dropTest n).down m).untest = (s.down m).untest := by
  by_cases hm : m = n
  · subst hm; simp [State.dropTest, DownClaims.untest]
  · simp [State.dropTest, hm]

@[simp] theorem State.lsv_nextTest : s.nextTest.lsv = s.lsv := by
  unfold State.nextTest; split <;> simp [State.beginTest]

@[simp] theorem State.lsv_dropTest : (s.dropTest n).lsv = s.lsv := by simp [State.dropTest]

@[simp] theorem State.lsv_notifyAborted (rs : List Requester) : (s.notifyAborted n rs).lsv = s.lsv := by
  unfold State.notifyAborted; split <;> simp

@[simp] theorem State.lsv_abortTest : (s.abortTest n).lsv = s.lsv := by
  unfold State.abortTest
  simp only
  split
  · simp
  · split <;> simp

@[simp] theorem State.dgu_nextTest : s.nextTest.dgu = s.dgu := by
  unfold State.nextTest; split <;> simp [State.beginTest]

@[simp] theorem State.dgu_dropTest : (s.dropTest n).dgu = s.dgu := by simp [State.dropTest]

@[simp] theorem State.dgu_notifyAborted (rs : List Requester) : (s.notifyAborted n rs).dgu = s.dgu := by
  unfold State.notifyAborted; split <;> simp

@[simp] theorem State.dgu_abortTest : (s.abortTest n).dgu = s.dgu := by
  unfold State.abortTest
  simp only
  split
  · simp
  · split <;> simp

@[simp] theorem State.csq_nextTest : s.nextTest.csq = s.csq := by
  unfold State.nextTest; split <;> simp [State.beginTest]

@[simp] theorem State.csq_dropTest : (s.dropTest n).csq = s.csq := by simp [State.dropTest]

@[simp] theorem State.csq_notifyAborted (rs : List Requester) : (s.notifyAborted n rs).csq = s.csq := by
  unfold State.notifyAborted; split <;> simp

@[simp] theorem State.csq_abortTest : (s.abortTest n).csq = s.csq := by
  unfold State.abortTest
  simp only
  split
  · simp
  · split <;> simp

@[simp] theorem State.rsc_nextTest : s.nextTest.rsc = s.rsc := by
  unfold State.nextTest; split <;> simp [State.beginTest]

@[simp] theorem State.rsc_dropTest : (s.dropTest n).rsc = s.rsc := by simp [State.dropTest]

@[simp] theorem State.rsc_notifyAborted (rs : List Requester) : (s.notifyAborted n rs).rsc = s.rsc := by
  unfold State.notifyAborted; split <;> simp

@[simp] theorem State.rsc_abortTest : (s.abortTest n).rsc = s.rsc := by
  unfold State.abortTest
  simp only
  split
  · simp
  · split <;> simp

@[simp] theorem State.up_nextTest : s.nextTest.hwi.up = s.hwi.up := by
  unfold State.nextTest; split <;> simp [State.beginTest]

@[simp] theorem State.up_dropTest : (s.dropTest n).hwi.up = s.hwi.up := by simp [State.dropTest]

@[simp] theorem State.hwi_notifyAborted (rs : List Requester) : (s.notifyAborted n rs).hwi = s.hwi := by
  unfold State.notifyAborted; split <;> simp

@[simp] theorem State.up_abortTest : (s.abortTest n).hwi.up = s.hwi.up := by
  unfold State.abortTest
  simp only
  split
  · simp
  · split <;> simp

@[simp] theorem State.down_notifyAborted (rs : List Requester) (m : LineId) :
    (s.notifyAborted n rs).down m = s.down m := by
  simp [State.down]

/-- The abort of a line's test moves no claim but the TEST claim. -/
@[simp] theorem State.untest_abortTest (m : LineId) : ((s.abortTest n).down m).untest = (s.down m).untest := by
  unfold State.abortTest
  simp only
  split
  · simp
  · split <;> simp

/-! The end of a call that directs its line nowhere, with no withdrawal (R142). -/

variable (c : CallNo) (result : EndResult)

theorem State.releaseRing_cases : s.releaseRing c = s ∨
    ∃ x, s.releaseRing c = { s.handed [.release c] with csq := tset s.csq c x } := by
  cases hr : s.callRec c with
  | none => left; simp [State.releaseRing, hr]
  | some r =>
    rw [State.releaseRing_eq hr]
    split
    · exact Or.inr ⟨_, rfl⟩
    · exact Or.inl rfl

@[simp] theorem State.lsv_endCall_nowhere : (s.endCall c result .nowhere none false).lsv = s.lsv := by
  unfold State.endCall
  split
  · rfl
  · rcases s.releaseRing_cases c with h | ⟨x, h⟩ <;> simp [h, State.pegOpt, State.handed]

@[simp] theorem State.dgu_endCall_nowhere : (s.endCall c result .nowhere none false).dgu = s.dgu := by
  unfold State.endCall
  split
  · rfl
  · rcases s.releaseRing_cases c with h | ⟨x, h⟩ <;> simp [h, State.pegOpt, State.handed]

@[simp] theorem State.itu_endCall_nowhere : (s.endCall c result .nowhere none false).itu = s.itu := by
  unfold State.endCall
  split
  · rfl
  · rcases s.releaseRing_cases c with h | ⟨x, h⟩ <;> simp [h, State.pegOpt, State.handed]

@[simp] theorem State.up_endCall_nowhere : (s.endCall c result .nowhere none false).hwi.up = s.hwi.up := by
  unfold State.endCall
  split
  · rfl
  · rcases s.releaseRing_cases c with h | ⟨x, h⟩ <;> simp [h, State.pegOpt, State.handed]

/-- The call is gone, and every other call stands. -/
theorem State.callRec_endCall_nowhere (k : CallNo) : (s.endCall c result .nowhere none false).callRec k =
    if k = c then none else s.callRec k := by
  unfold State.endCall
  split
  · rename_i h; split <;> simp_all
  · simp only [State.callRec, State.setCall, tget_tset, Bool.false_eq_true, if_false, eq_comm (a := k)]
    split
    · rfl
    · rename_i hk
      rcases s.releaseRing_cases c with h | ⟨x, h⟩ <;> simp [h, State.pegOpt, State.handed, tget_tset, hk]

/-- No claim but the call claim of the call's line. -/
theorem State.down_endCall_nowhere (m : LineId) :
    { (s.endCall c result .nowhere none false).down m with call := none } = { s.down m with call := none } ∧
    ((∀ r, s.callRec c = some r → r.line ≠ m) → (s.endCall c result .nowhere none false).down m = s.down m) := by
  unfold State.endCall
  split
  · exact ⟨rfl, fun _ => rfl⟩
  · rename_i r hr
    have h : ∀ x, (s.releaseRing c).down x = s.down x := by
      intro x
      rcases s.releaseRing_cases c with h | ⟨x, h⟩ <;> simp [h, State.handed, State.down]
    by_cases hm : m = r.line
    · subst hm
      exact ⟨by simp [State.pegOpt, h], fun hx => absurd rfl (hx r hr)⟩
    · exact ⟨by simp [State.pegOpt, h, hm], fun _ => by simp [State.pegOpt, h, hm]⟩

/-! Entry into FAULT (R73). -/

variable (reason : FaultReason)

/-- The line record of R73 step 1. -/
def LineRec.faulted (r : LineRec) (reason : FaultReason) : LineRec :=
  { r.noLockout with
    state := .fault, faultReason := some reason, blockRecorded := r.blockRecorded || decide (r.state = .blocked),
    loop := .opened, seizureCount := 0, onHookCount := 0, faultCount := 0, clearCount := 0 }

/-- Steps 1 and 2 of R73. -/
theorem State.enterFault_eq : s.enterFault n reason =
    (let u := s.withLine n ((s.line n).faulted reason) (s.digits n) { (s.down n).noLsv with fault := some .feedOff }
      { s.up n with onHook := false, fault := true }
     let u := match s.callOn n with
       | some c => u.endCall c .fault .nowhere none false
       | none => u
     (((u.discardDigits n).abortTest n).notify (.lineFault n reason)).peg .lineFault (some n)) := by
  have h : ((s.modLine n (fun r => r.faulted reason)).modDown n
      (fun c => { c.noLsv with fault := some .feedOff })).modUp n (fun c => { c with onHook := false, fault := true }) =
      s.withLine n ((s.line n).faulted reason) (s.digits n) { (s.down n).noLsv with fault := some .feedOff }
        { s.up n with onHook := false, fault := true } := by
    simp [State.modLine, State.setLine, State.modDown, State.modUp, State.setDown, State.setUp, State.withLine,
      State.line, State.down, State.up, State.digits]
  simp only [← h]
  rfl

@[simp] theorem State.lsv_enterFault : (s.enterFault n reason).lsv = tset s.lsv n ((s.line n).faulted reason) := by
  rw [State.enterFault_eq]
  simp only [State.peg_lsv, State.notify_lsv, State.lsv_abortTest, State.discardDigits, State.modUp_lsv,
    State.setDigits_lsv]
  split <;> simp [State.withLine]

@[simp] theorem State.dgu_enterFault : (s.enterFault n reason).dgu = tset s.dgu n DigitRec.initial := by
  rw [State.enterFault_eq]
  simp only [State.peg_dgu, State.notify_dgu, State.dgu_abortTest, State.discardDigits, State.modUp_dgu,
    State.setDigits]
  split <;> simp [State.withLine]

@[simp] theorem State.up_enterFault : (s.enterFault n reason).hwi.up = tset s.hwi.up n ⟨true, none, false⟩ := by
  rw [State.enterFault_eq]
  simp only [State.peg_hwi, State.notify_hwi, State.up_abortTest, State.discardDigits, State.modUp, State.setUp,
    State.up, State.setDigits_hwi]
  split <;> simp [State.withLine]

theorem State.line_enterFault (m : LineId) : (s.enterFault n reason).line m =
    if n = m then (s.line n).faulted reason else s.line m := by
  simp [State.line, tget_tset]

theorem State.digits_enterFault (m : LineId) : (s.enterFault n reason).digits m =
    if n = m then DigitRec.initial else s.digits m := by
  simp [State.digits, tget_tset]

theorem State.up_enterFault' (m : LineId) : (s.enterFault n reason).up m =
    if n = m then ⟨true, none, false⟩ else s.up m := by
  simp [State.up, tget_tset]

/-- The call of the line is gone; every other call stands. -/
theorem State.callRec_enterFault (k : CallNo) : (s.enterFault n reason).callRec k =
    if s.callOn n = some k then none else s.callRec k := by
  have hq : ∀ t : State, ((((t.discardDigits n).abortTest n).notify (.lineFault n reason)).peg .lineFault
      (some n)).callRec k = t.callRec k := by
    intro t; simp [State.callRec, State.discardDigits]
  rw [State.enterFault_eq]
  simp only [hq]
  split
  · rename_i c hc
    rw [State.callRec_endCall_nowhere]
    simp [eq_comm (a := k), hc]
  · rename_i hc
    simp [hc]

/-- The claims of the line but for TEST and the call claim. -/
theorem State.down_enterFault (m : LineId) :
    (if n = m then { ((s.enterFault n reason).down m).untest with call := none } =
        { (s.down n).noLsv.untest with fault := some .feedOff, call := none }
      else ((s.enterFault n reason).down m).untest = (s.down m).untest) := by
  have hq : ∀ t : State, (((((t.discardDigits n).abortTest n).notify (.lineFault n reason)).peg .lineFault
      (some n)).down m).untest = (t.down m).untest := by
    intro t
    simp only [State.down_peg, State.down_notify, State.untest_abortTest]
    rfl
  rw [State.enterFault_eq]
  simp only [hq]
  split
  · rename_i h
    subst h
    split
    · rename_i c hc
      have := (State.down_endCall_nowhere (s.withLine n ((s.line n).faulted reason) (s.digits n)
        { (s.down n).noLsv with fault := some .feedOff } { s.up n with onHook := false, fault := true }) c .fault n).1
      have := congrArg DownClaims.untest this
      simpa [DownClaims.untest] using this
    · simp [DownClaims.untest]
  · rename_i h
    split
    · rename_i c hc
      obtain ⟨r, hr, hl⟩ := State.callOn_some hc
      rw [(State.down_endCall_nowhere _ c .fault m).2 (by
        intro r' hr'; rw [show (s.withLine _ _ _ _ _).callRec c = s.callRec c from rfl, hr] at hr'
        cases hr'; rw [hl]; exact h)]
      simp [State.withLine, State.down, tget_tset, h]
    · simp [State.withLine, State.down, tget_tset, h]

/-- Every other line keeps its call. -/
theorem State.callOn_enterFault {m : LineId} (h : m ≠ n) : (s.enterFault n reason).callOn m = s.callOn m := by
  simp only [State.callOn]
  congr 1
  funext k
  rw [State.callRec_enterFault]
  by_cases hk : s.callOn n = some k
  · obtain ⟨r, hr, hl⟩ := State.callOn_some hk
    simp [hk, hr, hl, Ne.symm h]
  · simp only [hk, if_false]

/-- The abort of a line's request (R116), from a state with the bridge of `s` and the claims of the other lines of `s`:
what comes of it holds when it holds in each of the four cases. -/
theorem State.abortTest_leads {s t : State} {n : LineId} (hi : t.itu = s.itu) (hd : ∀ m, m ≠ n → t.down m = s.down m)
    {f : State → Prop} (hf : f (t.abortTest n)) :
    (s.untested n → f t) ∧
    (∀ older younger rs, s.testOn n = none → (∀ q ∈ older ++ younger, q.line ≠ n) →
      s.itu.queue = older ++ ⟨n, rs⟩ :: younger →
      f (State.reported { t with itu := { s.itu with queue := older ++ younger } } (abortReports n rs))) ∧
    ∀ x, s.itu.inProgress = some x → x.line = n → (∀ q ∈ s.itu.queue, q.line ≠ n) →
      (s.itu.queue = [] → f (State.reported
        { t with itu := ⟨[], none⟩, hwi := { t.hwi with down := tset t.hwi.down n { t.down n with test := none } } }
        (abortReports n x.requesters))) ∧
      ∀ q rest, s.itu.queue = q :: rest →
        let down := tset (tset t.hwi.down n { t.down n with test := none }) q.line
          { s.down q.line with test := some .test }
        f (State.reported
          { t with itu := ⟨rest, some ⟨q.line, q.requesters, 0, true⟩⟩, hwi := { t.hwi with down := down } }
          (abortReports n x.requesters)) := by
  have ht : t.testOn n = s.testOn n := by simp [State.testOn, hi]
  have hx : ∀ x, s.itu.inProgress = some x → x.line = n → t.testOn n = some x := by
    intro x h hl; simp [State.testOn, hi, h, hl, Option.filter]
  refine ⟨fun hu => ?_, fun older younger rs h1 h2 h3 => ?_, fun x h1 h2 h3 => ⟨fun hq => ?_, fun q rest hq => ?_⟩⟩
  · rwa [State.abortTest_untested (by simpa [State.untested, ht, hi] using hu)] at hf
  · rwa [State.abortTest_of_waiting (by rw [ht, h1]) (by rw [hi, h3]) h2, hi] at hf
  · rw [State.abortTest_of_test (hx x h1 h2), State.nextTest] at hf
    have : ((t.dropTest n).reported (abortReports n x.requesters)).itu.queue = [] := by
      simp [State.dropTest, State.setItu, hi, hq]
    simp only [this] at hf
    have h4 : t.dropTest n = { t with
        itu := ⟨[], none⟩, hwi := { t.hwi with down := tset t.hwi.down n { t.down n with test := none } } } := by
      simp [State.dropTest, State.setItu, State.modDown, State.setDown, State.down, hi, hq]
    rwa [h4] at hf
  · rw [State.abortTest_of_test (hx x h1 h2), State.nextTest] at hf
    have : ((t.dropTest n).reported (abortReports n x.requesters)).itu.queue = q :: rest := by
      simp [State.dropTest, State.setItu, hi, hq]
    simp only [this] at hf
    have hn : q.line ≠ n := h3 q (by simp [hq])
    have h5 := hd q.line hn
    intro down
    obtain ⟨g, hg⟩ := State.reported_uniform (abortReports n x.requesters)
    rw [hg] at hf ⊢
    have h6 : tget t.hwi.down q.line = s.down q.line := h5
    simpa [State.dropTest, State.setItu, State.modDown, State.setDown, State.down, State.beginTest, tget_tset_ne,
      Ne.symm hn, h6, down] using hf

/-- What the operations on lines, tests, parts and calls leave of the rest of the part. -/
theorem State.restStands_of_fixed {s t : State} (h : t.fixed = s.fixed) : s.restStands t := by
  refine ⟨State.pending_of_fixed h, State.pins_of_fixed h, State.ptb_of_fixed h, State.lkm_of_fixed h, ?_, ?_⟩
  · have h1 := State.ePort_of_fixed h
    have h2 := State.lPort_of_fixed h
    have h3 := State.policing_of_fixed h
    have h4 := State.shelfCount_of_fixed h
    have h5 := State.shelfArmed_of_fixed h
    have h6 := State.shelfReported_of_fixed h
    have h9 := State.byteWaits_of_fixed h
    have h7 := State.eSent_of_fixed h
    have h8 := State.lSent_of_fixed h
    dsimp only
    rw [← h1, ← h2, ← h3, ← h4, ← h5, ← h6, ← h9, ← h7, ← h8]
  · have h1 : t.mgp.still = s.mgp.still := by
      have := congrArg (fun f : Fixed => (f.eAssembler, f.lAssembler, f.relay, f.relayPair, f.relayBuffer, f.replySlot,
        f.runCount, f.sending, f.address)) h
      exact this
    simp only [Mgp.still, Prod.mk.injEq] at h1
    obtain ⟨h1, h2, h3, h4, h5, h6, h7, h8, h9⟩ := h1
    dsimp only
    rw [← h1, ← h2, ← h3, ← h4, ← h5, ← h6, ← h7, ← h8, ← h9]

end Sys2Proof.Machine
end

