-- ==== Sys2Proof/Laws/Bridge.lean ====
section
/-! SUPPORT. What the digit unit and the bridge make of a byte in which the Line Supervisor finds nothing. -/

namespace Sys2Proof.Machine

/-- The LSV finds nothing in the byte. -/
theorem judge_quiet {s : State} {n : LineId} (hf : upFault (s.lByte n) = none) (hl : (s.line n).loop = .closed) (hc :
    upLoop (s.lByte n) = .closed)
    (hs : (s.line n).state = .collecting ∨ (s.line n).state = .replaying) :
    s.judgeLine n = ({ s.line n with faultCount := 0, onHookCount := 0 }, .nothing) := by
  rw [State.judgeLine_closed hf hl (by tauto)]
  simp [LineRec.judgeOnHook, hc]

/-- The receiver does not read the quiet count. -/
theorem receive_quiet (d : DigitRec) (q : Nat) (l : Loop) : ({ d with quiet := q } : DigitRec).receive l =
    ({ (d.receive l).1 with quiet := q }, (d.receive l).2) := by
  obtain ⟨ph, el, pu, bu, co, ge, se, gt, qu⟩ := d
  cases ph <;> cases l <;> simp only [DigitRec.receive, DigitRec.judgeBreak, DigitRec.judgeMake, DigitRec.discarding]
  all_goals (first | rfl | (split <;> rfl))

/-- The receiver step of a replaying line. -/
theorem replay_step (s : State) (n : LineId) (loop : Loop) (d : DigitRec) (x : Received)
    (h : (s.digits n).receive loop = (d, x)) : s.replayByteEvent n loop =
     (let t := (s.setDigits n { d with quiet := quietAfter (s.digits n).quiet loop }).takeReceived n x
      if (t.line n).state = .replaying then (t.hearDialTone n).endReplayIfDone n else t) := by
  have e : ∀ f y, (s.modDigits n f).setDigits n y = s.setDigits n y := by intro f y; simp [State.modDigits, State.setDigits]
  simp only [State.replayByteEvent, State.receiveLoop, State.digits_modDigits_self, receive_quiet, h, e]

/-- The one party of a class (R113). -/
theorem partyOfClass_some {s : State} {n : LineId} {k : Nat} {p : PartyId}
    (h : ∃ e, s.party n p = some e ∧ e.identityClass = some k) (hu : ∀ o, (∃ e, s.party n o = some e ∧
        e.identityClass = some k) → o = p) :
    s.partyOfClass n k = some p := by
  unfold State.partyOfClass
  cases hf : partyIds.find? (fun p => match s.party n p with
    | some e => decide (e.identityClass = some k)
    | none => false) with
  | none =>
    rw [List.find?_eq_none] at hf
    obtain ⟨e, h1, h2⟩ := h
    have := hf p (mem_partyIds p)
    simp [h1, h2] at this
  | some o =>
    have := List.find?_some hf
    congr 1
    apply hu
    cases ho : s.party n o with
    | none => simp [ho] at this
    | some e => simp [ho] at this; exact ⟨e, rfl, this⟩

/-- No party of a class (R113). -/
theorem partyOfClass_none {s : State} {n : LineId} {k : Nat}
    (hu : ∀ o, ¬ (∃ e, s.party n o = some e ∧ e.identityClass = some k)) :
    s.partyOfClass n k = none := by
  unfold State.partyOfClass
  rw [List.find?_eq_none]
  intro p _
  have := hu p
  cases hp : s.party n p <;> simp_all

/-- The test in progress takes the byte (R111). -/
theorem testRun {s : State} {x : Test} (hx : s.itu.inProgress = some x) (hf : x.fresh = false) (hq : s.quietClosed
    x.line)
    (hs : (s.line x.line).state = .through ∨ (s.line x.line).state = .call) :
    exec (.lineByte x.line) s = .next (State.byteTaken (
      let t := s.setLine x.line { s.line x.line with faultCount := 0, onHookCount := 0 }
      let m := x.interval + 1
      if readingUsable m (s.lByte x.line) s.hwi.lPort.good then t.endTest x (s.mapReading x.line (upReading (s.lByte
          x.line)))
      else if 60 ≤ m then t.endTest x .timeout
      else t.setItu { s.itu with inProgress := some { x with interval := m } }) x.line) := by
  obtain ⟨q1, q2, q3⟩ := hq
  have hj : s.judgeLine x.line = ({ s.line x.line with faultCount := 0, onHookCount := 0 }, .nothing) := by
    rw [State.judgeLine_closed q1 q3 (by tauto)]; simp [LineRec.judgeOnHook, q2]
  simp only [exec, execLineByte]
  congr 1
  simp only [State.lineByteEvent, hj, State.takeVerdict, State.digitStep, if_true, q2]
  have hd : ∀ t : State, t.digitByte x.line (s.line x.line).state .closed = t := by
    intro t; rcases hs with h | h <;> rw [h] <;> rfl
  rw [hd]
  congr 1
  simp only [State.testByte, State.testOn]
  rw [show (s.setLine x.line { s.line x.line with faultCount := 0, onHookCount := 0 }).itu = s.itu from rfl, hx]
  simp only [Option.filter, decide_true, if_true, hf, testIntervals]
  rfl

/-- A usable reading (R112). -/
theorem usable_iff (s : State) (x : Test) : readingUsable (x.interval + 1) (s.lByte x.line) s.hwi.lPort.good = true ↔
    9 ≤ x.interval + 1 ∧ s.hwi.lPort.good = true ∧ upStatus (s.lByte x.line) = 1 := by
  simp [readingUsable, settledInterval, upReadingValid, and_assoc]

theorem nextTest_nil {t : State} (h : t.itu.queue = []) : t.nextTest = t := by simp [State.nextTest, h]

/-- Bit i of the byte of overflowed meters (R194). -/
theorem overflowedByte_bit (t : Tmu) (j : MeterId) : (overflowedByte t).getLsbD j.val = (tget t.meters j).overflowed
    := by
    have : ∀ f : Fin 8 → Bool, ∀ j : Fin 8, (byteOf (meterIds.foldl (fun n i => n + (if f i then 2 ^ i.val else 0))
        0)).getLsbD j.val = f j := by
      intro f
      have h8 : ∀ a b c d e g h i : Bool, ∀ j : Fin 8, (byteOf (meterIds.foldl (fun n k => n + (if
          ([a,b,c,d,e,g,h,i].getD k.val false) then 2 ^ k.val else 0)) 0)).getLsbD j.val = [a,b,c,d,e,g,h,i].getD
          j.val false := by decide +kernel
      have := h8 (f 0) (f 1) (f 2) (f 3) (f 4) (f 5) (f 6) (f 7)
      have hf : ∀ k : Fin 8, [f 0, f 1, f 2, f 3, f 4, f 5, f 6, f 7].getD k.val false = f k := by
        intro k
        fin_cases k <;> rfl
      simpa only [hf] using this
    exact this (fun i => (tget t.meters i).overflowed) j

/-- A raise that does not wrap (R194). -/
theorem State.raise_eq {s : State} {i : MeterId} (h : (s.meter i).count ≠ 0xFFFFFFFF#32) :
  s.raise i =
      { s with tmu := { s.tmu with meters := tset s.tmu.meters i { s.meter i with count := (s.meter i).count + 1 } } } := by
  unfold State.raise raiseMeter
  have h' : (tget s.tmu.meters i).count ≠ 0xFFFFFFFF#32 := h
  have hw : wrapNotifies (tget s.tmu.meters i) = false := by simp [wrapNotifies, h']
  simp only [hw, raisedMeter, h', if_false, Bool.false_eq_true]
  rfl

/-! The withdrawal of a call from its line's request (R117). -/

/-- The withdrawal of a call from its line's request, by what stands (R117). -/
theorem State.withdrawTest_of {s v : State} {n : LineId} {c : CallNo} {first : List Report}
    (h : s.withdraws n c v first) : s.withdrawTest c n = v.reported first := by
  rcases h with ⟨hu, rfl, rfl⟩ | ⟨x, hi, hl, hr, rfl, rfl⟩ | ⟨x, q, rest, hi, hl, hq, hr, rfl, rfl⟩ |
    ⟨x, hi, hl, hr, rfl, rfl⟩ | ⟨older, rs, younger, hi, hq, ho, h⟩
  · exact State.withdrawTest_untested hu
  · have ht : s.testOn n = some x := by simp [State.testOn, hi, hl, Option.filter]
    simp only [State.withdrawTest, State.requestersOn, ht, hr, List.contains_cons, beq_self_eq_true, Bool.true_or,
      if_true, List.erase_cons_head]
    have hdt : s.dropTest n =
        { s with itu := ⟨[], none⟩, hwi := { s.hwi with down := tset s.hwi.down n { s.down n with test := none } } } := by
      simp [State.dropTest, hi, State.setItu, State.modDown, State.setDown]; rfl
    rw [hdt]
    exact nextTest_nil (by simp [State.peg_eq])
  · have ht : s.testOn n = some x := by simp [State.testOn, hi, hl, Option.filter]
    simp only [State.withdrawTest, State.requestersOn, ht, hr, List.contains_cons, beq_self_eq_true, Bool.true_or,
      if_true, List.erase_cons_head]
    have hdt : s.dropTest n =
        { s with
          itu := ⟨q :: rest, none⟩, hwi := { s.hwi with down := tset s.hwi.down n { s.down n with test := none } } } := by
      simp [State.dropTest, hi, State.setItu, State.modDown, State.setDown]; rfl
    rw [hdt]
    simp only [State.reported, State.peg_eq, State.nextTest, State.beginTest, State.setItu, State.modDown, State.setDown]
    simp [State.down, tget_tset_ne _ _ (Ne.symm hq)]
  · have ht : s.testOn n = some x := by simp [State.testOn, hi, hl, Option.filter]
    simp only [State.withdrawTest, State.requestersOn, ht]
    rcases hr with hr | hr <;> simp [hr, State.setItu, State.reported, List.erase_cons]
  · have h1 : ∀ q ∈ older, q.line ≠ n := fun q hq => ho q (List.mem_append_left _ hq)
    have h2 : ∀ q ∈ younger, q.line ≠ n := fun q hq => ho q (List.mem_append_right _ hq)
    have hf : older.find? (fun q => decide (q.line = n)) = none := by simpa using h1
    have h3 : older.filter (fun q => decide (q.line ≠ n)) = older := List.filter_eq_self.2 (by simpa using h1)
    have h4 : younger.filter (fun q => decide (q.line ≠ n)) = younger := List.filter_eq_self.2 (by simpa using h2)
    have hr : s.requestersOn n = rs := by simp [State.requestersOn, hi, hq, List.find?_append, hf]
    have hm : ∀ (f : TestRequest → TestRequest) (l : List TestRequest), (∀ q ∈ l, q.line ≠ n) →
        l.map (fun q => if q.line = n then f q else q) = l := by
      intro f l hl
      conv_rhs => rw [← List.map_id l]
      apply List.map_congr_left
      intro q hq; simp [hl q hq]
    rcases h with ⟨rfl, rfl, rfl⟩ | ⟨hb, rfl, rfl⟩
    · simp only [State.withdrawTest, hr, hi, List.contains_cons, beq_self_eq_true, Bool.true_or,
        if_true, List.erase_cons_head, hq]
      rw [List.filter_append, h3, List.filter_cons_of_neg (by simp), h4]; rfl
    · have h5 : rs.contains (.call c) = true := by rcases hb with rfl | rfl <;> simp
      have h6 : rs.erase (.call c) = [.exchange] := by rcases hb with rfl | rfl <;> simp [List.erase_cons]
      simp only [State.withdrawTest, hr, hi, h5, h6, if_true, hq, List.map_append, List.map_cons]
      rw [hm _ _ h1, hm _ _ h2]; rfl

/-- The withdrawal leaves the parts and the calls, and reads neither. -/
theorem State.withdrawTest_update (s : State) (c : CallNo) (n : LineId) (x : Vector (Option CallRec) 24) (y : Rsc) :
    ({ s with csq := x, rsc := y } : State).withdrawTest c n = { s.withdrawTest c n with csq := x, rsc := y } := by
  have hr : ({ s with csq := x, rsc := y } : State).requestersOn n = s.requestersOn n := rfl
  have ht : ({ s with csq := x, rsc := y } : State).testOn n = s.testOn n := rfl
  obtain ⟨f, hf⟩ := State.reported_uniform [.peg .testAborted (some n)]
  have hp : ∀ t : State, t.peg .testAborted (some n) =
    { t with tmu := (f (t.tmu, t.mgp)).1, mgp := (f (t.tmu, t.mgp)).2 } := hf
  simp only [State.withdrawTest, hr, ht]
  split
  · split
    · split
      · simp only [hp, State.nextTest]
        have hq : ({ s with csq := x, rsc := y } : State).dropTest n = { s.dropTest n with csq := x, rsc := y } := rfl
        rw [hq]
        dsimp only
        split <;> rfl
      · rfl
    · split
      · simp only [hp]; rfl
      · rfl
  · rfl

/-- The end of a call that withdraws it from its line's request (R141 step 2), as an end after the withdrawal. -/
theorem State.endCall_withdrawing {s : State} {c : CallNo} {r : CallRec} (hc : s.callRec c = some r)
    (result : EndResult) (d : Direction) (e : Option PegEvent) :
    s.endCall c result d e true = (s.withdrawTest c r.line).endCall c result d e false := by
  have hw : s.withdrawTest c r.line = { s.withdrawTest c r.line with csq := s.csq, rsc := s.rsc } :=
    State.withdrawTest_update s c r.line s.csq s.rsc
  have hc' : (s.withdrawTest c r.line).callRec c = some r := by rw [hw]; exact hc
  have hrel : (s.releaseRing c).withdrawTest c r.line = (s.withdrawTest c r.line).releaseRing c := by
    rw [State.releaseRing_eq hc, State.releaseRing_eq hc']
    split
    · rw [show ({ s.handed [.release c] with csq := tset s.csq c (some { r with ringPart := false }) } : State) =
        { s with csq := tset s.csq c (some { r with ringPart := false }), rsc := (s.handed [.release c]).rsc } from rfl,
        State.withdrawTest_update]
      conv_rhs => rw [hw]
      rfl
    · rfl
  simp only [State.endCall, hc, hc', if_true, Bool.false_eq_true, if_false, hrel]

/-- The end of a call whose line stands in CALL, after its withdrawal (R117, R141). -/
theorem State.endCall_withdraws {s v : State} {c : CallNo} {r : CallRec} {first : List Report}
    (hc : s.callRec c = some r) (h : s.withdraws r.line c v first) (hv : (v.line r.line).state = .call)
    (result : EndResult) (d : Direction) (e : Option PegEvent) :
    s.endCall c result d e true =
      match d with
      | .nowhere => ((v.freed c r).withLine r.line (v.line r.line) (v.digits r.line)
          { v.down r.line with call := none } (v.up r.line)).reported (first ++ endReports c r result e)
      | .lockout => ((v.freed c r).withLine r.line (directed (v.line r.line) .lockout) DigitRec.initial
          { (v.down r.line).noLsv with call := none, lockout := some .hangupTone } ⟨false, none, true⟩).reported
          (first ++ .notice (.lineLockout r.line) :: .peg .lockout (some r.line) :: endReports c r result e)
      | d => ((v.freed c r).withLine r.line (directed (v.line r.line) d) DigitRec.initial
          { (v.down r.line).noLsv with call := none } ⟨false, none, false⟩).reported
            (first ++ endReports c r result e) := by
  have hw := State.withdrawTest_of h
  have hc' : (s.withdrawTest c r.line).callRec c = some r := by
    have := congrArg State.csq (State.withdrawTest_update s c r.line s.csq s.rsc)
    exact (congrArg (fun x => tget x c) this).trans hc
  rw [State.endCall_withdrawing hc]
  rw [hw] at hc' ⊢
  rw [State.endCall_of_call_if hc' false (by simp) (by simpa using hv)]
  obtain ⟨f, hf⟩ := State.reported_uniform first
  have hx : ∀ q d k u l, (((v.reported first).freed c r).withLine r.line q d k u).reported l =
      ((v.freed c r).withLine r.line q d k u).reported (first ++ l) := by
    intro q d k u l
    rw [State.reported_append, hf, hf]; rfl
  cases d <;> simp only [hx, State.line_reported, State.down_reported, State.digits_reported, State.up_reported]

/-- The end of a call that leaves its line as it stands, after its withdrawal (R117, R127, R141). -/
theorem State.endCall_withdraws_kept {s v : State} {c : CallNo} {r : CallRec} {first : List Report}
    (hc : s.callRec c = some r) (h : s.withdraws r.line c v first) (d : Direction)
    (hd : ∀ t : State, t.line r.line = v.line r.line → t.direct r.line d = t) (result : EndResult) (e : Option PegEvent) :
    s.endCall c result d e true =
      ((v.freed c r).withLine r.line (v.line r.line) (v.digits r.line) { v.down r.line with call := none }
        (v.up r.line)).reported (first ++ endReports c r result e) := by
  have hw := State.withdrawTest_of h
  have hc' : (s.withdrawTest c r.line).callRec c = some r := by
    have := congrArg State.csq (State.withdrawTest_update s c r.line s.csq s.rsc)
    exact (congrArg (fun x => tget x c) this).trans hc
  rw [State.endCall_withdrawing hc]
  rw [hw] at hc' ⊢
  rw [State.endCall_eq hc' result d e false (by simp)]
  obtain ⟨f, hf⟩ := State.reported_uniform first
  have hx : ∀ l, (((v.reported first).freed c r).modDown r.line (fun p => { p with call := none })).reported l =
      ((v.freed c r).modDown r.line (fun p => { p with call := none })).reported (first ++ l) := by
    intro l
    rw [State.reported_append, hf, hf]; rfl
  rw [hd _ (by simp), hx]
  simp [endReports, State.modDown, State.setDown, State.withLine, State.line, State.digits, State.up, State.down,
    State.freed, State.handed]

/-- What the withdrawal of a call leaves beside the bridge and the TEST claims (R117). -/
theorem State.withdraws_view {s v : State} {n : LineId} {c : CallNo} {first : List Report}
    (h : s.withdraws n c v first) : v.lsv = s.lsv ∧ v.dgu = s.dgu ∧ v.hwi.up = s.hwi.up ∧ v.rsc = s.rsc ∧ v.csq = s.csq ∧
    v.ptb = s.ptb ∧ v.lkm = s.lkm ∧ v.mgp = s.mgp ∧ v.tmu = s.tmu := by
  rcases h with ⟨_, rfl, _⟩ | ⟨_, _, _, _, _, rfl⟩ | ⟨_, _, _, _, _, _, _, _, rfl⟩ | ⟨_, _, _, _, _, rfl⟩ |
    ⟨_, _, _, _, _, _, ⟨_, _, rfl⟩ | ⟨_, _, rfl⟩⟩ <;> exact ⟨rfl, rfl, rfl, rfl, rfl, rfl, rfl, rfl, rfl⟩

end Sys2Proof.Machine
end

