-- ==== Sys2Proof/Laws/Frames.lean ====
section
/-! SUPPORT. What the frame events do to the parts of the state that the other blocks read. -/

namespace Sys2Proof.Machine

/-- The frames of an interval, then the reports of the lines newly policed. -/
theorem State.sendFrame_eq (s : State) : s.sendFrame =
    (s.sendFrames.reported (s.newlyPoliced.map (fun n => .peg .foreignCode (some n)))).tick := by
  have : ∀ (l : List LineId) (t : State), l.foldl (fun t n => t.peg .foreignCode (some n)) t =
      t.reported (l.map (fun n => .peg .foreignCode (some n))) := by
    intro l; induction l with
    | nil => intro t; rfl
    | cons a l ih => intro t; simp [State.reported, ih]
  rw [State.sendFrame, this]

theorem hwi_sendFrame (s : State) : s.sendFrame.hwi = s.sendFrames.hwi := by
  rw [State.sendFrame_eq]; simp [State.tick]

theorem fixed_sendFrames_reported (s : State) : (s.sendFrames.reported (s.newlyPoliced.map (fun n => .peg
    .foreignCode (some n)))).fixed = s.sendFrames.fixed := by simp

theorem sending_sendFrame (s : State) : s.sendFrame.mgp.sending = s.sendFrames.mgp.sending := by
  rw [State.sendFrame_eq]; exact congrArg Fixed.sending (fixed_sendFrames_reported s)

theorem relayPair_sendFrame (s : State) : s.sendFrame.mgp.relayPair = s.sendFrames.mgp.relayPair := by
  rw [State.sendFrame_eq]; exact congrArg Fixed.relayPair (fixed_sendFrames_reported s)

theorem runCount_sendFrame (s : State) : s.sendFrame.mgp.runCount = s.sendFrames.mgp.runCount := by
  rw [State.sendFrame_eq]; exact congrArg Fixed.runCount (fixed_sendFrames_reported s)

/-- A peg leaves the urgent class's lost indicator: the notices it may drop are METER notices, of the routine class. -/
theorem urgentLost_pegChain (fuel : Nat) (e : PegEvent) (l : Option LineId) (x : Tmu × Mgp) :
    (pegChain fuel e l x).2.urgentLost = x.2.urgentLost := by
  induction fuel generalizing e l x with
  | zero => rfl
  | succ fuel ih =>
    rw [pegChain]
    apply foldl_keeps (fun y : Tmu × Mgp => y.2.urgentLost)
    intro y i
    dsimp only
    split
    · split
      · split
        · rw [ih]; rfl
        · rfl
      · rfl
    · rfl

@[simp] theorem urgentLost_peg (s : State) (e : PegEvent) (l : Option LineId) :
    (s.peg e l).mgp.urgentLost = s.mgp.urgentLost := by
  simp only [State.peg_eq, urgentLost_pegChain]

/-- The pegs of a frame leave the urgent class's lost indicator. -/
theorem urgentLost_sendFrame (s : State) : s.sendFrame.mgp.urgentLost = s.sendFrames.mgp.urgentLost := by
  have : ∀ (l : List LineId) (t : State),
      (l.foldl (fun t n => t.peg .foreignCode (some n)) t).mgp.urgentLost = t.mgp.urgentLost := by
    intro l; induction l with
    | nil => intro t; rfl
    | cons a l ih => intro t; rw [List.foldl_cons, ih, urgentLost_peg]
  exact this _ _

/-- A frame in which no line's policing mark comes on drops no notice. -/
theorem routineLost_sendFrame (s : State)
    (h : ∀ n, tget s.sendFrame.hwi.policing n = true → tget s.hwi.policing n = true) :
    s.sendFrame.mgp.routineLost = s.sendFrames.mgp.routineLost := by
  have hn : s.newlyPoliced = [] := by
    simp only [State.newlyPoliced, List.filter_eq_nil_iff]
    intro n _ hc
    simp only [Bool.and_eq_true, Bool.not_eq_true'] at hc
    have hp : tget s.sendFrame.hwi.policing n = s.policed n := by
      rw [hwi_sendFrame]; simp [State.sendFrames, State.setHwi, tget]
    rw [h n (hp.trans hc.1)] at hc
    simp at hc
  rw [State.sendFrame, hn]; rfl

/-- What policing replaces (R156). -/
theorem foreign_iff (b : Byte) : isForeign b = true ↔ downCode b = none ∨ downCode b = some .test ∨
        ∃ x leg, downCode b = some (.ring x leg) := by
  unfold isForeign
  split <;> simp_all

/-- With no message under way, an abort changes nothing (R163). -/
theorem handAbort_idle (s : State) (p : Port) (h : match p with | .e => s.mgp.eAssembler = none | .l => s.mgp.lAssembler = none) :
    s.handAbort p = s := by
  cases p <;> simp_all [State.handAbort]

/-- A pair that begins no message changes nothing where none is under way (R163). -/
theorem handPair_idle (s : State) (p : Port) (b1 b2 : Byte) (hb : b1 ≠ 0xC3) (h : match p with | .e => s.mgp.eAssembler = none | .l => s.mgp.lAssembler = none) :
    s.handPair p b1 b2 = s := by
  have : ¬ b1 = startValue := hb
  cases p <;> simp_all [State.handPair, State.pairE, State.pairL, assemble, State.setMgp]
  all_goals rw [← h]

/-- A valid frame that is taken hands its pair to the Management Port (R150, R158). -/
theorem validFrame_hands {s : State} {p : Port} {f : Frame} {c : Instr} (h1 : f.sync = 0x9C)
    (h2 : f.check = crc8 (f.sync :: (f.lines.toList ++ [f.mgmt1, f.mgmt2]))) (h3 : (s.port p).validTaken = false)
    (h4 : (c = .frameReceived p f ∧ (s.port p).alignment = .aligned) ∨
      (c = .alignmentFound p f ∧ (s.port p).alignment = .hunting)) :
    exec c s = .next ((s.setPort p
      { s.port p with
        alignment := .aligned, wrongSync := 0, lastGood := f.lines, validTaken := true, frameSeen := true }).handPair p
        f.mgmt1 f.mgmt2) := by
  have hck : frameCheckAgrees f = true := by
    unfold frameCheckAgrees; exact decide_eq_true h2
  have hss : ∀ q q', (s.setPort p q).setPort p q' = s.setPort p q' := by intro q q'; cases p <;> rfl
  have hg : ∀ q, (s.setPort p q).port p = q := by intro q; cases p <;> rfl
  rcases h4 with ⟨rfl, h4⟩ | ⟨rfl, h4⟩
  · simp only [exec, execFrameReceived, State.frameReceived, h4, State.alignedFrame, syncValue]
    rw [if_pos h1, if_pos hck]
    simp only [State.validFrame, hg]
    rw [if_neg (by simpa using h3), hss]
  · simp only [exec, execAlignmentFound, State.windowExamined]
    rw [if_pos ⟨h4, by simp [frameGood, h1, hck, syncValue]⟩]
    simp only [State.validFrame, hg]
    rw [if_neg (by simpa using h3), hss]

/-- What an assembler in ASSEMBLE finds in a pair (R163), by the length field of the bytes taken. -/
theorem assemble_some (m : List Byte) (b1 b2 : Byte) :
    let all := m ++ [b1, b2]
    let n := (all.getD 5 0).toNat
    ((all.length < 6 ∨ (n ≤ 32 ∧ all.length < 8 + n)) → assemble (some m) b1 b2 = (some all, .taken)) ∧
    (6 ≤ all.length ∧ 32 < n → assemble (some m) b1 b2 = (none, .badLength)) ∧
    (6 ≤ all.length ∧ n ≤ 32 ∧ 8 + n ≤ all.length →
      assemble (some m) b1 b2 = (none, .whole (all.take (8 + n)))) := by
  intro all n
  have ha : assemble (some m) b1 b2 =
    if 6 ≤ all.length ∧ 32 < n then (none, .badLength)
    else if 6 ≤ all.length ∧ 8 + n ≤ all.length then (none, .whole (all.take (8 + n)))
    else (some all, .taken) := rfl
  rw [ha]
  refine ⟨?_, ?_, ?_⟩
  · intro h; rw [if_neg (by omega), if_neg (by omega)]
  · intro h; rw [if_pos h]
  · intro h; rw [if_neg (by omega), if_pos (by omega)]
/-- The message in an E-port assembler, as a pair leaves it (R163, R167). -/
theorem pairE_some {s : State} {m : List Byte} (b1 b2 : Byte) (h : s.mgp.eAssembler = some m) :
    let all := m ++ [b1, b2]
    let n := (all.getD 5 0).toNat
    let pair := if s.mgp.relay = none then s.mgp.relayPair else some (b1, b2)
    let closed : Mgp := { s.mgp with eAssembler := none, relay := none, relayPair := pair }
    ((all.length < 6 ∨ (n ≤ 32 ∧ all.length < 8 + n)) → s.pairE b1 b2 = s.setMgp { s.mgp with
      eAssembler := some all, relay := s.mgp.relay.map (fun bs => bs ++ [b1, b2]), relayPair := pair }) ∧
    (6 ≤ all.length ∧ 32 < n → s.pairE b1 b2 = (s.setMgp closed).discard .e .length) ∧
    (6 ≤ all.length ∧ n ≤ 32 ∧ 8 + n ≤ all.length →
      s.pairE b1 b2 = (s.setMgp closed).judgeE (all.take (8 + n))) := by
  intro all n pair closed
  obtain ⟨a1, a2, a3⟩ := assemble_some m b1 b2
  have hrel : ∀ x : Option (List Byte), (Mgp.relayTakes { s.mgp with eAssembler := x } false b1 b2) =
      { s.mgp with
        eAssembler := x, relay := s.mgp.relay.map (fun bs => bs ++ [b1, b2]), relayPair := pair } := by
    intro x
    cases hr : s.mgp.relay <;> simp [Mgp.relayTakes, hr, pair]
  simp only [State.pairE, h, Option.isNone_some, hrel]
  refine ⟨?_, ?_, ?_⟩
  · intro h6; rw [a1 h6]
  · intro h6; rw [a2 h6]; rfl
  · intro h6; rw [a3 h6]; rfl

/-- The message in an L-port assembler, as a pair leaves it (R163). -/
theorem pairL_some {s : State} {m : List Byte} (b1 b2 : Byte) (h : s.mgp.lAssembler = some m) :
    let all := m ++ [b1, b2]
    let n := (all.getD 5 0).toNat
    let closed : Mgp := { s.mgp with lAssembler := none }
    ((all.length < 6 ∨ (n ≤ 32 ∧ all.length < 8 + n)) →
      s.pairL b1 b2 = s.setMgp { s.mgp with lAssembler := some all }) ∧
    (6 ≤ all.length ∧ 32 < n → s.pairL b1 b2 = (s.setMgp closed).discard .l .length) ∧
    (6 ≤ all.length ∧ n ≤ 32 ∧ 8 + n ≤ all.length →
      s.pairL b1 b2 = (s.setMgp closed).judgeL (all.take (8 + n))) := by
  intro all n closed
  obtain ⟨a1, a2, a3⟩ := assemble_some m b1 b2
  simp only [State.pairL, h]
  refine ⟨?_, ?_, ?_⟩
  · intro h6; rw [a1 h6]
  · intro h6; rw [a2 h6]
  · intro h6; rw [a3 h6]

/-- The check of a whole message cut from the bytes taken (R164). -/
theorem checkAgrees_iff (all : List Byte)
    (h : 6 ≤ all.length ∧ (all.getD 5 0).toNat ≤ 32 ∧ 8 + (all.getD 5 0).toNat ≤ all.length) :
    messageCheckAgrees (all.take (8 + (all.getD 5 0).toNat)) = true ↔
      (all.drop (6 + (all.getD 5 0).toNat)).take 2 =
        twoBytes (crc16 (all.take (6 + (all.getD 5 0).toNat))).toNat := by
  have hn : messageLength (all.take (8 + (all.getD 5 0).toNat)) = (all.getD 5 0).toNat := by
    simp only [messageLength, List.getD_eq_getElem?_getD, List.getElem?_take]; rw [if_pos (by omega)]
  unfold messageCheckAgrees
  simp only [hn, decide_eq_true_eq]
  rw [List.drop_take, List.take_take, Nat.min_eq_left (by omega),
    show 8 + (all.getD 5 0).toNat - (6 + (all.getD 5 0).toNat) = 2 by omega]

/-- The first bytes of a cut list. -/
theorem getD_take_of_lt (all : List Byte) {n i : Nat} (h : i < n) : (all.take n).getD i 0 = all.getD i 0 := by
  simp only [List.getD_eq_getElem?_getD, List.getElem?_take]; rw [if_pos h]

/-- The judgement of a whole E-port message, by its check, its kind and its destination (R164, R165). -/
theorem judgeE_cases (s : State) (m : List Byte) :
    (messageCheckAgrees m = false → s.judgeE m = s.discard .e .check) ∧
    (messageCheckAgrees m = true → m.getD 3 0 ≠ 1 → s.judgeE m = s.discard .e .kind) ∧
    (messageCheckAgrees m = true → m.getD 3 0 = 1 → s.judgeE m = (s.countValid .e).takeMessage m) := by
  refine ⟨?_, ?_, ?_⟩
  · intro h; simp [State.judgeE, h]
  · intro h h2
    have : ¬ messageKind m = 1 := fun hc => h2 (BitVec.eq_of_toNat_eq hc)
    simp [State.judgeE, h, this]
  · intro h h2
    have : messageKind m = 1 := by rw [messageKind, h2]; rfl
    simp [State.judgeE, h, this]

/-- The judgement of a whole L-port message, by its check and its kind (R164, R168). -/
theorem judgeL_cases (s : State) (m : List Byte) :
    let known := m.getD 3 0 = 1 ∨ m.getD 3 0 = 2 ∨ m.getD 3 0 = 3
    (messageCheckAgrees m = false → s.judgeL m = s.discard .l .check) ∧
    (messageCheckAgrees m = true → ¬ known → s.judgeL m = s.discard .l .kind) ∧
    (messageCheckAgrees m = true → known → s.judgeL m = (s.countValid .l).joinRelay m) := by
  intro known
  have hk : known ↔ 1 ≤ messageKind m ∧ messageKind m ≤ 3 := by
    simp only [known, messageKind, ← BitVec.toNat_inj]
    generalize BitVec.toNat (m.getD 3 0) = x
    simp
    omega
  refine ⟨?_, ?_, ?_⟩
  · intro h; simp [State.judgeL, h]
  · intro h h2
    rw [hk] at h2
    simp only [State.judgeL, h]; rw [if_neg (by simp), if_pos (by omega)]
  · intro h h2
    rw [hk] at h2
    simp only [State.judgeL, h]; rw [if_neg (by simp), if_neg (by omega)]

/-- The close of an L-port interval. -/
theorem closeL_eq (s : State) : exec .lPortIntervalClose s = .next
    (let t : State := (s.setHwi { s.hwi with lPort := s.hwi.lPort.closed })
     let u := if s.hwi.lPort.frameSeen = true then t else t.handAbort .l
     u.setHwi { u.hwi.countShelf s.hwi.lPort.validTaken with byteWaits := Vector.replicate 16 true }) := by
  rfl

/-- The shelf-loss count (R152). -/
theorem countShelf_eq (s : State) (h : Hwi) (hc : h.shelfCount = s.hwi.shelfCount) (ha : h.shelfArmed =
    s.hwi.shelfArmed) :
   h.countShelf s.hwi.lPort.validTaken =
      if s.hwi.lPort.validTaken then { h with shelfCount := 0, shelfArmed := true }
      else if 20 ≤ s.hwi.shelfCount + 1 ∧ s.hwi.shelfArmed = true then
        { h with shelfCount := 20, shelfArmed := false, shelfReported := true }
      else { h with shelfCount := min 20 (s.hwi.shelfCount + 1) } := by
  unfold Hwi.countShelf
  split
  · rfl
  · simp only [hc, ha, shelfLossCount]
    by_cases hc : 20 ≤ s.hwi.shelfCount + 1
    · simp [hc]
    · simp [Nat.min_eq_right (show s.hwi.shelfCount + 1 ≤ 20 by omega), hc, show s.hwi.shelfCount ≠ 19 by omega]

theorem handAbort_view (s : State) (p : Port) : (s.handAbort p).csq = s.csq ∧ (s.handAbort p).rsc = s.rsc ∧
    (s.handAbort p).itu = s.itu ∧ (s.handAbort p).ptb = s.ptb ∧ (s.handAbort p).lkm = s.lkm ∧ (s.handAbort p).lsv =
    s.lsv ∧ (s.handAbort p).dgu = s.dgu ∧ (s.handAbort p).hwi = s.hwi := by
  cases p <;> simp only [State.handAbort] <;> split <;> simp [State.discard, State.peg_eq, State.setMgp,
      State.modCounters]

theorem closePort_view (s : State) : (s.closePort .e).csq = s.csq ∧ (s.closePort .e).rsc = s.rsc ∧ (s.closePort
    .e).itu = s.itu ∧ (s.closePort .e).ptb = s.ptb ∧ (s.closePort .e).lkm = s.lkm ∧ (s.closePort .e).lsv = s.lsv ∧
    (s.closePort .e).dgu = s.dgu ∧ (s.closePort .e).hwi.down = s.hwi.down ∧ (s.closePort .e).hwi.up = s.hwi.up := by
  simp only [State.closePort]
  split
  · exact ⟨rfl, rfl, rfl, rfl, rfl, rfl, rfl, rfl, rfl⟩
  · obtain ⟨a1, a2, a3, a4, a5, a6, a7, a8⟩ := handAbort_view (s.setPort .e (s.port .e).closed) .e
    rw [a1, a2, a3, a4, a5, a6, a7, a8]
    exact ⟨rfl, rfl, rfl, rfl, rfl, rfl, rfl, rfl, rfl⟩

end Sys2Proof.Machine
end

