-- ==== Sys2Proof/Laws/Rings.lean ====
section
/-! SUPPORT. The Ring Slot Map, the offset search and the passes: what each does, said once (chapter 2). -/

namespace Sys2Proof.Machine

variable {s : State}

/-- R25. -/
theorem State.placementTest_iff (sp : Spec) (g : GroupId) (k : Slot) :
    s.placementTest sp g k = true ↔ s.fitsAt sp g k := by
  simp only [State.placementTest, State.fitsAt, List.all_eq_true, mem_slotIds, true_imp_iff, Bool.or_eq_true,
    Bool.not_eq_true', Bool.and_eq_true, decide_eq_true_eq]
  constructor
  · intro h sl hs
    obtain ⟨h1, h2⟩ := (h sl).resolve_left (by simp [hs])
    exact ⟨h1, fun he => h2.resolve_left (by simp [he])⟩
  · intro h sl
    cases hs : ringOnSlot (s.cadence sp.cadence) k sl
    · exact .inl rfl
    · refine .inr ⟨(h sl hs).1, ?_⟩
      cases he : s.exclusion g
      · exact .inl rfl
      · exact .inr ((h sl hs).2 he)

theorem slotIds_getElem : ∀ i : Fin 24, slotIds[i.val]'(by have := i.isLt; simp [slotIds]) = i := by decide

/-- R27: the search answers the first offset that passes. -/
theorem State.offsetSearch_some {sp : Spec} {g : GroupId} {k : Slot} (h : s.firstFit sp g k) :
    s.offsetSearch sp g = some k := by
  obtain ⟨i, rfl, h1, h2⟩ := h
  have hi := i.isLt
  simp only [State.offsetSearch, searchOrder, List.find?_map]
  have : slotIds.find? ((fun k => s.placementTest sp g k) ∘ fun i => tget s.rsc.startPointer sp.bus + i) = some i := by
    rw [List.find?_eq_some_iff_getElem]
    refine ⟨by simpa [State.placementTest_iff] using h1, i.val, by simp [slotIds], slotIds_getElem i, ?_⟩
    intro j hj
    have hj' : j < 24 := by omega
    have := h2 ⟨j, hj'⟩ hj
    rw [slotIds_getElem ⟨j, hj'⟩]
    have hf : s.placementTest sp g (tget s.rsc.startPointer sp.bus + ⟨j, hj'⟩) = false := by
      rw [← Bool.not_eq_true, State.placementTest_iff]; exact this
    simp [hf]
  rw [this]; rfl

theorem State.offsetSearch_none {sp : Spec} {g : GroupId} (h : ∀ k, ¬ s.fitsAt sp g k) :
    s.offsetSearch sp g = none := by
  simp only [State.offsetSearch, List.find?_eq_none]
  intro k _
  simpa [State.placementTest_iff] using h k

/-- A pass with no part in the wait queue changes nothing (R34). -/
theorem State.pass_of_noneWaits (h : s.noneWaits) : s.pass = s := by
  have : s.waitQueue = [] := by
    simp only [State.waitQueue, List.filter_eq_nil_iff]
    intro p hp
    have := h p hp
    cases hs : p.status <;> simp_all [RingPart.isQueued]
  simp [State.pass_eq_scan, State.scan, State.waitingCalls, this]

/-- The part of a call among parts of other calls. -/
theorem State.part_of {older younger : List RingPart} {p : RingPart} (h : s.rsc.parts = older ++ p :: younger)
    (ho : ∀ o ∈ older ++ younger, o.call ≠ p.call) : s.part p.call = some p := by
  have hn : older.find? (fun q => decide (q.call = p.call)) = none := by
    rw [List.find?_eq_none]; intro o h'; simpa using ho o (by simp [h'])
  rw [State.part, h, List.find?_append, hn]; simp

theorem State.part_none {c : CallNo} (h : ∀ p ∈ s.rsc.parts, p.call ≠ c) : s.part c = none := by
  rw [State.part, List.find?_eq_none]; intro o h'; simpa using h o h'

/-- The parts older than one of them (R21). -/
theorem olderThan_of {older younger : List RingPart} {p : RingPart} (ho : ∀ o ∈ older ++ younger, o.call ≠ p.call) :
    olderThan (older ++ p :: younger) p.call = older := by
  have h : ∀ l : List RingPart, (∀ o ∈ l, o.call ≠ p.call) →
      List.takeWhile (fun q => decide (q.call ≠ p.call)) (l ++ p :: younger) = l := by
    intro l hl
    induction l with
    | nil => simp
    | cons a l ih =>
      have := hl a (by simp)
      simp [this]
      simpa using ih (fun o h => hl o (by simp [h]))
  exact h older (fun o h => ho o (by simp [h]))

/-- One part changed among parts of other calls. -/
theorem map_part {older younger : List RingPart} {p : RingPart} {c : CallNo} (hc : p.call = c) (f : RingPart → RingPart)
    (ho : ∀ o ∈ older ++ younger, o.call ≠ c) :
    (older ++ p :: younger).map (fun q => if q.call = c then f q else q) = older ++ f p :: younger := by
  subst hc
  have h : ∀ l : List RingPart, (∀ o ∈ l, o.call ≠ p.call) →
      l.map (fun q => if q.call = p.call then f q else q) = l := by
    intro l hl
    exact (List.map_congr_left fun o h => if_neg (hl o h)).trans (List.map_id l)
  simp [h older fun o h => ho o (by simp [h]), h younger fun o h => ho o (by simp [h])]

/-- One part removed among parts of other calls. -/
theorem filter_part {older younger : List RingPart} {p : RingPart} (ho : ∀ o ∈ older ++ younger, o.call ≠ p.call) :
    (older ++ p :: younger).filter (fun q => decide (q.call ≠ p.call)) = older ++ younger := by
  have h : ∀ l : List RingPart, (∀ o ∈ l, o.call ≠ p.call) → l.filter (fun q => decide (q.call ≠ p.call)) = l := by
    intro l hl
    rw [List.filter_eq_self]; intro o h; simpa using hl o h
  have h1 := h older fun o h => ho o (by simp [h])
  have h2 := h younger fun o h => ho o (by simp [h])
  simp only [List.filter_append, h1]
  simp
  simpa using h2

/-- R33: the placement of a part overtakes the parts older than it. -/
theorem overtaken_of {older younger : List RingPart} {p : RingPart} {c : CallNo} (hc : p.call = c) (b : BusId)
    (ho : ∀ o ∈ older ++ younger, o.call ≠ c) :
    overtaken b c (older ++ p :: younger) = overtakenBy b older ++ p :: younger := by
  subst hc
  have h : ∀ l : List RingPart, (∀ o ∈ l, o.call ≠ p.call) →
      overtaken b p.call (l ++ p :: younger) = overtakenBy b l ++ p :: younger := by
    intro l hl
    induction l with
    | nil => simp [overtaken, overtakenBy]
    | cons a l ih =>
      have := hl a (by simp)
      simp [overtaken, this, overtakenBy]
      simpa [overtakenBy] using ih (fun o h => hl o (by simp [h]))
  exact h older (fun o h => ho o (by simp [h]))

theorem overtakenBy_of {parts : List RingPart} (b : BusId) (h : ∀ p ∈ parts, ∀ m, p.status ≠ .queued m) :
    overtakenBy b parts = parts := by
  rw [overtakenBy]
  refine (List.map_congr_left fun p hp => ?_).trans (List.map_id _)
  have := h p hp
  cases hs : p.status <;> simp_all [RingPart.overtakenOn]

/-- R26. -/
theorem State.eligible_of {c : CallNo} {b : BusId} (h : noneBlocks (olderThan s.rsc.parts c) b) :
    s.eligible c b = true := by
  simp only [State.eligible, Bool.not_eq_true', List.any_eq_false]
  intro p hp hb
  have := h p hp
  cases hs : p.status <;> simp_all [RingPart.blocks, blockingCount]

/-- R24. -/
theorem State.mapAdded_mapAdd (sp : Spec) (g : GroupId) (k : Slot) : s.mapAdded (s.mapAdd sp g k) sp g k := by
  constructor
  · intro b sl
    by_cases hb : b = sp.bus
    · subst hb
      simp only [State.mapAdd, tget_tset_self, rowChanged]
      by_cases hr : ringOnSlot (s.cadence sp.cadence) k sl = true <;> simp [tget, hr]
    · simp [State.mapAdd, tget_tset_ne, Ne.symm hb, hb]
  · intro b sl
    by_cases hb : b = g
    · subst hb
      simp only [State.mapAdd, tget_tset_self, rowChanged]
      by_cases hr : ringOnSlot (s.cadence sp.cadence) k sl = true <;> simp [tget, hr]
    · simp [State.mapAdd, tget_tset_ne, Ne.symm hb, hb]

/-- R24. -/
theorem State.mapRemoved_mapRemove (sp : Spec) (g : GroupId) (k : Slot) :
    s.mapRemoved (s.mapRemove sp g k) sp g k := by
  constructor
  · intro b sl
    by_cases hb : b = sp.bus
    · subst hb
      simp only [State.mapRemove, tget_tset_self, rowChanged]
      by_cases hr : ringOnSlot (s.cadence sp.cadence) k sl = true <;> simp [tget, hr]
    · simp [State.mapRemove, tget_tset_ne, Ne.symm hb, hb]
  · intro b sl
    by_cases hb : b = g
    · subst hb
      simp only [State.mapRemove, tget_tset_self, rowChanged]
      by_cases hr : ringOnSlot (s.cadence sp.cadence) k sl = true <;> simp [tget, hr]
    · simp [State.mapRemove, tget_tset_ne, Ne.symm hb, hb]

/-! The placement pass as a relation (R34). -/

theorem partsDistinct_split {older younger : List RingPart} {p : RingPart}
    (h : partsDistinct (older ++ p :: younger)) : ∀ o ∈ older ++ younger, o.call ≠ p.call := by
  intro o ho hc
  simp only [partsDistinct, List.map_append, List.map_cons, List.nodup_append, List.nodup_cons] at h
  obtain ⟨_, ⟨h2, _⟩, h3⟩ := h
  rcases List.mem_append.1 ho with h' | h'
  · exact h3 _ (List.mem_map.2 ⟨o, h', rfl⟩) _ (by simp) hc
  · exact h2 (List.mem_map.2 ⟨o, h', hc⟩)

/-- The part of a call, with the parts around it. -/
theorem State.part_split {c : CallNo} {p : RingPart} (h : s.part c = some p) :
    ∃ older younger, s.rsc.parts = older ++ p :: younger ∧ p.call = c := by
  obtain ⟨h1, older, younger, h2, _⟩ := List.find?_eq_some_iff_append.1 h
  exact ⟨older, younger, h2, by simpa using h1⟩

/-- R26. -/
theorem State.eligible_iff {c : CallNo} {b : BusId} : s.eligible c b = true ↔ noneBlocks (olderThan s.rsc.parts c) b := by
  constructor
  · intro h p hp hb hs
    simp only [State.eligible, Bool.not_eq_true', List.any_eq_false] at h
    exact h p hp (by simp [RingPart.blocks, hs, blockingCount, hb])
  · exact State.eligible_of

/-- R27: what the search answers. -/
theorem State.offsetSearch_cases (sp : Spec) (g : GroupId) :
    (∃ k, s.firstFit sp g k ∧ s.offsetSearch sp g = some k) ∨ ((∀ k, ¬ s.fitsAt sp g k) ∧ s.offsetSearch sp g = none) := by
  cases h : s.offsetSearch sp g with
  | some k =>
    refine .inl ⟨k, ?_, rfl⟩
    simp only [State.offsetSearch, searchOrder, List.find?_map, Option.map_eq_some_iff] at h
    obtain ⟨i, h, rfl⟩ := h
    rw [List.find?_eq_some_iff_getElem] at h
    obtain ⟨h1, j, hj, hi, h2⟩ := h
    have hj' : j < 24 := by simpa [slotIds] using hj
    have : i = ⟨j, hj'⟩ := by rw [← hi]; exact slotIds_getElem ⟨j, hj'⟩
    refine ⟨i, rfl, (State.placementTest_iff _ _ _).1 h1, fun m hm hf => ?_⟩
    have := h2 m.val (by rw [this] at hm; exact hm)
    rw [slotIds_getElem m] at this
    simp only [Function.comp, Bool.not_eq_true', ← Bool.not_eq_true, State.placementTest_iff] at this
    exact this hf
  | none =>
    refine .inr ⟨fun k hk => ?_, rfl⟩
    simp only [State.offsetSearch, List.find?_eq_none, searchOrder, List.mem_map] at h
    exact h k ⟨k - tget s.rsc.startPointer sp.bus, mem_slotIds _, by simp⟩ ((State.placementTest_iff _ _ _).2 hk)

/-- R28, R33: a placement by the search. -/
theorem State.placeBySearch_eq {older younger : List RingPart} {p : RingPart}
    (h : s.rsc.parts = older ++ p :: younger) (ho : ∀ o ∈ older ++ younger, o.call ≠ p.call) (k : Slot) :
    s.placeBySearch p.call p.line p.spec p.group k =
      s.foundPlace (s.mapAdd p.spec p.group k) older younger p k := by
  have hm := map_part (c := p.call) rfl (fun p => { p with status := .placed k true }) ho
  have hov := overtaken_of (p := { p with status := .placed k true }) (c := p.call) rfl p.spec.bus ho
  rw [← h] at hm
  rw [← hm] at hov
  simp only [State.foundPlace, State.placeBySearch, State.putAt, State.modPart, State.setRsc, State.withParts,
    State.reported, State.mapAdd, hov]
  rfl

@[simp] theorem overtakenOn_call (b : BusId) (p : RingPart) : (p.overtakenOn b).call = p.call := by
  unfold RingPart.overtakenOn; repeat' split
  all_goals rfl

@[simp] theorem overtakenBy_calls (b : BusId) (l : List RingPart) :
    (overtakenBy b l).map (fun p => p.call) = l.map (fun p => p.call) := by
  simp [overtakenBy, Function.comp_def]

@[simp] theorem overtakenOn_queued (b : BusId) (p : RingPart) : (p.overtakenOn b).isQueued = p.isQueued := by
  cases h : p.status with
  | queued m => simp only [RingPart.overtakenOn, h]; split <;> simp [RingPart.isQueued, h]
  | placed k x => simp [RingPart.overtakenOn, h]

theorem queuedCalls_eq (l : List RingPart) : queuedCalls l = (l.filter (fun p => p.isQueued)).map (fun p => p.call) := by
  induction l with
  | nil => rfl
  | cons p l ih =>
    simp only [queuedCalls] at ih ⊢
    cases h : p.status <;> simp [h, RingPart.isQueued, ih]

theorem State.foundPlace_parts (map : State) (older younger : List RingPart) (p : RingPart) (k : Slot) :
    (s.foundPlace map older younger p k).rsc.parts =
      overtakenBy p.spec.bus older ++ { p with status := .placed k true } :: younger := by
  simp [State.foundPlace, State.withParts]

/-- The scan over calls that each have a waiting part. -/
theorem State.scan_passed (l : List CallNo) (s : State) (hd : partsDistinct s.rsc.parts) (hl : l.Nodup)
    (hq : ∀ c ∈ l, ∃ p, s.part c = some p ∧ p.isQueued = true) :
    Passed l s (l.foldl (fun s c => s.judgeQueued c) s) := by
  induction l generalizing s with
  | nil => exact .done s
  | cons c l ih =>
    obtain ⟨p, hp, hpq⟩ := hq c (by simp)
    obtain ⟨older, younger, hs, rfl⟩ := State.part_split hp
    have ho := partsDistinct_split (hs ▸ hd)
    obtain ⟨m, hm⟩ : ∃ m, p.status = .queued m := by
      cases h : p.status with
      | queued m => exact ⟨m, rfl⟩
      | placed k x => simp [RingPart.isQueued, h] at hpq
    rw [List.nodup_cons] at hl
    have hold := olderThan_of ho
    rw [← hs] at hold
    have hj : s.judgeQueued p.call = match s.offsetFor p.call p.spec p.group with
        | some k => s.placeBySearch p.call p.line p.spec p.group k
        | none => s := by
      simp only [State.judgeQueued, hp, hpq, if_true] <;> rfl
    rw [List.foldl_cons, hj]
    by_cases he : noneBlocks older p.spec.bus
    · have hel : s.eligible p.call p.spec.bus = true := by rw [State.eligible_iff, hold]; exact he
      rcases State.offsetSearch_cases (s := s) p.spec p.group with ⟨k, hk, hf⟩ | ⟨hk, hf⟩
      · simp only [State.offsetFor, hel, if_true, hf]
        rw [State.placeBySearch_eq hs ho]
        refine .placed s (s.mapAdd p.spec p.group k) _ older younger p m k l hs hm he hk
          (State.mapAdded_mapAdd p.spec p.group k) (ih _ ?_ hl.2 ?_)
        · rw [State.foundPlace_parts]
          rw [hs] at hd
          simpa [partsDistinct] using hd
        · intro c' hc'
          obtain ⟨q, hq1, hq2⟩ := hq c' (by simp [hc'])
          have hne : c' ≠ p.call := fun h => hl.1 (h ▸ hc')
          have hq1' := hq1
          simp only [State.part, hs, List.find?_append, List.find?_cons] at hq1
          have hne' : decide (p.call = c') = false := by simpa using Ne.symm hne
          have hof : (overtakenBy p.spec.bus older).find? (fun p => decide (p.call = c')) =
              (older.find? (fun p => decide (p.call = c'))).map (fun q => q.overtakenOn p.spec.bus) := by
            simp [overtakenBy, List.find?_map]
          simp only [State.part, State.foundPlace_parts, List.find?_append, List.find?_cons, hne', hof]
          rw [hne'] at hq1
          cases ho1 : older.find? (fun p => decide (p.call = c')) with
          | some x =>
            rw [ho1] at hq1
            have : x = q := by simpa using hq1
            subst this
            exact ⟨x.overtakenOn p.spec.bus, by simp, by simpa using hq2⟩
          | none =>
            rw [ho1] at hq1
            exact ⟨q, by simpa using hq1, hq2⟩
      · simp only [State.offsetFor, hel, if_true, hf]
        exact .stays s _ older younger p m l hs hm (.inr hk)
          (ih s hd hl.2 (fun c' hc' => hq c' (by simp [hc'])))
    · have hel : ¬ s.eligible p.call p.spec.bus = true := by rw [State.eligible_iff, hold]; exact he
      simp only [State.offsetFor, hel]
      exact .stays s _ older younger p m l hs hm (.inl he)
        (ih s hd hl.2 (fun c' hc' => hq c' (by simp [hc'])))

/-- R34: what a pass does. -/
theorem State.passes_pass (hd : partsDistinct s.rsc.parts) : s.passes s.pass := by
  rw [State.passes, queuedCalls_eq, State.pass_eq_scan]
  refine State.scan_passed _ s hd ?_ ?_
  · exact hd.sublist (List.Sublist.map _ List.filter_sublist)
  · intro c hc
    obtain ⟨p, hp, rfl⟩ := List.mem_map.1 hc
    rw [List.mem_filter] at hp
    obtain ⟨older, younger, hs⟩ := List.append_of_mem hp.1
    exact ⟨p, State.part_of hs (partsDistinct_split (hs ▸ hd)), hp.2⟩

end Sys2Proof.Machine
end

