-- ==== Sys2Proof/Laws/RingSteps.lean ====
section
/-! SUPPORT. What the ring requests and a slot expiry do, and what they leave to the Call Sequencer. -/

namespace Sys2Proof.Machine

theorem fits_congr {s t : State} (h1 : t.rsc.busLoad = s.rsc.busLoad) (h2 : t.rsc.occupancy = s.rsc.occupancy) (h3 :
    t.ptb = s.ptb)
    (sp : Spec) (g : GroupId) (k : Slot) : t.fitsAt sp g k ↔ s.fitsAt sp g k := by
  simp only [State.fitsAt, h1, h2, State.cadence, State.capacity, State.exclusion, h3]

/-- A part placed at once (R29). -/
theorem createPart_place (s : State) (c : CallNo) (n : LineId) (sp : Spec) (limit done : Nat) (k : Slot)
    (hf : ∀ p ∈ s.rsc.parts, p.call ≠ c) (hb : noneBlocks s.rsc.parts sp.bus) (hk : s.firstFit sp (s.attr n).group k)
        :
    s.createPart c n sp limit done =
      (let v := s.withParts (overtakenBy sp.bus s.rsc.parts ++
          [{ newPart c n (s.attr n).group sp limit done with status := .placed k true }]) (s.mapAdd sp (s.attr
          n).group k)
       State.reported
           { v with rsc := { v.rsc with startPointer := tset s.rsc.startPointer sp.bus (k + Fin.ofNat 24
               s.timing.stagger) } } [.peg .ringPlaced (some n)]) := by
  have ho : ∀ o ∈ s.rsc.parts ++ [], o.call ≠ (newPart c n (s.attr n).group sp limit done).call := by simpa [newPart]
      using hf
  simp only [State.createPart]
  have h1 : (s.setRsc { s.rsc with parts := s.rsc.parts ++ [newPart c n (s.attr n).group sp limit done] }).offsetFor
      c sp (s.attr n).group = some k := by
    rw [State.offsetFor, if_pos]
    · exact State.offsetSearch_some (by
        obtain ⟨i, h1, h2, h3⟩ := hk
        exact ⟨i, h1, (fits_congr rfl rfl rfl _ _ _).2 h2, fun j hj h => h3 j hj ((fits_congr rfl rfl rfl _ _ _).1
            h)⟩)
    · apply State.eligible_of
      have := olderThan_of ho
      simp only [State.setRsc]
      exact Eq.mpr (congrArg (fun l => noneBlocks l sp.bus) this) hb
  rw [h1]
  simp only [State.placeBySearch, State.putAt, State.mapAdd, State.modPart, State.setRsc]
  rw [map_part (c := c) rfl _ ho, overtaken_of (c := c) rfl _ (by simpa [newPart] using ho)]
  simp [State.reported, State.withParts]
  rfl

/-- A slot expiry at which one part alone has work (R45). -/
theorem slotExpiry_rest (s : State) (older younger : List RingPart) (p : RingPart)
    (hp : s.rsc.parts = older ++ p :: younger) (hd : s.rsc.slotTimer = 0)
    (hr : ∀ o ∈ older ++ younger, ((∃ m, o.status = .queued m) ∨ ∃ k, o.status = .placed k true ∧ k ≠ s.rsc.cycleSlot
        + 1) ∧ o.call ≠ p.call) :
    exec .slotTimerExpiry s = .next (
      let u : State := { s with rsc := { s.rsc with slotTimer := 50, cycleSlot := s.rsc.cycleSlot + 1 } }
      let t := u.slotPart p
      if p.status = .placed (s.rsc.cycleSlot + 1) false then t.slotBoundary p.call else t) := by
  have hs : ∀ (l : List RingPart) (t : State), (∀ o ∈ l, ((∃ m, o.status = .queued m) ∨ ∃ k, o.status = .placed k
      true ∧ k ≠ s.rsc.cycleSlot + 1)) → t.rsc.cycleSlot = s.rsc.cycleSlot + 1 →
      l.foldl (fun s p => s.slotPart p) t = t := by
    intro l
    induction l with
    | nil => intros; rfl
    | cons a l ih =>
      intro t h1 h2
      have : t.slotPart a = t := by
        rcases h1 a (by simp) with ⟨m, h⟩ | ⟨k, h, hk⟩
        · simp [State.slotPart, h]
        · simp [State.slotPart, h, h2, hk]
      simp only [List.foldl_cons, this]
      exact ih t (fun o h => h1 o (by simp [h])) h2
  have hb : ∀ l : List RingPart, (∀ o ∈ l, ((∃ m, o.status = .queued m) ∨ ∃ k, o.status = .placed k true ∧ k ≠
      s.rsc.cycleSlot + 1)) →
      l.filter (fun p => decide (p.status = .placed (s.rsc.cycleSlot + 1) false)) = [] := by
    intro l h
    simp only [List.filter_eq_nil_iff]
    intro o ho
    rcases h o ho with ⟨m, h⟩ | ⟨k, h, hk⟩ <;> simp [h]
  have ho := fun o h => (hr o (List.mem_append_left _ h)).1
  have hy := fun o h => (hr o (List.mem_append_right _ h)).1
  simp only [exec, execSlotTimerExpiry, State.slotDue, hd, decide_true, if_true]
  congr 1
  simp only [State.slotExpiry, State.advanceSlot, State.setRsc, State.boundaryCalls, hp]
  rw [List.foldl_append, hs older _ ho rfl, List.foldl_cons]
  have hcs : ∀ t : State, (t.slotPart p).rsc.cycleSlot = t.rsc.cycleSlot := by
    intro t
    rcases hst : p.status with m | ⟨k, b⟩
    · simp [State.slotPart, hst]
    · cases b
      · simp only [State.slotPart, hst]; split <;> rfl
      · simp only [State.slotPart, hst, State.beginCycle]
        split
        · split
          · rfl
          · have : ∀ x : State, (x.csqFirstRing p.call p.line).rsc = x.rsc := by
              intro x; simp only [State.csqFirstRing]; split
              · split <;> rfl
              · rfl
            rw [this]; rfl
        · rfl
  rw [hs younger _ hy (by rw [hcs])]
  rw [List.filter_append, hb older ho, List.filter_cons, hb younger hy]
  by_cases h : p.status = .placed (s.rsc.cycleSlot + 1) false
  · simp [h]
  · simp [h]

theorem setRingClaim_eq (t : State) (n : LineId) (sp : Spec) (k : Slot) : t.setRingClaim n sp k =
    t.withLine n (t.line n) (t.digits n) { t.down n with ring := some (t.ringCode sp k t.rsc.cycleSlot) } (t.up n) :=
        by
  simp [State.setRingClaim, State.modDown, State.setDown, State.withLine, State.line, State.digits, State.up]

theorem numbers_one {r : Req} {b : Byte} (h : r.payload = [b]) : numbers r.payload = [b.toNat] := by simp [numbers, h]

theorem spec_of {s : State} {n : LineId} {p : PartyId} {e : PartyEntry} (h : s.party n p = some e) : s.specOf n p =
    some e.spec := by
  simp [State.specOf, h]

theorem spec_none {s : State} {n : LineId} {p : PartyId} (h : s.party n p = none) : s.specOf n p = none := by
  simp [State.specOf, h]

/-- The outright test (R30). -/
theorem over_iff {s : State} {sp : Spec} : s.overCapacity sp = true ↔ s.capacity sp.bus < sp.bell := by
  unfold State.overCapacity; exact decide_eq_true_iff

/-- The line checks of RING pass (R124). -/
theorem ringLineStatus_ok {s : State} {n : LineId} (h : ¬ ((s.line n).state = .blocked ∨ (s.line n).state = .fault ∨
    s.lkm.state = .released)) (h2 : (s.line n).state = .idle) :
    s.ringLineStatus n = .accepted := by
  rw [State.ringLineStatus, if_neg h, if_pos h2]

/-- A FIFO of one request is taken whole. -/
theorem drain_one (t u : State) (q : RscRequest) (h : t.rsc.requests = [q]) (hu : t.takeNext = u) (hr :
    u.rsc.requests = []) : t.drain = u := by
  simp only [State.drain, h, List.length_singleton]
  show State.drainBy 2 t = u
  simp only [State.drainBy, h, hu, hr]; simp

theorem rsc_requests_reported (t : State) (l : List Report) : (t.reported l).rsc.requests = t.rsc.requests := by rw
    [State.rsc_reported]

/-- Placement hands no request. -/
theorem requests_placeBySearch (s : State) (c n sp g k) : (s.placeBySearch c n sp g k).rsc.requests = s.rsc.requests
    := by
  simp only [State.placeBySearch]
  rw [show ∀ t : State, t.peg .ringPlaced (some n) = t.reported [.peg .ringPlaced (some n)] from fun _ => rfl,
      rsc_requests_reported]; rfl

theorem requests_judgeQueued (s : State) (c) : (s.judgeQueued c).rsc.requests = s.rsc.requests := by
  unfold State.judgeQueued
  split
  · rfl
  · split
    · split
      · exact requests_placeBySearch _ _ _ _ _ _
      · rfl
    · rfl

theorem requests_pass (s : State) : s.pass.rsc.requests = s.rsc.requests := by
  rw [State.pass_eq_scan]; unfold State.scan
  generalize s.waitingCalls = l
  induction l generalizing s with
  | nil => rfl
  | cons a l ih => rw [List.foldl_cons, ih, requests_judgeQueued]

theorem requests_joinQueue (s : State) (c n) : (s.joinQueue c n).rsc.requests = s.rsc.requests := by
  unfold State.joinQueue
  rw [show ∀ t : State, t.peg .ringQueued (some n) = t.reported [.peg .ringQueued (some n)] from fun _ => rfl,
      rsc_requests_reported]; rfl

theorem requests_createPart (s : State) (c n sp l d) : (s.createPart c n sp l d).rsc.requests = s.rsc.requests := by
  unfold State.createPart
  simp only []
  split
  · rw [State.reportPlacement_eq, requests_placeBySearch]; rfl
  · rw [requests_pass, requests_joinQueue]; rfl

theorem callRec_of_csq {s t : State} (h : t.csq = s.csq) (c : CallNo) : t.callRec c = s.callRec c := by simp
    [State.callRec, h]

/-- Placement touches no call record. -/
theorem csq_placeBySearch (s : State) (c n sp g k) : (s.placeBySearch c n sp g k).csq = s.csq := by
  simp only [State.placeBySearch]
  rw [show ∀ t : State, t.peg .ringPlaced (some n) = t.reported [.peg .ringPlaced (some n)] from fun _ => rfl,
      State.csq_reported]; rfl

theorem csq_judgeQueued (s : State) (c) : (s.judgeQueued c).csq = s.csq := by
  unfold State.judgeQueued
  split
  · rfl
  · split
    · split
      · exact csq_placeBySearch _ _ _ _ _ _
      · rfl
    · rfl

theorem csq_pass (s : State) : s.pass.csq = s.csq := by
  rw [State.pass_eq_scan]; unfold State.scan
  generalize s.waitingCalls = l
  induction l generalizing s with
  | nil => rfl
  | cons a l ih => rw [List.foldl_cons, ih, csq_judgeQueued]

theorem csq_joinQueue (s : State) (c n) : (s.joinQueue c n).csq = s.csq := by
  unfold State.joinQueue
  rw [show ∀ t : State, t.peg .ringQueued (some n) = t.reported [.peg .ringQueued (some n)] from fun _ => rfl,
      State.csq_reported]; rfl

theorem csq_createPart (s : State) (c n sp l d) : (s.createPart c n sp l d).csq = s.csq := by
  unfold State.createPart
  simp only []
  split
  · rw [State.reportPlacement_eq, csq_placeBySearch]; rfl
  · rw [csq_pass, csq_joinQueue]; rfl

theorem requests_amendPart (s : State) (c cad l) : (s.amendPart c cad l).rsc.requests = s.rsc.requests := by
  have hp : ∀ (t : State) n, (t.peg .ringPlaced (some n)).rsc.requests = t.rsc.requests := by
    intro t n; rw [show ∀ t : State, t.peg .ringPlaced (some n) = t.reported [.peg .ringPlaced (some n)] from fun _
        => rfl, rsc_requests_reported]
  unfold State.amendPart
  split
  · rfl
  · split
    · split
      · unfold State.amendPending
        simp only []
        split
        · rw [State.passAfter_eq, requests_pass, hp]; rfl
        · split
          · rw [State.passAfter_eq, requests_pass, requests_placeBySearch]; rfl
          · rw [requests_pass, requests_joinQueue]; rfl
      · rfl
    · split
      · rw [requests_pass]; rfl
      · rfl
    · rfl

theorem requests_removePart (s : State) (p : RingPart) : (s.removePart p).rsc.requests = s.rsc.requests := by
  unfold State.removePart
  rcases p.status with m | ⟨k, b⟩
  · rfl
  · cases b <;> rfl

/-! Passes and reports (R34, R47, R60). -/

/-- What a pass touches: the RSC, the meters and the Management Port (R34). -/
theorem State.pass_touches (s : State) : ∃ rsc tmu mgp, s.pass = { s with rsc := rsc, tmu := tmu, mgp := mgp } := by
  have h : ∀ (s : State) c, ∃ rsc tmu mgp, s.judgeQueued c = { s with rsc := rsc, tmu := tmu, mgp := mgp } := by
    intro s c
    unfold State.judgeQueued
    repeat' split
    · exact ⟨_, _, _, rfl⟩
    · rename_i p _ _ _ k _
      obtain ⟨f, hf⟩ := State.reported_uniform [.peg .ringPlaced (some p.line)]
      refine ⟨(s.placeBySearch c p.line p.spec p.group k).rsc, (f (s.tmu, s.mgp)).1, (f (s.tmu, s.mgp)).2, ?_⟩
      rw [State.placeBySearch, show ∀ (t : State) (n : LineId), t.peg .ringPlaced (some n) = t.reported [.peg
          .ringPlaced (some n)] from
        fun _ _ => rfl, hf]
      rfl
    · exact ⟨_, _, _, rfl⟩
    · exact ⟨_, _, _, rfl⟩
  rw [State.pass_eq_scan]; unfold State.scan
  generalize s.waitingCalls = l
  induction l generalizing s with
  | nil => exact ⟨_, _, _, rfl⟩
  | cons a l ih =>
    obtain ⟨r, t, m, h⟩ := h s a
    obtain ⟨r', t', m', h'⟩ := ih (s.judgeQueued a)
    exact ⟨r', t', m', by rw [List.foldl_cons, h', h]⟩

/-- A pass reads no call record (R34). -/
theorem State.pass_csq (s : State) (x : Vector (Option CallRec) 24) :
    ({ s with csq := x } : State).pass = { s.pass with csq := x } := by
  have h : ∀ (s : State) c, ({ s with csq := x } : State).judgeQueued c = { s.judgeQueued c with csq := x } := by
    intro s c
    have h1 : ({ s with csq := x } : State).part c = s.part c := rfl
    have h2 : ∀ c sp g, ({ s with csq := x } : State).offsetFor c sp g = s.offsetFor c sp g := fun _ _ _ => rfl
    simp only [State.judgeQueued, h1, h2]
    repeat' split
    · rfl
    · rename_i p _ _ _ k _
      obtain ⟨f, hf⟩ := State.reported_uniform [.peg .ringPlaced (some p.line)]
      refine (hf _).trans (.trans ?_ (congrArg (fun t : State => { t with csq := x }) (hf _).symm))
      rfl
    · rfl
    · rfl
  rw [State.pass_eq_scan, State.pass_eq_scan]; unfold State.scan
  rw [show ({ s with csq := x } : State).waitingCalls = s.waitingCalls from rfl]
  generalize s.waitingCalls = l
  induction l generalizing s with
  | nil => rfl
  | cons a l ih => rw [List.foldl_cons, h, ih]; rfl

/-- A pass leaves each part its call and its spec (R34). -/
theorem State.pass_specs (s : State) :
    s.pass.rsc.parts.map (fun p => (p.call, p.spec)) = s.rsc.parts.map (fun p => (p.call, p.spec)) := by
  have hov : ∀ b c (l : List RingPart), (overtaken b c l).map (fun p => (p.call, p.spec)) = l.map (fun p => (p.call,
      p.spec)) := by
    intro b c l
    induction l with
    | nil => rfl
    | cons a l ih =>
      have : (a.overtakenOn b).call = a.call ∧ (a.overtakenOn b).spec = a.spec := by
        unfold RingPart.overtakenOn; repeat' split
        all_goals exact ⟨rfl, rfl⟩
      unfold overtaken; split
      · rfl
      · simp [ih, this]
  have h : ∀ (s : State) c, (s.judgeQueued c).rsc.parts.map (fun p => (p.call, p.spec)) = s.rsc.parts.map (fun p =>
      (p.call, p.spec)) := by
    intro s c
    unfold State.judgeQueued
    repeat' split
    · rfl
    · have h1 : ∀ (t : State) n, (t.peg .ringPlaced (some n)).rsc = t.rsc := by
        intro t n
        exact State.rsc_reported (s := t) [.peg .ringPlaced (some n)]
      simp only [State.placeBySearch, h1, State.putAt, State.setRsc, State.modPart, hov, State.mapAdd, List.map_map]
      refine List.map_congr_left fun p _ => ?_
      simp only [Function.comp]; split <;> rfl
    · rfl
    · rfl
  rw [State.pass_eq_scan]; unfold State.scan
  generalize s.waitingCalls = l
  induction l generalizing s with
  | nil => rfl
  | cons a l ih => rw [List.foldl_cons, ih, h]

/-- The part of a call after a pass has the spec it had. -/
theorem State.part_pass {s : State} {c : CallNo} {p : RingPart} (h : s.part c = some p) :
    ∃ q, s.pass.part c = some q ∧ q.spec = p.spec := by
  have key : ∀ l : List RingPart, (l.find? (fun p => decide (p.call = c))).map (fun p => p.spec) =
      ((l.map (fun p => (p.call, p.spec))).find? (fun x => decide (x.1 = c))).map (fun x => x.2) := by
    intro l
    rw [List.find?_map, Option.map_map]; rfl
  have h1 := key s.pass.rsc.parts
  rw [State.pass_specs, ← key] at h1
  simp only [State.part] at h ⊢
  rw [h] at h1
  simpa using h1

/-- The ring limit reads and writes the call records alone (R126). -/
theorem csqRingLimit_same (s t : State) (c : CallNo) (n : LineId) (l : Option Nat) (h : t.csq = s.csq) :
    t.csqRingLimit c n l = { t with csq := (s.csqRingLimit c n l).csq } := by
  have hr : t.callRec c = s.callRec c := by simp [State.callRec, h]
  simp only [State.csqRingLimit, State.callOnLine, hr]
  split
  · simp only [State.modCall, hr]
    cases s.callRec c <;> simp [State.setCall, h]
  · rw [← h]

/-- A call that is not on the line is not found there (R122). -/
theorem callOnLine_none {s : State} {c : CallNo} {n : LineId} (h : ∀ rec, s.callRec c = some rec → rec.line ≠ n) :
    s.callOnLine c n = none := by
  simp only [State.callOnLine]
  cases hc : s.callRec c with
  | none => rfl
  | some r => simp [Option.filter, h r hc]

/-- What a boundary report does (R126, R130, R137, R138). -/
theorem boundaryTells_of {s t : State} {p : RingPart} {limit : Option Nat} {held : Spec} {goes : State → Prop}
    (o : BoundaryOutcome) (h1 : t.csq = s.csq) (h2 : t.ptb = s.ptb)
    (h : goes ((t.csqRingLimit p.call p.line limit).csqBoundary p.call p.line
      { completed := p.cyclesCompleted + 1, outcome := o, offset := o.offset } held)) :
    boundaryTells s p limit held t goes := by
  have hr : t.callRec p.call = s.callRec p.call := by simp [State.callRec, h1]
  refine ⟨fun hn => ?_, ?_⟩
  · have h3 : t.callOnLine p.call p.line = none := callOnLine_none (by rw [hr]; exact hn)
    simpa [State.csqRingLimit, h3, State.csqBoundary] using h
  · intro rec hc hl now rung
    have h3 : t.callOnLine p.call p.line = some rec := by simp [State.callOnLine, hr, hc, hl]
    have h4 : t.csqRingLimit p.call p.line limit = { t with csq := tset s.csq p.call (some now) } := by
      have hm : ∀ f, t.modCall p.call f = { t with csq := tset s.csq p.call (some (f rec)) } := by
        intro f; simp [State.modCall, hr, hc, State.setCall, h1]
      cases limit with
      | none =>
        have : tset s.csq p.call (some now) = s.csq := by
          rw [show (some now) = tget s.csq p.call from hc.symm, tset_tget]
        rw [this, ← h1]
        simp [State.csqRingLimit]
      | some l => simp only [State.csqRingLimit, h3, hm]; rfl
    rw [h4] at h
    generalize hw : ({ t with csq := tset s.csq p.call (some now) } : State) = w at h
    have hwc : w.callRec p.call = some now := by rw [← hw]; simp [State.callRec]
    have hwo : w.callOnLine p.call p.line = some now := by simp [State.callOnLine, hwc, now, hl]
    have hm : ∀ f, w.modCall p.call f = { t with csq := tset s.csq p.call (some (f now)) } := by
      intro f; simp only [State.modCall, hwc, State.setCall]; rw [← hw]; simp
    have hrung : w.modCall p.call (fun r => { r with cyclesRung := p.cyclesCompleted + 1 }) = rung := hm _
    have hst : now.state = rec.state := rfl
    have hrc : rung.callRec p.call = some { now with cyclesRung := p.cyclesCompleted + 1 } := by
      simp [rung, State.callRec]
    have hro : rung.callOnLine p.call p.line = some { now with cyclesRung := p.cyclesCompleted + 1 } := by
      simp [State.callOnLine, hrc, now, hl]
    have hb : rec.state = .ringing ∨ rec.state = .revertRinging → goes (rung.stageAlternation p.call p.line held) :=
        by
      intro hb
      simpa [State.csqBoundary, hwo, hst, hb, hrung] using h
    have hsp : ∀ x, rung.specOf p.line x = s.specOf p.line x := by
      intro x; simp [rung, State.specOf, State.party, h2]
    have hat : rung.attr p.line = s.attr p.line := by simp [rung, State.attr, h2]
    refine ⟨fun a b => ?_, fun a => ?_, fun a hbr called caller q h5 h6 h7 h8 => ?_, fun a hbr => ?_⟩
    · simp only [State.csqBoundary, hwo] at h
      rw [if_neg (by rw [hst]; exact not_or.2 ⟨a, b⟩)] at h
      exact h
    · simpa [State.stageAlternation, hro, hst, a] using hb (.inl a)
    · have := hb (.inr a)
      simp only [State.stageAlternation, hro, hst, a, if_true, State.alternateSpec] at this
      rw [show now.line = p.line from hl, hat, hbr] at this
      simp only [if_true, hsp, show now.called = rec.called from rfl, show now.caller = rec.caller from rfl, h5, h6,
          Option.bind_some, h7, h8, if_false] at this
      by_cases he : held = called <;> simpa [he, State.handed, State.hand, State.setRsc] using this
    · have := hb (.inr a)
      simp only [State.stageAlternation, hro, hst, a, if_true] at this
      have ha : rung.alternateSpec { now with cyclesRung := p.cyclesCompleted + 1 } held = none := by
        simp only [State.alternateSpec]
        rw [show now.line = p.line from hl, hat]
        rcases hbr with hbr | hbr
        · simp [hbr]
        · split
          · simp only [show now.called = rec.called from rfl, show now.caller = rec.caller from rfl, hsp]
            cases hcl : rec.caller with
            | none => simp
            | some q =>
              have := hbr q hcl
              simp only [Option.bind_some, hsp, this]
              cases s.specOf p.line rec.called <;> simp
          · rfl
      have ha' : rung.alternateSpec { now with cyclesRung := p.cyclesCompleted + 1, state := .revertRinging } held =
          none := by
        rw [← ha]; simp [← a]
        rfl
      simpa [ha, ha'] using this

/-- What an exhausted report does (R122, R126, R130, R138). -/
theorem exhaustedTells_of {s t : State} {p : RingPart} {limit : Option Nat} {r : LineRec} {goes : State → Prop}
    (h1 : t.csq = s.csq) (h2 : t.line p.line = r) (h3 : t.itu = s.itu)
    (h4 : t.down p.line = { s.down p.line with ring := none }) (h5 : r.state = (s.line p.line).state)
    (h6 : r.seizureCount = 0)
    (h : goes ((t.csqRingLimit p.call p.line limit).csqExhausted p.call p.line (p.cyclesCompleted + 1))) :
    exhaustedTells s p limit r t goes := by
  have hr : t.callRec p.call = s.callRec p.call := by simp [State.callRec, h1]
  refine ⟨fun hn => ?_, fun rec hc hl => ?_⟩
  · have h3 : t.callOnLine p.call p.line = none := callOnLine_none (by rw [hr]; exact hn)
    simpa [State.csqRingLimit, h3, State.csqExhausted] using h
  · have h7 : t.callOnLine p.call p.line = some rec := by simp [State.callOnLine, hr, hc, hl]
    let now : CallRec := { rec with ringLimit := limit.or rec.ringLimit }
    have h8 : t.csqRingLimit p.call p.line limit = { t with csq := tset s.csq p.call (some now) } := by
      have hm : ∀ f, t.modCall p.call f = { t with csq := tset s.csq p.call (some (f rec)) } := by
        intro f; simp [State.modCall, hr, hc, State.setCall, h1]
      cases limit with
      | none =>
        have : tset s.csq p.call (some now) = s.csq := by
          rw [show (some now) = tget s.csq p.call from hc.symm, tset_tget]
        rw [this, ← h1]
        simp [State.csqRingLimit]
      | some l => simp only [State.csqRingLimit, h7, hm]; rfl
    rw [h8] at h
    generalize hw : ({ t with csq := tset s.csq p.call (some now) } : State) = w at h
    have hwc : w.callRec p.call = some now := by rw [← hw]; simp [State.callRec]
    have hwo : w.callOnLine p.call p.line = some now := by simp [State.callOnLine, hwc, now, hl]
    have hm : ∀ f, w.modCall p.call f = { t with csq := tset s.csq p.call (some (f now)) } := by
      intro f; simp only [State.modCall, hwc, State.setCall]; rw [← hw]; simp
    have hst : now.state = rec.state := rfl
    refine ⟨fun a b => ?_, ?_⟩
    · simpa [State.csqExhausted, hwo, hst, a, b, hm] using h
    · intro a hu hs ended
      simp only [State.csqExhausted, hwo, hst, a, if_true, hm] at h
      generalize hx :
        ({ t with
            csq :=
              tset s.csq p.call
                (some { now with cyclesRung := p.cyclesCompleted + 1, ringPart := false }) } : State) = x at h
      have hxc : x.callRec p.call = some { now with cyclesRung := p.cyclesCompleted + 1, ringPart := false } := by
        rw [← hx]; simp [State.callRec]
      have hxi : x.itu = s.itu := by rw [← hx]; exact h3
      have hxl : x.line p.line = r := by rw [← hx]; exact h2
      rw [State.endCall_of_call (r := { now with cyclesRung := p.cyclesCompleted + 1, ringPart := false }) hxc (by
        simpa [State.untested, State.testOn, hxi, now, hl] using hu) (by
          rw [show ({ now with cyclesRung := p.cyclesCompleted + 1, ringPart := false } : CallRec).line = p.line from
              hl, hxl, h5, hs])] at h
      rw [show ({ now with cyclesRung := p.cyclesCompleted + 1, ringPart := false } : CallRec).line = p.line from hl,
          hxl] at h
      have hxd : x.down p.line = { s.down p.line with ring := none } := by rw [← hx]; exact h4
      rw [hxd] at h
      have h9 : callEndOf p.call { now with cyclesRung := p.cyclesCompleted + 1, ringPart := false } .noAnswer =
          callEndOf p.call ended .noAnswer := rfl
      simp only [directed, endReports, h9, Option.toList, List.map_cons, List.map_nil] at h
      have h10 : ∀ y : CallRec, y.ringPart = false → x.freed p.call y = { t with csq := tset s.csq p.call none } := by
        intro y hy
        rw [← hx]; simp [State.freed, State.handed, hy]
      rw [h10 _ rfl] at h
      have h11 : callEndOf p.call { now with line := p.line, cyclesRung := p.cyclesCompleted + 1, ringPart := false }
          .noAnswer =
          callEndOf p.call ended .noAnswer := by
        simp only [callEndOf, ended, now, hl]
      have h12 : ({ (r.withLoop .opened).noLockout with state := .idle, faultReason := none } : LineRec) =
          { r with
            state := .idle, loop := .opened, onHookCount := if r.loop = Loop.opened then r.onHookCount else 0,
            faultReason := none, lockoutTimer := none, lockoutPhase := none } := by
        cases hlo : r.loop <;> simp [LineRec.withLoop, LineRec.noLockout, hlo, h6]
      rw [← h12, ← h11]
      exact h

/-- A slot expiry at which one part alone has work, a boundary (R45). -/
theorem slotExpiry_boundary (s : State) (older younger : List RingPart) (p : RingPart)
    (hp : s.rsc.parts = older ++ p :: younger) (hd : s.rsc.slotTimer = 0)
    (hr : ∀ o ∈ older ++ younger, ((∃ m, o.status = .queued m) ∨ ∃ k, o.status = .placed k true ∧ k ≠ s.rsc.cycleSlot
        + 1) ∧ o.call ≠ p.call) (hs : p.status = .placed (s.rsc.cycleSlot + 1) false) :
    exec .slotTimerExpiry s = .next (
      State.boundary { s with rsc := { s.rsc with slotTimer := 50, cycleSlot := s.rsc.cycleSlot + 1 } } p
          (s.rsc.cycleSlot + 1)) := by
  rw [slotExpiry_rest s older younger p hp hd hr]
  generalize hu : ({ s with rsc := { s.rsc with slotTimer := 50, cycleSlot := s.rsc.cycleSlot + 1 } } : State) = u
  have hpu : u.part p.call = some p := State.part_of (by rw [← hu]; exact hp) (fun o h => (hr o h).2)
  have hcs : s.rsc.cycleSlot + 1 = u.rsc.cycleSlot := by rw [← hu]
  simp only [hs, if_true, State.slotPart]
  rw [if_pos hcs]
  simp only [State.slotBoundary, hpu, hs]

/-- The removal of a part that rings, among parts of other calls (R38, R55). -/
theorem removePart_ringing (s : State) (older younger : List RingPart) (p q : RingPart) (k : Slot)
    (hp : s.rsc.parts = older ++ p :: younger) (ho : ∀ o ∈ older ++ younger, o.call ≠ p.call)
    (hs : q.status = .placed k false) (hc : q.call = p.call) :
    s.removePart q = (s.withParts (older ++ younger) (s.mapRemove q.spec q.group k)).withLine q.line
      { s.line q.line with seizureCount := 0, tripCount := 0, hold := true } (s.digits q.line)
      { s.down q.line with ring := none } (s.up q.line) := by
  have hfil : (s.rsc.parts.filter (fun q' => decide (q'.call ≠ q.call))) = older ++ younger := by
    rw [hp, hc, filter_part ho]
  rw [State.removePart, hs]
  simp only [Bool.false_eq_true, if_false]
  simp only [State.setRsc, State.stopRinging, State.modDown, State.setDown, State.modLine, State.setLine,
      State.mapRemove, hfil]
  simp [State.withLine, State.withParts, State.line, State.down, State.up, State.digits]

/-- A pass and the ring limit of a staged amend, in either order (R34, R126). -/
theorem csqRingLimit_pass (t : State) (c : CallNo) (n : LineId) (l : Option Nat) :
    (t.csqRingLimit c n l).pass = t.pass.csqRingLimit c n l := by
  rw [csqRingLimit_same t t c n l rfl, State.pass_csq, csqRingLimit_same t t.pass c n l (csq_pass t)]

/-- What the CSQ hands after a place request is taken (R137). -/
theorem stageAlternation_of (s t : State) (c : CallNo) (n : LineId) (sp : Spec) (h1 : t.csq = s.csq) (h2 : t.ptb =
    s.ptb) :
    ((∀ rec, ¬ (s.callRec c = some rec ∧ rec.line = n ∧ rec.state = .revertRinging)) → t.stageAlternation c n sp = t)
        ∧
    ∀ rec, (s.callRec c = some rec ∧ rec.line = n ∧ rec.state = .revertRinging) →
     ((s.attr n).backRing = true → ∀ called caller q, s.specOf n rec.called = some called → rec.caller = some q →
           s.specOf n q = some caller → called ≠ caller → t.stageAlternation c n sp = t.handed [.stage c (if sp =
               called then caller else called)]) ∧
     ((s.attr n).backRing = false ∨ (∀ q, rec.caller = some q → s.specOf n q = s.specOf n rec.called) →
         t.stageAlternation c n sp = t) := by
  have hr : t.callRec c = s.callRec c := by simp [State.callRec, h1]
  have ha : t.attr n = s.attr n := by simp [State.attr, h2]
  have hs : t.specOf n = s.specOf n := by funext p; simp [State.specOf, State.party, h2]
  refine ⟨fun h => ?_, fun rec ⟨h3, h4, h5⟩ => ⟨fun hb called caller q h6 h7 h8 h9 => ?_, fun hb => ?_⟩⟩
  · simp only [State.stageAlternation, State.callOnLine, hr]
    cases hc : s.callRec c with
    | none => simp
    | some rec =>
      by_cases hl : rec.line = n
      · have := h rec
        simp only [hc, hl, true_and] at this
        simp [Option.filter, hl, this]
      · simp [Option.filter, hl]
  · simp only [State.stageAlternation, State.callOnLine, hr, h3, Option.filter, h4, decide_true, if_true, h5,
      State.alternateSpec, ha, hb, hs, h6, h7, Option.bind_some, h8, h9, if_false]
    by_cases hsp : sp = called <;> simp [hsp, State.handed, State.hand, State.setRsc]
  · simp only [State.stageAlternation, State.callOnLine, hr, h3, Option.filter, h4, decide_true, if_true, h5]
    have : t.alternateSpec rec sp = none := by
      simp only [State.alternateSpec, h4, ha, hs]
      rcases hb with hb | hb
      · simp [hb]
      · split
        · cases hcl : rec.caller with
          | none => simp
          | some q =>
            have := hb q hcl
            simp only [Option.bind_some, this]
            cases s.specOf n rec.called <;> simp
        · rfl
    rw [this]

end Sys2Proof.Machine
end

