-- ==== Sys2Proof/Laws/Map.lean ====
section
/-! SUPPORT. The operations on ring parts keep the laws of the Ring Slot Map (R20, R22, R23, R24). -/

namespace Sys2Proof.Machine

/-- What of a part the Ring Slot Map depends on. -/
def RingPart.mapView (p : RingPart) : CallNo × GroupId × Option (Slot × Spec) :=
  (p.call, p.group,
    match p.status with
    | .placed k _ => some (k, p.spec)
    | .queued _ => none)

/-- What the laws of the Ring Slot Map depend on. -/
def State.mapCore (s : State) :=
  (s.rsc.parts.map RingPart.mapView, s.rsc.busLoad, s.rsc.occupancy, s.ptb.cadences, s.ptb.capacity, s.ptb.exclusion)

/-- What a part that is seen so adds to the map. -/
def loadOfView (cad : Vector (List Nat) 16) (x : CallNo × GroupId × Option (Slot × Spec)) (b : BusId) (sl : Slot) :
    Nat :=
  match x.2.2 with
  | some (k, sp) => if sp.bus = b ∧ ringOnSlot (tget cad sp.cadence) k sl = true then sp.bell else 0
  | none => 0

/-- What it adds to the occupancy. -/
def occOfView (cad : Vector (List Nat) 16) (x : CallNo × GroupId × Option (Slot × Spec)) (g : GroupId) (sl : Slot) :
    Nat :=
  match x.2.2 with
  | some (k, sp) => if x.2.1 = g ∧ ringOnSlot (tget cad sp.cadence) k sl = true then 1 else 0
  | none => 0

theorem State.loadOf_view (s : State) (p : RingPart) (b sl) : s.loadOf p b sl = loadOfView s.ptb.cadences p.mapView b
    sl := by
  cases h : p.status <;> simp [State.loadOf, State.ringsAt, loadOfView, RingPart.mapView, h, State.cadence]

theorem State.occupancyOf_view (s : State) (p : RingPart) (g sl) : s.occupancyOf p g sl = occOfView s.ptb.cadences
    p.mapView g sl := by
  cases h : p.status <;> simp [State.occupancyOf, State.ringsAt, occOfView, RingPart.mapView, h, State.cadence]

/-- The laws of the map, by what they depend on. -/
theorem State.mapLawful_iff (s : State) : s.MapLawful ↔
    ((s.rsc.parts.map RingPart.mapView).map (fun x => x.1)).Nodup ∧
    (∀ b sl, tget (tget s.rsc.busLoad b) sl = ((s.rsc.parts.map RingPart.mapView).map (fun x => loadOfView
        s.ptb.cadences x b sl)).sum) ∧
    (∀ g sl, tget (tget s.rsc.occupancy g) sl = ((s.rsc.parts.map RingPart.mapView).map (fun x => occOfView
        s.ptb.cadences x g sl)).sum) ∧
    (∀ b sl, tget (tget s.rsc.busLoad b) sl ≤ tget s.ptb.capacity b) ∧
    (∀ g sl, tget s.ptb.exclusion g = true → tget (tget s.rsc.occupancy g) sl ≤ 1) := by
  have h1 : (s.rsc.parts.map RingPart.mapView).map (fun x => x.1) = s.rsc.parts.map (fun p => p.call) := by
    rw [List.map_map]; rfl
  have h2 : ∀ b sl, (s.rsc.parts.map RingPart.mapView).map (fun x => loadOfView s.ptb.cadences x b sl) =
      s.rsc.parts.map (fun p => s.loadOf p b sl) := by
    intro b sl; rw [List.map_map]; exact List.map_congr_left fun p _ => (s.loadOf_view p b sl).symm
  have h3 : ∀ b sl, (s.rsc.parts.map RingPart.mapView).map (fun x => occOfView s.ptb.cadences x b sl) =
      s.rsc.parts.map (fun p => s.occupancyOf p b sl) := by
    intro b sl; rw [List.map_map]; exact List.map_congr_left fun p _ => (s.occupancyOf_view p b sl).symm
  rw [h1]
  simp only [h2, h3]
  exact ⟨fun ⟨a, b, c, d, e⟩ => ⟨a, b, c, d, e⟩, fun ⟨a, b, c, d, e⟩ => ⟨a, b, c, d, e⟩⟩

theorem State.mapLawful_of_core {s t : State} (h : t.mapCore = s.mapCore) (hs : s.MapLawful) : t.MapLawful := by
  rw [State.mapLawful_iff] at hs ⊢
  simp only [State.mapCore, Prod.mk.injEq] at h
  obtain ⟨h1, h2, h3, h4, h5, h6⟩ := h
  rw [h1, h2, h3, h4, h5, h6]; exact hs

theorem mapView_overtakenOn (b : BusId) (p : RingPart) : (p.overtakenOn b).mapView = p.mapView := by
  cases h : p.status with
  | queued m => simp only [RingPart.overtakenOn, h]; split <;> simp [RingPart.mapView, h]
  | placed k x => simp [RingPart.overtakenOn, h]

theorem mapView_overtakenBy (b : BusId) (l : List RingPart) : (overtakenBy b l).map RingPart.mapView = l.map
    RingPart.mapView := by
  simp only [overtakenBy, List.map_map]
  exact List.map_congr_left fun p _ => mapView_overtakenOn b p

/-- A part that is out of the map, put into it where it fits, keeps the laws of the map (R24, R25). -/
theorem State.mapLawful_put {s : State} {older younger : List RingPart} {p : RingPart} {k : Slot} {x : Bool}
    (h : ({ s with rsc := { s.rsc with parts := older ++ { p with status := .queued 0 } :: younger } } :
        State).MapLawful)
    (hp : s.rsc.parts = older ++ p :: younger) (hf : s.fitsAt p.spec p.group k) :
    (s.putAt p.call p.spec p.group k x).MapLawful := by
  have hd := partsDistinct_split (p := { p with status := .queued 0 }) h.distinct
  have hm := map_part (older := older) (younger := younger) (p := p) (c := p.call) rfl (fun q =>
      { q with status := .placed k x }) hd
  have hov := overtaken_of (older := older) (younger := younger) (p := { p with status := .placed k x }) (c :=
      p.call) rfl p.spec.bus hd
  have hparts : (s.putAt p.call p.spec p.group k x).rsc.parts = overtakenBy p.spec.bus older ++
      { p with status := .placed k x } :: younger := by
    simp only [State.putAt, State.modPart, State.setRsc]
    rw [show (s.mapAdd p.spec p.group k).rsc.parts = s.rsc.parts from rfl, hp, hm, hov]
  obtain ⟨ha, hb⟩ := State.mapAdded_mapAdd (s := s) p.spec p.group k
  have hbl : (s.putAt p.call p.spec p.group k x).rsc.busLoad = (s.mapAdd p.spec p.group k).rsc.busLoad := rfl
  have hoc : (s.putAt p.call p.spec p.group k x).rsc.occupancy = (s.mapAdd p.spec p.group k).rsc.occupancy := rfl
  have hptb : (s.putAt p.call p.spec p.group k x).ptb = s.ptb := rfl
  rw [State.mapLawful_iff] at h ⊢
  obtain ⟨h1, h2, h3, h4, h5⟩ := h
  simp only at h1 h2 h3 h4 h5
  rw [hparts, hbl, hoc, hptb]
  simp only [List.map_append, List.map_cons, mapView_overtakenBy, List.sum_append, List.sum_cons] at h1 h2 h3 ⊢
  refine ⟨h1, fun b sl => ?_, fun g sl => ?_, fun b sl => ?_, fun g sl hg => ?_⟩
  · rw [ha, h2]
    simp only [loadOfView, RingPart.mapView, State.cadence, eq_comm (a := b)]
    omega
  · rw [hb, h3]
    have e : occOfView s.ptb.cadences ({ p with status := .placed k x } : RingPart).mapView g sl =
        if g = p.group ∧ ringOnSlot (s.cadence p.spec.cadence) k sl = true then 1 else 0 := by
      simp only [occOfView, RingPart.mapView, State.cadence, eq_comm (a := g)]
      congr
    rw [e, show occOfView s.ptb.cadences ({ p with status := .queued 0 } : RingPart).mapView g sl = 0 from rfl]
    omega
  · rw [ha]
    split
    · rename_i hx
      obtain ⟨rfl, hr⟩ := hx
      exact (hf sl hr).1
    · exact h4 b sl
  · rw [hb]
    split
    · rename_i hx
      obtain ⟨rfl, hr⟩ := hx
      rw [(hf sl hr).2 hg]
    · exact h5 g sl hg

/-- A part taken out of the map, whatever its spec then is, leaves the laws of the map (R24). -/
theorem State.mapLawful_out {s : State} {older younger : List RingPart} {p : RingPart} {k : Slot} {x : Bool}
    (h : s.MapLawful) (hp : s.rsc.parts = older ++ p :: younger) (hs : p.status = .placed k x) (mid : List RingPart)
    (hmid : mid = [] ∨ ∃ q m, mid = [q] ∧ q.call = p.call ∧ q.status = .queued m) :
    (({ s with rsc := { (s.mapRemove p.spec p.group k).rsc with parts := older ++ mid ++ younger } } :
        State)).MapLawful := by
  obtain ⟨ha, hb⟩ := State.mapRemoved_mapRemove (s := s) p.spec p.group k
  rw [State.mapLawful_iff] at h ⊢
  obtain ⟨h1, h2, h3, h4, h5⟩ := h
  rw [hp] at h1 h2 h3
  simp only [List.map_append, List.map_cons, List.sum_append, List.sum_cons] at h1 h2 h3 ⊢
  have hz : ∀ b sl, ((mid.map RingPart.mapView).map (fun x => loadOfView s.ptb.cadences x b sl)).sum = 0 := by
    intro b sl
    rcases hmid with rfl | ⟨q, m, rfl, -, hq⟩
    · rfl
    · simp [loadOfView, RingPart.mapView, hq]
  have hz2 : ∀ b sl, ((mid.map RingPart.mapView).map (fun x => occOfView s.ptb.cadences x b sl)).sum = 0 := by
    intro b sl
    rcases hmid with rfl | ⟨q, m, rfl, -, hq⟩
    · rfl
    · simp [occOfView, RingPart.mapView, hq]
  refine ⟨?_, fun b sl => ?_, fun g sl => ?_, fun b sl => ?_, fun g sl hg => ?_⟩
  · rcases hmid with rfl | ⟨q, m, rfl, hc, -⟩
    · simp only [List.map_nil, List.append_nil]
      exact List.Nodup.sublist (List.Sublist.append (List.Sublist.refl _) (List.sublist_cons_self _ _)) h1
    · have : q.mapView.1 = p.mapView.1 := hc
      simp only [List.map_cons, List.map_nil, List.append_assoc, List.singleton_append, this]
      exact h1
  · rw [ha, h2, hz]
    simp only [loadOfView, RingPart.mapView, State.cadence, eq_comm (a := b), hs]
    omega
  · rw [hb, h3, hz2]
    simp only [occOfView, RingPart.mapView, State.cadence, eq_comm (a := g), hs]
    omega
  · rw [ha]; exact le_trans (Nat.sub_le _ _) (h4 b sl)
  · rw [hb]; exact le_trans (Nat.sub_le _ _) (h5 g sl hg)

theorem mapCore_reported (s : State) (l : List Report) : (s.reported l).mapCore = s.mapCore := by
  simp only [State.mapCore, State.rsc_reported, State.ptb_reported]

/-- Placement by the search where the offset fits (R28). -/
theorem State.mapLawful_search {s : State} {older younger : List RingPart} {p : RingPart} {k : Slot} (n : LineId)
    (h : ({ s with rsc := { s.rsc with parts := older ++ { p with status := .queued 0 } :: younger } } :
        State).MapLawful)
    (hp : s.rsc.parts = older ++ p :: younger) (hf : s.fitsAt p.spec p.group k) :
    (s.placeBySearch p.call n p.spec p.group k).MapLawful := by
  refine State.mapLawful_of_core ?_ (State.mapLawful_put (x := true) h hp hf)
  exact mapCore_reported _ [.peg .ringPlaced (some n)]

theorem State.offsetFor_fits {s : State} {c sp g k} (h : s.offsetFor c sp g = some k) : s.fitsAt sp g k := by
  simp only [State.offsetFor] at h
  split at h
  · rw [State.offsetSearch] at h
    exact (State.placementTest_iff _ _ _).1 (List.find?_some h)
  · exact absurd h (by simp)

theorem State.mapLawful_judge {s : State} (h : s.MapLawful) (c : CallNo) : (s.judgeQueued c).MapLawful := by
  unfold State.judgeQueued
  split
  · exact h
  · rename_i p hp
    obtain ⟨older, younger, hs, rfl⟩ := State.part_split hp
    split
    · rename_i hq
      split
      · rename_i k hk
        refine State.mapLawful_search p.line ?_ hs (State.offsetFor_fits hk)
        refine State.mapLawful_of_core (s := s) ?_ h
        simp only [State.mapCore, hs, List.map_append, List.map_cons]
        congr 3
        cases hst : p.status with
        | queued m => simp [RingPart.mapView, hst]
        | placed k x => simp [RingPart.isQueued, hst] at hq
      · exact h
    · exact h

theorem State.mapLawful_pass {s : State} (h : s.MapLawful) : s.pass.MapLawful := by
  rw [State.pass_eq_scan]; unfold State.scan
  generalize s.waitingCalls = l
  induction l generalizing s with
  | nil => exact h
  | cons a l ih => exact ih (State.mapLawful_judge h a)

/-- Release (R38). -/
theorem State.mapLawful_removePart {s : State} (h : s.MapLawful) {c : CallNo} {p : RingPart} (hp : s.part c = some p)
    (q : RingPart)
    (hq : q.call = p.call ∧ q.status = p.status ∧ q.spec = p.spec ∧ q.group = p.group) : (s.removePart q).MapLawful
        := by
  obtain ⟨older, younger, hs, rfl⟩ := State.part_split hp
  obtain ⟨q1, q2, q3, q4⟩ := hq
  have ho := partsDistinct_split (hs ▸ h.distinct)
  have hfil : s.rsc.parts.filter (fun x => decide (x.call ≠ q.call)) = older ++ younger := by rw [hs, q1, filter_part
      ho]
  cases hst : p.status with
  | queued m =>
    simp only [State.removePart, q2, hst]
    rw [hfil]
    rw [State.mapLawful_iff] at h ⊢
    obtain ⟨h1, h2, h3, h4, h5⟩ := h
    rw [hs] at h1 h2 h3
    simp only [State.setRsc, List.map_append, List.map_cons, List.sum_append, List.sum_cons] at h1 h2 h3 ⊢
    have e1 : ∀ b sl, loadOfView s.ptb.cadences p.mapView b sl = 0 := by
      intro b sl; simp [loadOfView, RingPart.mapView, hst]
    have e2 : ∀ g sl, occOfView s.ptb.cadences p.mapView g sl = 0 := by
      intro b sl; simp [occOfView, RingPart.mapView, hst]
    refine ⟨List.Nodup.sublist (List.Sublist.append (List.Sublist.refl _) (List.sublist_cons_self _ _)) h1,
      fun b sl => ?_, fun g sl => ?_, h4, h5⟩
    · rw [h2, e1, Nat.zero_add]
    · rw [h3, e2, Nat.zero_add]
  | placed k x =>
    refine State.mapLawful_of_core ?_ (State.mapLawful_out h hs hst [] (.inl rfl))
    simp only [State.removePart, q2, hst, q3, q4]
    cases x
    · simp only [Bool.false_eq_true, if_false, State.mapCore, State.setRsc]
      rw [show ((s.mapRemove p.spec p.group k).stopRinging q.line).rsc.parts = s.rsc.parts from rfl, hfil]
      simp
      try exact ⟨rfl, rfl, rfl, rfl, rfl⟩
    · simp only [if_true, State.mapCore, State.setRsc]
      rw [show (s.mapRemove p.spec p.group k).rsc.parts = s.rsc.parts from rfl, hfil]
      simp
      try exact ⟨rfl, rfl, rfl⟩

/-- What of a part the map depends on is what a change leaves. -/
theorem State.mapLawful_modPart {s : State} (h : s.MapLawful) (c : CallNo) (f : RingPart → RingPart)
    (hf : ∀ p, s.part c = some p → (f p).mapView = p.mapView) : (s.modPart c f).MapLawful := by
  refine State.mapLawful_of_core ?_ h
  simp only [State.mapCore, State.modPart, List.map_map]
  congr 1
  refine List.map_congr_left fun p hp => ?_
  simp only [Function.comp]
  split
  · rename_i hc
    refine hf p ?_
    obtain ⟨older, younger, hs⟩ := List.append_of_mem hp
    rw [← hc]
    exact State.part_of hs (partsDistinct_split (hs ▸ h.distinct))
  · rfl

theorem State.mapLawful_joinQueue {s : State} (c : CallNo) (n : LineId)
    (h : (s.modPart c (fun p => { p with status := .queued 0 })).MapLawful) : (s.joinQueue c n).MapLawful :=
  State.mapLawful_of_core (mapCore_reported _ [.peg .ringQueued (some n)]) h

/-- A place request (R29). -/
theorem State.mapLawful_create {s : State} (h : s.MapLawful) (c : CallNo) (n : LineId) (sp : Spec) (l d : Nat)
    (hc : s.part c = none) : (s.createPart c n sp l d).MapLawful := by
  have hf : ∀ o ∈ s.rsc.parts ++ ([] : List RingPart), o.call ≠ c := by
    intro o ho hoc
    simp only [State.part, List.find?_eq_none] at hc
    have := hc o (by simpa using ho)
    simp [hoc] at this
  let p := newPart c n (s.attr n).group sp l d
  have hq : (s.setRsc { s.rsc with parts := s.rsc.parts ++ [p] }).MapLawful := by
    rw [State.mapLawful_iff] at h ⊢
    obtain ⟨h1, h2, h3, h4, h5⟩ := h
    have e1 : ∀ b sl, loadOfView s.ptb.cadences p.mapView b sl = 0 := by
      intro b sl; simp [loadOfView, RingPart.mapView, p, newPart]
    have e2 : ∀ g sl, occOfView s.ptb.cadences p.mapView g sl = 0 := by
      intro b sl; simp [occOfView, RingPart.mapView, p, newPart]
    simp only [State.setRsc, List.map_append, List.map_cons, List.map_nil, List.sum_append, List.sum_cons,
        List.sum_nil] at h1 h2 h3 ⊢
    refine ⟨?_, fun b sl => ?_, fun g sl => ?_, h4, h5⟩
    · rw [List.nodup_append]
      refine ⟨h1, by simp, ?_⟩
      intro a ha b hb
      simp only [List.map_map, List.mem_map] at ha
      obtain ⟨o, ho, rfl⟩ := ha
      simp only [List.mem_singleton] at hb
      subst hb
      exact hf o (by simpa using ho)
    · rw [h2, e1]; rfl
    · rw [h3, e2]; rfl
  simp only [State.createPart]
  split
  · rename_i k hk
    rw [State.reportPlacement_eq]
    exact State.mapLawful_search (p := p) (older := s.rsc.parts) (younger := []) n hq rfl (State.offsetFor_fits hk)
  · refine State.mapLawful_pass (State.mapLawful_joinQueue _ _ (State.mapLawful_modPart hq c _ ?_))
    intro p' hp'
    have := State.part_of (s := s.setRsc { s.rsc with parts := s.rsc.parts ++ [p] }) (older := s.rsc.parts) (younger
        := []) (p := p) rfl hf
    have e : s.part c = none := hc
    rw [show p.call = c from rfl] at this
    have hpp : p' = p := by
      have : some p' = some p := hp'.symm.trans this
      injection this
    subst hpp; rfl

theorem State.mapLawful_stopRinging {s : State} (h : s.MapLawful) (n : LineId) : (s.stopRinging n).MapLawful :=
  State.mapLawful_of_core (s := s) rfl h

/-- A part out of the map whose spec has been changed, placed anew at an offset that passes or joined to the queue. -/
theorem State.mapLawful_again {z : State} {older younger : List RingPart} {q : RingPart} (n : LineId)
    (h : ({ z with rsc := { z.rsc with parts := older ++ { q with status := .queued 0 } :: younger } } :
        State).MapLawful)
    (hp : z.rsc.parts = older ++ q :: younger) :
    (∀ k, z.offsetFor q.call q.spec q.group = some k → (z.placeBySearch q.call n q.spec q.group k).MapLawful) ∧
    (z.joinQueue q.call n).MapLawful := by
  refine ⟨fun k hk => State.mapLawful_search n h hp (State.offsetFor_fits hk), State.mapLawful_joinQueue _ _ ?_⟩
  refine State.mapLawful_of_core ?_ h
  simp only [State.mapCore, State.modPart]
  rw [hp, map_part (p := q) (c := q.call) rfl (fun p => { p with status := .queued 0 })
    (partsDistinct_split (p := { q with status := .queued 0 }) h.distinct)]

/-- An amend applied at once to a start-pending part (R36). -/
theorem State.mapLawful_amendPending {s : State} (h : s.MapLawful) {p : RingPart} {k : Slot} {x : Bool}
    {cad : CadenceId}
    {older younger : List RingPart} {q : RingPart} (hp : s.rsc.parts = older ++ q :: younger) (hc : q.call = p.call)
    (hs : q.status = .placed k x) (hsp : q.spec = p.spec) (hg : q.group = p.group) : (s.amendPending p k
        cad).MapLawful := by
  have ho : ∀ o ∈ older ++ younger, o.call ≠ p.call := by rw [← hc]; exact partsDistinct_split (hp ▸ h.distinct)
  let now : RingPart := { q with spec := p.spec.withCadence cad }
  let z : State := (s.mapRemove p.spec p.group k).modPart p.call (fun q => { q with spec := p.spec.withCadence cad })
  have hzp : z.rsc.parts = older ++ now :: younger := by
    simp only [z, State.modPart]
    rw [show (s.mapRemove p.spec p.group k).rsc.parts = s.rsc.parts from rfl, hp, map_part hc _ ho]
  have hout : ({ z with rsc := { z.rsc with parts := older ++ { now with status := .queued 0 } :: younger } } :
      State).MapLawful := by
    refine State.mapLawful_of_core ?_ (State.mapLawful_out h hp hs [{ now with status := .queued 0 }] (.inr ⟨_, 0,
        rfl, rfl, rfl⟩))
    simp only [State.mapCore, hsp, hg]
    simp
    exact ⟨rfl, rfl, rfl, rfl, rfl⟩
  have hag := State.mapLawful_again p.line hout hzp
  rw [show now.call = p.call from hc, show now.spec = p.spec.withCadence cad from rfl, show now.group = p.group from
      hg] at hag
  simp only [State.amendPending, State.passAfter_eq]
  split
  · rename_i hel
    simp only [Bool.and_eq_true] at hel
    refine State.mapLawful_pass (State.mapLawful_of_core (mapCore_reported _ [.peg .ringPlaced (some p.line)]) ?_)
    have := State.mapLawful_put (x := true) hout hzp (k := k) (by
      rw [show now.spec = p.spec.withCadence cad from rfl, show now.group = p.group from hg]
      exact (State.placementTest_iff _ _ _).1 hel.2)
    rwa [show now.call = p.call from hc, show now.spec = p.spec.withCadence cad from rfl, show now.group = p.group
        from hg] at this
  · split
    · rename_i k' hk'
      exact State.mapLawful_pass (hag.1 k' hk')
    · exact State.mapLawful_pass hag.2

/-- An amend taken (R36, R50). -/
theorem State.mapLawful_amendPart {s : State} (h : s.MapLawful) (c : CallNo) (cad : Option CadenceId) (l : Option
    Nat) :
    (s.amendPart c cad l).MapLawful := by
  unfold State.amendPart
  split
  · exact h
  · rename_i p hp
    have hl : (s.modPart c (fun p => p.withLimit l)).MapLawful := State.mapLawful_modPart h c _ (fun _ _ => rfl)
    obtain ⟨older, younger, hs, rfl⟩ := State.part_split hp
    have ho := partsDistinct_split (hs ▸ h.distinct)
    split
    · rename_i k hst
      split
      · refine State.mapLawful_amendPending hl (older := older) (younger := younger) (q := p.withLimit l) ?_ rfl hst
          rfl rfl
        simp only [State.modPart]; rw [hs, map_part rfl _ ho]
      · exact hl
    · rename_i m hst
      split
      · refine State.mapLawful_pass (State.mapLawful_modPart hl _ _ ?_)
        intro q hq
        have hq' : (s.modPart p.call (fun p => p.withLimit l)).rsc.parts = older ++ p.withLimit l :: younger := by
          simp only [State.modPart]; rw [hs, map_part rfl _ ho]
        have := State.part_of hq' ho
        rw [show (p.withLimit l).call = p.call from rfl, hq] at this
        injection this with this
        subst this
        simp [RingPart.mapView, RingPart.withLimit, hst]
      · exact hl
    · exact State.mapLawful_modPart h _ _ (fun _ _ => rfl)

/-- A staged spec applied at a boundary (R51, R52). -/
theorem State.mapLawful_applySpec {s : State} (h : s.MapLawful) {p : RingPart} {k : Slot} {x : Bool} {sp : Spec}
    {older younger : List RingPart} {q : RingPart} (hp : s.rsc.parts = older ++ q :: younger) (hc : q.call = p.call)
    (hs : q.status = .placed k x) (hsp : q.spec = p.spec) (hg : q.group = p.group) : (s.applySpec p k sp).1.MapLawful
        := by
  have ho : ∀ o ∈ older ++ younger, o.call ≠ p.call := by rw [← hc]; exact partsDistinct_split (hp ▸ h.distinct)
  let now : RingPart := { q with spec := sp, staged := none }
  let z : State := (s.mapRemove p.spec p.group k).modPart p.call (fun q => { q with spec := sp, staged := none })
  have hzp : z.rsc.parts = older ++ now :: younger := by
    simp only [z, State.modPart]
    rw [show (s.mapRemove p.spec p.group k).rsc.parts = s.rsc.parts from rfl, hp, map_part hc _ ho]
  have hout : ({ z with rsc := { z.rsc with parts := older ++ { now with status := .queued 0 } :: younger } } :
      State).MapLawful := by
    refine State.mapLawful_of_core ?_ (State.mapLawful_out h hp hs [{ now with status := .queued 0 }] (.inr ⟨_, 0,
        rfl, rfl, rfl⟩))
    simp only [State.mapCore, hsp, hg]
    simp
    exact ⟨rfl, rfl, rfl, rfl, rfl⟩
  have hag := State.mapLawful_again (z := z.stopRinging p.line) p.line
    (State.mapLawful_stopRinging hout p.line) hzp
  rw [show now.call = p.call from hc, show now.spec = sp from rfl, show now.group = p.group from hg] at hag
  simp only [State.applySpec, State.passAfter_eq]
  split
  · rename_i hel
    simp only [Bool.and_eq_true] at hel
    have := State.mapLawful_put (x := false) hout hzp (k := k) (by
      rw [show now.spec = sp from rfl, show now.group = p.group from hg]
      exact (State.placementTest_iff _ _ _).1 hel.2)
    rw [show now.call = p.call from hc, show now.spec = sp from rfl, show now.group = p.group from hg] at this
    exact State.mapLawful_pass (State.mapLawful_of_core (s := z.putAt p.call sp p.group k false) rfl this)
  · split
    · rename_i k' hk'
      exact State.mapLawful_pass (hag.1 k' hk')
    · exact State.mapLawful_pass hag.2

end Sys2Proof.Machine
end

