-- ==== Sys2Proof/Laws/Meters.lean ====
section
/-! SUPPORT. What an event that raises meters does (R192, R193, R194). -/

namespace Sys2Proof.Machine

/-- One meter's part in an event that raises the meters that `sel` names. -/
def raiseStep (fuel : Nat) (sel : Meter → Bool) (x : Tmu × Mgp) (i : MeterId) : Tmu × Mgp :=
  let m := tget x.1.meters i
  if sel m then
    let t : Tmu := { x.1 with meters := tset x.1.meters i (raisedMeter m) }
    if wrapNotifies m then
      let n := Notice.meter (overflowedByte t)
      if noticeQueueFull x.2 n then pegChain fuel .noticeLost none (t, noticeDropped x.2 n)
      else (t, noticeJoined x.2 n)
    else (t, x.2)
  else x

/-- A pass through the meters in order that meets nothing but free room (R194). -/
theorem raiseSteps_room (fuel : Nat) (sel : Meter → Bool) (M : Vector Meter 8) (l : List MeterId) :
    ∀ (done : List MeterId) (x : Tmu × Mgp), (done ++ l).Nodup →
    (∀ i, tget x.1.meters i = if i ∈ done ∧ sel (tget M i) = true then raisedMeter (tget M i) else tget M i) →
    ((l.filter (fun i => sel (tget M i) && wrapNotifies (tget M i))) = [] ∨
      (l.filter (fun i => sel (tget M i) && wrapNotifies (tget M i))).length + x.2.routine.length ≤ 16) →
    ∃ (t : Vector Meter 8) (o : MeterId → Byte),
      (∀ i, tget t i = if i ∈ done ++ l ∧ sel (tget M i) = true then raisedMeter (tget M i) else tget M i) ∧
      (∀ a i b, l = a ++ i :: b → ∀ j : MeterId, (o i).getLsbD j.val =
        (if (j ∈ done ++ a ∨ j = i) ∧ sel (tget M j) = true then raisedMeter (tget M j) else tget M j).overflowed) ∧
      l.foldl (raiseStep fuel sel) x =
        ({ x.1 with meters := t }, { x.2 with routine := x.2.routine ++
          (l.filter (fun i => sel (tget M i) && wrapNotifies (tget M i))).map (fun i => .meter (o i)) }) := by
  induction l with
  | nil =>
    intro done x _ hx _
    exact ⟨x.1.meters, fun _ => 0, by simpa using hx, fun a i b h => by simp at h, by simp⟩
  | cons c l ih =>
    intro done x hn hx hr
    have hcd : c ∉ done := by
      intro hc
      rw [List.nodup_append] at hn
      exact hn.2.2 c hc c (by simp) rfl
    have hcl : c ∉ l := by
      rw [List.nodup_append, List.nodup_cons] at hn
      exact hn.2.1.1
    have hxc : tget x.1.meters c = tget M c := by rw [hx c, if_neg (by simp [hcd])]
    have hn' : (done ++ [c] ++ l).Nodup := by simpa using hn
    -- the meters after this one
    have step : ∀ (y : Tmu × Mgp) (n : List Notice),
        raiseStep fuel sel x c = y → (∀ i, tget y.1.meters i = if i ∈ done ++ [c] ∧ sel (tget M i) = true then
            raisedMeter (tget M i) else tget M i) →
        { y.1 with meters := x.1.meters } = x.1 → y.2 = { x.2 with routine := x.2.routine ++ n } →
        (∀ o : MeterId → Byte, o c = overflowedByte y.1 → ((c :: l).filter (fun i => sel (tget M i) && wrapNotifies
            (tget M i))).map (fun i => Notice.meter (o i)) =
          n ++ (l.filter (fun i => sel (tget M i) && wrapNotifies (tget M i))).map (fun i => .meter (o i))) →
        ((l.filter (fun i => sel (tget M i) && wrapNotifies (tget M i))) = [] ∨
          (l.filter (fun i => sel (tget M i) && wrapNotifies (tget M i))).length + y.2.routine.length ≤ 16) →
        ∃ (t : Vector Meter 8) (o : MeterId → Byte),
          (∀ i, tget t i = if i ∈ done ++ c :: l ∧ sel (tget M i) = true then raisedMeter (tget M i) else tget M i) ∧
          (∀ a i b, c :: l = a ++ i :: b → ∀ j : MeterId, (o i).getLsbD j.val =
            (if (j ∈ done ++ a ∨ j = i) ∧ sel (tget M j) = true then raisedMeter (tget M j) else tget M
                j).overflowed) ∧
          (c :: l).foldl (raiseStep fuel sel) x =
            ({ x.1 with meters := t }, { x.2 with routine := x.2.routine ++
              ((c :: l).filter (fun i => sel (tget M i) && wrapNotifies (tget M i))).map (fun i => .meter (o i))
                  }) := by
      intro y n h1 h2 h3 h4 h5 h6
      obtain ⟨t, o, ht, ho, hf⟩ := ih (done ++ [c]) y hn' h2 h6
      have hoc : ∀ i, i ∈ l → (fun i => if i = c then overflowedByte y.1 else o i) i = o i := by
        intro i hi
        have : i ≠ c := fun h => hcl (h ▸ hi)
        simp [this]
      refine ⟨t, fun i => if i = c then overflowedByte y.1 else o i, by simpa using ht, ?_, ?_⟩
      · intro a i b hab j
        cases a with
        | nil =>
          simp only [List.nil_append, List.cons.injEq] at hab
          obtain ⟨rfl, rfl⟩ := hab
          simp only [if_true, overflowedByte_bit, h2, List.append_nil, List.mem_append, List.mem_singleton]
        | cons d a =>
          simp only [List.cons_append, List.cons.injEq] at hab
          obtain ⟨rfl, hl⟩ := hab
          have hi : i ∈ l := by rw [hl]; simp
          rw [hoc i hi, ho a i b hl j]
          simp
      · rw [List.foldl_cons, h1, hf, h4, h5 _ (by simp)]
        congr 1
        · rw [← h3]
        · simp only [List.append_assoc]
          congr 3
          refine List.map_congr_left fun i hi => ?_
          rw [List.mem_filter] at hi
          have := hoc i hi.1
          simp only at this
          rw [this]
    have hset : ∀ i, tget (tset x.1.meters c (raisedMeter (tget M c))) i =
        if i ∈ done ++ [c] ∧ (i = c ∨ sel (tget M i) = true) then raisedMeter (tget M i) else tget M i := by
      intro i
      by_cases hi : c = i
      · subst hi; simp
      · rw [tget_tset_ne _ _ hi, hx i]
        simp [Ne.symm hi]
    by_cases hs : sel (tget M c) = true
    · have hm : ∀ i, tget (tset x.1.meters c (raisedMeter (tget M c))) i = if i ∈ done ++ [c] ∧ sel (tget M i) = true
        then raisedMeter (tget M i) else tget M i := by
        intro i
        rw [hset i]
        by_cases hi : i = c
        · subst hi; simp [hs]
        · simp [hi]
      by_cases hw : wrapNotifies (tget M c) = true
      · have hfil : (c :: l).filter (fun i => sel (tget M i) && wrapNotifies (tget M i)) = c :: l.filter (fun i =>
          sel (tget M i) && wrapNotifies (tget M i)) := by
          rw [List.filter_cons_of_pos (by simp [hs, hw])]
        rw [hfil] at hr
        have hroom : x.2.routine.length < 16 := by
          rcases hr with hr | hr
          · simp at hr
          · simp only [List.length_cons] at hr; omega
        have hq : ∀ o, noticeQueueFull x.2 (.meter o) = false := fun o => by
          unfold noticeQueueFull; rw [if_neg (by simp [noticeUrgent])]; exact decide_eq_false (Nat.not_le.2 hroom)
        let t' : Tmu := { x.1 with meters := tset x.1.meters c (raisedMeter (tget M c)) }
        refine step (t', noticeJoined x.2 (.meter (overflowedByte t'))) [.meter (overflowedByte
            { x.1 with meters := tset x.1.meters c (raisedMeter (tget M c)) })] (by
          simp only [raiseStep, hxc, hs, if_true, hw]
          rw [hq]; rfl) hm rfl rfl ?_ ?_
        · intro o ho
          rw [hfil, List.map_cons, ho]; rfl
        · right
          simp only [noticeJoined, noticeUrgent, Bool.false_eq_true, if_false, List.length_append,
              List.length_singleton]
          rcases hr with hr | hr
          · simp at hr
          · exact (show ∀ L r : Nat, L + 1 + r ≤ 16 → L + (r + 1) ≤ 16 by intros; omega) _ _ hr
      · have hfil : (c :: l).filter (fun i => sel (tget M i) && wrapNotifies (tget M i)) = l.filter (fun i => sel
          (tget M i) && wrapNotifies (tget M i)) := by
          rw [List.filter_cons_of_neg (by simp [hw])]
        rw [hfil] at hr
        refine step ({ x.1 with meters := tset x.1.meters c (raisedMeter (tget M c)) }, x.2) [] (by
          simp only [raiseStep, hxc, hs, if_true, hw]; rfl) hm rfl (by simp) (by intro o _; rw [hfil]; rfl) hr
    · have hfil : (c :: l).filter (fun i => sel (tget M i) && wrapNotifies (tget M i)) = l.filter (fun i => sel (tget
        M i) && wrapNotifies (tget M i)) := by
        rw [List.filter_cons_of_neg (by simp [hs])]
      rw [hfil] at hr
      refine step x [] (by simp only [raiseStep, hxc, hs]; rfl) ?_ rfl (by simp) (by intro o _; rw [hfil]; rfl) hr
      intro i
      rw [hx i]
      by_cases hi : i = c
      · subst hi; simp [hs]
      · simp [hi]

/-- The meters in order, around one of them. -/
theorem meterIds_split {a b : List MeterId} {i : MeterId} (h : meterIds = a ++ i :: b) (j : MeterId) : j ∈ a ∨ j = i
    ↔ j ≤ i := by
  have ha : a = meterIds.take a.length := by rw [h]; simp
  have hi : meterIds[a.length]? = some i := by rw [h]; simp
  have hn : a.length < 8 := by
    have := congrArg List.length h
    simp [meterIds] at this
    omega
  rw [ha]
  generalize a.length = n at hi hn
  interval_cases n <;> simp [meterIds] at hi <;> subst hi <;> revert j <;> decide

/-- Meters that none selects change nothing; the peg after a dropped METER notice (R194). -/
theorem raiseSteps_none (fuel : Nat) (sel : Meter → Bool) (l : List MeterId) (x : Tmu × Mgp) (h : ∀ i ∈ l, sel (tget
    x.1.meters i) = false) :
    l.foldl (raiseStep fuel sel) x = x := by
  induction l with
  | nil => rfl
  | cons a l ih =>
    rw [List.foldl_cons, show raiseStep fuel sel x a = x by simp [raiseStep, h a (by simp)]]
    exact ih (fun i hi => h i (by simp [hi]))

/-- A peg, meter by meter (R192). -/
theorem pegChain_eq (fuel : Nat) (e : PegEvent) (line : Option LineId) (x : Tmu × Mgp) :
    pegChain (fuel + 1) e line x = meterIds.foldl (fun y i => raiseStep fuel (pegSelects y.1 e line) y i) x := rfl

/-- What the selection reads is not what a raise changes. -/
theorem pegSelects_fold (fuel : Nat) (e : PegEvent) (line : Option LineId) (l : List MeterId) (x : Tmu × Mgp)
    (hfrozen : ∀ i x sel, (raiseStep fuel sel x i).1.globalFrozen = x.1.globalFrozen) :
    l.foldl (fun y i => raiseStep fuel (pegSelects y.1 e line) y i) x = l.foldl (raiseStep fuel (pegSelects x.1 e
        line)) x := by
  induction l generalizing x with
  | nil => rfl
  | cons a l ih =>
    rw [List.foldl_cons, List.foldl_cons, ih]
    have : pegSelects (raiseStep fuel (pegSelects x.1 e line) x a).1 e line = pegSelects x.1 e line := by
      funext m; simp [pegSelects, meterCounts, hfrozen]
    rw [this]

/-- A peg leaves the global state (R190). -/
theorem globalFrozen_pegChain (fuel : Nat) : ∀ e line x, (pegChain fuel e line x).1.globalFrozen = x.1.globalFrozen
    := by
  induction fuel with
  | zero => intros; rfl
  | succ fuel ih =>
    intro e line x
    rw [pegChain_eq]
    generalize meterIds = l
    induction l generalizing x with
    | nil => rfl
    | cons a l ih2 =>
      rw [List.foldl_cons, ih2]
      simp only [raiseStep]
      repeat' split
      · rw [ih]
      · rfl
      · rfl
      · rfl

/-- So does a raise. -/
theorem globalFrozen_raiseStep (fuel : Nat) (i : MeterId) (x : Tmu × Mgp) (sel : Meter → Bool) :
    (raiseStep fuel sel x i).1.globalFrozen = x.1.globalFrozen := by
  simp only [raiseStep]
  repeat' split
  · rw [globalFrozen_pegChain]
  · rfl
  · rfl
  · rfl

/-- R192: a peg, meter by meter. -/
theorem pegChain_steps (fuel : Nat) (e : PegEvent) (line : Option LineId) (x : Tmu × Mgp) :
    pegChain (fuel + 1) e line x = meterIds.foldl (raiseStep fuel (pegSelects x.1 e line)) x := by
  rw [pegChain_eq, pegSelects_fold _ _ _ _ _ (globalFrozen_raiseStep fuel)]

/-- The meters are distinct. -/
theorem mem_split_order {i : MeterId} {a b : List MeterId} (h : meterIds = a ++ i :: b) : i ∉ a ∧ i ∉ b ∧ ∀ j, j ∈ a
    → j ∉ b := by
  have hn : meterIds.Nodup := by decide
  rw [h, List.nodup_append, List.nodup_cons] at hn
  obtain ⟨_, ⟨h2, _⟩, h3⟩ := hn
  exact ⟨fun hi => h3 i hi i (by simp) rfl, h2, fun j hj hb => h3 j hj j (by simp [hb]) rfl⟩

/-- R194: the meters raised in one event. -/
theorem raiseLeads_of {s : State} {sel : Meter → Bool} {goes : State → Prop} (fuel : Nat)
    (hc : ∀ m c, sel { m with count := c } = sel m)
    {y : Tmu × Mgp} (hy : meterIds.foldl (raiseStep (fuel + 1) sel) (s.tmu, s.mgp) = y)
    (h : goes { s with tmu := y.1, mgp := y.2 }) : raiseLeads s sel goes := by
  subst hy
  have hrm : ∀ m : Meter, raisedMeter m = if m.count = 0xFFFFFFFF#32 then
      { m with count := 0, overflowed := true, frozen := m.frozen || m.freezeOnOverflow }
    else { m with count := m.count + 1 } := fun m => rfl
  have hwr : ∀ i : MeterId, (sel (s.meter i) && wrapNotifies (s.meter i)) =
      ((sel (s.meter i) && decide ((s.meter i).count = 0xFFFFFFFF#32)) && (s.meter i).overflowNotice) := by
    intro i; simp [wrapNotifies, Bool.and_assoc]
  have hfil : ∀ l : List MeterId, l.filter (fun i => sel (tget s.tmu.meters i) && wrapNotifies (tget s.tmu.meters i))
      =
      l.filter (fun i => (sel (s.meter i) && decide ((s.meter i).count = 0xFFFFFFFF#32)) && (s.meter
          i).overflowNotice) := by
    intro l; congr 1; funext i; exact hwr i
  have hof : ∀ j, (raisedMeter (s.meter j)).overflowed = ((s.meter j).overflowed || decide ((s.meter j).count =
      0xFFFFFFFF#32)) := by
    intro j; rw [hrm]; split <;> simp [*]
  have hcase : ∀ i : MeterId, (if sel (tget s.tmu.meters i) = true then raisedMeter (tget s.tmu.meters i) else tget
      s.tmu.meters i) =
      if sel (s.meter i) = false then s.meter i
      else if (s.meter i).count = 0xFFFFFFFF#32 then
        { s.meter i with count := 0, overflowed := true, frozen := (s.meter i).frozen || (s.meter i).freezeOnOverflow }
      else { s.meter i with count := (s.meter i).count + 1 } := by
    intro i
    show (if sel (s.meter i) = true then raisedMeter (s.meter i) else s.meter i) = _
    rw [hrm]
    by_cases hs : sel (s.meter i) = true
    · simp only [hs, if_true, Bool.true_eq_false, if_false]
    · rw [Bool.not_eq_true] at hs
      simp only [hs, if_true, Bool.false_eq_true, if_false]
  refine ⟨fun hr => ?_, ?_⟩
  · obtain ⟨t, o, h1, h2, h3⟩ := raiseSteps_room (fuel + 1) sel s.tmu.meters meterIds [] (s.tmu, s.mgp) (by decide)
      (by simp) (by
      rw [hfil]; exact hr)
    refine ⟨t, o, fun i => ?_, fun i j => ?_, ?_⟩
    · rw [h1 i]
      simp only [List.nil_append, mem_meterIds, true_and]
      exact hcase i
    · obtain ⟨a, b, hab⟩ := List.append_of_mem (mem_meterIds i)
      rw [h2 a i b hab j, List.nil_append]
      simp only [meterIds_split hab]
      by_cases hji : j ≤ i
      · cases hs : sel (tget s.tmu.meters j)
        · simp [State.meter, hs]
        · have := hof j
          simp only [State.meter] at this
          simp [State.meter, hs, hji, this]
      · simp [hji, State.meter]
    · rw [h3, hfil] at h
      exact h
  · intro i hn hfull hlost
    obtain ⟨a, b, hab⟩ := List.append_of_mem (mem_meterIds i)
    obtain ⟨hia, hib, hdis⟩ := mem_split_order hab
    let M := s.tmu.meters
    -- this meter, and no other, wraps with its notice on
    have hmem : ∀ j, (sel (tget M j) && wrapNotifies (tget M j)) = true ↔ j = i := by
      intro j
      have := congrArg (fun l => j ∈ l) (hfil meterIds)
      simp only [List.mem_filter, mem_meterIds, true_and, eq_iff_iff] at this
      rw [this]
      have h2 := congrArg (fun l => j ∈ l) hn
      simpa [List.mem_filter, mem_meterIds] using h2
    have hnone : ∀ (N : Vector Meter 8) (l : List MeterId), (∀ j ∈ l, j ≠ i ∧ (sel (tget N j) && wrapNotifies (tget N
        j)) = (sel (tget M j) && wrapNotifies (tget M j))) →
        l.filter (fun i => sel (tget N i) && wrapNotifies (tget N i)) = [] := by
      intro N l hl
      rw [List.filter_eq_nil_iff]
      intro j hj
      rw [(hl j hj).2]
      exact fun h => (hl j hj).1 ((hmem j).1 h)
    have hna : ∀ j ∈ a, j ≠ i := fun j hj h => hia (h ▸ hj)
    have hnb : ∀ j ∈ b, j ≠ i := fun j hj h => hib (h ▸ hj)
    obtain ⟨t1, o1, g1, -, f1⟩ := raiseSteps_room (fuel + 1) sel M a [] (s.tmu, s.mgp) (by
      have hnd : meterIds.Nodup := by decide
      rw [hab, List.nodup_append] at hnd; simpa using hnd.1) (by simp [M]) (.inl (hnone M a fun j hj => ⟨hna j hj,
          rfl⟩))
    rw [hnone M a fun j hj => ⟨hna j hj, rfl⟩] at f1
    simp only [List.map_nil, List.append_nil, List.nil_append] at f1 g1
    have hi := (hmem i).2 rfl
    simp only [Bool.and_eq_true] at hi
    have e1 : tget t1 i = tget M i := by rw [g1 i, if_neg (by simp [hia])]
    let T2 : Tmu := { s.tmu with meters := tset t1 i (raisedMeter (tget M i)) }
    let D : Mgp := { s.mgp with
      routineLost := true,
      counters := { s.mgp.counters with routineLost := countUp s.mgp.counters.routineLost } }
    have hq : ∀ o, noticeQueueFull s.mgp (.meter o) = true := fun o => by
      unfold noticeQueueFull; rw [if_neg (by simp [noticeUrgent])]; exact decide_eq_true hfull
    have f2 : raiseStep (fuel + 1) sel ({ s.tmu with meters := t1 }, s.mgp) i = pegChain (fuel + 1) .noticeLost none
        (T2, D) := by
      simp only [raiseStep, e1, hi.1, hi.2, if_true, hq]
      rfl
    -- the meters that count the lost notice
    let lost (m : Meter) : Bool := m.enabled && !m.frozen && !s.tmu.globalFrozen && decide (m.mode = .peg) &&
      decide (m.selection = 19) && decide (m.lineFilter = none)
    have hps : ∀ m, pegSelects T2 .noticeLost none m = lost m := by
      intro m
      simp only [pegSelects, meterCounts, pegSelection, lost, T2, Bool.or_self]
      congr
    have g2 : ∀ j, tget T2.meters j = if (j ∈ a ∨ j = i) ∧ sel (tget M j) = true then raisedMeter (tget M j) else
        tget M j := by
      intro j
      by_cases hji : i = j
      · subst hji; simp [T2, hi.1]
      · simp only [T2]
        rw [tget_tset_ne _ _ hji, g1 j]; simp [Ne.symm hji]
    have hlost' : ∀ j, lost (tget T2.meters j) = true → sel (tget M j) = false ∧ tget T2.meters j = tget M j ∧ (tget
        M j).count ≠ 0xFFFFFFFF#32 := by
      intro j hj
      have h0 : lost (tget M j) = true := by
        rw [g2 j] at hj
        split at hj
        · simp only [lost, raisedMeter] at hj ⊢
          split at hj <;> simp_all
        · exact hj
      have := hlost j h0
      refine ⟨this.1, ?_, this.2⟩
      rw [g2 j, if_neg]
      intro hh
      have h3 : sel (tget M j) = false := this.1
      rw [h3] at hh; simp at hh
    have hlostM : ∀ j, lost (tget M j) = lost (tget T2.meters j) := by
      intro j
      cases hl : lost (tget T2.meters j) with
      | true => rw [(hlost' j hl).2.1] at hl; exact hl
      | false =>
        rw [← Bool.not_eq_true] at hl ⊢
        intro h0
        apply hl
        have := hlost j h0
        rw [g2 j, if_neg]
        · exact h0
        · intro hh
          have h3 : sel (tget M j) = false := this.1
          rw [h3] at hh; simp at hh
    obtain ⟨t3, o3, g3, -, f3⟩ := raiseSteps_room fuel (pegSelects T2 .noticeLost none) T2.meters meterIds [] (T2, D)
        (by decide) (by simp) (.inl (by
      rw [List.filter_eq_nil_iff]
      intro j _ hj
      simp only [Bool.and_eq_true, hps] at hj
      have := (hlost' j hj.1)
      rw [this.2.1] at hj
      simp [wrapNotifies, this.2.2] at hj))
    have hz : meterIds.filter (fun i => pegSelects T2 .noticeLost none (tget T2.meters i) && wrapNotifies (tget
        T2.meters i)) = [] := by
      rw [List.filter_eq_nil_iff]
      intro j _ hj
      simp only [Bool.and_eq_true, hps] at hj
      have := (hlost' j hj.1)
      rw [this.2.1] at hj
      simp [wrapNotifies, this.2.2] at hj
    rw [hz] at f3
    simp only [List.map_nil, List.append_nil, List.nil_append, mem_meterIds, true_and, hps] at f3 g3
    -- the meters after this one
    have hraise : ∀ m : Meter, m.count ≠ 0xFFFFFFFF#32 → raisedMeter m = { m with count := m.count + 1 } := by
      intro m hm; rw [hrm, if_neg hm]
    have g3' : ∀ j, tget t3 j = if lost (tget M j) then { tget M j with count := (tget M j).count + 1 } else
        if (j ∈ a ∨ j = i) ∧ sel (tget M j) = true then raisedMeter (tget M j) else tget M j := by
      intro j
      rw [g3 j, hlostM j]
      by_cases hl : lost (tget T2.meters j) = true
      · rw [if_pos hl, if_pos hl, (hlost' j hl).2.1, hraise _ (hlost' j hl).2.2]
      · rw [if_neg hl, if_neg hl, g2 j]
    have hb1 : ∀ j ∈ b, sel (tget t3 j) = sel (tget M j) ∧ (sel (tget M j) = true → tget t3 j = tget M j) := by
      intro j hj
      rw [g3' j]
      split
      · rename_i hl
        have h3 : sel (tget M j) = false := (hlost j hl).1
        exact ⟨hc _ _, fun h => by rw [h3] at h; simp at h⟩
      · rw [if_neg (by
          rintro ⟨h | h, -⟩
          · exact hdis j h hj
          · exact hnb j hj h)]
        exact ⟨rfl, fun _ => rfl⟩
    have hb2 : ∀ j ∈ b, j ≠ i ∧ (sel (tget t3 j) && wrapNotifies (tget t3 j)) = (sel (tget M j) && wrapNotifies (tget
        M j)) := by
      intro j hj
      refine ⟨hnb j hj, ?_⟩
      obtain ⟨h1, h2⟩ := hb1 j hj
      rw [h1]
      cases hs : sel (tget M j)
      · rfl
      · rw [h2 hs]
    obtain ⟨t4, o4, g4, -, f4⟩ := raiseSteps_room (fuel + 1) sel t3 b [] ({ T2 with meters := t3 }, D) (by
      have hnd : meterIds.Nodup := by decide
      rw [hab, List.nodup_append, List.nodup_cons] at hnd; simpa using hnd.2.1.2) (by simp) (.inl (hnone t3 b hb2))
    rw [hnone t3 b hb2] at f4
    simp only [List.map_nil, List.append_nil, List.nil_append] at f4 g4
    have hall : meterIds.foldl (raiseStep (fuel + 1) sel) (s.tmu, s.mgp) = ({ s.tmu with meters := t4 }, D) := by
      rw [hab, List.foldl_append, List.foldl_cons, f1, f2, pegChain_steps, f3, f4]
    rw [hall] at h
    refine ⟨t4, fun j => ?_, h⟩
    refine Eq.trans ?_ (congrArg (fun z => if lost (tget M j) = true then
        { tget M j with count := (tget M j).count + 1 } else z) (hcase j))
    rw [g4 j]
    by_cases hl : lost (tget M j) = true
    · have h3 : sel (tget M j) = false := (hlost j hl).1
      have h4 : sel (tget t3 j) = false := by rw [g3' j, if_pos hl, ← h3]; exact hc _ _
      rw [if_neg (by simp [h4]), g3' j]
      rw [if_pos hl, if_pos hl]
    · simp only [hl, Bool.false_eq_true, if_false]
      have hjm : j ∈ a ∨ j = i ∨ j ∈ b := by
        have := mem_meterIds j
        rw [hab] at this
        simpa using this
      by_cases hjb : j ∈ b
      · have h5 : tget t3 j = tget M j := by
          rw [g3' j, if_neg hl, if_neg]
          rintro ⟨h | h, -⟩
          · exact hdis j h hjb
          · exact hnb j hjb h
        rw [h5]; simp [hjb, M]
      · have hai : j ∈ a ∨ j = i := by
          rcases hjm with h | h | h
          · exact .inl h
          · exact .inr h
          · exact absurd h hjb
        rw [if_neg (by simp [hjb]), g3' j, if_neg hl]
        simp [hai, M]

end Sys2Proof.Machine
end

