-- ==== Sys2Proof/Laws/Service.lean ====
section
/-! SUPPORT. The folds over all lines, and what an answer leads to. -/

namespace Sys2Proof.Machine

theorem lineIds_nodup : lineIds.Nodup := by decide

/-- Shelf loss over a run of lines, line by line (R75). -/
theorem shelf_fold (l : List LineId) (s : State) (hl : l.Nodup) :
    let t := l.foldl (fun s n => if (s.line n).state = .fault then s else s.enterFault n .shelf) s
    (∀ n, t.line n = if n ∈ l ∧ (s.line n).state ≠ .fault then (s.line n).faulted .shelf else s.line n) ∧
    (∀ n, t.digits n = if n ∈ l ∧ (s.line n).state ≠ .fault then DigitRec.initial else s.digits n) ∧
    (∀ n, t.up n = if n ∈ l ∧ (s.line n).state ≠ .fault then ⟨true, none, false⟩ else s.up n) ∧
    (∀ n, if n ∈ l ∧ (s.line n).state ≠ .fault then
        { (t.down n).untest with call := none } =
            { (s.down n).noLsv.untest with fault := some .feedOff, call := none }
       else (t.down n).untest = (s.down n).untest) ∧
    (∀ k, (t.callRec k = s.callRec k ∨ t.callRec k = none)) ∧
    (∀ n ∈ l, (s.line n).state ≠ .fault → ∀ c, s.callOn n = some c → t.callRec c = none) ∧
    t.fixed = s.fixed := by
  induction l generalizing s with
  | nil => simp
  | cons a l ih =>
    simp only [List.nodup_cons] at hl
    obtain ⟨ha, hl⟩ := hl
    simp only [List.foldl_cons]
    by_cases hf : (s.line a).state = .fault
    · simp only [hf, if_true]
      obtain ⟨h1, h2, h3, h4, h5, h6, h7⟩ := ih s hl
      have hx : ∀ n, (n ∈ a :: l ∧ (s.line n).state ≠ .fault) = (n ∈ l ∧ (s.line n).state ≠ .fault) := by
        intro n; by_cases hn : n = a
        · subst hn; simp [hf]
        · simp [hn]
      refine ⟨by simpa only [hx] using h1, by simpa only [hx] using h2, by simpa only [hx] using h3, by simpa only
          [hx] using h4, h5, ?_, h7⟩
      intro n hn hs
      exact h6 n ((hx n).mp ⟨hn, hs⟩).1 hs
    · simp only [hf, if_false]
      obtain ⟨h1, h2, h3, h4, h5, h6, h7⟩ := ih (s.enterFault a .shelf) hl
      have hx : ∀ n, (n ∈ l ∧ ((s.enterFault a .shelf).line n).state ≠ .fault) = (n ∈ l ∧ (s.line n).state ≠ .fault)
          := by
        intro n
        by_cases hn : n = a
        · subst hn; simp [ha]
        · rw [State.line_enterFault, if_neg (Ne.symm hn)]
      simp only [hx] at h1 h2 h3 h4
      refine ⟨?_, ?_, ?_, ?_, ?_, ?_, ?_⟩
      · intro n; rw [h1 n, State.line_enterFault]
        by_cases hn : n = a
        · subst hn; simp [ha, hf]
        · simp [hn, Ne.symm hn]
      · intro n; rw [h2 n, State.digits_enterFault]
        by_cases hn : n = a
        · subst hn; simp [ha, hf]
        · simp [hn, Ne.symm hn]
      · intro n; rw [h3 n, State.up_enterFault']
        by_cases hn : n = a
        · subst hn; simp [ha, hf]
        · simp [hn, Ne.symm hn]
      · intro n
        have h4 := h4 n
        have hd := State.down_enterFault s a .shelf n
        by_cases hn : n = a
        · subst hn
          rw [if_neg (by simp [ha])] at h4
          rw [if_pos rfl] at hd
          rw [if_pos (by simp [hf]), h4, hd]
        · rw [if_neg (Ne.symm hn)] at hd
          simp only [List.mem_cons, hn, false_or]
          split at h4 <;> rename_i hc
          · rw [if_pos hc, h4]
            have := congrArg (fun c : DownClaims => ({ c.noLsv.untest with fault := some .feedOff, call := none } :
                DownClaims)) hd
            simpa [DownClaims.noLsv, DownClaims.untest] using this
          · rw [if_neg hc, h4, hd]
      · intro k
        have := h5 k
        rw [State.callRec_enterFault] at this
        split at this <;> simp_all
      · intro n hn hs c hc
        by_cases hna : n = a
        · subst hna
          have := h5 c
          rw [State.callRec_enterFault, if_pos hc] at this
          simpa using this
        · by_cases hac : s.callOn a = some c
          · have := h5 c
            rw [State.callRec_enterFault, if_pos hac] at this
            simpa using this
          · exact h6 n (by simpa [hna] using hn) (by rw [State.line_enterFault, if_neg (Ne.symm hna)]; exact hs) c (by rw [State.callOn_enterFault _ _ _ hna]; exact hc)
      · rw [h7]; simp

/-- ISOLATE at one line (R184). -/
theorem isolateLine_cases (s : State) (a : LineId) : s.isolateLine a =
    if (s.line a).state = .replaying ∨ ((s.line a).state = .through ∧ s.callOn a = none) then
      (s.withLine a
          { (s.line a).withLoop .closed with state := .lockout, faultReason := none, lockoutTimer := some 6000, lockoutPhase := some .tone } DigitRec.initial
        { (s.down a).noLsv with lockout := some .hangupTone } ⟨false, none, true⟩).reported [.notice (.lineLockout
            a), .peg .lockout (some a)]
    else if (s.line a).state = .through then
      s.withLine a { (s.line a) with state := .call, lockoutTimer := none, lockoutPhase := none } DigitRec.initial
          (s.down a).noLsv ⟨false, none, false⟩
    else s := by
  simp only [State.isolateLine]
  cases h : (s.line a).state <;> simp [State.enterLockout_eq]
  rcases hc : s.callOn a with _ | c
  · simp
  · simp [State.enterCall_eq, LineRec.noLockout]

theorem withLine_other {s : State} {a n : LineId} (h : n ≠ a) (r : LineRec) (d : DigitRec) (c : DownClaims) (u :
    UpClaims) :
    (s.withLine a r d c u).line n = s.line n ∧ (s.withLine a r d c u).digits n = s.digits n ∧ (s.withLine a r d c
        u).down n = s.down n ∧ (s.withLine a r d c u).up n = s.up n := by
  simp [State.withLine, State.line, State.digits, State.down, State.up, tget_tset_ne, Ne.symm h]

/-- ISOLATE over a run of lines (R184). -/
theorem isolate_fold (l : List LineId) (s : State) (hl : l.Nodup) :
    let t := l.foldl (fun s n => s.isolateLine n) s
    t.csq = s.csq ∧ t.rsc = s.rsc ∧ t.itu = s.itu ∧ t.fixed = s.fixed ∧
    ∀ n,
      (n ∉ l → t.line n = s.line n ∧ t.digits n = s.digits n ∧ t.down n = s.down n ∧ t.up n = s.up n) ∧
      (n ∈ l → t.line n = (s.isolateLine n).line n ∧ t.digits n = (s.isolateLine n).digits n ∧ t.down n =
          (s.isolateLine n).down n ∧ t.up n = (s.isolateLine n).up n) := by
  induction l generalizing s with
  | nil => simp
  | cons a l ih =>
    simp only [List.nodup_cons] at hl
    obtain ⟨ha, hl⟩ := hl
    have hb : (s.isolateLine a).csq = s.csq ∧ (s.isolateLine a).rsc = s.rsc ∧ (s.isolateLine a).itu = s.itu ∧
        (s.isolateLine a).fixed = s.fixed := by
      rw [isolateLine_cases]
      split
      · refine ⟨by simp, by simp, by simp, by rw [State.fixed_reported]; rfl⟩
      · split <;> exact ⟨rfl, rfl, rfl, rfl⟩
    have ho : ∀ n, n ≠ a → (s.isolateLine a).line n = s.line n ∧ (s.isolateLine a).digits n = s.digits n ∧
        (s.isolateLine a).down n = s.down n ∧ (s.isolateLine a).up n = s.up n := by
      intro n hn
      rw [isolateLine_cases]
      split
      · simp [withLine_other hn]
      · split
        · simp [withLine_other hn]
        · simp
    obtain ⟨h1, h2, h3, h4, h5⟩ := ih (s.isolateLine a) hl
    simp only [List.foldl_cons]
    refine ⟨h1.trans hb.1, h2.trans hb.2.1, h3.trans hb.2.2.1, h4.trans hb.2.2.2, ?_⟩
    intro n
    by_cases hn : n = a
    · subst hn
      exact ⟨fun h => by simp at h, fun _ => (h5 n).1 ha⟩
    · refine ⟨fun h => ?_, fun h => ?_⟩
      · have := (h5 n).1 (by simp at h; tauto)
        have o := ho n hn
        refine ⟨this.1.trans o.1, this.2.1.trans o.2.1, this.2.2.1.trans o.2.2.1, this.2.2.2.trans o.2.2.2⟩
      · have := (h5 n).2 (by simpa [hn] using h)
        have o := ho n hn
        have e : ((s.isolateLine a).isolateLine n).line n = (s.isolateLine n).line n ∧ ((s.isolateLine a).isolateLine
            n).digits n = (s.isolateLine n).digits n ∧ ((s.isolateLine a).isolateLine n).down n = (s.isolateLine
            n).down n ∧ ((s.isolateLine a).isolateLine n).up n = (s.isolateLine n).up n := by
          have hcall : (s.isolateLine a).callOn n = s.callOn n := by
            simp only [State.callOn, State.callRec, hb.1]
          rw [isolateLine_cases (s.isolateLine a), isolateLine_cases s n, o.1, o.2.2.1, hcall]
          split
          · simp
          · split
            · simp
            · exact o
        refine ⟨this.1.trans e.1, this.2.1.trans e.2.1, this.2.2.1.trans e.2.2.1, this.2.2.2.trans e.2.2.2⟩

theorem enterIsolated_view (s : State) : ∃ u : State, u.csq = s.csq ∧ u.rsc = s.rsc ∧ u.itu = s.itu ∧ u.ptb = s.ptb ∧
    u.lkm = { s.lkm with state := .isolated, recovery := 0 } ∧
    u.lsv = s.lsv ∧ u.dgu = s.dgu ∧ u.hwi.down = s.hwi.down ∧ u.hwi.up = s.hwi.up ∧ s.enterIsolated = lineIds.foldl
        (fun s n => s.isolateLine n) u := by
  have hr : ∀ v : State, (v.notify (.link .isolated s.lkm.state s.lkm.badCount)) = v.reported [.notice (.link
      .isolated s.lkm.state s.lkm.badCount)] := fun _ => rfl
  refine ⟨(s.setLkm { s.lkm with state := .isolated, recovery := 0 }).notify (.link .isolated s.lkm.state s.lkm.badCount), ?_, ?_, ?_, ?_, ?_, ?_, ?_, ?_, ?_, by simp only [State.enterIsolated]⟩ <;> rw [hr] <;> simp [State.setLkm]

/-- The long timeout, by its action (R183). -/
theorem lost_eq (s : State) (hv : s.hwi.ePort.validTaken = false) (h1 : s.lkm.state ≠ .isolated) (h2 : s.lkm.state ≠
    .released)
    (hl : s.timing.longTimeout = some (min 12000 (s.lkm.badCount + 1))) :
    exec .ePortIntervalClose s = .next s.closeE ∧ exec .longTimeout s = .next s.closeE ∧
    s.closeE = ((s.closePort .e).setLkm ⟨s.lkm.state, min 12000 (s.lkm.badCount + 1), s.lkm.lastRun,
        0⟩).takeLinkChange .lost := by
  have hk : s.lkm.counted false = ⟨s.lkm.state, min 12000 (s.lkm.badCount + 1), s.lkm.lastRun, 0⟩ := rfl
  have hch : linkChange s.timing ⟨s.lkm.state, min 12000 (s.lkm.badCount + 1), s.lkm.lastRun, 0⟩ false = .lost := by
    cases h : s.lkm.state <;> simp_all [linkChange]
  have hrun : s.closeE = ((s.closePort .e).setLkm ⟨s.lkm.state, min 12000 (s.lkm.badCount + 1), s.lkm.lastRun,
      0⟩).takeLinkChange .lost := by
    obtain ⟨c1, c2, c3, c4, c5, c6, c7, c8, c9⟩ := closePort_view s
    rw [State.closeE, hv, State.lkmInterval, c5, hk]
    rw [show (s.closePort .e).timing = s.timing from congrArg Ptb.timing c4, hch]
  refine ⟨rfl, ?_, hrun⟩
  simp [exec, execLongTimeout, State.closeEIf, State.linkChangeAtClose, hv, hk, hch]

/-- An answer, from what the call unit does with it (R129, R138). -/
theorem answerLeads_of {s : State} {n : LineId} {c : CallNo} {rec : CallRec} (hr : s.callRec c = some rec) (hn :
    rec.line = n)
    (hu : s.untested n) (q : LineRec) (hq : q.state = .call) (hql : q.loop = .closed) (goes : State → Prop) (tail :
        List Report)
    (hgo : ∀ t : State, (s.setLine n q).answerRing c rec = t → (rec.state = .ringing) → t.testRests n → goes
        (t.reported tail))
    (hgo' : ∀ t : State, (s.setLine n q).answerRevert c rec = t → (rec.state = .revertRinging) → t.testRests n → goes
        (t.reported tail)) :
    answerLeads s n c rec q tail goes := by
  subst hn
  have hr' : (s.setLine rec.line q).callRec c = some rec := hr
  have hx : ∃ s1 : State, (s.setLine rec.line q).releaseRing c = s1 ∧ s1.callRec c = some
      { rec with ringPart := false } ∧ s1.untested rec.line ∧
     (s1.line rec.line) = q ∧ (s1.linked = s.linked) ∧ s1.itu = s.itu ∧ s1.down = s.down ∧
     (∀ x y z w u, (s1.freed c { rec with ringPart := false }).withLine rec.line x y z w = u ↔ (s.freed c
         rec).withLine rec.line x y z w = u) ∧
     (∀ st itu, ({ s1 with csq := tset s1.csq c (some { rec with state := st, ringPart := false }), itu := itu } :
         State) =
       ({ (s.handed (if rec.ringPart then [.release c] else [])) with csq := tset s.csq c (some { rec with state := st, ringPart := false }), itu := itu } : State).setLine rec.line q) := by
    rw [State.releaseRing_eq hr']
    cases hp : rec.ringPart
    · refine ⟨_, rfl, ?_, hu, by simp, rfl, rfl, rfl, ?_, ?_⟩
      · simp; rw [hr, ← hp]
      · intros; simp [State.withLine, State.freed, State.setLine, State.handed, hp]
      · intros; simp [State.setLine, State.handed]
    · refine ⟨_, rfl, ?_, hu, ?_, rfl, rfl, rfl, ?_, ?_⟩
      · simp [State.callRec]
      · simp [State.line, State.setLine, State.handed]
      · intros; simp [State.withLine, State.freed, State.setLine, State.handed, hp]
      · intros; simp [State.setLine, State.handed]
  obtain ⟨s1, h1, h2, h3, h4, h5, h6, h7, h8, h9⟩ := hx
  have hend := fun result d e => State.endCall_of_call (s := s1) h2 h3 (by rw [h4]; exact hq) result d e true
  have hce : ∀ r, callEndOf c { rec with ringPart := false } r = callEndOf c rec r := fun _ => rfl
  simp only at hend h8
  refine ⟨?_, ?_, ?_, ?_, ?_⟩
  · intro hs hi hl
    rw [show ∀ x : Report, x :: tail = [x] ++ tail from fun _ => rfl, State.reported_append]
    refine hgo _ ?_ hs (State.testRests_of_none (by simpa using hu.1))
    simp only [State.answerRing, hi, if_false, h1, State.serviceDirection, h5, hl, if_true, hend, hce, h4, directed,
        endReports]
    rw [(h8 _ _ _ _ _).2 rfl]
    simp [LineRec.withLoop, LineRec.noLockout, hql, h7]
  · intro hs hi hl
    rw [show ∀ x y z : Report, x :: y :: z :: tail = [x, y, z] ++ tail from fun _ _ _ => rfl, State.reported_append]
    refine hgo _ ?_ hs (State.testRests_of_none (by simpa using hu.1))
    simp only [State.answerRing, hi, if_false, h1, State.serviceDirection, h5, hl, hend, hce, h4, directed,
        endReports]
    simp only [Bool.false_eq_true, if_false]
    rw [(h8 _ _ _ _ _).2 rfl]
    simp [LineRec.withLoop, hql, h7]
  · intro hs hi hitu hl
    rw [show ∀ x : Report, x :: tail = [x] ++ tail from fun _ => rfl, State.reported_append]
    refine hgo _ ?_ hs ?_
    · have hq2 : ∀ f, ((s1.modCall c f).itu = ⟨[], none⟩) := fun f => by simp [h6, hitu]
      simp only [State.answerRing, hi, if_true, h1]
      rw [State.requestTest_idle (hq2 _)]
      rw [State.releaseRing_eq hr'] at h1
      simp only [State.linked_notify]
      rw [if_pos (by exact h5.trans hl)]
      subst h1
      cases hp : rec.ringPart <;>
      simp [State.notify_eq, State.enterThrough_eq, State.reported, State.withLine, State.modCall, State.setCall,
          State.handed, State.callRec, State.line, State.setLine, State.down,
          LineRec.withLoop, LineRec.noLockout, hql]
      all_goals (have := hr; simp only [State.callRec] at this; simp [this, hp, hi, DownClaims.noLsv])
    · intro x hx
      simp [State.testOn, State.withLine] at hx
      rw [← hx.1]
  · intro hs hi hitu hl
    rw [show ∀ x : Report, x :: tail = [x] ++ tail from fun _ => rfl, State.reported_append]
    refine hgo _ ?_ hs ?_
    · have hq2 : ∀ f, ((s1.modCall c f).itu = ⟨[], none⟩) := fun f => by simp [h6, hitu]
      simp only [State.answerRing, hi, if_true, h1]
      rw [State.requestTest_idle (hq2 _)]
      rw [State.releaseRing_eq hr'] at h1
      simp only [State.linked_notify]
      rw [if_neg (by show ¬ s1.linked = true; rw [h5, hl]; decide)]
      subst h1
      cases hp : rec.ringPart <;>
      simp [State.notify_eq, State.reported, State.withLine, State.modCall, State.setCall, State.handed,
          State.callRec, State.setLine, State.down, State.digits, State.up]
      all_goals (have := hr; simp only [State.callRec] at this; simp [this, hp, hi])
    · intro x hx
      simp [State.testOn, State.withLine] at hx
      rw [← hx.1]
  · intro hs hitu
    refine hgo' _ ?_ hs ?_
    · have hq2 : ∀ f, (((s1.modCall c f).callClaim rec.line .feed).itu = ⟨[], none⟩) := fun f => by show (s1.modCall c f).itu = _; simp [h6, hitu]
      simp only [State.answerRevert, h1]
      rw [State.requestTest_idle (hq2 _)]
      rw [State.releaseRing_eq hr'] at h1
      subst h1
      cases hp : rec.ringPart <;>
      simp [State.callClaim, State.modDown, State.setDown, State.withLine, State.modCall, State.setCall,
          State.handed, State.callRec, State.setLine, State.down, State.digits, State.up]
      all_goals (have := hr; simp only [State.callRec] at this; simp [this, hp])
    · intro x hx
      simp [State.testOn, State.withLine] at hx
      rw [← hx.1]

end Sys2Proof.Machine
end

