-- ==== Sys2Proof/WellFormed.lean ====
section
/-! DEFINITION. Which command terms the spec admits: the envelope's bounds, and operands that fit their row. -/

namespace Sys2Proof

/-- A payload holds at most 32 bytes (R162); `taken` of them stand outside the operand (a table selector). -/
def payloadFits (taken : Nat) (payload : List Byte) : Bool :=
  decide (payload.length + taken ≤ 32)

/-- A request's source is 0-31 (R162). -/
def sourceFits (env : Envelope) : Bool :=
  decide (env.source.toNat ≤ 31)

/-- The envelope of a request row. -/
def Req.fits (taken : Nat) (r : Req) : Bool :=
  payloadFits taken r.payload && sourceFits r.toEnvelope

/-- The command is one its row of the table describes. The lines, calls, pins and frames are of the right range
by their types. -/
def Instr.wellFormed : Instr → Bool
  | .ring r | .ringStop r | .ringAmend r | .revert r | .identify r | .lineBlock r | .lineUnblock r
  | .lineQuery r | .callQuery r | .tableRead r | .tableCheck r | .meterSet r | .meterRead r
  | .meterPreset r | .meterClear r | .countersRead r | .setAddress r | .reset r => r.fits 0
  | .tableWriteLineAttribute r | .tableWriteParty r | .tableWriteCadence r | .tableWriteBus r
  | .tableWriteGroup r | .tableWriteTiming r => r.fits 1
  -- The rows GLOBAL_FREEZE and GLOBAL_THAW are METER FREEZE and METER THAW with meter 8 (R195).
  | .meterFreeze r | .meterThaw r => r.fits 0 && decide (r.payload ≠ [8#8])
  | .globalFreeze env | .globalThaw env => sourceFits env
  -- The row UNKNOWN_REQUEST_CODE is a code that names no request (R169).
  | .unknownRequestCode code r => r.fits 0 && !requestCodes.contains code.toNat
  | .powerOnReset _ | .frameSend | .frameReceived _ _ | .ePortIntervalClose | .shortTimeout
  | .longTimeout | .linkRestored | .lPortIntervalClose | .shelfLoss | .lineByte _ | .seizureQualify _
  | .callSeizure _ | .onHook _ | .trip _ | .faultEntry _ | .faultCleared _ | .lockoutTimerExpiry _
  | .discardEnd _ | .digitEnd _ | .collectionTimeout _ | .generatorTimerExpiry _ | .replayEnd _
  | .slotTimerExpiry | .placeRequest | .stageRequest | .amendRequest | .releaseRequest | .testTimeout
  | .hangupTimerExpiry _ | .replyHoldOffExpiry | .replySent | .relayedMessageSent | .noticeSent
  | .occupancySample | .alignmentFound _ _ => true

end Sys2Proof
end

