-- ==== Sys2Proof/Tests/Slice0.lean ====
section
/-! SUPPORT. Tests: the check of the command terms, the two check computations, small runs of single commands, and for
each statement of Certificates/Slice0/Obligations.lean that has hypotheses a state and operands that meet them. -/

namespace Sys2Proof.Tests

open Sys2Proof Sys2Proof.Machine

-- One theorem at a time: a thread for each kernel evaluation would take its own stack.
set_option Elab.async false

/-! Small states and operands. -/

/-- An addressed request with these payload bytes. -/
def ask (l : List Nat) : Req := { source := 5, broadcast := false, payload := l.map byteOf }

/-- A broadcast request with these payload bytes. -/
def askAll (l : List Nat) : Req := { source := 5, broadcast := true, payload := l.map byteOf }

/-- Party P1 of the loaded part: bus T1, cadence C1, bell load 3, class 3, code 21. -/
def entryA : PartyEntry := ⟨⟨0, .tip, 1, 3⟩, some 3, [2, 1]⟩

/-- Party P2 of the loaded part: bus T2, cadence C1, bell load 2, class 4, code 330. -/
def entryB : PartyEntry := ⟨⟨1, .ring, 1, 2⟩, some 4, [3, 3, 0]⟩

/-- The part after reset with cadence C1 defined, buses T1 and T2 of capacity 3, and parties P1 and P2 on line L0,
linked. -/
def loaded : State :=
  let p := State.reset.ptb
  { State.reset with
    ptb := { p with
      cadences := tset p.cadences 1 [2, 22], capacity := tset (tset p.capacity 0 3) 1 3,
      parties := tset p.parties 0 (tset (tset (tget p.parties 0) 0 (some entryA)) 1 (some entryB)) },
    lkm := ⟨.linked, 0, 0, 0⟩ }

/-- The L-port byte in force of line L0 set. -/
def heard (b : Byte) (s : State) : State :=
  let l := { s.hwi.lPort with inForce := tset s.hwi.lPort.inForce 0 b, good := true }
  { s with hwi := { s.hwi with lPort := l, byteWaits := Vector.replicate 16 true } }

/-- The record of line L0 set. -/
def line0 (st : LineState) (l : Loop) (f : LineRec → LineRec) (s : State) : State :=
  s.setLine 0 (f { LineRec.initial with state := st, loop := l })

/-- A call on line L0 for party P1. -/
def callRec (kind : CallKind) (st : CallState) : CallRec :=
  { kind := kind, origin := .exchange, line := 0, called := 0, caller := some 1, state := st, ringPart := true,
    ringLimit := some 2, cyclesRung := 0, answerIdentify := none, reRevert := some 0, hangupTimer := none,
    answered := none, testResult := none }

/-- Call 23 on line L0. -/
def called (kind : CallKind) (st : CallState) (f : CallRec → CallRec) (s : State) : State :=
  s.setCall 23 (some (f (callRec kind st)))

/-- The ring part of call 23. -/
def part (st : PartStatus) : RingPart :=
  { call := 23, line := 0, group := 0, spec := entryA.spec, status := st, cycleLimit := 2, cyclesCompleted := 0,
    staged := none, ringingBegun := false, tripDelivered := false }

def ringing (p : RingPart) (s : State) : State := { s with rsc := { s.rsc with parts := [p] } }

/-- A test in progress on line L0. -/
def testing (r : Requester) (k : Nat) (s : State) : State := { s with itu := ⟨[], some ⟨0, [r], k, false⟩⟩ }

def inLink (l : LinkState) (s : State) : State := { s with lkm := { s.lkm with state := l } }

/-- The Management Port changed. -/
def mgp (f : Mgp → Mgp) (s : State) : State := { s with mgp := f s.mgp }

/-- A frame to send whose check agrees, all line bytes 0. -/
def quiet : Frame := frameOf (Vector.replicate 16 0) 0xFF 0xFF

/-- What a command answers. -/
def after (c : Instr) (s : State) (p : State → Prop) : Prop := ∃ t, exec c s = .next t ∧ p t

/-! The terms that the check refuses. -/

theorem test_payload_too_long_is_refused :
    (Instr.ring (ask (List.replicate 33 0))).wellFormed = false ∧
      (Instr.ring (ask (List.replicate 32 0))).wellFormed = true := by decide +kernel

theorem test_table_payload_too_long_is_refused :
    (Instr.tableWriteTiming (ask (List.replicate 32 0))).wellFormed = false ∧
      (Instr.tableWriteTiming (ask (List.replicate 31 0))).wellFormed = true := by decide +kernel

theorem test_source_above_31_is_refused :
    (Instr.lineQuery { source := 32, broadcast := false, payload := [] }).wellFormed = false ∧
      (Instr.globalThaw { source := 32, broadcast := false }).wellFormed = false ∧
      (Instr.globalThaw { source := 31, broadcast := false }).wellFormed = true := by decide +kernel

theorem test_global_freeze_has_its_own_row :
    (Instr.meterFreeze (ask [8])).wellFormed = false ∧ (Instr.meterThaw (ask [8])).wellFormed = false ∧
      (Instr.meterFreeze (ask [7])).wellFormed = true := by decide +kernel

theorem test_unknown_code_is_unknown :
    (Instr.unknownRequestCode 0x01 (ask [])).wellFormed = false ∧
      (Instr.unknownRequestCode 0x05 (ask [])).wellFormed = true := by decide +kernel

/-! The check computations: the values of R19 and R149 for the bytes 31h to 39h. -/

theorem test_crc16_of_the_nine_bytes :
    crc16 [0x31, 0x32, 0x33, 0x34, 0x35, 0x36, 0x37, 0x38, 0x39] = 0x29B1 := by decide +kernel

theorem test_crc8_of_the_nine_bytes :
    crc8 [0x31, 0x32, 0x33, 0x34, 0x35, 0x36, 0x37, 0x38, 0x39] = 0xF4 := by decide +kernel

/-! The hypotheses of the statements are met: the step, the laws, the requests. -/

theorem test_StepTakesTheFrontCommand_met :
    ({ loaded with pending := [.frameSend, .shelfLoss] } : State).pending = .frameSend :: [.shelfLoss] ∧
      loaded.pending = [] := ⟨rfl, rfl⟩

theorem test_TablesStayLawful_met : loaded.TablesLawful ∧ step loaded = .next loaded := by
  refine ⟨⟨?_, ?_, ?_, ?_, ?_, ?_⟩, rfl⟩
  · unfold cadenceLawful; decide +kernel
  · intro n p e h
    have key : ∀ n p, ∀ e ∈ loaded.party n p, loaded.cadence e.spec.cadence ≠ [] ∧ 1 ≤ e.spec.bell ∧
        e.spec.bell ≤ 7 ∧ (∀ x ∈ e.identityClass, x ≤ 14) ∧
        (e.code = [] ∨ 2 ≤ e.code.length ∧ e.code.length ≤ 4) ∧ ∀ d ∈ e.code, d ≤ 9 := by decide +kernel
    exact key n p e h
  · intro n p q e o hpq he ho
    have key : ∀ n p q, p ≠ q → ∀ e ∈ loaded.party n p, ∀ o ∈ loaded.party n q,
        (e.identityClass = none ∨ e.identityClass ≠ o.identityClass) ∧
          (e.code = [] ∨ o.code = [] ∨ ¬ e.code <+: o.code) := by decide +kernel
    exact key n p q hpq e he o ho
  · decide +kernel
  · decide +kernel
  · decide +kernel

/-- The loaded part with the ring part of call 23 placed at this offset. -/
def placedAt (k : Slot) (pending : Bool) : State := (ringing (part (.placed k pending)) loaded).mapAdd entryA.spec 0 k

theorem test_RingSlotMapStaysWithinCapacity_met :
    (placedAt 23 true).MapLawful ∧ step (placedAt 23 true) = .next (placedAt 23 true) := by
  refine ⟨⟨?_, ?_, ?_, ?_, ?_⟩, rfl⟩
  · unfold partsDistinct; decide +kernel
  all_goals decide +kernel

theorem test_BuffersStayLawful_met :
    (ringing (part (.queued 8)) loaded).BuffersLawful ∧ step loaded = .next loaded := by
  refine ⟨⟨?_, ?_⟩, rfl⟩
  · intro p hp k hk
    simp only [ringing, List.mem_singleton] at hp
    subst hp
    cases hk
    decide
  · decide +kernel

theorem test_ManagementPortStaysBounded_met : loaded.mgp.Lawful ∧ step loaded = .next loaded := by
  refine ⟨⟨?_, ?_, ?_, ?_, ?_, ?_, ?_⟩, rfl⟩ <;> (try unfold PortCounters.bounded) <;> decide +kernel

theorem test_IsolatedServiceHoldsNoThroughLine_met :
    (inLink .isolated loaded).IsolatedLawful ∧ (inLink .isolated loaded).lkm.state = .isolated := by
  unfold State.IsolatedLawful; decide +kernel

theorem test_ManagementMessagesReassemble_met :
    (List.replicate 32 (0 : Byte)).length ≤ 32 ∧ ([] : List Byte).length ≤ 32 ∧
      (message 5 31 1 0x0B [0]).length % 2 = 1 ∧ (message 5 31 1 0x22 []).length % 2 = 0 := by decide +kernel

theorem test_RequestRowIsItsMessage_met :
    commandRequest (.tableWriteBus (ask [1, 63])) = some (0x10, ask [4, 1, 63]) ∧
      (0x05 : Byte).toNat ∉ requestCodes ∧ loaded.hears (ask []) := by unfold State.hears; decide +kernel

theorem test_RequestIsAnsweredOrOverruns_met :
    let full := mgp (fun m => { m with replySlot := some ⟨0, 1, [0], .nothing, none⟩ }) loaded
    commandRequest (.lineQuery (ask [0])) = some (0x0B, ask [0]) ∧ (ask [0]).broadcast = false ∧
      full.mgp.replySlot ≠ none ∧ loaded.mgp.replySlot = none ∧
      commandRequest (.lineQuery (askAll [0])) = some (0x0B, askAll [0]) ∧ (askAll [0]).broadcast = true := by
  decide +kernel

/-! The hypotheses are met: the tables. -/

/-- A write answered ACCEPTED, its selector, and the length of selector and key. -/
def written (l : List Nat) (sel k : Nat) : Prop :=
  ∃ t a, tableWrite loaded (ask l) = (t, a) ∧ a.status = .accepted ∧
    ((ask l).payload.head?.map (fun b => b.toNat)) = some sel ∧ k = (if sel = 2 then 3 else if sel = 6 then 1 else 2)

theorem test_TableWriteThenRead_met :
    written [1, 15, 1, 3, 31, 1, 1] 1 2 ∧ written [2, 15, 8, 1, 4, 2, 1, 7, 15, 4, 9, 9, 9, 9] 2 3 ∧
      written [2, 0, 1, 0, 0, 0, 0, 0, 0, 0, 0, 0, 0, 0] 2 3 ∧ written [3, 15, 2, 2, 22, 0, 0, 0, 0, 0, 0] 3 2 ∧
      written [4, 4, 63] 4 2 ∧ written [5, 3, 1] 5 2 ∧ written [6, 10, 2, 60, 3, 232, 1, 1, 0, 1, 1, 0] 6 1 := by
  refine ⟨?_, ?_, ?_, ?_, ?_, ?_, ?_⟩ <;> exact ⟨_, _, rfl, by decide +kernel, by decide +kernel, rfl⟩

theorem test_LineAttributeWrite_met :
    let busy := called .xr .waiting id loaded
    loaded.hears (ask []) ∧ loaded.hears (askAll []) ∧ (ask [0]).payload.length ≠ 6 ∧
      numbers (ask [16, 0, 0, 1, 0, 0]).payload = [16, 0, 0, 1, 0, 0] ∧
      numbers (ask [15, 2, 3, 31, 1, 1]).payload = [15, 2, 3, 31, 1, 1] ∧
      numbers (ask [15, 1, 3, 32, 1, 1]).payload = [15, 1, 3, 32, 1, 1] ∧
      numbers (ask [15, 1, 3, 31, 1, 1]).payload = [15, 1, 3, 31, 1, 1] ∧ busy.callOn 0 ≠ none ∧
      loaded.callOn 15 = none ∧ (loaded.line 15).state ≠ .collecting ∧ (loaded.line 15).state ≠ .replaying := by
  unfold State.hears; decide +kernel

theorem test_PartyWrite_met :
    let whole (len : Nat) (code : List Nat) :=
      numbers (ask ([0, 8, 1, 4, legCode .bridged, 1, 7, 15, len] ++ padTo 4 code)).payload =
          [0, 8, 1, 4, legCode .bridged, 1, 7, 15, len] ++ padTo 4 code ∧
        (padTo 4 code).length = 4 ∧ code.length = len ∧ ∀ x ∈ code, x ≤ 9
    loaded.hears (ask []) ∧ whole 0 [] ∧ whole 2 [2, 9] ∧ whole 3 [9, 9, 9] ∧ whole 4 [0, 0, 0, 1] ∧
      (called .xr .waiting id loaded).callOn 0 ≠ none ∧ loaded.callOn 0 = none ∧
      (loaded.line 0).state ≠ .collecting ∧ (loaded.line 0).state ≠ .replaying ∧ loaded.cadence 0 = [] ∧
      loaded.cadence 1 ≠ [] ∧ (0 : PartyId) ≠ 7 ∧ loaded.party 0 0 = some entryA ∧
      (entryA.code ≠ [] ∧ [2, 1] <+: entryA.code) ∧ entryA.identityClass = some 3 ∧
      (ask [0]).payload.length ≠ 13 ∧
      numbers (ask ([16, 9, 2, 5, 3, 16, 8, 16, 1] ++ [9, 1, 0, 0])).payload =
        [16, 9, 2, 5, 3, 16, 8, 16, 1] ++ [9, 1, 0, 0] ∧
      numbers (ask ([15, 9, 0] ++ List.replicate 10 0)).payload = [15, 9, 0, 0, 0, 0, 0, 0, 0] ++ [0, 0, 0, 0] ∧
      numbers (ask ([15, 8] ++ List.replicate 11 0)).payload = [15, 8] ++ List.replicate 11 0 := by
  unfold State.hears; decide +kernel

theorem test_PartyWrite_clash_is_absent_somewhere :
    ¬ ∃ q o, q ≠ (7 : PartyId) ∧ loaded.party 0 q = some o ∧
      ((none : Option Nat) ≠ none ∧ none = o.identityClass ∨
        ([2, 9] : List Nat) ≠ [] ∧ o.code ≠ [] ∧ ([2, 9] <+: o.code ∨ o.code <+: [2, 9])) := by
  rintro ⟨q, o, _, ho, h⟩
  have key : ∀ q, ∀ o ∈ loaded.party 0 q, ¬ ([2, 9] <+: o.code ∨ o.code <+: [2, 9]) := by decide +kernel
  rcases h with ⟨h, _⟩ | ⟨_, _, h⟩
  · exact h rfl
  · exact key q o ho h

/-- R9 check 1, as the statement has it. -/
abbrev cadenceGood (count : Nat) (d : List Nat) : Prop :=
  cadenceLawful (d.take count) ∧ (count = 0 ∨ count = 2 ∨ count = 4 ∨ count = 6 ∨ count = 8) ∧
    ∀ x ∈ d.drop count, x = 0

/-- The payload bytes hold these numbers. -/
abbrev fields (l : List Nat) : Prop := numbers (ask l).payload = l

theorem test_CadenceWrite_met :
    loaded.hears (ask []) ∧ (ask [0]).payload.length ≠ 10 ∧ fields (16 :: 0 :: [0, 0, 0, 0, 0, 0, 0, 0]) ∧
      (fields (15 :: 2 :: [1, 23, 0, 0, 0, 0, 0, 0]) ∧ ¬ cadenceGood 2 [1, 23, 0, 0, 0, 0, 0, 0]) ∧
      (fields (1 :: 2 :: [2, 22, 0, 0, 0, 0, 0, 0]) ∧ cadenceGood 2 [2, 22, 0, 0, 0, 0, 0, 0] ∧
        loaded.party 0 0 = some entryA ∧ entryA.spec.cadence = 1) ∧
      (fields (15 :: 8 :: [3, 3, 3, 3, 3, 3, 3, 3]) ∧ cadenceGood 8 [3, 3, 3, 3, 3, 3, 3, 3] ∧
        (∀ n p, ∀ e ∈ loaded.party n p, e.spec.cadence ≠ 15) ∧ loaded.rsc.parts = []) ∧
      cadenceGood 0 [0, 0, 0, 0, 0, 0, 0, 0] := by
  unfold State.hears cadenceGood cadenceLawful
  repeat' apply And.intro
  all_goals decide +kernel

theorem test_BusWrite_met :
    let full := { loaded with rsc := { loaded.rsc with
      busLoad := tset loaded.rsc.busLoad 3 (Vector.replicate 24 63) } }
    loaded.hears (ask []) ∧ (ask [0]).payload.length ≠ 2 ∧ numbers (ask [0, 0]).payload = [0, 0] ∧
      numbers (ask [5, 0]).payload = [5, 0] ∧ numbers (ask [4, 64]).payload = [4, 64] ∧
      (numbers (ask [4, 62]).payload = [4, 62] ∧ 62 < tget (tget full.rsc.busLoad 3) 23) ∧
      (numbers (ask [4, 63]).payload = [4, 63] ∧ (∀ sl, ¬ 63 < tget (tget full.rsc.busLoad 3) sl) ∧
        full.rsc.parts = [] ∧ full.capacity 3 < 63) ∧
      (numbers (ask [1, 2]).payload = [1, 2] ∧ (part (.queued 0)) ∈ (ringing (part (.queued 0)) loaded).rsc.parts ∧
        (part (.queued 0)).spec.bus = 0 ∧ 2 < (part (.queued 0)).spec.bell ∧
        (part (.queued 0)).status = .queued 0) := by
  unfold State.hears; decide +kernel

/-- Two parts of different calls, the second waiting in the queue: what a pass is stated for. -/
def twoParts (st : PartStatus) (s : State) : State :=
  { s with rsc := { s.rsc with parts := [part st, { part (.queued 8) with call := 0, line := 15 }] } }

theorem test_partsDistinct_met :
    partsDistinct (twoParts (.queued 0) loaded).rsc.parts ∧ partsDistinct loaded.rsc.parts ∧
      partsDistinct (twoParts (.placed 5 false) loaded).rsc.parts := by
  unfold partsDistinct; decide +kernel

theorem test_GroupWrite_met :
    let crowd := { loaded with rsc := { loaded.rsc with
      occupancy := tset loaded.rsc.occupancy 3 (Vector.replicate 24 2) } }
    let on := { loaded with ptb := { loaded.ptb with exclusion := tset loaded.ptb.exclusion 3 true } }
    loaded.hears (ask []) ∧ (ask [0]).payload.length ≠ 2 ∧ numbers (ask [4, 0]).payload = [4, 0] ∧
      numbers (ask [3, 2]).payload = [3, 2] ∧
      (numbers (ask [3, 1]).payload = [3, 1] ∧ crowd.exclusion 3 = false ∧
        ¬ ∀ sl, tget (tget crowd.rsc.occupancy 3) sl ≤ 1) ∧
      (∀ sl, tget (tget loaded.rsc.occupancy 3) sl ≤ 1) ∧
      (numbers (ask [3, 0]).payload = [3, 0] ∧ on.exclusion 3 = true) := by
  unfold State.hears; decide +kernel

/-- R12, as the statement has it. -/
abbrev timingGood (sq tq oq hi lo rc st rh short long act : Nat) : Prop :=
  let shorts : List Nat := [0, 20, 100, 400, 2000]
  let longs : List Nat := [0, 400, 2000, 12000]
  10 ≤ sq ∧ sq ≤ 200 ∧ 2 ≤ tq ∧ tq ≤ 15 ∧ 60 ≤ oq ∧ oq ≤ 200 ∧
    1000 ≤ 256 * hi + lo ∧ 256 * hi + lo ≤ 12000 ∧ 1 ≤ rc ∧ rc ≤ 31 ∧ 1 ≤ st ∧ st ≤ 23 ∧ rh ≤ 15 ∧
    short ≤ 4 ∧ long ≤ 3 ∧ act ≤ 1 ∧ (short = 0 ∨ long = 0 ∨ shorts.getD short 0 < longs.getD long 0)

theorem test_TimingWrite_met :
    loaded.hears (ask []) ∧ (ask [0]).payload.length ≠ 11 ∧
      (fields [10, 2, 60, 3, 232, 1, 1, 0, 0, 0, 0] ∧ timingGood 10 2 60 3 232 1 1 0 0 0 0) ∧
      (fields [200, 15, 200, 46, 224, 31, 23, 15, 4, 3, 1] ∧ timingGood 200 15 200 46 224 31 23 15 4 3 1) ∧
      (fields [10, 2, 60, 3, 231, 1, 1, 0, 0, 0, 0] ∧ ¬ timingGood 10 2 60 3 231 1 1 0 0 0 0) ∧
      (fields [10, 2, 60, 3, 232, 1, 1, 0, 3, 1, 0] ∧ ¬ timingGood 10 2 60 3 232 1 1 0 3 1 0) := by
  unfold State.hears
  refine ⟨by decide +kernel, by decide +kernel, ⟨by decide +kernel, by simp [timingGood]⟩,
    ⟨by decide +kernel, by simp [timingGood]⟩, ⟨by decide +kernel, by simp [timingGood]⟩,
    ⟨by decide +kernel, by simp [timingGood]⟩⟩

theorem test_TableReadReturnsTheRecord_met :
    loaded.hears (ask []) ∧ fields [1, 15] ∧ fields [2, 15, 8] ∧ fields [3, 15] ∧ fields [4, 4] ∧ fields [5, 3] ∧
      fields [6] ∧ fields [0] ∧ fields [7, 0] ∧ fields [2, 0] ∧ fields [6, 0] ∧ (ask []).payload = [] ∧
      fields [1, 16] ∧ fields [2, 16, 0] ∧ fields [2, 15, 9] ∧ fields [2, 15, 0] ∧ fields [3, 16] ∧ fields [4, 5] ∧
      fields [4, 0] ∧ fields [5, 4] := by
  unfold State.hears; decide +kernel

theorem test_TableCheckReturnsTheCrc_met :
    loaded.hears (ask []) ∧ (ask [1, 0, 0]).payload.length ≠ 2 ∧ (ask [1, 0, 0]).payload.length ≠ 4 ∧
      (ask [1, 15]).payload = 1 :: 15 :: [] ∧ (ask [2, 0, 41, 177]).payload = 2 :: 0 :: [41, 177] ∧
      ([41, 177] : List Byte).length = 2 ∧ (ask [3, 0]).payload = 3 :: 0 :: [] ∧
      (ask [4, 0]).payload = 4 :: 0 :: [] ∧ 15 < (16 : Byte).toNat ∧ 4 < (5 : Byte).toNat ∧ (1 : Byte) ≠ 0 := by
  unfold State.hears; decide +kernel

/-! The hypotheses are met: the meters and the part itself. -/

theorem test_MeterSet_met :
    let good (m mode sel filter thr inv en ov fr : Nat) :=
      m ≤ 7 ∧ mode ≤ 1 ∧ filter ≤ 16 ∧ thr ≤ 24 ∧ inv ≤ 1 ∧ en ≤ 1 ∧ ov ≤ 1 ∧ fr ≤ 1 ∧
        (mode = 0 → sel ≤ 19 ∧ thr = 0 ∧ inv = 0) ∧ (mode = 1 → sel ≤ 6 ∧ filter = 16)
    loaded.hears (ask []) ∧ (ask [0]).payload.length ≠ 9 ∧
      (fields [7, 0, 19, 16, 0, 0, 1, 1, 1] ∧ good 7 0 19 16 0 0 1 1 1) ∧
      (fields [0, 1, 6, 16, 24, 1, 1, 1, 1] ∧ good 0 1 6 16 24 1 1 1 1) ∧
      (fields [8, 0, 19, 16, 0, 0, 1, 1, 1] ∧ ¬ good 8 0 19 16 0 0 1 1 1) ∧
      (fields [0, 0, 20, 16, 0, 0, 1, 1, 1] ∧ ¬ good 0 0 20 16 0 0 1 1 1) ∧
      (fields [0, 1, 6, 15, 0, 0, 1, 1, 1] ∧ ¬ good 0 1 6 15 0 0 1 1 1) := by
  refine ⟨Or.inr rfl, by decide, ⟨by decide +kernel, by omega⟩, ⟨by decide +kernel, by omega⟩,
    ⟨by decide +kernel, by omega⟩, ⟨by decide +kernel, by omega⟩, by decide +kernel, by omega⟩

theorem test_MeterStateRequests_met :
    loaded.hears (ask []) ∧ (ask [7, 0, 0, 0, 1]).payload = [BitVec.ofNat 8 (7 : MeterId).val, 0, 0, 0, 1] ∧
      (ask [7]).payload = [BitVec.ofNat 8 (7 : MeterId).val] ∧ (ask [8]).payload = [8] ∧
      (ask [128]).payload = [(128 : Byte)] ∧ (ask []).payload.length ≠ 5 ∧ (ask []).payload.length ≠ 1 ∧
      (ask [8, 0, 0, 0, 1]).payload = [8, 0, 0, 0, 1] ∧ 7 < (8 : Byte).toNat ∧ (ask [9]).payload = [(9 : Byte)] ∧
      8 < (9 : Byte).toNat := by
  unfold State.hears; decide +kernel

theorem test_MeterRead_met :
    loaded.hears (ask []) ∧ (ask []).payload.length ≠ 1 ∧ (ask [8]).payload = [(8 : Byte)] ∧ 7 < (8 : Byte).toNat ∧
      (ask [7]).payload = [(7 : Byte)] ∧ (7 : Byte).toNat = (7 : MeterId).val := by
  unfold State.hears; decide +kernel

/-- Meter M0 counts LOCKOUT on every line. -/
def counting (k : BitVec 32) (notice : Bool) (s : State) : State :=
  let m : Meter := { Meter.initial with selection := 15, enabled := true, overflowNotice := notice, count := k }
  { s with tmu := { s.tmu with meters := tset s.tmu.meters 0 m } }

theorem test_PegRaisesTheMetersThatSelectIt_met :
    let s := counting 0xFFFFFFFE false loaded
    let t := counting 0xFFFFFFFF true loaded
    (∀ i, (s.meter i).count ≠ 0xFFFFFFFF#32) ∧ (s.meter 0).enabled = true ∧ (s.meter 0).frozen = false ∧
      s.tmu.globalFrozen = false ∧ (s.meter 0).mode = .peg ∧ (s.meter 0).selection = pegSelection .lockout ∧
      (s.meter 0).lineFilter = none ∧ (s.meter 7).enabled = false ∧ (t.meter 0).count = 0xFFFFFFFF#32 ∧
      (∀ j, j ≠ 0 → ¬ (t.meter j).enabled = true) ∧ (t.meter 0).overflowNotice = true ∧
      t.mgp.routine.length < 16 ∧ ((counting 0xFFFFFFFF false loaded).meter 0).overflowNotice = false := by
  decide +kernel

/-- Every meter counts LOCKOUT, from its top count, with its notice on. -/
def allWrap (s : State) : State :=
  let m : Meter :=
    { Meter.initial with selection := 15, enabled := true, overflowNotice := true, count := 0xFFFFFFFF }
  { s with tmu := { s.tmu with meters := Vector.replicate 8 m } }

/-- Notices wait in the routine queue. -/
def routine (k : Nat) (s : State) : State :=
  { s with mgp := { s.mgp with routine := List.replicate k (.lineLockout 0) } }

/-- Meter M7 counts NOTICE_LOST. -/
def countsLost (s : State) : State :=
  let m : Meter := { Meter.initial with selection := 19, enabled := true, count := 0xFFFFFFFE }
  { s with tmu := { s.tmu with meters := tset s.tmu.meters 7 m } }

theorem test_PegRaisesTheMetersThatSelectIt_wraps_met :
    let full := countsLost (counting 0xFFFFFFFF true (routine 16 loaded))
    (∀ i, ((allWrap loaded).meter i).count = 0xFFFFFFFF#32 ∧ ((allWrap loaded).meter i).overflowNotice = true) ∧
      8 + (routine 8 (allWrap loaded)).mgp.routine.length ≤ 16 ∧ 16 ≤ full.mgp.routine.length ∧
      (full.meter 0).count = 0xFFFFFFFF#32 ∧ (full.meter 7).selection = 19 ∧
      ((full.peg .lockout (some 0)).meter 7).count = 0xFFFFFFFF := by decide +kernel

theorem test_peg_raises_the_meter :
    (((counting 0xFFFFFFFE false loaded).peg .lockout (some 0)).meter 0).count = 0xFFFFFFFF := by decide +kernel

theorem test_peg_wraps_with_a_notice :
    ((counting 0xFFFFFFFF true loaded).peg .lockout (some 0)).mgp.routine = [.meter 1] := by decide +kernel

theorem test_OccupancySample_met :
    let m (k : BitVec 32) : Meter :=
      { Meter.initial with mode := .occupancy, selection := 6, enabled := true, overflowNotice := true, count := k }
    let s (k : BitVec 32) : State := { loaded with tmu := { loaded.tmu with meters := Vector.replicate 8 (m k) } }
    (∀ i, ((s 0xFFFFFFFE).meter i).count ≠ 0xFFFFFFFF#32) ∧ (∀ i, ((s 0xFFFFFFFF).meter i).threshold ≤ 0) ∧
      8 + (routine 8 (s 0xFFFFFFFF)).mgp.routine.length ≤ 16 := by decide +kernel

theorem test_CountersRead_met :
    loaded.hears (ask []) ∧ (ask []).payload.length ≠ 1 ∧ (ask [2]).payload = [(2 : Byte)] ∧ 1 < (2 : Byte).toNat ∧
      (ask [0]).payload = [0] ∧ (ask [1]).payload = [1] := by
  unfold State.hears; decide +kernel

theorem test_SetAddress_met :
    loaded.hears (ask []) ∧ (ask []).payload.length ≠ 1 ∧ (ask [31]).payload = [(31 : Byte)] ∧
      30 < (31 : Byte).toNat ∧ (ask [30]).payload = [(30 : Byte)] ∧ (30 : Byte).toNat = (30 : Address).val ∧
      (ask [30]).broadcast = false ∧ loaded.mgp.replySlot = none ∧ (askAll [30]).broadcast = true ∧
      (State.powerOn 31).mgp.address = none ∧ loaded.mgp.address ≠ none := by
  unfold State.hears; decide +kernel

/-- A reply whose last byte has left. -/
def answered (a : AfterReply) : State :=
  mgp (fun m => { m with replySlot := some ⟨5, 0x21, [0], a, none⟩, sending := some ⟨.reply, []⟩ }) loaded

theorem test_ReplySent_met :
    (answered .nothing).mgp.replySlot = some ⟨5, 0x21, [0], .nothing, none⟩ ∧
      (answered .nothing).mgp.sending = some ⟨.reply, []⟩ ∧
      (answered (.setAddress 30)).mgp.replySlot = some ⟨5, 0x21, [0], .setAddress 30, none⟩ ∧
      (answered .softReset).mgp.replySlot = some ⟨5, 0x21, [0], .softReset, none⟩ := by decide +kernel

theorem test_Reset_met :
    loaded.hears (ask []) ∧ (ask [0]).payload ≠ [] ∧ (ask []).broadcast = false ∧ loaded.mgp.replySlot = none ∧
      (ask []).payload = [] ∧ (askAll []).broadcast = true ∧ (askAll []).payload = [] := by
  unfold State.hears; decide +kernel

/-! The hypotheses are met: the lines. -/

/-- Line L0 of LOCAL handling. -/
def isLocal (s : State) : State :=
  { s with ptb := { s.ptb with lines := tset s.ptb.lines 0 { LineAttr.initial with handling := .isLocal } } }

/-- No party of line L0. -/
def noParties (s : State) : State :=
  { s with ptb := { s.ptb with parties := tset s.ptb.parties 0 (Vector.replicate 8 none) } }

theorem loaded_has_codes : ∃ p e, loaded.party 0 p = some e ∧ e.code ≠ [] := ⟨0, entryA, rfl, by decide⟩

theorem noParties_has_no_codes : ¬ ∃ p e, (noParties loaded).party 0 p = some e ∧ e.code ≠ [] := by
  rintro ⟨p, e, h, _⟩
  have key : ∀ p, (noParties loaded).party 0 p = none := by decide +kernel
  rw [key p] at h
  cases h

theorem test_SeizureOnALine_met :
    let idle := line0 .idle .opened id loaded
    let counts (k : Nat) := line0 .qualifying .opened (fun r => { r with seizureCount := k }) loaded
    let last := heard 0x80 (counts 39)
    (idle.testOn 0 = none ∧ upFault (idle.lByte 0) = none ∧ (idle.line 0).hold = false ∧
      (idle.line 0).loop = .opened ∧ (idle.line 0).state = .idle ∧ upLoop (idle.lByte 0) = .opened) ∧
      upLoop ((heard 0x80 idle).lByte 0) = .closed ∧ upFault ((heard 0x80 idle).lByte 0) = none ∧
      (((counts 1).line 0).state = .qualifying ∧ upLoop ((counts 1).lByte 0) = .opened) ∧
      (upLoop ((heard 0x80 (counts 38)).lByte 0) = .closed ∧
        ((heard 0x80 (counts 38)).line 0).seizureCount + 1 < loaded.timing.seizureQualify) ∧
      (upLoop (last.lByte 0) = .closed ∧ last.timing.seizureQualify ≤ (last.line 0).seizureCount + 1 ∧
        last.digits 0 = DigitRec.initial ∧ last.lkm.state = .linked ∧ (last.attr 0).handling = .exchange) ∧
      ((isLocal last).attr 0).handling = .isLocal ∧ (inLink .isolated last).lkm.state = .isolated ∧
      (inLink .released last).lkm.state = .released := by decide +kernel

theorem test_SeizureInACall_met :
    let s (k : Nat) (st : CallState) (b : Byte) :=
      heard b (line0 .call .opened (fun r => { r with seizureCount := k }) (called .xr st id loaded))
    (∀ st ∈ [CallState.waiting, .ringing, .revertRinging, .talk],
      (s 39 st 0x80).testOn 0 = none ∧ (∀ q ∈ (s 39 st 0x80).itu.queue, q.line ≠ 0) ∧
      upFault ((s 39 st 0x80).lByte 0) = none ∧ ((s 39 st 0x80).line 0).state = .call ∧
      ((s 39 st 0x80).line 0).loop = .opened ∧ ((s 39 st 0x80).line 0).hold = false ∧
      (s 39 st 0x80).rsc.parts = [] ∧ (s 39 st 0x80).callOn 0 = some 23 ∧
      (s 39 st 0x80).callRec 23 = some (callRec .xr st) ∧ upLoop ((s 39 st 0x80).lByte 0) = .closed ∧
      (s 39 st 0x80).timing.seizureQualify ≤ ((s 39 st 0x80).line 0).seizureCount + 1) ∧
      ((s 38 .waiting 0x80).line 0).seizureCount + 1 < (s 38 .waiting 0x80).timing.seizureQualify ∧
      upLoop ((s 38 .waiting 0x00).lByte 0) = .opened ∧ (s 39 .waiting 0x80).linked = true ∧
      (inLink .isolated (s 39 .waiting 0x80)).linked = false ∧ (s 39 .waiting 0x80).itu = ⟨[], none⟩ := by
  decide +kernel

theorem test_TripOfARingingPart_met :
    let p (d : Bool) : RingPart := { part (.placed 0 false) with tripDelivered := d }
    let s (k : Nat) (b : Byte) (d : Bool) :=
      heard b (line0 .call .opened (fun r => { r with tripCount := k })
        (called .xr .ringing (fun r => { r with answerIdentify := some true }) (ringing (p d) loaded)))
    let rung (b : Byte) := (s 3 b false).setDown 0 { DownClaims.empty with ring := some (.ring 0 .tip) }
    ((s 3 0x80 false).testOn 0 = none ∧ (∀ q ∈ (s 3 0x80 false).itu.queue, q.line ≠ 0) ∧
      upFault ((s 3 0x80 false).lByte 0) = none ∧ ((s 3 0x80 false).line 0).state = .call ∧
      ((s 3 0x80 false).line 0).loop = .opened ∧ ((s 3 0x80 false).line 0).hold = false ∧
      (s 3 0x80 false).rsc.parts = [] ++ p false :: [] ∧ (p false).line = 0 ∧ (p false).status = .placed 0 false) ∧
      (s 0 0x80 true).rsc.parts = [] ++ p true :: [] ∧ (p true).tripDelivered = true ∧
      (((s 3 0x00 false).down 0).ring = none ∧ upLoop ((s 3 0x00 false).lByte 0) = .opened) ∧
      (((rung 0x40).down 0).ring = some (.ring 0 .tip) ∧ upTrip ((rung 0x40).lByte 0) = true ∧
        upTrip ((rung 0x80).lByte 0) = false) ∧
      ((s 2 0x80 false).line 0).tripCount + 1 < (s 2 0x80 false).timing.tripQualify ∧
      (s 3 0x80 false).timing.tripQualify ≤ ((s 3 0x80 false).line 0).tripCount + 1 ∧
      ((s 3 0x80 false).callRec 23).map (fun r => (r.line, r.state)) = some (0, .ringing) ∧
      ({ s 3 0x80 false with csq := State.reset.csq } : State).callRec (p false).call = none := by decide +kernel

theorem test_OnHookOfALine_met :
    let s (st : LineState) (k : Nat) (b : Byte) :=
      heard b (line0 st .closed (fun r => { r with onHookCount := k }) loaded)
    let c (st : CallState) := called .rv st id (s .call 99 0x00)
    let x (st : CallState) (k : Nat) :=
      testing (.call 23) 0 (called .rv st (fun r => { r with cyclesRung := k }) (s .call 99 0x00))
    (∀ st ∈ [LineState.through, .lockout, .call, .collecting, .replaying],
      upFault ((s st 99 0x00).lByte 0) = none ∧ ((s st 99 0x00).line 0).loop = .closed ∧
      ((s st 99 0x00).line 0).state = st ∧ (s st 99 0x00).testOn 0 = none ∧
      (∀ q ∈ (s st 99 0x00).itu.queue, q.line ≠ 0) ∧ upLoop ((s st 99 0x00).lByte 0) = .opened ∧
      (s st 99 0x00).timing.onHookQualify ≤ ((s st 99 0x00).line 0).onHookCount + 1) ∧
      upLoop ((s .through 99 0x80).lByte 0) = .closed ∧
      ((s .through 98 0x00).line 0).onHookCount + 1 < (s .through 98 0x00).timing.onHookQualify ∧
      (∀ st ∈ [CallState.waiting, .ringing, .revertRinging, .talk, .hangupWait],
        (c st).callOn 0 = some 23 ∧ (c st).callRec 23 = some (callRec .rv st) ∧ (c st).testOn 0 = none) ∧
      (c .hangupWait).specOf 0 0 = some entryA.spec ∧
      (∀ st ∈ [CallState.identifyCaller, .answerTest, .identifying],
        (x st 0).itu = ⟨[], some ⟨0, [.call 23], 0, false⟩⟩ ∧ (x st 0).callOn 0 = some 23) ∧
      ((x .answerTest 1).callRec 23).map (fun r => (r.ringLimit, r.cyclesRung)) = some (some 2, 1) ∧
      ((x .answerTest 2).callRec 23).map (fun r => (r.ringLimit, r.cyclesRung)) = some (some 2, 2) := by
  decide +kernel

/-- The bridge with a test on line L0 and a queue. -/
def bridge (test : LineId) (rs : List Requester) (queue : List TestRequest) (s : State) : State :=
  { s with itu := ⟨queue, some ⟨test, rs, 0, false⟩⟩ }

/-- `p` holds with each request of line L0: waiting beside another line's, behind a test of line L15, and in progress,
with a request of line L15 behind it. -/
abbrev requested (p : State → Bool) (s : State) : Prop :=
  let w (rs : List Requester) := bridge 15 [.exchange] [⟨14, [.exchange]⟩, ⟨0, rs⟩] s
  let x (rs : List Requester) := bridge 0 rs [⟨15, [.exchange]⟩] s
  (∀ rs ∈ [[Requester.exchange], [.call 23], [.call 23, .exchange], [.exchange, .call 23]],
    (p (w rs) = true ∧ (w rs).testOn 0 = none ∧ (w rs).itu.queue = [⟨14, [.exchange]⟩] ++ ⟨0, rs⟩ :: []) ∧
      p (x rs) = true ∧ (x rs).itu.inProgress = some ⟨0, rs, 0, false⟩ ∧
      (x rs).itu.queue = ⟨15, [.exchange]⟩ :: []) ∧
    (∀ q ∈ [(⟨14, [.exchange]⟩ : TestRequest)] ++ [], q.line ≠ 0) ∧
    ∀ q ∈ (x [.exchange]).itu.queue, q.line ≠ 0

theorem test_OnHookOfALine_through_met :
    requested (fun s => decide (upFault (s.lByte 0) = none ∧ (s.line 0).loop = .closed ∧
        (s.line 0).state = .through ∧ s.timing.onHookQualify ≤ (s.line 0).onHookCount + 1 ∧
        (s.callRec 23).map (fun r => (r.line, r.state)) = some (0, .identifying)))
      (called .xr .identifying id
        (heard 0x00 (line0 .through .closed (fun r => { r with onHookCount := 99 }) loaded))) := by decide +kernel

theorem test_FaultEntryTakesTheLineWhole_requested_met :
    requested (fun s => decide ((s.line 0).state ≠ .fault ∧ upFault (s.lByte 0) = some .ground ∧
        20 ≤ (s.line 0).faultCount + 1 ∧ s.callOn 0 = some 23 ∧ s.callRec 23 = some (callRec .xr .identifying)))
      (called .xr .identifying id
        (heard 0xA0 (line0 .through .closed (fun r => { r with faultCount := 19 }) loaded))) := by decide +kernel

theorem test_LineBlockAndUnblock_requested_met :
    requested (fun s => decide (s.mgp.replySlot = none ∧ (s.line 0).state = .through ∧ s.callOn 0 = some 23 ∧
        s.callRec 23 = some (callRec .xr .identifying)))
      (called .xr .identifying id (line0 .through .closed id loaded)) := by decide +kernel

theorem test_FaultEntryTakesTheLineWhole_met :
    let s := heard 0x20 (line0 .idle .opened (fun r => { r with faultCount := 19 }) loaded)
    let c := called .xr .waiting id (heard 0x30 (line0 .call .opened (fun r => { r with faultCount := 19 }) loaded))
    (s.testOn 0 = none ∧ (∀ q ∈ s.itu.queue, q.line ≠ 0) ∧ (s.line 0).state ≠ .fault ∧
      upFault (s.lByte 0) = some .ground ∧ 20 ≤ (s.line 0).faultCount + 1 ∧ s.callOn 0 = none) ∧
      upFault (c.lByte 0) = some .foreign ∧ 20 ≤ (c.line 0).faultCount + 1 ∧ c.callOn 0 = some 23 ∧
      c.callRec 23 = some (callRec .xr .waiting) := by decide +kernel

theorem test_FaultEntryTakesTheLineWhole_count_met :
    let s (st : LineState) (l : Loop) (b : Byte) :=
      heard b (line0 st l (fun r => { r with faultCount := 18 }) loaded)
    (((s .idle .opened 0x20).line 0).faultCount + 1 < 20 ∧ upFault ((s .idle .opened 0x20).lByte 0) = some .ground ∧
      ((s .idle .opened 0x20).line 0).hold = false ∧ upLoop ((s .idle .opened 0x20).lByte 0) = .opened ∧
      (s .idle .opened 0x20).testOn 0 = none) ∧
      ∀ st ∈ [LineState.through, .lockout, .call], upFault ((s st .closed 0xA0).lByte 0) = some .ground ∧
        ((s st .closed 0xA0).line 0).loop = .closed ∧ upLoop ((s st .closed 0xA0).lByte 0) = .closed := by
  decide +kernel

theorem test_FaultClearing_met :
    let s (st : LineState) (k : Nat) (b : Byte) (rec : Bool) :=
      heard b (line0 st .opened (fun r => { r with faultCount := 18, clearCount := k, blockRecorded := rec }) loaded)
    ((s .blocked 0 0x00 false).testOn 0 = none ∧ (s .blocked 0 0x00 false).rsc.parts = [] ∧
      ((s .blocked 0 0x00 false).line 0).state = .blocked ∧ upFault ((s .blocked 0 0x00 false).lByte 0) = none) ∧
      (upFault ((s .blocked 0 0x20 false).lByte 0) ≠ none ∧ ((s .blocked 0 0x20 false).line 0).faultCount + 1 < 20) ∧
      (((s .fault 5 0x20 false).line 0).state = .fault ∧ upFault ((s .fault 5 0x20 false).lByte 0) ≠ none) ∧
      (upFault ((s .fault 398 0x00 false).lByte 0) = none ∧ (s .fault 398 0x00 false).hwi.lPort.good = true ∧
        ((s .fault 398 0x00 false).line 0).clearCount + 1 < 400) ∧
      (400 ≤ ((s .fault 399 0x00 true).line 0).clearCount + 1 ∧ ((s .fault 399 0x00 true).line 0).loop = .opened ∧
        ((s .fault 399 0x00 true).line 0).blockRecorded = true) ∧
      (((s .fault 399 0x00 false).line 0).blockRecorded = false ∧
        upLoop ((s .fault 399 0x00 false).lByte 0) = .opened) ∧
      upLoop ((s .fault 399 0x80 false).lByte 0) = .closed := by decide +kernel

theorem test_ShelfIsWatched_met :
    let s : State := { loaded with hwi := { loaded.hwi with lPort := { loaded.hwi.lPort with frameSeen := true } } }
    let t := mgp (fun m => { m with lAssembler := some [0xC3] }) loaded
    s.hwi.lPort.frameSeen = true ∧ loaded.mgp.lAssembler = none ∧ t.hwi.lPort.frameSeen = false ∧
      t.mgp.lAssembler ≠ none ∧ loaded.hwi.shelfReported = false ∧
      ({ loaded with hwi := { loaded.hwi with shelfReported := true } } : State).hwi.shelfReported = true ∧
      ((line0 .fault .opened id loaded).line 0).state = .fault ∧ (loaded.line 0).state ≠ .fault ∧
      (called .xr .waiting id loaded).callOn 0 = some 23 := by decide +kernel

/-! The hypotheses are met: digits and timers. -/

/-- The digit record of line L0 set. -/
def digit (f : DigitRec → DigitRec) (s : State) : State := s.setDigits 0 (f DigitRec.initial)

/-- Line L0 collecting, with a digit of `k` pulses about to end. -/
def dialled (k : Nat) (before : List Nat) (s : State) : State :=
  digit (fun d => { d with phase := .make, element := 39, pulses := k, buffer := before })
    (heard 0x80 (line0 .collecting .closed id s))

theorem test_DigitEndsInCollection_met :
    let s := dialled 1 [2] loaded
    (s.testOn 0 = none ∧ upFault (s.lByte 0) = none ∧ upLoop (s.lByte 0) = .closed ∧
      (s.line 0).state = .collecting ∧ (s.line 0).loop = .closed ∧ (s.digits 0).phase = .make ∧
      40 ≤ (s.digits 0).element + 1 ∧ (s.digits 0).buffer.length < 12) ∧
      (s.callRec 0 = none ∧ (∀ k, k < 0 → s.callRec k ≠ none) ∧ s.itu = ⟨[], none⟩ ∧ s.linked = true) ∧
      (inLink .isolated s).linked = false ∧
      (∀ c, ({ s with csq := Vector.replicate 24 (some (callRec .xr .waiting)) } : State).callRec c ≠ none) := by
  decide +kernel

/-- The receiver in the elements of a digit, at the bounds of the good ones (R86, R87, R89). -/
theorem test_receiver_elements_met :
    let s (st : LineState) (b : Byte) (ph : ReceiverPhase) (e p : Nat) :=
      digit (fun d => { d with phase := ph, element := e, pulses := p, generator := .brk })
        (heard b (line0 st .closed (fun r => { r with onHookCount := 98 }) loaded))
    ∀ st ∈ [LineState.collecting, .replaying],
      ((s st 0x80 .brk 6 9).testOn 0 = none ∧ upFault ((s st 0x80 .brk 6 9).lByte 0) = none ∧
        upLoop ((s st 0x80 .brk 6 9).lByte 0) = .closed ∧ ((s st 0x80 .brk 6 9).line 0).state = st ∧
        ((s st 0x80 .brk 6 9).line 0).loop = .closed ∧ ((s st 0x80 .brk 6 9).digits 0).phase = .brk ∧
        6 ≤ ((s st 0x80 .brk 6 9).digits 0).element ∧ ((s st 0x80 .brk 6 9).digits 0).pulses < 10 ∧
        ((s st 0x80 .brk 6 9).digits 0).generator ≠ .toneWait ∧ ((s st 0x80 .brk 6 9).digits 0).generator ≠ .stall) ∧
        ((s st 0x80 .brk 16 9).digits 0).element ≤ 16 ∧ ((s st 0x80 .brk 5 0).digits 0).element < 6 ∧
        16 < ((s st 0x80 .brk 17 0).digits 0).element ∧ 10 ≤ ((s st 0x80 .brk 6 10).digits 0).pulses ∧
        ((s st 0x80 .make 38 1).digits 0).element + 1 < 40 ∧
        (upLoop ((s st 0x00 .make 4 1).lByte 0) = .opened ∧
          ((s st 0x00 .make 4 1).line 0).onHookCount + 1 < (s st 0x00 .make 4 1).timing.onHookQualify ∧
          4 ≤ ((s st 0x00 .make 4 1).digits 0).element) ∧
        ((s st 0x00 .make 12 1).digits 0).element ≤ 12 ∧ ((s st 0x00 .make 3 1).digits 0).element < 4 ∧
        12 < ((s st 0x00 .make 13 1).digits 0).element := by decide +kernel

/-- The buffer 21 is the code of P1 alone; 33 opens the code of P2; 9 is neither. -/
theorem test_DigitEndsInCollection_codes :
    ((∃ e, loaded.party 0 0 = some e ∧ e.code = [2, 1]) ∧
      ∀ q, (∃ e, loaded.party 0 q = some e ∧ e.code = [2, 1]) → q = 0) ∧
    ((∀ p, ¬ ∃ e, loaded.party 0 p = some e ∧ e.code = [3, 3]) ∧
      ∃ p e, loaded.party 0 p = some e ∧ [3, 3].length < e.code.length ∧ [3, 3] <+: e.code) ∧
    ∀ p, ¬ ∃ e, loaded.party 0 p = some e ∧ ([9].length < e.code.length ∧ [9] <+: e.code ∨ e.code = [9]) := by
  have k1 : ∀ q, ∀ e ∈ loaded.party 0 q, e.code = [2, 1] → q = 0 := by decide +kernel
  have k2 : ∀ q, ∀ e ∈ loaded.party 0 q, e.code ≠ [3, 3] := by decide +kernel
  have k3 : ∀ q, ∀ e ∈ loaded.party 0 q, ¬ ([9].length < e.code.length ∧ [9] <+: e.code ∨ e.code = [9]) := by
    decide +kernel
  exact ⟨⟨⟨entryA, rfl, rfl⟩, fun q ⟨e, h, hc⟩ => k1 q e h hc⟩,
    ⟨fun q ⟨e, h, hc⟩ => k2 q e h hc, 1, entryB, rfl, by decide, by decide⟩, fun q ⟨e, h, hc⟩ => k3 q e h hc⟩

theorem test_LineAndCallTimersExpire_met :
    let lock (k : Nat) (ph : LockoutPhase) :=
      line0 .lockout .closed (fun r => { r with lockoutTimer := some k, lockoutPhase := some ph }) loaded
    let coll (k : Nat) := digit (fun d => { d with collection := some ⟨.interDigit, k⟩ })
      (line0 .collecting .closed id loaded)
    let hang (k : Nat) := called .rv .hangupWait (fun r => { r with hangupTimer := some k })
      (line0 .call .closed id loaded)
    (((lock 0 .tone).line 0).state = .lockout ∧ ((lock 0 .tone).line 0).lockoutPhase = some .tone ∧
      ((lock 0 .tone).line 0).lockoutTimer = some 0) ∧
      ((lock 1 .tone).line 0).lockoutTimer ≠ some 0 ∧ ((lock 0 .feedOff).line 0).lockoutPhase ≠ some .tone ∧
      (((coll 0).line 0).state = .collecting ∧ ((coll 0).line 0).loop = .closed ∧
        ((coll 0).digits 0).collection = some ⟨.interDigit, 0⟩ ∧ (coll 0).linked = true ∧
        (inLink .isolated (coll 0)).linked = false) ∧
      ((coll 1).digits 0).collection = some ⟨.interDigit, 1⟩ ∧ (loaded.line 0).state ≠ .collecting ∧
      (((hang 0).callRec 23).map (fun r => (r.state, r.hangupTimer, r.line)) = some (.hangupWait, some 0, 0) ∧
        ((hang 0).line 0).state = .call ∧ ((hang 0).line 0).loop = .closed ∧ (hang 0).testOn 0 = none ∧
        ∀ q ∈ (hang 0).itu.queue, q.line ≠ 0) ∧
      ((hang 1).callRec 23).map (fun r => r.hangupTimer) = some (some 1) := by decide +kernel

theorem test_ReplayOfDigits_met :
    let s (f : DigitRec → DigitRec) := digit f (heard 0x80 (line0 .replaying .closed id loaded))
    let gen (g : GeneratorPhase) (buf : List Nat) (q : Nat) :=
      s (fun d => { d with generator := g, buffer := buf, quiet := q, sending := some ⟨0, 2⟩ })
    let stalled (g : GeneratorPhase) (ph : ReceiverPhase) (buf : List Nat) (q : Nat) :=
      s (fun d => { d with generator := g, phase := ph, element := 39, pulses := 10, buffer := buf, quiet := q })
    let tone (t : State) : State :=
      { t with hwi := { t.hwi with ePort := { t.hwi.ePort with inForce := tset t.hwi.ePort.inForce 0 0x30 } } }
    (∀ g ∈ [GeneratorPhase.toneWait, .interDigit, .brk, .make, .off, .stall],
      ((gen g [0] 0).line 0).state = .replaying ∧ ((gen g [0] 0).line 0).loop = .closed ∧
      ((gen g [0] 0).digits 0).generatorTimer = 0 ∧ ((gen g [0] 0).digits 0).generator = g ∧
      ((gen g [0] 0).digits 0).buffer = 0 :: [] ∧ ((gen g [0] 0).digits 0).sending = some ⟨0, 2⟩) ∧
      (((gen .toneWait [] 399).digits 0).buffer = [] ∧ ((gen .toneWait [] 399).digits 0).quiet < 400) ∧
      (400 ≤ ((gen .interDigit [] 400).digits 0).quiet ∧
        ∀ t, exec (.lineByte 0) (gen .interDigit [] 400) = .next t → (t.line 0).state ≠ .through) ∧
      (some ⟨0, 1⟩ = some (⟨0, 1⟩ : DigitInSending)) ∧ (loaded.line 0).state ≠ .replaying ∧
      ((stalled .stall .waiting [] 399).testOn 0 = none ∧ upFault ((stalled .stall .waiting [] 399).lByte 0) = none ∧
        upLoop ((stalled .stall .waiting [] 399).lByte 0) = .closed ∧
        400 ≤ ((stalled .stall .waiting [] 399).digits 0).quiet + 1) ∧
      (((stalled .brk .make [1] 0).digits 0).phase = .make ∧ 40 ≤ ((stalled .brk .make [1] 0).digits 0).element + 1 ∧
        ((stalled .brk .make (List.replicate 11 1) 0).digits 0).buffer.length < 12 ∧
        ((stalled .brk .make (List.replicate 12 1) 0).digits 0).buffer.length = 12) ∧
      (((stalled .stall .make [] 0).digits 0).generator = .stall ∧ ((stalled .stall .make [] 0).digits 0).buffer =
          []) ∧
      ((stalled .brk .discarding [] 0).digits 0).phase = .discarding ∧
      ((dialled 1 [] loaded).line 0).state = .collecting ∧
      (downCode ((tone (stalled .toneWait .waiting [5] 0)).eByte 0) = some .dialTone ∧
        ((tone (stalled .toneWait .waiting [5] 0)).digits 0).generator = .toneWait) ∧
      ((tone (stalled .toneWait .waiting [] 398)).digits 0).quiet + 1 < 400 := by
  intro s gen stalled tone
  refine ⟨by decide +kernel, by decide +kernel, ⟨by decide +kernel, ?_⟩, ?_⟩
  · intro t h
    have key : (match exec (.lineByte 0) (gen .interDigit [] 400) with
      | .next t => decide ((t.line 0).state ≠ .through)
      | _ => true) = true := by decide +kernel
    rw [h] at key
    simpa using key
  · decide +kernel

/-! The hypotheses are met: the Management Port and the highway. -/

/-- The urgent queue full, and the routine queue full. -/
def fullQueues : State :=
  mgp (fun m => { m with
    urgent := List.replicate 8 (.lineFault 0 .ground), routine := List.replicate 16 (.lineLockout 0) }) loaded

theorem test_NoticeJoinsItsQueueOrIsLost_met :
    noticeUrgent (.lineFault 0 .ground) = true ∧ noticeUrgent (.lineLockout 0) = false ∧
      loaded.mgp.urgent.length < 8 ∧ loaded.mgp.routine.length < 16 ∧ 8 ≤ fullQueues.mgp.urgent.length ∧
      16 ≤ fullQueues.mgp.routine.length := by decide +kernel

/-- The upstream slot holds a message whose last byte has gone. -/
def sent (x : UpstreamItem) (s : State) : State := mgp (fun m => { m with sending := some ⟨x, []⟩ }) s

theorem test_UpstreamItemsLeave_met :
    let holds (k : Option Nat) := mgp (fun m => { m with replySlot := some ⟨5, 1, [0], .nothing, k⟩ }) loaded
    let relayed := sent .relayed (mgp (fun m => { m with relayBuffer := [[0xC3]] }) loaded)
    (holds (some 0)).mgp.replySlot = some ⟨5, 1, [0], .nothing, some 0⟩ ∧
      (∀ rep ∈ (holds (some 1)).mgp.replySlot, rep.holdOff ≠ some 0) ∧
      (relayed.mgp.sending = some ⟨.relayed, []⟩ ∧ relayed.mgp.relayBuffer = [0xC3] :: []) ∧
      loaded.mgp.sending ≠ some ⟨.relayed, []⟩ ∧
      ((sent .urgent fullQueues).mgp.sending = some ⟨.urgent, []⟩ ∧
        (sent .urgent fullQueues).mgp.urgent = .lineFault 0 .ground :: List.replicate 7 (.lineFault 0 .ground)) ∧
      ((sent .routine fullQueues).mgp.sending = some ⟨.routine, []⟩ ∧
        (sent .routine fullQueues).mgp.routine = .lineLockout 0 :: List.replicate 15 (.lineLockout 0)) ∧
      loaded.mgp.sending ≠ some ⟨.urgent, []⟩ ∧ loaded.mgp.sending ≠ some ⟨.routine, []⟩ := by decide +kernel

theorem test_FramesOfAnInterval_met :
    let claims (c : DownClaims) := [c.fault, c.blocked, c.test, c.ring, c.call, c.lockout, c.collecting]
    let set (c : DownClaims) (u : UpClaims) (b : Byte) : State :=
      { (loaded.setDown 0 c).setUp 0 u with
        hwi := { ((loaded.setDown 0 c).setUp 0 u).hwi with ePort := { loaded.hwi.ePort with
          inForce := tset loaded.hwi.ePort.inForce 0 b } } }
    let free (f : Mgp → Mgp) := mgp f loaded
    let one := free (fun m => { m with relayBuffer := [[0xC3]], runCount := 1, urgent := [.lineFault 0 .ground] })
    let two := free (fun m => { m with relayBuffer := [[0xC3]], runCount := 2, urgent := [.lineFault 0 .ground] })
    let low := free (fun m => { m with routine := [.lineLockout 0] })
    (claims ((set { DownClaims.empty with call := some .feed } ⟨true, none, false⟩ 0).down 0) =
        [none, none, none, none] ++ some .feed :: [none, none]) ∧
      ((∀ x ∈ claims (loaded.down 0), x = none) ∧ loaded.linked = true ∧
        downCode ((set DownClaims.empty UpClaims.empty 0x50).eByte 0) = some .hangupTone) ∧
      downCode ((set DownClaims.empty UpClaims.empty 0x73).eByte 0) = none ∧
      downCode ((set DownClaims.empty UpClaims.empty 0x60).eByte 0) = some .test ∧
      downCode ((set DownClaims.empty UpClaims.empty 0x7E).eByte 0) = some (.ring 3 .bridged) ∧
      ((set DownClaims.empty ⟨true, none, false⟩ 0).up 0).fault = true ∧
      ((set DownClaims.empty ⟨false, some .closed, true⟩ 0).up 0).replay = some .closed ∧
      ((set DownClaims.empty ⟨false, none, true⟩ 0).up 0).onHook = true ∧ (loaded.up 0).onHook = false ∧
      (free (fun m => { m with relayPair := some (1, 2) })).mgp.relayPair = some (1, 2) ∧
      loaded.mgp.relayPair = none ∧
      (free (fun m => { m with sending := some ⟨.reply, [1, 2]⟩ })).mgp.sending = some ⟨.reply, 1 :: 2 :: []⟩ ∧
      (free (fun m => { m with sending := some ⟨.reply, [1]⟩ })).mgp.sending = some ⟨.reply, [1]⟩ ∧
      (sent .routine loaded).mgp.sending = some ⟨.routine, []⟩ ∧ loaded.mgp.sending = none ∧
      (free (fun m => { m with replySlot := some ⟨5, 1, [0], .nothing, none⟩ })).mgp.replySlot =
        some ⟨5, 1, [0], .nothing, none⟩ ∧
      (one.mgp.runCount < 2 ∧ one.mgp.relayBuffer = [0xC3] :: [] ∧ one.mgp.replySlot = none ∧
        one.mgp.sending = none) ∧
      (2 ≤ two.mgp.runCount ∧ two.linked = true ∧ two.mgp.urgent = .lineFault 0 .ground :: []) ∧
      (low.mgp.relayBuffer = [] ∧ low.mgp.urgent = [] ∧ low.mgp.routine = .lineLockout 0 :: []) ∧
      (loaded.mgp.urgent = [] ∧ loaded.mgp.routine = []) := by decide +kernel

theorem test_an_urgent_notice_takes_its_indicator :
    let s := mgp (fun m => { m with urgent := [.lineFault 0 .ground], urgentLost := true, routineLost := true })
        loaded
    after .frameSend s (fun t => t.mgp.urgentLost = false ∧ t.mgp.routineLost = true ∧
      (∀ n, tget t.hwi.policing n = true → tget s.hwi.policing n = true) ∧
      t.mgp.sending.map (fun x => x.rest.getD 4 0) = some 1) :=
  ⟨_, rfl, by decide +kernel⟩

theorem test_FrameIsTaken_met :
    let port (a : Machine.Alignment) (w : Nat) (v : Bool) : State :=
      { loaded with hwi := { loaded.hwi with
        ePort := { loaded.hwi.ePort with alignment := a, wrongSync := w, validTaken := v } } }
    let checks (f : Frame) := f.check = crc8 (f.sync :: (f.lines.toList ++ [f.mgmt1, f.mgmt2]))
    (quiet.mgmt1 ≠ 0xC3 ∧ quiet.sync = 0x9C ∧ checks quiet) ∧ ({ quiet with sync := 0 } : Frame).sync ≠ 0x9C ∧
      ¬ checks { quiet with check := 0xF0 } ∧ loaded.mgp.eAssembler = none ∧ loaded.mgp.lAssembler = none ∧
      ((port .hunting 0 false).port .e).alignment = .hunting ∧
      (((port .aligned 0 false).port .e).alignment = .aligned ∧ ((port .aligned 0 false).port .e).wrongSync = 0) ∧
      ((port .aligned 1 false).port .e).wrongSync ≠ 0 ∧ ((port .aligned 0 true).port .e).validTaken = true ∧
      ((port .hunting 0 true).port .e).validTaken = true ∧
      (mgp (fun m => { m with eAssembler := some [0xC3] }) (port .aligned 0 false)).mgp.eAssembler ≠ none ∧
      (mgp (fun m => { m with lAssembler := some [0xC3] }) loaded).mgp.lAssembler ≠ none := by decide +kernel

/-- A message under way after `m`, as the pair `b1 b2` finds it: going on, too long, or at its end (R163). -/
abbrev messageIs (m : List Byte) (b1 b2 : Byte) (length : Nat) (ends : Bool) : Prop :=
  let all := m ++ [b1, b2]
  (all.getD 5 0).toNat = length ∧ decide (6 ≤ all.length ∧ length ≤ 32 ∧ 8 + length ≤ all.length) = ends

theorem test_FrameIsTaken_messages_met :
    let whole (kind dest : Byte) := message dest 5 kind 0x0B [0]
    let frame (b1 b2 : Byte) := frameOf (Vector.replicate 16 0) b1 b2
    let agrees (all : List Byte) :=
      let n := (all.getD 5 0).toNat
      let check := (crc16 (all.take (6 + n))).toNat
      (all.drop (6 + n)).take 2 = [BitVec.ofNat 8 (check / 256), BitVec.ofNat 8 check]
    let none' (b : Byte) := ¬ ∃ a, loaded.mgp.address = some a ∧ a.val = b.toNat
    ((frame 0xC3 0).sync = 0x9C ∧ (frame 0xC3 0).mgmt1 = 0xC3 ∧
      (frame 0xC3 0).check = crc8 ((frame 0xC3 0).sync :: ((frame 0xC3 0).lines.toList ++ [0xC3, 0])) ∧
      (loaded.port .e).validTaken = false ∧ (loaded.port .l).alignment = .hunting) ∧
      (loaded.mgp.address = some 0 ∧ none' 30 ∧ none' 31) ∧
      messageIs [0xC3, 0] 5 1 0 false ∧ messageIs [0xC3, 0, 5, 1] 0x0B 32 32 false ∧
      messageIs [0xC3, 0, 5, 1] 0x0B 33 33 false ∧
      (∀ kind ∈ [(1 : Byte), 2, 3, 4, 0], ∀ dest ∈ [(0 : Byte), 31, 30],
        let all := (whole kind dest).take 8 ++ [(whole kind dest).getD 8 0, 0xFF]
        messageIs ((whole kind dest).take 8) ((whole kind dest).getD 8 0) 0xFF 1 true ∧ agrees all ∧
          all.getD 3 0 = kind ∧ all.getD 1 0 = dest) ∧
      ¬ agrees ((whole 1 0).take 8 ++ [(whole 1 0).getD 8 0 + 1, 0xFF]) ∧ loaded.mgp.relayBuffer.length < 2 := by
  decide +kernel

/-! The hypotheses are met: the link. -/

/-- The link record, and whether the interval is good. -/
def link (st : LinkState) (bad rec : Nat) (good : Bool) (s : State) : State :=
  { s with
    lkm := ⟨st, bad, 0, rec⟩, hwi :=
        { s.hwi with ePort := { s.hwi.ePort with validTaken := good, frameSeen := true } } }

theorem test_EPortIntervalCloses_met :
    (link .linked 0 0 true loaded).hwi.ePort.frameSeen = true ∧ loaded.mgp.eAssembler = none ∧
      (link .linked 0 0 true loaded).hwi.ePort.validTaken = true ∧ (link .acquiring 0 0 true loaded).lkm.state =
          .acquiring ∧
      (link .warning 0 0 true loaded).lkm.state = .warning ∧
      min 200 ((link .isolated 0 198 true loaded).lkm.recovery + 1) < 200 ∧
      200 ≤ min 200 ((link .released 0 199 true loaded).lkm.recovery + 1) ∧
      (link .linked 0 0 false loaded).hwi.ePort.validTaken = false ∧
      (loaded.timing.longTimeout ≠ some (min 12000 (0 + 1)) ∧ loaded.timing.shortTimeout ≠ some (min 12000 (0 + 1))) ∧
      loaded.timing.shortTimeout = some (min 12000 (99 + 1)) ∧ loaded.timing.longTimeout ≠ some (min 12000 (99 + 1))
          := by
  decide +kernel

/-- The timing record with the long action RELEASE. -/
def releasing (s : State) : State :=
  { s with ptb := { s.ptb with timing := { s.ptb.timing with longAction := .release } } }

theorem test_LongTimeout_met :
    let s := link .warning 1999 0 false loaded
    (s.hwi.ePort.validTaken = false ∧ s.lkm.state ≠ .isolated ∧ s.lkm.state ≠ .released ∧
      s.timing.longTimeout = some (min 12000 (s.lkm.badCount + 1)) ∧ s.timing.longAction = .isolate) ∧
      (releasing s).timing.longAction = .release ∧
      ((line0 .replaying .closed id s).line 0).state = .replaying ∧
      ((line0 .through .closed id s).line 0).state = .through ∧
      (called .xr .identifying id (line0 .through .closed id s)).callOn 0 = some 23 := by decide +kernel

/-! The hypotheses are met: ring parts. -/

/-- Requests wait at the RSC. -/
def handed (qs : List RscRequest) (s : State) : State := { s with rsc := { s.rsc with requests := qs } }

/-- The load of bus T1 at every cycle slot. -/
def load (k : Nat) (s : State) : State :=
  { s with rsc := { s.rsc with busLoad := tset s.rsc.busLoad 0 (Vector.replicate 24 k) } }

/-- The slot timer has expired, and the next cycle slot is 5. -/
def atSlot (s : State) : State := { s with rsc := { s.rsc with slotTimer := 0, cycleSlot := 4 } }

theorem test_RingRequestsAreTaken_place_met :
    let s := handed [.place 23 0 entryA.spec 2 0] (called .xr .waiting id loaded)
    let v := handed [.place 23 0 entryA.spec 2 0] (called .rv .revertRinging id loaded)
    s.rsc.requests = .place 23 0 entryA.spec 2 0 :: [] ∧
      (¬ ∀ p ∈ (ringing (part (.queued 0)) s).rsc.parts, p.call ≠ 23) ∧ (∀ p ∈ s.rsc.parts, p.call ≠ 23) ∧
      (∀ rec ∈ s.callRec 23, rec.line = 0 → rec.state ≠ .revertRinging) ∧
      (loaded.capacity 0 < ({ entryA.spec with bell := 4 } : Spec).bell) ∧ entryA.spec.bell ≤ s.capacity 0 ∧
      (∀ p ∈ s.rsc.parts, p.spec.bus = 0 → p.status ≠ .queued 8) ∧
      (∃ i : Slot, (0 : Slot) = tget s.rsc.startPointer 0 + i ∧
        (∀ sl, ringOnSlot (s.cadence 1) 0 sl = true → tget (tget s.rsc.busLoad 0) sl + 3 ≤ s.capacity 0 ∧
          (s.exclusion 0 = true → tget (tget s.rsc.occupancy 0) sl = 0)) ∧ i = 0) ∧
      (v.callRec 23).map (fun r => (r.line, r.state, r.called, r.caller)) = some (0, .revertRinging, 0, some 1) ∧
      (v.attr 0).backRing = true ∧ v.specOf 0 0 = some entryA.spec ∧ v.specOf 0 1 = some entryB.spec ∧
      entryA.spec ≠ entryB.spec ∧
      (∀ k, ∃ sl, ringOnSlot ((load 1 s).cadence 1) k sl = true ∧
        ¬ tget (tget (load 1 s).rsc.busLoad 0) sl + 3 ≤ (load 1 s).capacity 0) := by
  decide +kernel

theorem test_RingRequestsAreTaken_part_met :
    let at' (st : PartStatus) (qs : List RscRequest) := handed qs (ringing (part st) loaded)
    (at' (.queued 0) [.release 23]).rsc.parts = [] ++ part (.queued 0) :: [] ∧
      (at' (.queued 0) [.release 23]).rsc.requests = .release (part (.queued 0)).call :: [] ∧
      (part (.placed 0 true)).status = .placed 0 true ∧ (part (.placed 0 false)).status = .placed 0 false ∧
      (at' (.queued 0) [.stage 23 entryB.spec]).rsc.requests = .stage (part (.queued 0)).call entryB.spec :: [] ∧
      (loaded.capacity 1 < ({ entryB.spec with bell := 4 } : Spec).bell ∧ entryB.spec.bell ≤ loaded.capacity 1) ∧
      (at' (.queued 0) [.amend 23 (some 1) none]).rsc.requests =
        .amend (part (.queued 0)).call (some 1) none :: [] ∧
      (∀ k, (part (.queued 0)).status ≠ .placed k false) ∧
      (∀ k, ∃ sl, ringOnSlot ((load 1 loaded).cadence 1) k sl = true ∧
        ¬ tget (tget (load 1 loaded).rsc.busLoad 0) sl + 3 ≤ (load 1 loaded).capacity 0) ∧
      (∀ sl, ringOnSlot (loaded.cadence 1) 0 sl = true → tget (tget loaded.rsc.busLoad 0) sl + 3 ≤ loaded.capacity 0 ∧
        (loaded.exclusion 0 = true → tget (tget loaded.rsc.occupancy 0) sl = 0)) ∧
      loaded.rsc.requests.head? = none := by decide +kernel

theorem test_RingRequestsAreTaken_no_part_met :
    (∀ p ∈ loaded.rsc.parts, p.call ≠ 23) ∧
      (handed [.release 23] loaded).rsc.requests = .release 23 :: [] ∧
      (handed [.stage 23 entryB.spec] loaded).rsc.requests = .stage 23 entryB.spec :: [] ∧
      (handed [.amend 23 (some 1) none] loaded).rsc.requests = .amend 23 (some 1) none :: [] :=
  ⟨by decide +kernel, rfl, rfl, rfl⟩

/-- A waiting part that the pass places, and one that stays (R34). -/
theorem test_passes_met :
    let s := twoParts (.queued 0) loaded
    s.rsc.parts = [] ++ part (.queued 0) :: [{ part (.queued 8) with call := 0, line := 15 }] ∧
      noneBlocks [] 0 ∧ ¬ noneBlocks ([{ part (.queued 8) with call := 0 }] : List RingPart) 0 ∧
      (∀ sl, ringOnSlot (s.cadence 1) 0 sl = true → tget (tget s.rsc.busLoad 0) sl + 3 ≤ s.capacity 0) ∧
      s.exclusion 0 = false := by unfold noneBlocks; decide +kernel

theorem test_RingRequestsAreTaken_refused_met :
    let v := handed [.place 23 0 { entryA.spec with bell := 4 } 2 0]
      (called .rv .revertRinging id (line0 .call .opened id loaded))
    v.rsc.requests = .place 23 0 { entryA.spec with bell := 4 } 2 0 :: [] ∧ (∀ p ∈ v.rsc.parts, p.call ≠ 23) ∧
      v.capacity 0 < ({ entryA.spec with bell := 4 } : Spec).bell ∧
      (v.callRec 23).map (fun r => (r.line, r.state)) = some (0, .revertRinging) ∧ v.testOn 0 = none ∧
      (∀ q ∈ v.itu.queue, q.line ≠ 0) ∧ (v.line 0).state = .call := by decide +kernel

theorem test_SlotTimerExpires_met :
    let p (st : PartStatus) (k : Nat) (b : Bool) : RingPart :=
        { part st with cyclesCompleted := k, ringingBegun := b }
    let s (q : RingPart) (st : CallState) := atSlot (called .rv st id (line0 .call .opened id (ringing q loaded)))
    loaded.rsc.slotTimer ≠ 0 ∧ (s (p (.placed 5 false) 0 true) .ringing).rsc.slotTimer = 0 ∧
      (s (p (.placed 5 false) 0 true) .ringing).rsc.cycleSlot + 1 = 5 ∧
      ((part (.queued 0)).status = .queued 0 ∧ (part (.placed 4 true)).status = .placed 4 true ∧ (4 : Slot) ≠ 5) ∧
      (s (p (.placed 5 false) 0 true) .ringing).rsc.parts = [] ++ p (.placed 5 false) 0 true :: [] ∧
      (p (.placed 4 false) 0 true).status = .placed 4 false ∧
      ((p (.placed 5 true) 0 true).status = .placed 5 true ∧ (p (.placed 5 true) 0 true).ringingBegun = true) ∧
      ((p (.placed 5 true) 0 false).ringingBegun = false ∧
        ((s (p (.placed 5 true) 0 false) .waiting).callRec 23).map (fun r => (r.line, r.state)) =
          some (0, .waiting)) ∧
      ((p (.placed 5 false) 0 true).staged = none ∧ 0 + 1 < (p (.placed 5 false) 0 true).cycleLimit ∧
        (atSlot (ringing (p (.placed 5 false) 0 true) loaded)).callRec 23 = none ∧
        ((s (p (.placed 5 false) 0 true) .ringing).callRec 23).map (fun r => r.state) = some .ringing ∧
        ((s (p (.placed 5 false) 0 true) .revertRinging).callRec 23).map (fun r => (r.state, r.called, r.caller)) =
          some (.revertRinging, 0, some 1) ∧
        (loaded.attr 0).backRing = true ∧ loaded.specOf 0 0 = some entryA.spec ∧
        loaded.specOf 0 1 = some entryB.spec ∧ entryA.spec ≠ entryB.spec) ∧
      (p (.placed 5 false) 1 true).cycleLimit ≤ 1 + 1 ∧
      ((s (p (.placed 5 false) 1 true) .ringing).line 0).state = .call ∧
      (s (p (.placed 5 false) 1 true) .ringing).testOn 0 = none := by decide +kernel

theorem test_StagedChangeApplies_met :
    let p (sp : Option Spec) (l : Option Nat) : RingPart := { part (.placed 5 false) with staged := some ⟨sp, l⟩ }
    let s (sp : Option Spec) (l : Option Nat) := atSlot (ringing (p sp l) loaded)
    ((s none none).rsc.slotTimer = 0 ∧ (5 : Slot) = (s none none).rsc.cycleSlot + 1 ∧
      (s none none).rsc.parts = [p none none] ∧ (p none none).status = .placed 5 false ∧
      (p none none).staged = some ⟨none, none⟩ ∧ (s none none).callRec 23 = none ∧
      (p none none).cyclesCompleted + 1 < (p none none).cycleLimit ∧ 0 + 1 < (none : Option Nat).getD 2) ∧
      (0 + 1 < (some 31 : Option Nat).getD 2) ∧ (p (some entryB.spec) none).staged = some ⟨some entryB.spec, none⟩ ∧
      (∀ sl, ringOnSlot (loaded.cadence 1) 5 sl = true → tget (tget loaded.rsc.busLoad 1) sl + 2 ≤ loaded.capacity 1)
          ∧
      loaded.exclusion 0 = false ∧ (∃ sl, ringOnSlot (loaded.cadence 1) 5 sl = true) := by decide +kernel

theorem test_StagedChangeApplies_calls_met :
    let p (l : Option Nat) : RingPart :=
      { part (.placed 5 false) with cycleLimit := 31, staged := some ⟨some entryB.spec, l⟩ }
    let s (l : Option Nat) (st : CallState) : State :=
      let t := atSlot (called .rv st id (line0 .call .opened id loaded))
      { t with rsc := { t.rsc with parts := [p l, { part (.queued 8) with call := 0, line := 15 }] } }
    (∀ st ∈ [CallState.ringing, .revertRinging, .identifying],
      (s none st).rsc.parts = [] ++ p none :: [{ part (.queued 8) with call := 0, line := 15 }] ∧
        ((s none st).callRec 23).map (fun r => (r.line, r.state, r.caller)) = some (0, st, some 1)) ∧
      (p none).cyclesCompleted + 1 < (p none).cycleLimit ∧ (p (some 1)).cyclesCompleted + 1 = 1 ∧
      ((s (some 1) .ringing).testOn 0 = none ∧ ((s (some 1) .ringing).line 0).state = .call) ∧
      (s none .revertRinging).specOf 0 0 = some entryA.spec ∧ (s none .revertRinging).specOf 0 1 = some entryB.spec ∧
      ((s none .revertRinging).attr 0).backRing = true ∧
      (∀ k, ∃ sl, ringOnSlot ((load 1 loaded).cadence 1) k sl = true ∧
        ¬ tget (tget (load 1 loaded).rsc.busLoad 0) sl + 3 ≤ (load 1 loaded).capacity 0) := by decide +kernel

/-! The hypotheses are met: requests on calls and lines. -/

/-- Every call number in use, on line L15. -/
def busy (s : State) : State :=
  { s with csq := Vector.replicate 24 (some { callRec .xr .waiting with line := 15 }) }

theorem test_Ring_met :
    loaded.hears (ask []) ∧ (ask []).payload.length ≠ 4 ∧ fields [0, 1, 0, 0] ∧ fields [15, 8, 31, 2] ∧
      fields [15, 9, 0, 0] ∧ fields [15, 0, 32, 3] ∧ fields [16, 8, 0, 0] ∧
      ((line0 .blocked .opened id loaded).line 0).state = .blocked ∧
      ((line0 .fault .opened id loaded).line 0).state = .fault ∧ (inLink .released loaded).lkm.state = .released ∧
      ((line0 .call .opened id loaded).line 0).state = .call ∧
      ((loaded.line 0).state = .idle ∧ loaded.lkm.state ≠ .released) ∧ loaded.party 0 2 = none ∧
      loaded.party 0 0 = some entryA ∧ entryA.spec.bell ≤ loaded.capacity 0 ∧
      State.reset.capacity 0 < entryA.spec.bell ∧ (∀ c, (busy loaded).callRec c ≠ none) ∧
      loaded.rsc.requests = [] ∧ loaded.callRec 0 = none ∧ (∀ k, k < 0 → loaded.callRec k ≠ none) := by
  unfold State.hears; decide +kernel

theorem test_RingStop_met :
    let s (kind : CallKind) (st : CallState) (ls : LineState) (l : Loop) (b : Bool) :=
      called kind st (fun r => { r with ringPart := b }) (line0 ls l id loaded)
    let x (kind : CallKind) (st : CallState) (ls : LineState) (l : Loop) := testing (.call 23) 0 (s kind st ls l true)
    loaded.hears (ask []) ∧ (ask []).payload.length ≠ 1 ∧ (ask [24]).payload = [(24 : Byte)] ∧
      23 < (24 : Byte).toNat ∧ (ask [23]).payload = [(23 : Byte)] ∧ (23 : CallNo).val = (23 : Byte).toNat ∧
      loaded.callRec 23 = none ∧
      (∀ st ∈ [CallState.talk, .waiting, .ringing],
        ((s .xr st .call .opened false).callRec 23).map (fun r => (r.state, r.kind, r.line, r.ringPart)) =
          some (st, .xr, 0, false)) ∧
      ((s .xr .waiting .call .opened true).callRec 23).map (fun r => r.ringPart) = some true ∧
      (s .xr .waiting .call .opened true).rsc.requests = [] ∧ (s .xr .waiting .call .opened true).testOn 0 = none ∧
      ((s .xr .waiting .call .opened true).line 0).state = .call ∧
      ((s .rv .hangupWait .call .closed true).line 0).loop = .closed ∧
      ((s .rv .hangupWait .call .opened true).line 0).loop = .opened ∧
      (x .rv .answerTest .call .closed).itu = ⟨[], some ⟨0, [.call 23], 0, false⟩⟩ ∧
      ((x .xr .identifying .through .closed).line 0).state = .through ∧
      (inLink .isolated (x .xr .identifying .call .closed)).linked = false ∧
      (x .xr .identifying .call .closed).linked = true := by
  unfold State.hears; decide +kernel

/-- The withdrawals of a call from the request of line L0 (R117): its own, and one with the exchange. -/
theorem test_RingStop_withdraws_met :
    let c := called .xr .identifying id (line0 .call .closed id loaded)
    let s (rs : List Requester) := bridge 0 rs [] c
    let t := bridge 0 [.call 23] [⟨15, [.exchange]⟩] c
    let w (rs : List Requester) := bridge 15 [.exchange] [⟨0, rs⟩] c
    ((s [.call 23]).hears (ask [23]) ∧ (s [.call 23]).callRec 23 = some (callRec .xr .identifying) ∧
      ((s [.call 23]).line 0).state = .call ∧ ((s [.call 23]).line 0).loop = .closed ∧ (s [.call 23]).linked = true) ∧
    (∃ v, c.withdraws 0 23 v []) ∧ (∃ v, (s [.call 23]).withdraws 0 23 v [.peg .testAborted (some 0)]) ∧
      (∃ v, t.withdraws 0 23 v [.peg .testAborted (some 0)]) ∧ (∃ v, (s [.call 23, .exchange]).withdraws 0 23 v []) ∧
      (∃ v, (w [.call 23]).withdraws 0 23 v [.peg .testAborted (some 0)]) ∧
      ∃ v, (w [.exchange, .call 23]).withdraws 0 23 v [] := by
  refine ⟨⟨.inr rfl, by decide +kernel⟩, ⟨_, .inl ⟨⟨rfl, ?_⟩, rfl, rfl⟩⟩, ⟨_, .inr (.inl ⟨_, rfl, rfl, rfl, rfl, rfl⟩)⟩,
    ⟨_, .inr (.inr (.inl ⟨_, _, _, rfl, rfl, ?_, rfl, rfl, rfl⟩))⟩,
    ⟨_, .inr (.inr (.inr (.inl ⟨_, rfl, rfl, .inl rfl, rfl, rfl⟩)))⟩,
    ⟨_, .inr (.inr (.inr (.inr ⟨[], _, [], rfl, rfl, ?_, .inl ⟨rfl, rfl, rfl⟩⟩)))⟩,
    ⟨_, .inr (.inr (.inr (.inr ⟨[], _, [], rfl, rfl, ?_, .inr ⟨.inr rfl, rfl, rfl⟩⟩)))⟩⟩
  · decide +kernel
  · decide
  · simp
  · simp

theorem test_RingAmend_met :
    let s (kind : CallKind) (st : CallState) (p : PartStatus) := called kind st id (ringing (part p) loaded)
    loaded.hears (ask []) ∧ (ask []).payload.length ≠ 3 ∧ fields [23, 255, 1] ∧ fields [23, 15, 31] ∧
      fields [24, 0, 1] ∧ fields [23, 16, 0] ∧ fields [23, 255, 0] ∧ fields [23, 1, 0] ∧
      loaded.callRec 23 = none ∧
      ((s .rv .hangupWait (.queued 0)).callRec 23).map (fun r => r.kind) = some .rv ∧
      ((s .xr .identifying (.queued 0)).callRec 23).map (fun r => (r.kind, r.state)) = some (.xr, .identifying) ∧
      loaded.cadence (Fin.ofNat 16 15) = [] ∧ loaded.cadence (Fin.ofNat 16 1) ≠ [] ∧
      ((s .xr .ringing (.placed 0 false)).part 23 = some (part (.placed 0 false)) ∧
        (part (.placed 0 false)).status = .placed 0 false) ∧
      ((s .xr .waiting (.queued 0)).part 23 = some (part (.queued 0)) ∧
        ∀ k, (part (.queued 0)).status ≠ .placed k false) ∧ (s .xr .waiting (.queued 0)).rsc.requests = [] := by
  unfold State.hears; decide +kernel

theorem test_Revert_met :
    let s := line0 .through .closed id loaded
    s.hears (ask []) ∧ (ask []).payload.length ≠ 3 ∧ fields [0, 1, 0] ∧ fields [15, 8, 7] ∧ fields [15, 8, 8] ∧
      fields [15, 0, 1] ∧ fields [15, 9, 1] ∧ fields [15, 8, 9] ∧ fields [16, 8, 7] ∧
      (s.lkm.state ≠ .released ∧ s.callOn 0 = none ∧ (s.line 0).state = .through) ∧
      (inLink .released s).lkm.state = .released ∧ (called .xr .identifying id s).callOn 0 ≠ none ∧
      (loaded.line 0).state ≠ .through ∧ s.party 0 2 = none ∧ s.party 0 0 = some entryA ∧ s.party 0 1 ≠ none ∧
      State.reset.capacity 0 < entryA.spec.bell ∧ entryA.spec.bell ≤ s.capacity 0 ∧
      (∀ c, (busy s).callRec c ≠ none) ∧ s.callRec 0 = none ∧ (∀ k, k < 0 → s.callRec k ≠ none) ∧
      s.itu = ⟨[], none⟩ := by
  unfold State.hears; decide +kernel

theorem test_LineBlockAndUnblock_met :
    let s (st : LineState) (b : Bool) := line0 st .opened (fun r => { r with blockRecorded := b }) loaded
    let c := called .xr .waiting id (s .call false)
    loaded.hears (ask []) ∧ (ask []).payload.length ≠ 1 ∧ (ask [16]).payload = [(16 : Byte)] ∧
      15 < (16 : Byte).toNat ∧ (ask [15]).payload = [(15 : Byte)] ∧ (15 : LineId).val = (15 : Byte).toNat ∧
      ((s .fault true).line 0).state = .fault ∧ ((s .fault true).line 0).blockRecorded = true ∧
      (((s .blocked false).line 0).state = .blocked ∧ ((s .blocked false).line 0).loop = .opened) ∧
      ((s .idle false).testOn 0 = none ∧ (∀ q ∈ (s .idle false).itu.queue, q.line ≠ 0) ∧
        (s .idle false).callOn 0 = none ∧ ((s .idle false).line 0).state = .idle) ∧
      (c.callOn 0 = some 23 ∧ c.callRec 23 = some (callRec .xr .waiting) ∧ c.testOn 0 = none) ∧
      ((s .fault false).line 0).blockRecorded = false := by
  unfold State.hears; decide +kernel

theorem test_Identify_met :
    let s := heard 0x80 (line0 .through .closed id loaded)
    let other := { s with itu := ⟨[], some ⟨15, [.exchange], 0, false⟩⟩ }
    loaded.hears (ask []) ∧ (ask []).payload.length ≠ 1 ∧ (ask [16]).payload = [(16 : Byte)] ∧
      15 < (16 : Byte).toNat ∧ (ask [0]).payload = [(0 : Byte)] ∧ (0 : LineId).val = (0 : Byte).toNat ∧
      ((s.line 0).state = .through ∧ upLoop (s.lByte 0) = .closed) ∧ s.itu = ⟨[], none⟩ ∧
      (loaded.line 0).state ≠ .through ∧ (testing .exchange 0 s).itu.inProgress = some ⟨0, [.exchange], 0, false⟩ ∧
      (testing (.call 23) 0 s).itu.inProgress = some ⟨0, [.call 23], 0, false⟩ ∧
      Requester.exchange ∈ [Requester.exchange] ∧ Requester.exchange ∉ [Requester.call 23] ∧
      (other.itu.inProgress = some ⟨15, [.exchange], 0, false⟩ ∧ (15 : LineId) ≠ 0 ∧
        ∀ q ∈ other.itu.queue, q.line ≠ 0) ∧
      (∀ rs ∈ [[Requester.exchange], [.call 23]], (bridge 15 [.exchange] [⟨14, [.exchange]⟩, ⟨0, rs⟩] s).itu.queue =
        [⟨14, [.exchange]⟩] ++ ⟨0, rs⟩ :: []) ∧ (∀ q ∈ [(⟨14, [.exchange]⟩ : TestRequest)] ++ [], q.line ≠ 0) := by
  unfold State.hears; decide +kernel

theorem test_Identify_onHook_met :
    let s := heard 0x00 (line0 .through .closed (fun r => { r with onHookCount := 99 }) loaded)
    (s.line 0).state = .through ∧ upLoop (s.lByte 0) = .opened ∧ (s.line 0).loop = .closed ∧
      (upFault (s.lByte 0) = none ∨ (s.line 0).faultCount + 1 < 20) ∧
      s.timing.onHookQualify ≤ (s.line 0).onHookCount + 1 ∧ tget s.hwi.byteWaits 0 = true ∧ s.itu = ⟨[], none⟩ := by
  decide +kernel

/-- The row of R118: an IDENTIFY and an on-hook, in both orders. Once the byte is taken, check 3 of R110 stands alone. -/
theorem test_identify_meets_an_on_hook :
    let s (k : Nat) := heard 0x00 (line0 .through .closed (fun r => { r with onHookCount := k }) loaded)
    let status (t : State) := t.mgp.replySlot.bind (fun r => r.payload.head?)
    (after (.identify (ask [0])) (s 99) fun t => status t = some 0 ∧
      after (.onHook 0) t fun u =>
        u.mgp.routine = [.identity 0 .aborted none none] ∧ (u.line 0).state = .idle ∧ u.itu = ⟨[], none⟩) ∧
      (after (.onHook 0) (s 99) fun t => after (.identify (ask [0])) t fun u => status u = some 6 ∧ u.mgp.routine = []) ∧
      after (.lineByte 0) (s 98) fun t => (t.line 0).onHookCount = 99 ∧
        after (.identify (ask [0])) t fun u => status u = some 6 ∧ u.itu = ⟨[], none⟩ :=
  ⟨⟨_, rfl, by decide +kernel, _, rfl, by decide +kernel⟩, ⟨_, rfl, _, rfl, by decide +kernel⟩,
    _, rfl, by decide +kernel, _, rfl, by decide +kernel⟩

theorem test_Queries_met :
    let s (b : Bool) := called .xr .waiting (fun r => { r with ringPart := b }) loaded
    loaded.hears (ask []) ∧ (ask []).payload.length ≠ 1 ∧ (ask [16]).payload = [(16 : Byte)] ∧
      15 < (16 : Byte).toNat ∧ (ask [24]).payload = [(24 : Byte)] ∧ 23 < (24 : Byte).toNat ∧
      (ask [15]).payload = [(15 : Byte)] ∧ (15 : LineId).val = (15 : Byte).toNat ∧
      (ask [23]).payload = [(23 : Byte)] ∧ (23 : CallNo).val = (23 : Byte).toNat ∧ loaded.callRec 23 = none ∧
      ((s false).callRec 23).map (fun r => r.ringPart) = some false ∧
      (((s true).callRec 23).map (fun r => r.ringPart) = some true ∧ (s true).part 23 = none) ∧
      (ringing (part (.placed 23 true)) (s true)).part 23 = some (part (.placed 23 true)) := by
  unfold State.hears; decide +kernel

/-! The hypotheses are met: identity tests. -/

theorem test_TestOfTheExchangeEnds_met :
    let s (k : Nat) (b : Byte) := testing .exchange k (heard b (line0 .through .closed id loaded))
    let usable (s : State) (k : Nat) := 9 ≤ k + 1 ∧ s.hwi.lPort.good = true ∧ upStatus (s.lByte 0) = 1
    let waits := { s 8 0x93 with itu := ⟨[⟨15, [.exchange]⟩], some ⟨0, [.exchange], 8, false⟩⟩ }
    ((s 8 0x93).itu.inProgress = some ⟨0, [.exchange], 8, false⟩ ∧ upFault ((s 8 0x93).lByte 0) = none ∧
      upLoop ((s 8 0x93).lByte 0) = .closed ∧ ((s 8 0x93).line 0).loop = .closed ∧
      ((s 8 0x93).line 0).state = .through) ∧
      (usable (s 8 0x93) 8 ∧ upReading ((s 8 0x93).lByte 0) = 3 ∧ (s 8 0x93).itu.queue = []) ∧
      (¬ usable (s 58 0x83) 58 ∧ 58 + 1 < 60) ∧ (¬ usable (s 59 0x83) 59 ∧ 60 ≤ 59 + 1) ∧
      (usable (s 8 0x9F) 8 ∧ upReading ((s 8 0x9F).lByte 0) = 15) ∧
      waits.itu.queue = ⟨15, [.exchange]⟩ :: [] ∧ (15 : LineId) ≠ 0 := by decide +kernel

/-- Class 3 is that of P1 alone on the loaded line, and class 9 of none. -/
theorem test_identity_classes :
    ((∃ e, loaded.party 0 0 = some e ∧ e.identityClass = some 3) ∧
      ∀ o, (∃ e, loaded.party 0 o = some e ∧ e.identityClass = some 3) → o = 0) ∧
    ∀ p, ¬ ∃ e, loaded.party 0 p = some e ∧ e.identityClass = some 9 := by
  have k1 : ∀ q, ∀ e ∈ loaded.party 0 q, e.identityClass = some 3 → q = 0 := by decide +kernel
  have k2 : ∀ q, ∀ e ∈ loaded.party 0 q, e.identityClass ≠ some 9 := by decide +kernel
  exact ⟨⟨⟨entryA, rfl, rfl⟩, fun q ⟨e, h, hc⟩ => k1 q e h hc⟩, fun q ⟨e, h, hc⟩ => k2 q e h hc⟩

theorem test_TestOfACallEnds_met :
    let s (kind : CallKind) (st : CallState) (ls : LineState) (k : Nat) (b : Byte) (r : Nat) :=
      testing (.call 23) k (called kind st (fun x => { x with reRevert := some r })
        (heard b (line0 ls .closed id loaded)))
    let usable (s : State) (k : Nat) := 9 ≤ k + 1 ∧ s.hwi.lPort.good = true ∧ upStatus (s.lByte 0) = 1
    (∀ st ∈ [CallState.identifying, .identifyCaller, .answerTest],
      (s .rv st .call 8 0x94 0).itu = ⟨[], some ⟨0, [.call 23], 8, false⟩⟩ ∧
      upFault ((s .rv st .call 8 0x94 0).lByte 0) = none ∧ upLoop ((s .rv st .call 8 0x94 0).lByte 0) = .closed ∧
      ((s .rv st .call 8 0x94 0).line 0).loop = .closed ∧
      ((s .rv st .call 8 0x94 0).callRec 23).map (fun r => (r.line, r.state, r.called, r.caller)) =
        some (0, st, 0, some 1) ∧ usable (s .rv st .call 8 0x94 0) 8) ∧
      ((s .xr .identifying .through 8 0x93 0).line 0).state = .through ∧
      (s .xr .identifying .through 8 0x93 0).linked = true ∧
      (((s .xr .identifying .call 8 0x93 0).line 0).state = .call ∧ (s .xr .identifying .call 8 0x93 0).linked = true
          ∧
        (inLink .isolated (s .xr .identifying .call 8 0x93 0)).linked = false) ∧
      ((s .rv .answerTest .call 8 0x94 0).line 0).state = .call ∧
      upReading ((s .rv .answerTest .call 8 0x94 0).lByte 0) = 4 ∧
      upReading ((s .rv .answerTest .call 8 0x93 0).lByte 0) = 3 ∧
      upReading ((s .rv .answerTest .call 8 0x9F 0).lByte 0) = 15 ∧
      (¬ usable (s .rv .answerTest .call 59 0x83 0) 59 ∧ 60 ≤ 59 + 1) ∧
      ((s .rv .answerTest .call 8 0x94 1).callRec 23).map (fun r => r.reRevert.getD 0) = some 1 ∧
      ((s .rv .answerTest .call 8 0x94 2).callRec 23).map (fun r => r.reRevert.getD 0) = some 2 := by decide +kernel

/-! Single commands. -/

/-- The reply's payload after a command. -/
def replyOf (s : State) : Option (List Byte) := s.mgp.replySlot.map (fun r => r.payload)

theorem test_ring_places_the_part :
    after (.ring (ask [0, 1, 0, 1])) loaded (fun t =>
      replyOf t = some [0, 0] ∧ (t.line 0).state = .call ∧
        t.rsc.parts.map (fun p => (p.call, p.status, p.cycleLimit)) = [(0, .placed 0 true, 8)] ∧
        tget (tget t.rsc.busLoad 0) 1 = 3 ∧ tget (tget t.rsc.busLoad 0) 2 = 0) :=
  ⟨_, rfl, by decide +kernel⟩

theorem test_slot_expiry_begins_the_cycle :
    after .slotTimerExpiry (atSlot (called .xr .waiting id (ringing (part (.placed 5 true)) loaded))) (fun t =>
      (t.down 0).ring = some (.ring 0 .tip) ∧ t.rsc.cycleSlot = 5 ∧ t.rsc.slotTimer = 50 ∧
        (t.callRec 23).map (fun r => r.state) = some .ringing) :=
  ⟨_, rfl, by decide +kernel⟩

theorem test_trip_answers_the_ring :
    after (.trip 0) (heard 0x80 (line0 .call .opened (fun r => { r with tripCount := 3 })
      (called .xr .ringing id (ringing (part (.placed 5 false)) loaded)))) (fun t =>
      (t.line 0).state = .through ∧ (t.line 0).loop = .closed ∧ t.callRec 23 = none ∧
        t.rsc.requests = [.release 23] ∧ t.mgp.urgent.length = 1) :=
  ⟨_, rfl, by decide +kernel⟩

theorem test_release_empties_the_map :
    after .releaseRequest (handed [.release 23] (ringing (part (.placed 0 true)) (load 3 loaded))) (fun t =>
      t.rsc.parts = [] ∧ tget (tget t.rsc.busLoad 0) 0 = 0 ∧ tget (tget t.rsc.busLoad 0) 2 = 3) :=
  ⟨_, rfl, by decide +kernel⟩

theorem test_seizure_of_a_local_line_collects :
    after (.seizureQualify 0) (heard 0x80 (line0 .qualifying .opened (fun r => { r with seizureCount := 39 })
      (isLocal loaded))) (fun t =>
      (t.line 0).state = .collecting ∧ (t.down 0).collecting = some .dialTone ∧ (t.up 0).onHook = true) :=
  ⟨_, rfl, by decide +kernel⟩

theorem test_last_digit_of_a_code_starts_a_revert_call :
    after (.digitEnd 0) (dialled 1 [2] loaded) (fun t =>
      (t.callRec 0).map (fun r => (r.called, r.state)) = some (0, .identifyCaller) ∧
        (t.down 0).test = some .test ∧ t.mgp.routine = [.revertLocalStart 0 0 0]) :=
  ⟨_, rfl, by decide +kernel⟩

theorem test_dialled_ten_pulses_are_digit_0 :
    after (.digitEnd 0) (dialled 10 [3, 3] loaded) (fun t =>
      (t.callRec 0).map (fun r => r.called) = some 1) :=
  ⟨_, rfl, by decide +kernel⟩

theorem test_fault_is_reported :
    after (.faultEntry 0) (heard 0x20 (line0 .idle .opened (fun r => { r with faultCount := 19 }) loaded)) (fun t =>
      (t.line 0).state = .fault ∧ (t.down 0).fault = some .feedOff ∧ t.mgp.urgent = [.lineFault 0 .ground]) :=
  ⟨_, rfl, by decide +kernel⟩

theorem test_line_query_of_an_idle_line :
    after (.lineQuery (ask [0])) loaded (fun t =>
      replyOf t = some [0, 0, 0, 0, 0, 0xFF, 0, 0xFF, 0xFF, 0]) :=
  ⟨_, rfl, by decide +kernel⟩

theorem test_broadcast_query_draws_no_reply : exec (.lineQuery (askAll [0])) loaded = .next loaded := rfl

theorem test_table_read_of_a_party :
    after (.tableRead (ask [2, 0, 1])) loaded (fun t =>
      replyOf t = some [0, 2, 0, 1, 1, 1, 0, 1, 3, 3, 2, 2, 1, 0, 0]) :=
  ⟨_, rfl, by decide +kernel⟩

theorem test_a_quiet_frame_is_sent :
    after .frameSend loaded (fun t =>
      t.hwi.lSent = some quiet ∧ t.hwi.eSent = some quiet ∧ t.rsc.slotTimer = 49) :=
  ⟨_, rfl, by decide +kernel⟩

theorem test_the_part_aligns :
    after (.alignmentFound .e quiet) loaded (fun t =>
      t.hwi.ePort.alignment = .aligned ∧ t.hwi.ePort.validTaken = true) :=
  ⟨_, rfl, by decide +kernel⟩

theorem test_a_request_arrives_in_frames :
    let bytes := message 0 5 1 0x0B [0]
    let s := mgp (fun m => { m with eAssembler := some (bytes.take 8) })
      { loaded with hwi := { loaded.hwi with ePort := { loaded.hwi.ePort with alignment := .aligned } } }
    after (.frameReceived .e (frameOf (Vector.replicate 16 0) (bytes.getD 8 0) 0xFF)) s (fun t =>
      replyOf t = some [0, 0, 0, 0, 0, 0xFF, 0, 0xFF, 0xFF, 0] ∧ t.mgp.counters.ePort.valid = 1) :=
  ⟨_, rfl, by decide +kernel⟩

theorem test_long_timeout_isolates :
    after .longTimeout (line0 .through .closed id (link .warning 1999 0 false loaded)) (fun t =>
      t.lkm.state = .isolated ∧ (t.line 0).state = .lockout) :=
  ⟨_, rfl, by decide +kernel⟩

theorem test_meter_set_then_read :
    after (.meterRead (ask [0])) (counting 0x01020304 false loaded) (fun t =>
      replyOf t = some [0, 0, 1, 2, 3, 4, 1, 0, 0]) :=
  ⟨_, rfl, by decide +kernel⟩

theorem test_power_on_with_pins_31_is_unaddressed :
    after (.powerOnReset 31) loaded (fun t => t.mgp.address = none ∧ t.party 0 0 = none) :=
  ⟨_, rfl, by decide +kernel⟩

end Sys2Proof.Tests
end

/-! TABLE WRITE of a line's record, a party entry and a cadence: which field values make a record, what each handler
makes of it, and the statements about the three writes (R3, R5, R6, R7, R9). -/

namespace Sys2Proof.Machine

/-! Fields: the numbers that a key or a flag is read from. -/

theorem lineOf_of_le {n : Nat} (h : n ≤ 15) : ∃ l : LineId, lineOf n = some l := by
  simp [lineOf, show n < 16 by omega]

theorem groupOf_of_le {n : Nat} (h : n ≤ 3) : groupOf n = some (Fin.ofNat 4 n) := by
  have hn : n < 4 := by omega
  simp [groupOf, hn, Fin.ext_iff, Nat.mod_eq_of_lt hn]

theorem le_of_groupOf {n : Nat} {g : GroupId} (h : groupOf n = some g) : n ≤ 3 := by
  by_contra hn
  simp [groupOf_none (n := n) (by omega)] at h

theorem le_of_flagOf {n : Nat} {x : Bool} (h : flagOf n = some x) : n ≤ 1 := by
  by_contra hn
  simp [flagOf_none (n := n) (by omega)] at h

theorem le_of_cadenceOf {n : Nat} {c : CadenceId} (h : cadenceOf n = some c) : n ≤ 15 := by
  by_contra hn
  simp [cadenceOf_none (n := n) (by omega)] at h

theorem bounds_of_busOf {n : Nat} {b : BusId} (h : busOf n = some b) : 1 ≤ n ∧ n ≤ 4 := by
  by_contra hn
  simp [busOf_none (n := n) (by omega)] at h

theorem bounds_of_partyOf {n : Nat} {p : PartyId} (h : partyOf n = some p) : 1 ≤ n ∧ n ≤ 8 := by
  by_contra hn
  simp [partyOf_none (n := n) (by omega)] at h

theorem le_of_legOfCode {n : Nat} {l : Leg} (h : legOfCode n = some l) : n ≤ 2 := by
  match n, h with
  | 0, _ | 1, _ | 2, _ => decide
  | _ + 3, h => cases h

/-! The record of a line (R3 check 2). -/

section LineAttribute

variable {h g c b i : Nat}

theorem lineAttrOf_of_inRange (hh : h ≤ 1) (hg : g ≤ 3) (hc : 1 ≤ c) (hc' : c ≤ 31) (hb : b ≤ 1) (hi : i ≤ 1) :
    lineAttrOf h g c b i = some
      { handling := if h = 1 then .isLocal else .exchange, group := Fin.ofNat 4 g, defaultCycles := c,
        backRing := decide (b = 1), answerIdentifyDefault := decide (i = 1) } := by
  simp [lineAttrOf, groupOf_of_le hg, flagOf_eq hh, flagOf_eq hb, flagOf_eq hi, hc, hc']

theorem inRange_of_lineAttrOf {a : LineAttr} (ha : lineAttrOf h g c b i = some a) :
    h ≤ 1 ∧ g ≤ 3 ∧ 1 ≤ c ∧ c ≤ 31 ∧ b ≤ 1 ∧ i ≤ 1 := by
  unfold lineAttrOf at ha
  split at ha
  next hg hh hb hi =>
    split at ha
    next hc => exact ⟨le_of_flagOf hh, le_of_groupOf hg, hc.1, hc.2, le_of_flagOf hb, le_of_flagOf hi⟩
    next => cases ha
  next => cases ha

/-! Its handler (R3). -/

variable {s : State} {r : Req} {line : Nat}

theorem writeLineAttribute_of_length_ne (hl : r.payload.length ≠ 6) :
    writeLineAttribute s r = (s, refuse .badRequest) := by
  unfold writeLineAttribute
  split
  next heq => exact absurd (by simpa using congrArg List.length heq) hl
  next => rfl

theorem writeLineAttribute_of_noLine (hp : numbers r.payload = [line, h, g, c, b, i]) (hl : lineOf line = none) :
    writeLineAttribute s r = (s, refuse .noLine) := by
  simp [writeLineAttribute, hp, hl]

theorem writeLineAttribute_of_noRecord {n : LineId} (hp : numbers r.payload = [line, h, g, c, b, i])
    (hl : lineOf line = some n) (ha : lineAttrOf h g c b i = none) :
    writeLineAttribute s r = (s, refuse .badRequest) := by
  simp [writeLineAttribute, hp, hl, ha]

theorem writeLineAttribute_of_record {n : LineId} {a : LineAttr} (hp : numbers r.payload = [line, h, g, c, b, i])
    (hl : lineOf line = some n) (ha : lineAttrOf h g c b i = some a) :
    writeLineAttribute s r = if s.lineInUse n then (s, refuse .inUse) else (s.setAttr n a, accept []) := by
  simp [writeLineAttribute, hp, hl, ha]

end LineAttribute

/-- Settles O14: each of R3's checks in order decides the handler's answer, and `refuses_of` and `answers_of` carry the
answer to the command. -/
theorem lineAttributeWrite : Obligations.LineAttributeWrite := by
  intro s r hears
  refine ⟨fun hl => refuses_of (st := .badRequest) rfl hears (writeLineAttribute_of_length_ne hl), ?_⟩
  intro line h g c b i hp
  refine ⟨fun hl => ?noLine, fun hl hr => ?outOfRange, ?record⟩
  case noLine =>
    exact refuses_of (st := .noLine) rfl hears (writeLineAttribute_of_noLine hp (lineOf_none hl))
  case outOfRange =>
    obtain ⟨n, hn⟩ := lineOf_of_le hl
    have ha : lineAttrOf h g c b i = none :=
      Option.eq_none_iff_forall_ne_some.mpr fun _ ha => hr (inRange_of_lineAttrOf ha)
    exact refuses_of (st := .badRequest) rfl hears (writeLineAttribute_of_noRecord hp hn ha)
  case record =>
    rintro n rfl hh hg hc hc' hb hi
    have hw := writeLineAttribute_of_record (s := s) hp (lineOf_val n) (lineAttrOf_of_inRange hh hg hc hc' hb hi)
    refine ⟨fun hu => ?inUse, fun hcall hcol hrep => ?free⟩
    case inUse =>
      rw [if_pos ((s.lineInUse_iff n).mpr hu)] at hw
      exact refuses_of (st := .inUse) rfl hears hw
    case free =>
      have hu : ¬ s.lineInUse n = true := by simp [State.lineInUse_iff, hcall, hcol, hrep]
      rw [if_neg hu] at hw
      exact answers_of rfl hears hw

/-! The party entry (R5 check 2). -/

theorem specFrom_of_inRange {bell : Nat} (b : BusId) (l : Leg) (c : CadenceId) (h : 1 ≤ bell) (h' : bell ≤ 7) :
    specFrom (b.val + 1) (legCode l) c.val bell = some ⟨b, l, c, bell⟩ := by
  simp [specFrom, h, h']

theorem inRange_of_specFrom {bus leg cad bell : Nat} {sp : Spec} (h : specFrom bus leg cad bell = some sp) :
    (1 ≤ bus ∧ bus ≤ 4) ∧ leg ≤ 2 ∧ cad ≤ 15 ∧ 1 ≤ bell ∧ bell ≤ 7 := by
  unfold specFrom at h
  split at h
  next hb hl hc =>
    split at h
    next hbell => exact ⟨bounds_of_busOf hb, le_of_legOfCode hl, le_of_cadenceOf hc, hbell⟩
    next => cases h
  next => cases h

theorem classOf_of_le {n : Nat} (h : n ≤ 15) : classOf n = some (if n = 15 then none else some n) := by
  unfold classOf
  by_cases hn : n = 15
  · simp [hn]
  · simp [hn, show n < 15 by omega]

theorem le_of_classOf {n : Nat} {c : Option Nat} (h : classOf n = some c) : n ≤ 15 := by
  by_contra hn
  simp [classOf, show ¬ n < 15 by omega, show n ≠ 15 by omega] at h

/-- The code that a length and four digit positions give: the digits within the length, the rest being 0. -/
theorem revertCodeOf_eq_some {len : Nat} {d code : List Nat} :
    revertCodeOf len d = some code ↔ d.take len = code ∧ (len = 0 ∨ len = 2 ∨ len = 3 ∨ len = 4) ∧
      (∀ x ∈ d.take len, x ≤ 9) ∧ ∀ x ∈ d.drop len, x = 0 := by
  simp only [revertCodeOf, List.all_eq_true, decide_eq_true_eq, Option.ite_none_right_eq_some, Option.some.injEq]
  exact and_comm

theorem revertCodeOf_padTo {code : List Nat} {len k : Nat} (hlen : code.length = len)
    (hl : len = 0 ∨ len = 2 ∨ len = 3 ∨ len = 4) (hd : ∀ x ∈ code, x ≤ 9) :
    revertCodeOf len (padTo k code) = some code := by
  have htake : (padTo k code).take len = code := List.take_left' hlen
  have hdrop : (padTo k code).drop len = List.replicate (k - code.length) 0 := List.drop_left' hlen
  rw [revertCodeOf_eq_some, htake, hdrop]
  exact ⟨rfl, hl, hd, fun _ => List.eq_of_mem_replicate⟩

theorem entryOf_present {bell cls len k : Nat} {code : List Nat} (b : BusId) (l : Leg) (c : CadenceId)
    (hb : 1 ≤ bell) (hb' : bell ≤ 7) (hcls : cls ≤ 15) (hl : len = 0 ∨ len = 2 ∨ len = 3 ∨ len = 4)
    (hlen : code.length = len) (hd : ∀ x ∈ code, x ≤ 9) :
    entryOf 1 (b.val + 1) (legCode l) c.val bell cls len (padTo k code) =
      some (some ⟨⟨b, l, c, bell⟩, if cls = 15 then none else some cls, code⟩) := by
  simp [entryOf, presentEntryOf, specFrom_of_inRange b l c hb hb', classOf_of_le hcls, revertCodeOf_padTo hlen hl hd]

theorem inRange_of_presentEntryOf {bus leg cad bell cls len : Nat} {d : List Nat} {e : PartyEntry}
    (h : presentEntryOf bus leg cad bell cls len d = some e) :
    1 ≤ bus ∧ bus ≤ 4 ∧ leg ≤ 2 ∧ cad ≤ 15 ∧ 1 ≤ bell ∧ bell ≤ 7 ∧ cls ≤ 15 ∧
      (len = 0 ∨ len = 2 ∨ len = 3 ∨ len = 4) ∧ (∀ x ∈ d.take len, x ≤ 9) ∧ ∀ x ∈ d.drop len, x = 0 := by
  unfold presentEntryOf at h
  split at h
  next hsp hcls hcode =>
    obtain ⟨⟨hbus, hbus'⟩, hleg, hcad, hbell, hbell'⟩ := inRange_of_specFrom hsp
    obtain ⟨-, hlen, hdigits, hrest⟩ := revertCodeOf_eq_some.mp hcode
    exact ⟨hbus, hbus', hleg, hcad, hbell, hbell', le_of_classOf hcls, hlen, hdigits, hrest⟩
  next => cases h

theorem inRange_of_entryOf {pres bus leg cad bell cls len : Nat} {d : List Nat} {e : Option PartyEntry}
    (hd : d.length = 4) (h : entryOf pres bus leg cad bell cls len d = some e) :
    (pres = 0 ∧ [bus, leg, cad, bell, cls, len] ++ d = List.replicate 10 0) ∨
      (pres = 1 ∧ 1 ≤ bus ∧ bus ≤ 4 ∧ leg ≤ 2 ∧ cad ≤ 15 ∧ 1 ≤ bell ∧ bell ≤ 7 ∧ cls ≤ 15 ∧
        (len = 0 ∨ len = 2 ∨ len = 3 ∨ len = 4) ∧ (∀ x ∈ d.take len, x ≤ 9) ∧ ∀ x ∈ d.drop len, x = 0) := by
  unfold entryOf at h
  split at h
  next hpres =>
    split at h
    next hz =>
      rw [List.all_eq_true] at hz
      exact .inl ⟨hpres, List.eq_replicate_iff.mpr ⟨by simp [hd], fun x hx => of_decide_eq_true (hz x hx)⟩⟩
    next => cases h
  next =>
    split at h
    next hpres =>
      obtain ⟨_, he, -⟩ := Option.map_eq_some_iff.mp h
      exact .inr ⟨hpres, inRange_of_presentEntryOf he⟩
    next => cases h

/-! Its handler (R5). -/

section Party

variable {s : State} {r : Req} {n : LineId} {p : PartyId}

theorem writeParty_of_length_ne (hl : r.payload.length ≠ 13) : writeParty s r = (s, refuse .badRequest) := by
  unfold writeParty
  split
  next heq => exact absurd (by simpa using congrArg List.length heq) hl
  next => rfl

section Fields

variable {line party pres bus leg cad bell cls len : Nat} {d : List Nat}

theorem writeParty_of_noLine (hp : numbers r.payload = [line, party, pres, bus, leg, cad, bell, cls, len] ++ d)
    (hd : d.length = 4) (hl : lineOf line = none) : writeParty s r = (s, refuse .noLine) :=
  match d, hd with
  | [_, _, _, _], _ => by simp [writeParty, hp, hl]

theorem writeParty_of_noEntry (hp : numbers r.payload = [line, party, pres, bus, leg, cad, bell, cls, len] ++ d)
    (hd : d.length = 4) (hl : lineOf line = some n)
    (he : ∀ p e, partyOf party = some p → entryOf pres bus leg cad bell cls len d ≠ some e) :
    writeParty s r = (s, refuse .badRequest) :=
  match d, hd with
  | [_, _, _, _], _ => by
    cases hparty : partyOf party with
    | none => simp [writeParty, hp, hl, hparty]
    | some p =>
      have hentry := Option.eq_none_iff_forall_ne_some.mpr fun e => he p e hparty
      simp [writeParty, hp, hl, hparty, hentry]

theorem writeParty_of_entry {e : Option PartyEntry}
    (hp : numbers r.payload = [line, party, pres, bus, leg, cad, bell, cls, len] ++ d) (hd : d.length = 4)
    (hl : lineOf line = some n) (hparty : partyOf party = some p)
    (he : entryOf pres bus leg cad bell cls len d = some e) : writeParty s r = s.writeEntry n p e :=
  match d, hd with
  | [_, _, _, _], _ => by simp [writeParty, hp, hl, hparty, he]

end Fields

/-! Checks 3 to 5 (R5, R6, R7). -/

theorem State.entryStatus_inUse {e : Option PartyEntry} (hu : s.lineInUse n = true) :
    s.entryStatus n p e = .inUse := by
  simp [State.entryStatus, hu]

theorem State.entryStatus_absent (hu : ¬ s.lineInUse n = true) : s.entryStatus n p none = .accepted := by
  simp [State.entryStatus, hu]

theorem State.entryStatus_noCadence {e : PartyEntry} (hu : ¬ s.lineInUse n = true)
    (hc : s.cadence e.spec.cadence = []) : s.entryStatus n p (some e) = .noCadence := by
  simp [State.entryStatus, hu, hc]

theorem State.entryStatus_conflict {e : PartyEntry} (hu : ¬ s.lineInUse n = true)
    (hc : s.cadence e.spec.cadence ≠ []) (hx : s.entryClashes n p e = true) :
    s.entryStatus n p (some e) = .conflict := by
  simp [State.entryStatus, hu, hc, hx]

theorem State.entryStatus_present {e : PartyEntry} (hu : ¬ s.lineInUse n = true)
    (hc : s.cadence e.spec.cadence ≠ []) (hx : ¬ s.entryClashes n p e = true) :
    s.entryStatus n p (some e) = .accepted := by
  simp [State.entryStatus, hu, hc, hx]

/-- A command whose entry is in range is refused with the status that checks 3 to 5 give. -/
theorem refuses_tableWriteParty {e : Option PartyEntry} {st : Status} (hears : s.hears r)
    (hw : writeParty s r = s.writeEntry n p e) (hs : s.entryStatus n p e = st) (hst : st ≠ .accepted) :
    refuses (.tableWriteParty r) s 0x10 r (byteOf (statusCode st)) :=
  refuses_of rfl hears (by rw [hw]; simp [State.writeEntry, hs, hst])

/-- A command whose entry passes checks 3 to 5 is answered, with the entry in its place. -/
theorem answers_tableWriteParty {e : Option PartyEntry} (hears : s.hears r)
    (hw : writeParty s r = s.writeEntry n p e) (hs : s.entryStatus n p e = .accepted) :
    answers (.tableWriteParty r) s 0x10 r (s.setParty n p e) [0] :=
  answers_of rfl hears (by rw [hw]; simp [State.writeEntry, hs])

end Party

/-- Settles O15: the checks of R5 in order, for an entry to be made present, for a payload that gives no entry, and for
an entry to be made absent. -/
theorem partyWrite : Obligations.PartyWrite := by
  refine ⟨?present, fun s r hears => ⟨?length, ?noEntry, ?absent⟩⟩
  case present =>
    intro s r n p b leg cad bell cls len d code hears hp hd hb hb' hcls hl hpad hlen hdig
    have he := entryOf_present (k := 4) b leg cad hb hb' hcls hl hlen hdig
    have hw := writeParty_of_entry (s := s) hp hd (lineOf_val n) (partyOf_val p) (hpad ▸ he)
    have free := mt (s.lineInUse_iff n).mp
    have clash := s.entryClashes_iff n p ⟨⟨b, leg, cad, bell⟩, if cls = 15 then none else some cls, code⟩
    refine ⟨fun hu => ?inUse, fun hu hc => ?noCadence, fun hu hc hx => ?conflict, fun hu hc hx => ?accepted⟩
    case inUse =>
      exact refuses_tableWriteParty hears hw (State.entryStatus_inUse ((s.lineInUse_iff n).mpr hu)) (by decide)
    case noCadence =>
      exact refuses_tableWriteParty hears hw (State.entryStatus_noCadence (free hu) hc) (by decide)
    case conflict =>
      exact refuses_tableWriteParty hears hw (State.entryStatus_conflict (free hu) hc (clash.mpr hx)) (by decide)
    case accepted =>
      exact answers_tableWriteParty hears hw (State.entryStatus_present (free hu) hc (mt clash.mp hx))
  case length =>
    exact fun hl => refuses_of (st := .badRequest) rfl hears (writeParty_of_length_ne hl)
  case noEntry =>
    intro line party pres bus leg cad bell cls len d hp hd
    refine ⟨fun hl => ?_, fun hl hr => ?_⟩
    · exact refuses_of (st := .noLine) rfl hears (writeParty_of_noLine hp hd (lineOf_none hl))
    · obtain ⟨n, hn⟩ := lineOf_of_le hl
      refine refuses_of (st := .badRequest) rfl hears (writeParty_of_noEntry hp hd hn fun q e hq he => hr ?_)
      obtain ⟨hparty, hparty'⟩ := bounds_of_partyOf hq
      exact ⟨hparty, hparty', inRange_of_entryOf hd he⟩
  case absent =>
    intro n p hp
    have hw := writeParty_of_entry (s := s) (d := [0, 0, 0, 0]) hp rfl (lineOf_val n) (partyOf_val p) rfl
    rw [← State.lineInUse_iff]
    exact ⟨
      fun hu => refuses_tableWriteParty hears hw (State.entryStatus_inUse hu) (by decide),
      fun hu => answers_tableWriteParty hears hw (State.entryStatus_absent hu)⟩

/-! The cadence (R9). -/

section Cadence

variable {s : State} {r : Req} {key count : Nat} {d : List Nat}

theorem writeCadence_of_length_ne (hl : r.payload.length ≠ 10) : writeCadence s r = (s, refuse .badRequest) := by
  unfold writeCadence
  split
  next heq => exact absurd (by simpa using congrArg List.length heq) hl
  next => rfl

theorem writeCadence_of_noCadence (hp : numbers r.payload = key :: count :: d) (hd : d.length = 8)
    (hc : ∀ c l, cadenceOf key = some c → cadenceFrom count d ≠ some l) :
    writeCadence s r = (s, refuse .badRequest) :=
  match d, hd with
  | [_, _, _, _, _, _, _, _], _ => by
    cases hkey : cadenceOf key with
    | none => simp [writeCadence, hp, hkey]
    | some c =>
      have hfrom := Option.eq_none_iff_forall_ne_some.mpr fun l => hc c l hkey
      simp [writeCadence, hp, hkey, hfrom]

theorem writeCadence_of_cadence {c : CadenceId} {l : List Nat} (hp : numbers r.payload = key :: count :: d)
    (hd : d.length = 8) (hkey : cadenceOf key = some c) (hl : cadenceFrom count d = some l) :
    writeCadence s r =
      if s.cadenceEntered c || s.cadenceRung c then (s, refuse .inUse) else (s.setCadence c l, accept []) :=
  match d, hd with
  | [_, _, _, _, _, _, _, _], _ => by simp [writeCadence, hp, hkey, hl]

end Cadence

/-- Settles O16: `cadenceFrom_eq_some` is check 1 of R9, and the table and the ring parts that name the cadence are
check 2. -/
theorem cadenceWrite : Obligations.CadenceWrite := by
  intro s r hears
  refine ⟨fun hl => refuses_of (st := .badRequest) rfl hears (writeCadence_of_length_ne hl), ?_⟩
  intro key count d hp hd
  refine ⟨fun hbad => ?noCadence, ?cadence⟩
  case noCadence =>
    refine refuses_of (st := .badRequest) rfl hears (writeCadence_of_noCadence hp hd fun c l hc hl => ?_)
    rcases hbad with hkey | hlaw
    · exact absurd (le_of_cadenceOf hc) (by omega)
    · exact hlaw ((cadenceFrom_eq_some hd).mp hl).2
  case cadence =>
    rintro c rfl hlaw
    have hw := writeCadence_of_cadence (s := s) hp hd (cadenceOf_val c) ((cadenceFrom_eq_some hd).mpr ⟨rfl, hlaw⟩)
    rw [← State.cadenceEntered_iff, ← State.cadenceRung_iff, ← Bool.or_eq_true]
    refine ⟨fun hn => ?named, fun hn => ?unnamed⟩
    case named =>
      rw [if_pos hn] at hw
      exact refuses_of (st := .inUse) rfl hears hw
    case unnamed =>
      rw [if_neg hn] at hw
      exact answers_of rfl hears hw

end Sys2Proof.Machine

/-! METER SET and METER READ: which field values make a meter's configuration, what each handler makes of a payload, and
the statements about the two requests (R191, R196). -/

namespace Sys2Proof.Machine

/-! Fields: the numbers that a meter, a line filter or a flag is read from, and the byte of a flag. -/

theorem le_of_meterOf {n : Nat} {i : MeterId} (h : meterOf n = some i) : n ≤ 7 := by
  by_contra hn
  simp [meterOf_none (n := n) (by omega)] at h

theorem flagOf_eq_some {n : Nat} {x : Bool} : flagOf n = some x ↔ n ≤ 1 ∧ x = decide (n = 1) := by
  constructor
  · intro h
    have hn := le_of_flagOf h
    rw [flagOf_eq hn] at h
    exact ⟨hn, (Option.some.inj h).symm⟩
  · rintro ⟨hn, rfl⟩
    exact flagOf_eq hn

/-- A line filter 0-16, in which 16 is any line. -/
theorem lineOf_filter {filter : Nat} (h : filter ≤ 16) :
    lineOf filter = if filter = 16 then none else some (Fin.ofNat 16 filter) := by
  split
  next hany => exact lineOf_none (by omega)
  next hline =>
    have hlt : filter < 16 := by omega
    simp [lineOf, hlt, Fin.ext_iff, Nat.mod_eq_of_lt hlt]

theorem byteOf_flag (b : Bool) : byteOf (flag b) = if b then 1 else 0 := by
  cases b <;> rfl

theorem byteOf_frozenByte (m : Meter) (global : Bool) :
    byteOf (frozenByte m global) =
      if global then if m.frozen then 3 else 2 else if m.frozen then 1 else 0 := by
  unfold frozenByte
  cases global <;> cases m.frozen <;> rfl

/-! METER SET (R191). -/

section MeterSet

variable {meter mode selection filter threshold invert enabled notice freeze : Nat}

/-- Check 2 of R191. -/
theorem meterModeOf_eq_some {md : MeterMode} :
    meterModeOf mode selection filter threshold invert = some md ↔
      mode ≤ 1 ∧ (mode = 0 → selection ≤ 19 ∧ threshold = 0 ∧ invert = 0) ∧
        (mode = 1 → selection ≤ 6 ∧ filter = 16) ∧ md = if mode = 0 then .peg else .occupancy := by
  match mode with
  | 0 => simp [meterModeOf, eq_comm]
  | 1 => simp [meterModeOf, eq_comm, and_assoc]
  | k + 2 => simp [meterModeOf]

/-- The checks of R191 on the fields after the meter, and the meter that they leave. -/
theorem Meter.configured_eq_some {m m' : Meter} :
    m.configured mode selection filter threshold invert enabled notice freeze = some m' ↔
      (mode ≤ 1 ∧ filter ≤ 16 ∧ threshold ≤ 24 ∧ invert ≤ 1 ∧ enabled ≤ 1 ∧ notice ≤ 1 ∧ freeze ≤ 1 ∧
        (mode = 0 → selection ≤ 19 ∧ threshold = 0 ∧ invert = 0) ∧ (mode = 1 → selection ≤ 6 ∧ filter = 16)) ∧
      m' = { mode := if mode = 0 then .peg else .occupancy, selection := selection,
             lineFilter := if filter = 16 then none else some (Fin.ofNat 16 filter), threshold := threshold,
             invert := decide (invert = 1), enabled := decide (enabled = 1), overflowNotice := decide (notice = 1),
             freezeOnOverflow := decide (freeze = 1), frozen := m.frozen, count := m.count,
             overflowed := m.overflowed } := by
  constructor
  · intro h
    unfold Meter.configured at h
    split at h
    next hmd hi he ho hf =>
      split at h
      next hrange =>
        obtain ⟨hmode, hpeg, hoccupancy, rfl⟩ := meterModeOf_eq_some.mp hmd
        obtain ⟨hinvert, rfl⟩ := flagOf_eq_some.mp hi
        obtain ⟨henabled, rfl⟩ := flagOf_eq_some.mp he
        obtain ⟨hnotice, rfl⟩ := flagOf_eq_some.mp ho
        obtain ⟨hfreeze, rfl⟩ := flagOf_eq_some.mp hf
        obtain ⟨hfilter, hthreshold⟩ := hrange
        rw [lineOf_filter hfilter] at h
        exact ⟨⟨hmode, hfilter, hthreshold, hinvert, henabled, hnotice, hfreeze, hpeg, hoccupancy⟩,
          (Option.some.inj h).symm⟩
      next => cases h
    next => cases h
  · rintro ⟨⟨hmode, hfilter, hthreshold, hinvert, henabled, hnotice, hfreeze, hpeg, hoccupancy⟩, rfl⟩
    have hmd := meterModeOf_eq_some.mpr ⟨hmode, hpeg, hoccupancy, rfl⟩
    simp [Meter.configured, hmd, flagOf_eq hinvert, flagOf_eq henabled, flagOf_eq hnotice, flagOf_eq hfreeze,
      hfilter, hthreshold, lineOf_filter hfilter]

variable {s : State} {r : Req}

theorem meterSet_of_length_ne (hl : r.payload.length ≠ 9) : meterSet s r = (s, refuse .badRequest) := by
  unfold meterSet
  split
  next heq => exact absurd (by simpa using congrArg List.length heq) hl
  next => rfl

theorem meterSet_of_notConfigured
    (hp : numbers r.payload = [meter, mode, selection, filter, threshold, invert, enabled, notice, freeze])
    (hc : ∀ i m, meterOf meter = some i →
      (s.meter i).configured mode selection filter threshold invert enabled notice freeze ≠ some m) :
    meterSet s r = (s, refuse .badRequest) := by
  cases hmeter : meterOf meter with
  | none => simp [meterSet, hp, hmeter]
  | some i =>
    have hnone := Option.eq_none_iff_forall_ne_some.mpr fun m => hc i m hmeter
    simp [meterSet, hp, hmeter, hnone]

theorem meterSet_of_configured {i : MeterId} {m : Meter}
    (hp : numbers r.payload = [meter, mode, selection, filter, threshold, invert, enabled, notice, freeze])
    (hmeter : meterOf meter = some i)
    (hc : (s.meter i).configured mode selection filter threshold invert enabled notice freeze = some m) :
    meterSet s r = (s.setMeter i m, accept []) := by
  simp [meterSet, hp, hmeter, hc]

end MeterSet

/-- Settles O22: `Meter.configured_eq_some` gives the checks of R191 on the fields after the meter and the meter that
they leave; `refuses_of` and `answers_of` carry the handler's answer to the command.
(`meterSet` itself is the handler's name.) -/
theorem meterSet_holds : Obligations.MeterSet := by
  intro s r hears
  refine ⟨fun hl => refuses_of (st := .badRequest) rfl hears (meterSet_of_length_ne hl), ?_⟩
  intro m mode sel filter thr inv en ov fr hp
  refine ⟨fun hbad => ?outOfRange, ?inRange⟩
  case outOfRange =>
    refine refuses_of (st := .badRequest) rfl hears (meterSet_of_notConfigured hp fun i m' hi hm' => hbad ?_)
    exact ⟨le_of_meterOf hi, (Meter.configured_eq_some.mp hm').1⟩
  case inRange =>
    rintro i rfl ⟨-, hgood⟩
    exact answers_of rfl hears
      (meterSet_of_configured hp (meterOf_val i) (Meter.configured_eq_some.mpr ⟨hgood, rfl⟩))

/-! METER READ (R196). -/

section MeterRead

variable {s : State} {r : Req} {b : Byte}

theorem meterRead_of_length_ne (hl : r.payload.length ≠ 1) : meterRead s r = (s, refuse .badRequest) := by
  unfold meterRead
  split
  next heq => exact absurd (by simpa using congrArg List.length heq) hl
  next => rfl

theorem meterRead_of_noMeter (hp : r.payload = [b]) (hb : meterOf b.toNat = none) :
    meterRead s r = (s, refuse .badRequest) := by
  simp [meterRead, numbers, hp, hb]

theorem meterRead_of_meter {i : MeterId} (hp : r.payload = [b]) (hb : b.toNat = i.val) :
    meterRead s r = (s, accept ([b] ++ fourBytes (s.meter i).count ++
      [byteOf (flag (s.meter i).enabled), byteOf (frozenByte (s.meter i) s.tmu.globalFrozen),
        overflowedByte s.tmu])) := by
  have hbyte : byteOf i.val = b := by simp [byteOf, ← hb]
  simp [meterRead, numbers, hp, hb, hbyte]

end MeterRead

/-- Settles O24: the overflowed byte is the model's own, with its bits by `overflowedByte_bit`, and the enabled and
frozen bytes are those of `byteOf_flag` and `byteOf_frozenByte`. (`meterRead` itself is the handler's name.) -/
theorem meterRead_holds : Obligations.MeterRead := by
  intro s r hears
  refine ⟨fun hl => ?length, fun b hp hb => ?noMeter, fun b i hp hb => ?meter⟩
  case length =>
    exact refuses_of (st := .badRequest) rfl hears (meterRead_of_length_ne hl)
  case noMeter =>
    exact refuses_of (st := .badRequest) rfl hears (meterRead_of_noMeter hp (meterOf_none hb))
  case meter =>
    refine ⟨overflowedByte s.tmu, overflowedByte_bit s.tmu, ?_⟩
    rw [← byteOf_flag, ← byteOf_frozenByte]
    exact answers_of rfl hears (meterRead_of_meter hp hb)

end Sys2Proof.Machine

/-! The laws that every step keeps, as one relation between the state before and after an operation, and that each
update of the state keeps them. -/

namespace Sys2Proof.Machine

/-- No ring part is overtaken more than 8 times (R26, R33). -/
def State.overtakenBounded (s : State) : Prop := ∀ p ∈ s.rsc.parts, ∀ k, p.status = .queued k → k ≤ 8

/-- No digit buffer holds more than 12 digits (R90). -/
def State.digitsBounded (s : State) : Prop := ∀ n, (s.digits n).buffer.length ≤ 12

theorem State.buffersLawful_iff (s : State) : s.BuffersLawful ↔ s.overtakenBounded ∧ s.digitsBounded :=
  ⟨fun h => ⟨h.overtaken, h.digits⟩, fun h => ⟨h.1, h.2⟩⟩

/-- Each law of Safety that does not speak of the ring parts holds after when it holds before. -/
structure State.KeepsBeside (s t : State) : Prop where
  tables : s.TablesLawful → t.TablesLawful
  digits : s.digitsBounded → t.digitsBounded
  port : s.mgp.Lawful → t.mgp.Lawful
  isolated : s.IsolatedLawful → t.IsolatedLawful

/-- Each law of Safety holds after when it holds before. -/
structure State.Keeps (s t : State) : Prop extends s.KeepsBeside t where
  map : s.MapLawful → t.MapLawful
  overtaken : s.overtakenBounded → t.overtakenBounded

theorem State.KeepsBeside.trans {s t u : State} (h : s.KeepsBeside t) (h' : t.KeepsBeside u) : s.KeepsBeside u :=
  ⟨h'.tables ∘ h.tables, h'.digits ∘ h.digits, h'.port ∘ h.port, h'.isolated ∘ h.isolated⟩

namespace State.Keeps

variable {s t u : State}

theorem buffers (h : s.Keeps t) (hs : s.BuffersLawful) : t.BuffersLawful :=
  t.buffersLawful_iff.2 ((s.buffersLawful_iff.1 hs).imp h.overtaken h.digits)

theorem refl : s.Keeps s := ⟨⟨id, id, id, id⟩, id, id⟩

theorem trans (h : s.Keeps t) (h' : t.Keeps u) : s.Keeps u :=
  ⟨h.toKeepsBeside.trans h'.toKeepsBeside, h'.map ∘ h.map, h'.overtaken ∘ h.overtaken⟩

theorem of_eq (h : t = s) : s.Keeps t := h ▸ refl

theorem ite {p : Prop} [Decidable p] (ht : p → s.Keeps t) (hu : ¬ p → s.Keeps u) : s.Keeps (if p then t else u) := by
  split
  next hp => exact ht hp
  next hp => exact hu hp

/-- A run over a list of keys keeps the laws when each of its operations does. -/
theorem foldl {α : Type} {f : State → α → State} (h : ∀ (s : State) a, s.Keeps (f s a)) (l : List α) (s : State) :
    s.Keeps (l.foldl f s) := by
  induction l generalizing s with
  | nil => exact refl
  | cons a l ih => exact (h s a).trans (ih (f s a))

end State.Keeps

/-! Which part of the state each law is about. -/

variable {s t : State}

theorem State.tablesLawful_of_ptb (h : t.ptb = s.ptb) (hs : s.TablesLawful) : t.TablesLawful := by
  have hcad : ∀ c, t.cadence c = s.cadence c := fun c => by simp [State.cadence, h]
  have hparty : ∀ n p, t.party n p = s.party n p := fun n p => by simp [State.party, h]
  constructor
  case cadences => exact fun c => hcad c ▸ hs.cadences c
  case entries =>
    intro n p e he
    have := hs.entries n p e (hparty n p ▸ he)
    simpa only [State.entryLawful, hcad] using this
  case parties =>
    intro n p q e o hpq he ho
    exact hs.parties n p q e o hpq (hparty n p ▸ he) (hparty n q ▸ ho)
  case capacities => exact fun b => by simpa [State.capacity, h] using hs.capacities b
  case defaults => exact fun n => by simpa [State.attr, h] using hs.defaults n
  case timing => simpa [State.timing, h] using hs.timing

theorem State.overtakenBounded_of_parts (hp : t.rsc.parts = s.rsc.parts) (hs : s.overtakenBounded) :
    t.overtakenBounded := by
  unfold State.overtakenBounded
  exact hp ▸ hs

theorem State.digitsBounded_of_dgu (hd : t.dgu = s.dgu) (hs : s.digitsBounded) : t.digitsBounded :=
  fun n => by simpa [State.digits, hd] using hs n

theorem State.isolatedLawful_of_lines (hl : t.lkm.state = s.lkm.state) (hv : t.lsv = s.lsv) (hs : s.IsolatedLawful) :
    t.IsolatedLawful :=
  fun hi n => by simpa [State.line, hv] using hs (hl ▸ hi) n

/-- While the link is in another state than ISOLATED, R185 asks nothing. -/
theorem State.isolatedLawful_of_ne (h : s.lkm.state ≠ .isolated) : s.IsolatedLawful := fun hi => absurd hi h

/-- An operation on what no law speaks of. -/
theorem State.keeps_of_same (hp : t.ptb = s.ptb) (hr : t.rsc = s.rsc) (hd : t.dgu = s.dgu) (hm : t.mgp = s.mgp)
    (hl : t.lkm = s.lkm) (hv : t.lsv = s.lsv) : s.Keeps t where
  tables := State.tablesLawful_of_ptb hp
  map := State.mapLawful_of_core (by simp [State.mapCore, hr, hp])
  overtaken := State.overtakenBounded_of_parts (by rw [hr])
  digits := State.digitsBounded_of_dgu hd
  port h := hm ▸ h
  isolated := State.isolatedLawful_of_lines (by rw [hl]) hv

/-! The updates. -/

variable (s)

@[simp] theorem State.keeps_hwi (h : Hwi) : s.Keeps { s with hwi := h } :=
  State.keeps_of_same rfl rfl rfl rfl rfl rfl

@[simp] theorem State.keeps_csq (x : Vector (Option CallRec) 24) : s.Keeps { s with csq := x } :=
  State.keeps_of_same rfl rfl rfl rfl rfl rfl

@[simp] theorem State.keeps_setItu (i : Itu) : s.Keeps (s.setItu i) := State.keeps_of_same rfl rfl rfl rfl rfl rfl

@[simp] theorem State.keeps_setTmu (x : Tmu) : s.Keeps (s.setTmu x) := State.keeps_of_same rfl rfl rfl rfl rfl rfl

@[simp] theorem State.keeps_modDown (n : LineId) (f : DownClaims → DownClaims) : s.Keeps (s.modDown n f) :=
  s.keeps_hwi _

@[simp] theorem State.keeps_modUp (n : LineId) (f : UpClaims → UpClaims) : s.Keeps (s.modUp n f) := s.keeps_hwi _

@[simp] theorem State.keeps_setCall (c : CallNo) (r : Option CallRec) : s.Keeps (s.setCall c r) := s.keeps_csq _

@[simp] theorem State.keeps_modCall (c : CallNo) (f : CallRec → CallRec) : s.Keeps (s.modCall c f) := s.keeps_csq _

@[simp] theorem State.keeps_byteTaken (n : LineId) : s.Keeps (s.byteTaken n) := s.keeps_hwi _

/-- The Ring Scheduler's timer, pointers and requests, which no law speaks of. -/
theorem State.keeps_setRsc {r : Rsc} (hp : r.parts = s.rsc.parts) (hl : r.busLoad = s.rsc.busLoad)
    (ho : r.occupancy = s.rsc.occupancy) : s.Keeps (s.setRsc r) where
  tables := State.tablesLawful_of_ptb rfl
  map := State.mapLawful_of_core (by simp [State.mapCore, hp, hl, ho])
  overtaken := State.overtakenBounded_of_parts hp
  digits := id
  port := id
  isolated := State.isolatedLawful_of_lines rfl rfl

@[simp] theorem State.keeps_hand (q : RscRequest) : s.Keeps (s.hand q) := s.keeps_setRsc rfl rfl rfl

/-- A line in THROUGH or REPLAYING, which R185 keeps from isolated service. -/
def LineState.connected (x : LineState) : Prop := x = .through ∨ x = .replaying

theorem State.isolatedLawful_iff :
    s.IsolatedLawful ↔ (s.lkm.state = .isolated → ∀ n, ¬ (s.line n).state.connected) := by
  simp only [State.IsolatedLawful, LineState.connected, not_or]

theorem State.keeps_lsv {v : Vector LineRec 16}
    (h : s.lkm.state = .isolated → ∀ n, (tget v n).state.connected → (s.line n).state.connected) :
    s.Keeps { s with lsv := v } where
  tables := State.tablesLawful_of_ptb rfl
  map := State.mapLawful_of_core rfl
  overtaken := id
  digits := id
  port := id
  isolated hs := (State.isolatedLawful_iff _).2 fun hi n hn => (s.isolatedLawful_iff.1 hs) hi n (h hi n hn)

theorem State.keeps_setLine {n : LineId} {r : LineRec}
    (h : s.lkm.state = .isolated → r.state.connected → (s.line n).state.connected) : s.Keeps (s.setLine n r) := by
  refine s.keeps_lsv fun hi m hm => ?_
  rw [tget_tset] at hm
  split at hm
  next heq => exact heq ▸ h hi hm
  next => exact hm

/-- A line's record changed, its state left as it is. -/
theorem State.keeps_modLine {n : LineId} {f : LineRec → LineRec} (h : (f (s.line n)).state = (s.line n).state) :
    s.Keeps (s.modLine n f) :=
  s.keeps_setLine fun _ hc => h ▸ hc

/-- A line's record changed, its state becoming another than THROUGH and REPLAYING. -/
theorem State.keeps_modLine_leaving {n : LineId} {f : LineRec → LineRec} (h : ¬ (f (s.line n)).state.connected) :
    s.Keeps (s.modLine n f) :=
  s.keeps_setLine fun _ hc => absurd hc h

/-- A line's record changed, where the link is not ISOLATED or the line's state is THROUGH or REPLAYING already. -/
theorem State.keeps_modLine_connected {n : LineId} {f : LineRec → LineRec}
    (h : s.lkm.state = .isolated → (s.line n).state.connected) : s.Keeps (s.modLine n f) :=
  s.keeps_setLine fun hi _ => h hi

theorem State.keeps_dgu {v : Vector DigitRec 16}
    (h : ∀ n, (s.digits n).buffer.length ≤ 12 → (tget v n).buffer.length ≤ 12) : s.Keeps { s with dgu := v } where
  tables := State.tablesLawful_of_ptb rfl
  map := State.mapLawful_of_core rfl
  overtaken := id
  digits hs n := h n (hs n)
  port := id
  isolated := State.isolatedLawful_of_lines rfl rfl

theorem State.keeps_setDigits {n : LineId} {d : DigitRec}
    (h : (s.digits n).buffer.length ≤ 12 → d.buffer.length ≤ 12) : s.Keeps (s.setDigits n d) := by
  refine s.keeps_dgu fun m hm => ?_
  rw [tget_tset]
  split
  next heq => exact h (heq ▸ hm)
  next => exact hm

/-- A digit record changed, its buffer left as it is or cut. -/
theorem State.keeps_modDigits {n : LineId} {f : DigitRec → DigitRec}
    (h : (f (s.digits n)).buffer.length ≤ (s.digits n).buffer.length) : s.Keeps (s.modDigits n f) :=
  s.keeps_setDigits h.trans

/-- The Management Port changed within its bounds, and the meters. -/
theorem State.keeps_mgp {m : Mgp} (x : Tmu) (h : s.mgp.Lawful → m.Lawful) : s.Keeps { s with tmu := x, mgp := m } where
  tables := State.tablesLawful_of_ptb rfl
  map := State.mapLawful_of_core rfl
  overtaken := id
  digits := id
  port := h
  isolated := State.isolatedLawful_of_lines rfl rfl

theorem State.keeps_setMgp {m : Mgp} (h : s.mgp.Lawful → m.Lawful) : s.Keeps (s.setMgp m) := s.keeps_mgp s.tmu h

/-- The Management Port changed, its queues and counters left as they are. -/
theorem State.keeps_setMgp_of_same {m : Mgp} (hu : m.urgent = s.mgp.urgent) (hr : m.routine = s.mgp.routine)
    (hb : m.relayBuffer = s.mgp.relayBuffer) (hn : m.runCount = s.mgp.runCount) (hc : m.counters = s.mgp.counters) :
    s.Keeps (s.setMgp m) := by
  refine s.keeps_setMgp fun h => ?_
  exact ⟨hu ▸ h.urgent, hr ▸ h.routine, hb ▸ h.relay, hn ▸ h.run, hc ▸ h.ePort, hc ▸ h.lPort, hc ▸ h.others⟩

/-! Counters (R164), notices (R171) and pegs (R192). -/

theorem countUp_le (n : Nat) : countUp n ≤ 65535 := by
  unfold countUp
  split <;> omega

theorem PortCounters.bounded.discarded {c : PortCounters} (h : c.bounded) (x : DiscardReason) :
    (c.discarded x).bounded := by
  obtain ⟨hv, hc, hk, hl, ha⟩ := h
  cases x with
  | check => exact ⟨hv, countUp_le _, hk, hl, ha⟩
  | kind => exact ⟨hv, hc, countUp_le _, hl, ha⟩
  | length => exact ⟨hv, hc, hk, countUp_le _, ha⟩
  | abort => exact ⟨hv, hc, hk, hl, countUp_le _⟩

theorem Mgp.Lawful.onPort {m : Mgp} (h : m.Lawful) (p : Port) {f : PortCounters → PortCounters}
    (hf : ∀ c, c.bounded → (f c).bounded) : ({ m with counters := m.counters.onPort p f } : Mgp).Lawful := by
  cases p with
  | e => exact { h with ePort := hf _ h.ePort }
  | l => exact { h with lPort := hf _ h.lPort }

theorem Mgp.Lawful.noticeDropped {m : Mgp} (h : m.Lawful) (n : Notice) : (Machine.noticeDropped m n).Lawful := by
  obtain ⟨ho, hr, hu, hl⟩ := h.others
  unfold Machine.noticeDropped
  split
  next => exact { h with others := ⟨ho, hr, countUp_le _, hl⟩ }
  next => exact { h with others := ⟨ho, hr, hu, countUp_le _⟩ }

theorem Mgp.Lawful.noticeJoined {m : Mgp} (h : m.Lawful) {n : Notice} (hq : ¬ noticeQueueFull m n = true) :
    (Machine.noticeJoined m n).Lawful := by
  unfold noticeQueueFull at hq
  unfold Machine.noticeJoined
  split
  next hn =>
    have hlt : m.urgent.length < 8 := by
      rw [if_pos hn, decide_eq_true_eq] at hq
      exact Nat.lt_of_not_le hq
    exact { h with urgent := by simpa using hlt }
  next hn =>
    have hlt : m.routine.length < 16 := by
      rw [if_neg hn, decide_eq_true_eq] at hq
      exact Nat.lt_of_not_le hq
    exact { h with routine := by simpa using hlt }

theorem lawful_pegChain (fuel : Nat) (e : PegEvent) (line : Option LineId) (x : Tmu × Mgp) (h : x.2.Lawful) :
    (pegChain fuel e line x).2.Lawful := by
  induction fuel generalizing e line x with
  | zero => exact h
  | succ fuel ih =>
    unfold pegChain
    induction meterIds generalizing x with
    | nil => exact h
    | cons i l ihl =>
      rw [List.foldl_cons]
      refine ihl _ ?_
      dsimp only
      split
      next =>
        split
        next =>
          split
          next =>
            refine ih _ _ _ ?_
            dsimp only
            exact h.noticeDropped _
          next hq => exact h.noticeJoined hq
        next => exact h
      next => exact h

theorem lawful_noticeInto (n : Notice) (x : Tmu × Mgp) (h : x.2.Lawful) : (noticeInto n x).2.Lawful := by
  unfold noticeInto
  split
  next => exact lawful_pegChain _ _ _ _ (h.noticeDropped n)
  next hq => exact h.noticeJoined hq

theorem lawful_raiseMeter (i : MeterId) (x : Tmu × Mgp) (h : x.2.Lawful) : (raiseMeter i x).2.Lawful := by
  unfold raiseMeter
  dsimp only
  split
  next => exact lawful_noticeInto _ _ h
  next => exact h

@[simp] theorem State.keeps_peg (e : PegEvent) (line : Option LineId) : s.Keeps (s.peg e line) := by
  rw [State.peg_eq]
  exact s.keeps_mgp _ (lawful_pegChain _ _ _ (s.tmu, s.mgp))

@[simp] theorem State.keeps_notify (n : Notice) : s.Keeps (s.notify n) := by
  rw [State.notify_eq]
  exact s.keeps_mgp _ (lawful_noticeInto n (s.tmu, s.mgp))

@[simp] theorem State.keeps_raise (i : MeterId) : s.Keeps (s.raise i) := by
  unfold State.raise
  exact s.keeps_mgp _ (lawful_raiseMeter i (s.tmu, s.mgp))

/-- The counters changed within their bounds, and MSG_DISCARDED pegged. -/
theorem State.keeps_discard (p : Port) (x : DiscardReason) : s.Keeps (s.discard p x) :=
  (s.keeps_setMgp fun h => h.onPort p fun _ hc => hc.discarded x).trans (State.keeps_peg _ _ _)

end Sys2Proof.Machine

/-! Every operation of the lines, the calls, the digit units and the bridge keeps the laws: each lemma continues a chain
of operations by one more. -/

namespace Sys2Proof.Machine

@[simp] theorem LineRec.withLoop_state (r : LineRec) (l : Loop) : (r.withLoop l).state = r.state := by
  unfold LineRec.withLoop
  split <;> rfl

@[simp] theorem LineState.connected_iff (x : LineState) : x.connected ↔ x = .through ∨ x = .replaying := Iff.rfl

theorem State.linked_iff (s : State) :
    s.linked = true ↔ s.lkm.state = .acquiring ∨ s.lkm.state = .linked ∨ s.lkm.state = .warning := by
  unfold State.linked linkedService
  split <;> simp [*]

theorem State.not_isolated_of_linked {s : State} (h : s.linked = true) : s.lkm.state ≠ .isolated := by
  rcases s.linked_iff.1 h with h | h | h <;> simp [h]

namespace State.Keeps

variable {s t : State} {n : LineId} (h : s.Keeps t)

/-! The updates. -/

include h

theorem setHwi (x : Hwi) : s.Keeps (t.setHwi x) := h.trans (t.keeps_hwi _)
theorem modDown {f : DownClaims → DownClaims} : s.Keeps (t.modDown n f) := h.trans (t.keeps_hwi _)
theorem modUp {f : UpClaims → UpClaims} : s.Keeps (t.modUp n f) := h.trans (t.keeps_hwi _)
theorem byteTaken : s.Keeps (t.byteTaken n) := h.trans (t.keeps_hwi _)
theorem setCall {c : CallNo} {r : Option CallRec} : s.Keeps (t.setCall c r) := h.trans (t.keeps_csq _)
theorem modCall {c : CallNo} {f : CallRec → CallRec} : s.Keeps (t.modCall c f) := h.trans (t.keeps_csq _)
theorem setItu {i : Itu} : s.Keeps (t.setItu i) := h.trans (t.keeps_setItu i)
theorem hand {q : RscRequest} : s.Keeps (t.hand q) := h.trans (t.keeps_hand q)
theorem peg {e : PegEvent} {l : Option LineId} : s.Keeps (t.peg e l) := h.trans (t.keeps_peg e l)
theorem notify {x : Notice} : s.Keeps (t.notify x) := h.trans (t.keeps_notify x)
theorem discard {p : Port} {x : DiscardReason} : s.Keeps (t.discard p x) := h.trans (t.keeps_discard p x)

theorem reported (l : List Report) : s.Keeps (t.reported l) := by
  induction l generalizing t with
  | nil => exact h
  | cons r l ih =>
    cases r with
    | notice x => exact ih h.notify
    | peg e line => exact ih h.peg

theorem modLine {f : LineRec → LineRec} (hf : (f (t.line n)).state = (t.line n).state) : s.Keeps (t.modLine n f) :=
  h.trans (t.keeps_modLine hf)

theorem modDigits {f : DigitRec → DigitRec} (hf : (f (t.digits n)).buffer.length ≤ (t.digits n).buffer.length) :
    s.Keeps (t.modDigits n f) :=
  h.trans (t.keeps_modDigits hf)

/-- The records of one line replaced: the line's state comes to THROUGH or REPLAYING only where it may be there, and
its digit buffer holds no more than it did. -/
theorem withLine {r : LineRec} {d : DigitRec} {c : DownClaims} {u : UpClaims}
    (hr : t.lkm.state = .isolated → r.state.connected → (t.line n).state.connected)
    (hd : d.buffer.length ≤ (t.digits n).buffer.length) : s.Keeps (t.withLine n r d c u) :=
  h.trans (((t.keeps_setLine hr).trans (State.keeps_setDigits _ hd.trans)).trans (State.keeps_hwi _ _))

/-! Line states (R65, R81). -/

theorem discardDigits : s.Keeps (t.discardDigits n) :=
  (h.trans (t.keeps_setDigits fun _ => Nat.zero_le _)).modUp

theorem enterIdle : s.Keeps (t.enterIdle n) := by
  rw [State.enterIdle_eq]
  exact h.withLine (by simp) (Nat.zero_le _)

/-- A line enters THROUGH (R67), where the link is not ISOLATED or the line leaves REPLAYING. -/
theorem enterThrough (hl : t.lkm.state = .isolated → (t.line n).state.connected) : s.Keeps (t.enterThrough n) := by
  rw [State.enterThrough_eq]
  exact h.withLine (fun hi _ => hl hi) (Nat.zero_le _)

theorem enterCall {k : CallKind} : s.Keeps (t.enterCall n k) := by
  rw [State.enterCall_eq]
  exact h.withLine (by simp) (Nat.zero_le _)

theorem enterLockout : s.Keeps (t.enterLockout n) := by
  rw [State.enterLockout_eq]
  exact (h.withLine (by simp) (Nat.zero_le _)).reported _

theorem enterCollecting : s.Keeps (t.enterCollecting n) := by
  rw [State.enterCollecting_eq]
  exact h.withLine (by simp) (Nat.zero_le _)

/-- A line enters REPLAYING (R96), where the link is not ISOLATED. -/
theorem enterReplaying (hl : t.lkm.state ≠ .isolated) : s.Keeps (t.enterReplaying n) := by
  rw [State.enterReplaying_eq]
  exact h.withLine (fun hi => absurd hi hl) le_rfl

theorem enterBlocked : s.Keeps (t.enterBlocked n) := by
  rw [State.enterBlocked_eq]
  exact h.withLine (by simp) (Nat.zero_le _)

/-! Identity tests (chapter 6). -/

theorem beginTest {q : TestRequest} : s.Keeps (t.beginTest q) := h.setItu.modDown

theorem nextTest : s.Keeps t.nextTest := by
  unfold State.nextTest
  split
  next => exact h
  next => exact h.setItu.beginTest

theorem dropTest : s.Keeps (t.dropTest n) := h.setItu.modDown

theorem requestTest {x : Requester} : s.Keeps (t.requestTest n x) := by
  unfold State.requestTest
  split
  next => exact h.beginTest
  next => exact .ite (fun _ => h.setItu) fun _ => .ite (fun _ => h.setItu) fun _ => h.setItu

theorem withdrawTest {c : CallNo} : s.Keeps (t.withdrawTest c n) := by
  unfold State.withdrawTest
  refine .ite (fun _ => ?_) fun _ => h
  dsimp only
  split
  next => exact .ite (fun _ => h.dropTest.peg.nextTest) fun _ => h.setItu
  next => exact .ite (fun _ => h.setItu.peg) fun _ => h.setItu

theorem notifyAborted {rs : List Requester} : s.Keeps (t.notifyAborted n rs) := .ite (fun _ => h.notify) fun _ => h

theorem abortTest : s.Keeps (t.abortTest n) := by
  unfold State.abortTest
  dsimp only
  split
  next => exact h.dropTest.notifyAborted.peg.nextTest
  next => exact .ite (fun _ => h.setItu.notifyAborted.peg) fun _ => h

/-! The end of a call (R141). -/

/-- A line is directed to THROUGH only where the link is not ISOLATED. -/
theorem direct {d : Direction} (hd : d = .through → t.lkm.state ≠ .isolated) : s.Keeps (t.direct n d) := by
  unfold State.direct
  split
  iterate 3 exact h
  cases d with
  | nowhere => exact h
  | idle => exact h.enterIdle
  | through => exact .ite (fun _ => h) fun _ => h.enterThrough fun hi => absurd hi (hd rfl)
  | lockout => exact .ite (fun _ => h) fun _ => h.enterLockout

theorem releaseRing {c : CallNo} : s.Keeps (t.releaseRing c) := by
  unfold State.releaseRing
  split
  next => exact .ite (fun _ => h.hand.modCall) fun _ => h
  next => exact h

theorem pegOpt {e : Option PegEvent} : s.Keeps (t.pegOpt e n) := by
  unfold State.pegOpt
  split
  next => exact h.peg
  next => exact h

theorem endCall {c : CallNo} {x : EndResult} {d : Direction} {e : Option PegEvent} {w : Bool}
    (hd : d = .through → t.lkm.state ≠ .isolated) : s.Keeps (t.endCall c x d e w) := by
  unfold State.endCall
  split
  next => exact h
  next r _ =>
    dsimp only
    have hw : ∃ u : State, u.lkm = t.lkm ∧ s.Keeps u ∧
        (if w = true then (t.releaseRing c).withdrawTest c r.line else t.releaseRing c) = u :=
      ⟨_, by split <;> exact State.lkm_of_fixed (by simp), .ite (fun _ => h.releaseRing.withdrawTest) fun _ =>
        h.releaseRing, rfl⟩
    obtain ⟨u, hl, hu, rfl⟩ := hw
    exact ((hu.modDown.direct fun hx => by simpa [hl] using hd hx).notify.pegOpt).setCall

/-- A call's end that directs its line elsewhere than to THROUGH. -/
theorem endCall' {c : CallNo} {x : EndResult} {d : Direction} {e : Option PegEvent} {w : Bool} (hd : d ≠ .through) :
    s.Keeps (t.endCall c x d e w) :=
  h.endCall fun hx => absurd hx hd

/-- A call's end that directs its line by the link state (R128, R129, R131). -/
theorem endCall_service {u : State} (hu : u.lkm = t.lkm) {c : CallNo} {x : EndResult} {e : Option PegEvent} {w : Bool} :
    s.Keeps (t.endCall c x u.serviceDirection e w) := by
  refine h.endCall fun hx => ?_
  have : u.linked = true := by
    unfold State.serviceDirection at hx
    split at hx
    next hl => exact hl
    next => cases hx
  exact hu ▸ State.not_isolated_of_linked this

/-! Fault and block (R73, R78). -/

theorem endCallOn {x : EndResult} :
    s.Keeps (match t.callOn n with
      | some c => t.endCall c x .nowhere none false
      | none => t) := by
  split
  next => exact h.endCall' (by simp)
  next => exact h

theorem enterFault {reason : FaultReason} : s.Keeps (t.enterFault n reason) := by
  have hline : s.Keeps (t.modLine n fun r => r.faulted reason) := h.trans (t.keeps_modLine_leaving (by simp [LineRec.faulted]))
  exact hline.modDown.modUp.endCallOn.discardDigits.abortTest.notify.peg

theorem blockLine : s.Keeps (t.blockLine n) :=
  .ite (fun _ => h) fun _ => h.endCallOn.discardDigits.abortTest.enterBlocked

end State.Keeps
end Sys2Proof.Machine

namespace Sys2Proof.Machine

namespace State.Keeps

variable {s t : State} {n : LineId} (h : s.Keeps t)

include h

/-! The Call Sequencer (chapter 7). -/

theorem callClaim {x : DownCode} : s.Keeps (t.callClaim n x) := h.modDown

theorem enterIdentifyCaller {c : CallNo} : s.Keeps (t.enterIdentifyCaller c n) := h.modCall.callClaim.requestTest

theorem enterHangupWait {c : CallNo} : s.Keeps (t.enterHangupWait c n) := h.modCall.callClaim

theorem requestRevertRinging {c : CallNo} {sp : Spec} {limit completed : Nat} :
    s.Keeps (t.requestRevertRinging c n sp limit completed) := h.modCall.hand

theorem enterRevertRinging {c : CallNo} {limit completed : Nat} : s.Keeps (t.enterRevertRinging c limit completed) := by
  unfold State.enterRevertRinging
  split
  next => exact h
  next =>
    dsimp only
    split
    next => exact h.modCall.callClaim.requestRevertRinging
    next => exact h.modCall.callClaim

theorem ringRevertAnew {c : CallNo} : s.Keeps (t.ringRevertAnew c) := h.enterRevertRinging

theorem resumeRevertRinging {c : CallNo} {r : CallRec} : s.Keeps (t.resumeRevertRinging c r) :=
  .ite (fun _ => h.endCall' (by simp)) fun _ => h.enterRevertRinging

theorem enterTalk {c : CallNo} {r : CallRec} {a : Answered} : s.Keeps (t.enterTalk c r a) :=
  h.modCall.callClaim.notify.peg

theorem revertMatch {p : PartyId} : s.Keeps (t.revertMatch n p) := by
  unfold State.revertMatch
  split
  next => exact h.setCall.enterCall.notify.peg.enterIdentifyCaller
  next => exact h.notify.enterLockout

theorem answerRing {c : CallNo} {r : CallRec} : s.Keeps (t.answerRing c r) := by
  unfold State.answerRing
  dsimp only
  refine .ite (fun _ => ?_) fun _ => h.releaseRing.endCall_service rfl
  refine .ite (fun hl => ?_) fun _ => h.releaseRing.modCall.requestTest.notify
  exact h.releaseRing.modCall.requestTest.notify.enterThrough fun hi => absurd hi (State.not_isolated_of_linked hl)

theorem answerRevert {c : CallNo} {r : CallRec} : s.Keeps (t.answerRevert c r) :=
  h.releaseRing.modCall.callClaim.requestTest

theorem csqTrip {c : CallNo} : s.Keeps (t.csqTrip c n) := by
  unfold State.csqTrip
  split
  next => exact h
  next =>
    split
    next => exact h.answerRing
    next => exact h.answerRevert
    all_goals exact h

theorem csqSeizure {c : CallNo} : s.Keeps (t.csqSeizure c n) := by
  unfold State.csqSeizure
  split
  next => exact h
  next =>
    split
    next => exact h.endCall_service rfl
    next => exact h.answerRing
    next => exact h.answerRevert
    all_goals exact h

theorem csqOnHook {c : CallNo} : s.Keeps (t.csqOnHook c n) := by
  unfold State.csqOnHook
  split
  next => exact h
  next =>
    split
    next => exact h.modCall.endCall' (by simp)
    next => exact h.ringRevertAnew
    next => exact h.ringRevertAnew
    next => exact h.resumeRevertRinging
    next => exact h.endCall' (by simp)
    all_goals exact h

theorem callerIdentified {c : CallNo} {r : CallRec} {x : TestResult} : s.Keeps (t.callerIdentified c r x) := by
  cases x with
  | party p k => exact .ite (fun _ => h.endCall' (by simp)) fun _ => h.modCall.enterHangupWait
  | unidentified k => exact h.enterHangupWait
  | timeout => exact h.enterHangupWait

theorem reRevert {c : CallNo} {r : CallRec} : s.Keeps (t.reRevert c r) := h.modCall.peg.enterHangupWait

theorem answerTested {c : CallNo} {r : CallRec} {x : TestResult} : s.Keeps (t.answerTested c r x) := by
  cases x with
  | party p k => exact .ite (fun _ => h.reRevert) fun _ => h.enterTalk
  | unidentified k => exact h.enterTalk
  | timeout => exact h.enterTalk

theorem csqResult {c : CallNo} {x : TestResult} : s.Keeps (t.csqResult c n x) := by
  unfold State.csqResult
  split
  next => exact h
  next =>
    split
    next => exact h.modCall.endCall_service (by simp)
    next => exact h.callerIdentified
    next => exact h.answerTested
    all_goals exact h

theorem csqFirstRing {c : CallNo} : s.Keeps (t.csqFirstRing c n) := by
  unfold State.csqFirstRing
  split
  next => exact .ite (fun _ => h.modCall) fun _ => h
  next => exact h

theorem stageAlternation {c : CallNo} {sp : Spec} : s.Keeps (t.stageAlternation c n sp) := by
  unfold State.stageAlternation
  split
  next =>
    refine .ite (fun _ => ?_) fun _ => h
    split
    next => exact h.hand
    next => exact h
  next => exact h

theorem csqBoundary {c : CallNo} {x : BoundaryReport} {sp : Spec} : s.Keeps (t.csqBoundary c n x sp) := by
  unfold State.csqBoundary
  split
  next => exact .ite (fun _ => h.modCall.stageAlternation) fun _ => h
  next => exact h

theorem csqExhausted {c : CallNo} {k : Nat} : s.Keeps (t.csqExhausted c n k) := by
  unfold State.csqExhausted
  split
  next => exact .ite (fun _ => h.modCall.endCall' (by simp)) fun _ => h.modCall
  next => exact h

theorem csqPlaceRefused {c : CallNo} : s.Keeps (t.csqPlaceRefused c n) := by
  unfold State.csqPlaceRefused
  split
  next => exact .ite (fun _ => h.endCall' (by simp)) fun _ => h
  next => exact h

theorem csqRingLimit {c : CallNo} {l : Option Nat} : s.Keeps (t.csqRingLimit c n l) := by
  unfold State.csqRingLimit
  split
  next => exact h.modCall
  next => exact h

/-! The test in progress (R111 to R116). -/

theorem deliver {x : TestResult} {q : Requester} : s.Keeps (t.deliver n x q) := by
  cases q with
  | exchange => exact h.notify
  | call c => exact h.csqResult

theorem pegResult {x : TestResult} : s.Keeps (t.pegResult n x) := by
  cases x with
  | party p k => exact h.peg
  | unidentified k => exact h.peg.peg
  | timeout => exact h.peg

theorem endTest {x : Test} {res : TestResult} : s.Keeps (t.endTest x res) :=
  ((h.dropTest.trans (.foldl (fun _ _ => State.Keeps.refl.deliver) _ _)).pegResult).nextTest

theorem testByte {b : Byte} {good : Bool} : s.Keeps (t.testByte n b good) := by
  unfold State.testByte
  split
  next => exact h
  next =>
    exact .ite (fun _ => h) fun _ => .ite (fun _ => h.endTest) fun _ => .ite (fun _ => h.endTest) fun _ => h.setItu

theorem deliverAborted {x : Requester} : s.Keeps (t.deliverAborted n x) := by
  cases x with
  | exchange => exact h.notify
  | call c => exact h.csqOnHook

theorem dropRequest : s.Keeps (t.dropRequest n) := by
  unfold State.dropRequest
  split
  next => exact h.dropTest
  next => exact h.setItu

theorem abortAtOnHook : s.Keeps (t.abortAtOnHook n) := by
  have hab : s.Keeps (((t.requestersOn n).foldl (fun s x => s.deliverAborted n x) (t.dropRequest n)).peg .testAborted
      (some n)) := (h.dropRequest.trans (.foldl (fun _ _ => State.Keeps.refl.deliverAborted) _ _)).peg
  exact .ite (fun _ => hab.nextTest) fun _ => .ite (fun _ => hab) fun _ => h

/-! The Digit Unit (chapter 5). -/

theorem setReplay {l : Loop} : s.Keeps (t.setReplay n l) := h.modUp

theorem generatorTakes : s.Keeps (t.generatorTakes n) := by
  unfold State.generatorTakes
  split
  next hb => exact (h.modDigits (by simp [hb])).setReplay
  next => exact (h.modDigits (by rfl)).setReplay

/-- A replay ends on a line that is in REPLAYING. -/
theorem endReplayIfDone : s.Keeps (t.endReplayIfDone n) :=
  .ite (fun hd => h.enterThrough fun _ => .inr hd.1) fun _ => h

theorem endBreak : s.Keeps (t.endBreak n) := by
  unfold State.endBreak
  split
  next => exact h
  next =>
    have hs := fun x => (h.modDigits (n := n) (f := fun r => { r with sending := some x }) (by rfl)).setReplay (n := n) (l := .closed)
    exact .ite (fun _ => ((hs _).modDigits (by rfl)).peg) fun _ => (hs _).modDigits (by rfl)

theorem generatorExpiry : s.Keeps (t.generatorExpiry n) := by
  unfold State.generatorExpiry
  split
  next => exact h.generatorTakes.endReplayIfDone
  next => exact h.endBreak
  next => exact (h.modDigits (by rfl)).setReplay
  next => exact h.generatorTakes.endReplayIfDone
  all_goals exact h

theorem mismatch : s.Keeps (t.mismatch n) :=
  .ite (fun hl => h.enterReplaying (State.not_isolated_of_linked hl)) fun _ => h.enterLockout

theorem matchDigit : s.Keeps (t.matchDigit n) := by
  unfold State.matchDigit
  split
  next => exact h.revertMatch
  next => exact h.modDigits (by rfl)
  next => exact h.mismatch

/-- A digit joins the buffer only while it holds fewer than 12 (R90). -/
theorem digitJoins {d : Nat} : s.Keeps (t.digitJoins n d) := by
  unfold State.digitJoins
  dsimp only
  refine .ite (fun _ => h.enterLockout) fun hlt => ?_
  have hj : s.Keeps (t.modDigits n fun r => { r with buffer := r.buffer ++ [d] }) := by
    refine h.trans (t.keeps_setDigits fun _ => ?_)
    have hlt : ¬ 12 ≤ (t.digits n).buffer.length := hlt
    simp only [List.length_append, List.length_singleton]
    omega
  exact .ite (fun _ => hj.matchDigit) fun _ => .ite (fun _ => hj.generatorTakes) fun _ => hj

theorem restartCollection : s.Keeps (t.restartCollection n) := (h.modDigits (Nat.zero_le _)).modDown

theorem takeReceived {x : Received} : s.Keeps (t.takeReceived n x) := by
  cases x with
  | firstBreak => exact h.modDigits (f := fun d => { d with collection := none }) (by rfl)
  | invalid => exact .ite (fun _ => h.restartCollection) fun _ => h
  | digit d => exact h.digitJoins
  | nothing => exact h
  | pulse => exact h
  | discardEnd => exact h

end State.Keeps

/-- The receiver leaves the digits that the buffer holds (R85). -/
theorem DigitRec.receive_buffer (d : DigitRec) (l : Loop) : (d.receive l).1.buffer = d.buffer := by
  unfold DigitRec.receive DigitRec.judgeBreak DigitRec.judgeMake DigitRec.discarding
  repeat' split
  all_goals rfl

namespace State.Keeps

variable {s t : State} {n : LineId} (h : s.Keeps t)

include h

theorem receiveLoop {l : Loop} : s.Keeps (t.receiveLoop n l) :=
  (h.trans (t.keeps_setDigits fun hb => by rwa [DigitRec.receive_buffer])).takeReceived

theorem collectByte {l : Loop} : s.Keeps (t.collectByte n l) := by
  have hd : s.Keeps (t.removeDialTone n l) := .ite (fun _ => h.modDown) fun _ => h
  exact hd.receiveLoop

theorem replayByteEvent {l : Loop} : s.Keeps (t.replayByteEvent n l) := by
  have hr := (h.modDigits (n := n) (f := fun d => { d with quiet := quietAfter d.quiet l }) (by rfl)).receiveLoop (n := n) (l := l)
  refine .ite (fun _ => ?_) fun _ => hr
  exact (State.Keeps.ite (fun _ => hr.generatorTakes) fun _ => hr).endReplayIfDone

theorem digitByte {x : LineState} {l : Loop} : s.Keeps (t.digitByte n x l) := by
  unfold State.digitByte
  split
  next => exact h.collectByte
  next => exact h.replayByteEvent
  all_goals exact h

theorem collectionExpiry : s.Keeps (t.collectionExpiry n) := .ite (fun _ => h.mismatch) fun _ => h

/-! The Line Supervisor (chapter 4). -/

/-- A seizure takes a line to THROUGH or REPLAYING only where the link is not ISOLATED (R67). -/
theorem seizureQualified : s.Keeps (t.seizureQualified n) := by
  unfold State.seizureQualified
  have hlinked (hl : t.lkm.state ≠ .isolated) : s.Keeps (match (t.attr n).handling with
      | .exchange => t.enterThrough n
      | .isLocal => if t.hasCodes n then t.enterCollecting n else t.enterReplaying n) := by
    split
    next => exact h.enterThrough fun hi => absurd hi hl
    next => exact .ite (fun _ => h.enterCollecting) fun _ => h.enterReplaying hl
  split
  next hl => exact hlinked (by simp [hl])
  next hl => exact hlinked (by simp [hl])
  next hl => exact hlinked (by simp [hl])
  next => exact .ite (fun _ => h.enterCollecting) fun _ => h.enterLockout
  next hl => exact h.enterThrough fun hi => by simp [hl] at hi

theorem callSeized : s.Keeps (t.callSeized n) := by
  have hm : s.Keeps (t.modLine n fun r => r.withLoop .closed) := h.modLine (by simp)
  unfold State.callSeized
  dsimp only
  split
  next => exact hm.csqSeizure
  next => exact hm

theorem onHookQualified : s.Keeps (t.onHookQualified n) := by
  have hm : s.Keeps (t.modLine n fun r => r.withLoop .opened) := h.modLine (by simp)
  have hi : s.Keeps (if (t.line n).state = .call then t.modLine n fun r => r.withLoop .opened
      else (t.modLine n fun r => r.withLoop .opened).enterIdle n) := .ite (fun _ => hm) fun _ => hm.enterIdle
  unfold State.onHookQualified
  dsimp only
  split
  next => exact hi.abortAtOnHook.csqOnHook
  next => exact hi.abortAtOnHook

theorem faultRecovered {l : Loop} : s.Keeps (t.faultRecovered n l) := by
  have hm := (h.modLine (n := n) (f := fun r => { r with clearCount := 0, blockRecorded := false }) rfl)
  exact .ite (fun _ => hm.notify.enterBlocked) fun _ => .ite (fun _ => hm.notify.enterIdle) fun _ =>
    hm.notify.enterLockout

end State.Keeps
end Sys2Proof.Machine

/-! Every operation on the ring parts keeps the laws: the laws beside the map by the updates it is made of, the map by
the lemmas of Laws/Map, and the overtaken counts by the test that comes before each placement (R26). -/

namespace Sys2Proof.Machine

/-! The laws beside the ring parts. -/

namespace State.KeepsBeside

variable {s t u : State} {n : LineId} (h : s.KeepsBeside t)

theorem refl : s.KeepsBeside s := Keeps.refl.toKeepsBeside

include h

theorem next (h' : t.Keeps u) : s.KeepsBeside u := h.trans h'.toKeepsBeside

/-- The Ring Scheduler changed in any way. -/
theorem rsc (r : Rsc) : s.KeepsBeside { t with rsc := r } :=
  h.trans ⟨State.tablesLawful_of_ptb rfl, id, id, State.isolatedLawful_of_lines rfl rfl⟩

theorem peg {e : PegEvent} {l : Option LineId} : s.KeepsBeside (t.peg e l) := h.next (t.keeps_peg e l)

theorem putAt {c : CallNo} {sp : Spec} {g : GroupId} {k : Slot} {x : Bool} : s.KeepsBeside (t.putAt c sp g k x) :=
  h.rsc _

theorem placeBySearch {c : CallNo} {sp : Spec} {g : GroupId} {k : Slot} :
    s.KeepsBeside (t.placeBySearch c n sp g k) :=
  (h.putAt.rsc _).peg

theorem judgeQueued {c : CallNo} : s.KeepsBeside (t.judgeQueued c) := by
  unfold State.judgeQueued
  split
  next => exact h
  next =>
    split
    next =>
      split
      next => exact h.placeBySearch
      next => exact h
    next => exact h

theorem pass : s.KeepsBeside t.pass := by
  rw [State.pass_eq_scan]
  unfold State.scan
  induction t.waitingCalls generalizing t with
  | nil => exact h
  | cons c l ih => exact ih h.judgeQueued

theorem joinQueue {c : CallNo} : s.KeepsBeside (t.joinQueue c n) := (h.rsc _).peg

theorem stopRinging : s.KeepsBeside (t.stopRinging n) :=
  h.next (Keeps.refl.modDown.modLine rfl)

theorem removePart {p : RingPart} : s.KeepsBeside (t.removePart p) := by
  unfold State.removePart
  dsimp only
  split
  next =>
    split
    next => exact (h.rsc _).rsc _
    next => exact (h.rsc _).stopRinging.rsc _
  next => exact h.rsc _

theorem createPart {c : CallNo} {sp : Spec} {l d : Nat} : s.KeepsBeside (t.createPart c n sp l d) := by
  unfold State.createPart
  dsimp only
  split
  next =>
    rw [State.reportPlacement_eq]
    exact (h.rsc _).placeBySearch
  next => exact (h.rsc _).joinQueue.pass

theorem amendPending {p : RingPart} {k : Slot} {cad : CadenceId} : s.KeepsBeside (t.amendPending p k cad) := by
  unfold State.amendPending
  simp only [State.passAfter_eq]
  split
  next => exact ((h.rsc _).rsc _).putAt.peg.pass
  next =>
    split
    next => exact ((h.rsc _).rsc _).placeBySearch.pass
    next => exact ((h.rsc _).rsc _).joinQueue.pass

theorem amendPart {c : CallNo} {cad : Option CadenceId} {l : Option Nat} : s.KeepsBeside (t.amendPart c cad l) := by
  unfold State.amendPart
  split
  next => exact h
  next =>
    split
    next =>
      dsimp only
      split
      next => exact (h.rsc _).amendPending
      next => exact h.rsc _
    next =>
      dsimp only
      split
      next => exact ((h.rsc _).rsc _).pass
      next => exact h.rsc _
    next => exact h.rsc _

theorem applySpec {p : RingPart} {k : Slot} {sp : Spec} : s.KeepsBeside (t.applySpec p k sp).1 := by
  unfold State.applySpec
  simp only [State.passAfter_eq]
  split
  next => exact (((h.rsc _).rsc _).putAt.next Keeps.refl.modDown).pass
  next =>
    split
    next => exact ((h.rsc _).rsc _).stopRinging.placeBySearch.pass
    next => exact ((h.rsc _).rsc _).stopRinging.joinQueue.pass

end State.KeepsBeside

/-! The overtaken counts (R26, R33). -/

/-- The part is overtaken at most 8 times. -/
def RingPart.countBounded (p : RingPart) : Prop := ∀ k, p.status = .queued k → k ≤ 8

theorem RingPart.countBounded_placed {p : RingPart} {k : Slot} {x : Bool} (h : p.status = .placed k x) :
    p.countBounded := by
  intro m hm
  simp [h] at hm

/-- A part that does not block its bus is overtaken once more within the bound. -/
theorem RingPart.countBounded_overtakenOn {p : RingPart} {b : BusId} (h : p.countBounded)
    (hb : p.spec.bus = b → p.status ≠ .queued 8) : (p.overtakenOn b).countBounded := by
  unfold RingPart.overtakenOn
  split
  next m hm =>
    split
    next hbus =>
      intro k hk
      have h8 : m ≠ 8 := fun h8 => hb hbus (h8 ▸ hm)
      have hle := h m hm
      have hkm : m + 1 = k := by simpa using hk
      omega
    next => exact h
  next => exact h

theorem countBounded_overtaken {b : BusId} {c : CallNo} {l : List RingPart} (h : ∀ p ∈ l, p.countBounded)
    (hb : noneBlocks (olderThan l c) b) : ∀ p ∈ overtaken b c l, p.countBounded := by
  induction l with
  | nil => exact h
  | cons q l ih =>
    rw [List.forall_mem_cons] at h
    unfold overtaken
    split
    next hc => simpa using h
    next hc =>
      have hold : olderThan (q :: l) c = q :: olderThan l c := by simp [olderThan, hc]
      rw [hold] at hb
      obtain ⟨hq, hl⟩ := List.forall_mem_cons.1 hb
      exact List.forall_mem_cons.2 ⟨RingPart.countBounded_overtakenOn h.1 hq, ih h.2 hl⟩

theorem olderThan_modPart (l : List RingPart) (c : CallNo) {f : RingPart → RingPart} (hf : ∀ p, (f p).call = p.call) :
    olderThan (l.map fun p => if p.call = c then f p else p) c = olderThan l c := by
  induction l with
  | nil => rfl
  | cons q l ih =>
    unfold olderThan at ih ⊢
    by_cases hq : q.call = c
    · simp [hq, hf]
    · simpa [hq] using ih

namespace State

variable {s : State} (h : s.overtakenBounded)

include h

theorem overtakenBounded_modPart {c : CallNo} {f : RingPart → RingPart}
    (hf : ∀ p : RingPart, p.countBounded → (f p).countBounded) : (s.modPart c f).overtakenBounded := by
  intro p hp
  simp only [State.modPart_parts, List.mem_map] at hp
  obtain ⟨q, hq, rfl⟩ := hp
  split
  next => exact hf q (h q hq)
  next => exact h q hq

theorem overtakenBounded_putAt {c : CallNo} {sp : Spec} {g : GroupId} {k : Slot} {x : Bool}
    (he : s.eligible c sp.bus = true) : (s.putAt c sp g k x).overtakenBounded := by
  have hplaced : ((s.mapAdd sp g k).modPart c fun p => { p with status := .placed k x }).overtakenBounded :=
    State.overtakenBounded_modPart (s := s.mapAdd sp g k) h fun p _ => RingPart.countBounded_placed rfl
  refine countBounded_overtaken hplaced ?_
  have hold := olderThan_modPart s.rsc.parts c (f := fun p => { p with status := .placed k x }) fun _ => rfl
  exact hold ▸ State.eligible_iff.1 he

theorem overtakenBounded_placeBySearch {c : CallNo} {n : LineId} {sp : Spec} {g : GroupId} {k : Slot}
    (he : s.offsetFor c sp g = some k) : (s.placeBySearch c n sp g k).overtakenBounded := by
  have hel : s.eligible c sp.bus = true := by
    unfold State.offsetFor at he
    split at he
    next hel => exact hel
    next => cases he
  refine State.overtakenBounded_of_parts ?_ (State.overtakenBounded_putAt h hel (g := g) (k := k) (x := true))
  rw [State.placeBySearch, State.peg_rsc, State.setRsc_rsc]

theorem overtakenBounded_judgeQueued (c : CallNo) : (s.judgeQueued c).overtakenBounded := by
  unfold State.judgeQueued
  split
  next => exact h
  next =>
    split
    next =>
      split
      next hk => exact State.overtakenBounded_placeBySearch h hk
      next => exact h
    next => exact h

theorem overtakenBounded_pass : s.pass.overtakenBounded := by
  rw [State.pass_eq_scan]
  unfold State.scan
  induction s.waitingCalls generalizing s with
  | nil => exact h
  | cons c l ih => exact ih (State.overtakenBounded_judgeQueued h c)

theorem overtakenBounded_joinQueue (c : CallNo) (n : LineId) : (s.joinQueue c n).overtakenBounded := by
  refine State.overtakenBounded_of_parts (by rw [State.joinQueue, State.peg_rsc])
    (State.overtakenBounded_modPart (c := c) (f := fun p => { p with status := .queued 0 }) h ?_)
  rintro p - k hk
  cases hk
  exact Nat.zero_le 8

theorem overtakenBounded_removePart (p : RingPart) : (s.removePart p).overtakenBounded := by
  intro q hq
  unfold State.removePart at hq
  have hmem : q ∈ s.rsc.parts := by
    dsimp only at hq
    split at hq
    next =>
      split at hq
      next => exact (List.mem_filter.1 hq).1
      next => exact (List.mem_filter.1 hq).1
    next => exact (List.mem_filter.1 hq).1
  exact h q hmem

theorem overtakenBounded_createPart (c : CallNo) (n : LineId) (sp : Spec) (l d : Nat) :
    (s.createPart c n sp l d).overtakenBounded := by
  have hnew : (s.setRsc { s.rsc with
      parts := s.rsc.parts ++ [newPart c n (s.attr n).group sp l d] }).overtakenBounded := by
    intro p hp
    rcases List.mem_append.1 hp with hp | hp
    · exact h p hp
    · rw [List.mem_singleton.1 hp]
      rintro k hk
      cases hk
      exact Nat.zero_le 8
  unfold State.createPart
  dsimp only
  split
  next hk =>
    rw [State.reportPlacement_eq]
    exact State.overtakenBounded_placeBySearch hnew hk
  next => exact State.overtakenBounded_pass (State.overtakenBounded_joinQueue hnew c n)

/-- A part put out of the map is placed anew where it is eligible, or joins the queue (R36, R51, R52). -/
theorem overtakenBounded_placedAnew {c : CallNo} {n : LineId} {sp : Spec} {g : GroupId} :
    (match s.offsetFor c sp g with
      | some k => (s.placeBySearch c n sp g k).pass
      | none => (s.joinQueue c n).pass).overtakenBounded := by
  split
  next hk => exact State.overtakenBounded_pass (State.overtakenBounded_placeBySearch h hk)
  next => exact State.overtakenBounded_pass (State.overtakenBounded_joinQueue h c n)

theorem overtakenBounded_amendPending (p : RingPart) (k : Slot) (cad : CadenceId) :
    (s.amendPending p k cad).overtakenBounded := by
  unfold State.amendPending
  simp only [State.passAfter_eq]
  have hout : ((s.mapRemove p.spec p.group k).modPart p.call fun q =>
      { q with spec := p.spec.withCadence cad }).overtakenBounded :=
    State.overtakenBounded_modPart (s := s.mapRemove p.spec p.group k) h fun _ hq => hq
  split
  next he =>
    have hput := State.overtakenBounded_putAt hout (g := p.group) (k := k) (x := true) (Bool.and_eq_true _ _ ▸ he).1
    exact State.overtakenBounded_pass (State.overtakenBounded_of_parts (by rw [State.peg_rsc]) hput)
  next => exact State.overtakenBounded_placedAnew hout

theorem overtakenBounded_amendPart (c : CallNo) (cad : Option CadenceId) (l : Option Nat) :
    (s.amendPart c cad l).overtakenBounded := by
  have hlimit : (s.modPart c fun p => p.withLimit l).overtakenBounded := State.overtakenBounded_modPart h fun _ hq => hq
  unfold State.amendPart
  split
  next => exact h
  next =>
    split
    next =>
      dsimp only
      split
      next => exact State.overtakenBounded_amendPending hlimit _ _ _
      next => exact hlimit
    next =>
      dsimp only
      split
      next => exact State.overtakenBounded_pass (State.overtakenBounded_modPart hlimit fun _ hq => hq)
      next => exact hlimit
    next => exact State.overtakenBounded_modPart h fun _ hq => hq

theorem overtakenBounded_applySpec (p : RingPart) (k : Slot) (sp : Spec) :
    (s.applySpec p k sp).1.overtakenBounded := by
  have hout : ((s.mapRemove p.spec p.group k).modPart p.call fun q =>
      { q with spec := sp, staged := none }).overtakenBounded :=
    State.overtakenBounded_modPart (s := s.mapRemove p.spec p.group k) h fun _ hq => hq
  unfold State.applySpec
  simp only [State.passAfter_eq]
  split
  next he =>
    have hput := State.overtakenBounded_putAt hout (g := p.group) (k := k) (x := false) (Bool.and_eq_true _ _ ▸ he).1
    exact State.overtakenBounded_pass (State.overtakenBounded_of_parts rfl hput)
  next =>
    have hstop : (((s.mapRemove p.spec p.group k).modPart p.call fun q =>
        { q with spec := sp, staged := none }).stopRinging p.line).overtakenBounded := hout
    have := State.overtakenBounded_placedAnew hstop (c := p.call) (n := p.line) (sp := sp) (g := p.group)
    split <;> simp_all only

end State
end Sys2Proof.Machine

/-! The Ring Scheduler's requests and its slot expiry keep the laws. -/

namespace Sys2Proof.Machine

/-! The part of a call, in a state in which an event is under way. -/

/-- The part of `p`'s call is placed or queued as `p` is, with its spec and its group. -/
def State.holds (s : State) (p : RingPart) : Prop :=
  ∃ q, s.part p.call = some q ∧ q.status = p.status ∧ q.spec = p.spec ∧ q.group = p.group

theorem State.call_of_part {s : State} {c : CallNo} {p : RingPart} (h : s.part c = some p) : p.call = c := by
  simpa using List.find?_some h

theorem State.holds_of_part {s : State} {c : CallNo} {p : RingPart} (h : s.part c = some p) : s.holds p :=
  ⟨p, State.call_of_part h ▸ h, rfl, rfl, rfl⟩

theorem State.part_modPart (s : State) (c k : CallNo) {f : RingPart → RingPart} (hf : ∀ p, (f p).call = p.call) :
    (s.modPart c f).part k = (s.part k).map fun p => if p.call = c then f p else p := by
  have hcall : ∀ p : RingPart, (if p.call = c then f p else p).call = p.call := fun p => by split <;> simp [hf]
  simp only [State.part, State.modPart_parts, List.find?_map, Function.comp_def, hcall]

theorem State.part_modPart_ne (s : State) {c k : CallNo} (h : k ≠ c) {f : RingPart → RingPart}
    (hf : ∀ p, (f p).call = p.call) : (s.modPart c f).part k = s.part k := by
  rw [s.part_modPart c k hf]
  cases hp : s.part k with
  | none => rfl
  | some p => simp [State.call_of_part hp, h]

namespace State.holds

variable {s t : State} {p q : RingPart} (h : s.holds p)

include h

theorem of_parts (hp : t.rsc.parts = s.rsc.parts) : t.holds p := by
  unfold State.holds State.part
  exact hp ▸ h

theorem congr (hc : q.call = p.call) (hs : q.status = p.status) (hsp : q.spec = p.spec) (hg : q.group = p.group) :
    s.holds q := by
  unfold State.holds
  rw [hc, hs, hsp, hg]
  exact h

theorem modPart (c : CallNo) {f : RingPart → RingPart} (hc : ∀ q, (f q).call = q.call)
    (hs : ∀ q, (f q).status = q.status) (hsp : ∀ q, (f q).spec = q.spec) (hg : ∀ q, (f q).group = q.group) :
    (s.modPart c f).holds p := by
  obtain ⟨q, hq, h1, h2, h3⟩ := h
  refine ⟨if q.call = c then f q else q, by rw [s.part_modPart _ _ hc, hq]; rfl, ?_⟩
  split
  next => exact ⟨(hs q).trans h1, (hsp q).trans h2, (hg q).trans h3⟩
  next => exact ⟨h1, h2, h3⟩

theorem mapLawful_removePart (hm : s.MapLawful) : (s.removePart p).MapLawful := by
  obtain ⟨q, hq, h1, h2, h3⟩ := h
  exact State.mapLawful_removePart hm hq p ⟨(State.call_of_part hq).symm, h1.symm, h2.symm, h3.symm⟩

end State.holds

namespace State.Keeps

variable {s t : State} {n : LineId} (h : s.Keeps t)

include h

theorem pass : s.Keeps t.pass :=
  h.trans ⟨KeepsBeside.refl.pass, State.mapLawful_pass, State.overtakenBounded_pass⟩

/-- A part changed in what the laws do not speak of. -/
theorem modPart {c : CallNo} {f : RingPart → RingPart} (hv : ∀ p, t.part c = some p → (f p).mapView = p.mapView)
    (hb : ∀ p : RingPart, p.countBounded → (f p).countBounded) : s.Keeps (t.modPart c f) :=
  h.trans ⟨KeepsBeside.refl.rsc _, fun hm => State.mapLawful_modPart hm c f hv, fun ho => State.overtakenBounded_modPart ho hb⟩

theorem removePart {p : RingPart} (hp : t.holds p) : s.Keeps (t.removePart p) :=
  h.trans ⟨KeepsBeside.refl.removePart, hp.mapLawful_removePart, fun ho => State.overtakenBounded_removePart ho p⟩

theorem setRingClaim {sp : Spec} {k : Slot} : s.Keeps (t.setRingClaim n sp k) := h.modDown

/-! Requests taken by the Ring Scheduler (R29, R36, R38, R50). -/

theorem releasePart {c : CallNo} : s.Keeps (t.releasePart c) := by
  unfold State.releasePart
  split
  next hp => exact (h.removePart (State.holds_of_part hp)).pass
  next => exact h

theorem takePlace {c : CallNo} {sp : Spec} {l d : Nat} : s.Keeps (t.takePlace c n sp l d) := by
  unfold State.takePlace
  split
  next => exact h
  next hp =>
    refine .ite (fun _ => h.peg.csqPlaceRefused) fun _ => ?_
    have hc : t.Keeps (t.createPart c n sp l d) :=
      ⟨KeepsBeside.refl.createPart, fun hm => State.mapLawful_create hm c n sp l d hp,
        fun ho => State.overtakenBounded_createPart ho c n sp l d⟩
    exact (h.trans hc).stageAlternation

theorem stagePart {c : CallNo} {sp : Spec} : s.Keeps (t.stagePart c sp) := by
  unfold State.stagePart
  split
  next => exact h
  next => exact .ite (fun _ => h.peg) fun _ => h.modPart (fun _ _ => rfl) fun _ hb => hb

theorem amendPart {c : CallNo} {cad : Option CadenceId} {l : Option Nat} : s.Keeps (t.amendPart c cad l) :=
  h.trans ⟨KeepsBeside.refl.amendPart, fun hm => State.mapLawful_amendPart hm c cad l,
    fun ho => State.overtakenBounded_amendPart ho c cad l⟩

theorem takeRequest {q : RscRequest} : s.Keeps (t.takeRequest q) := by
  cases q with
  | place c n sp l d => exact h.takePlace
  | stage c sp => exact h.stagePart
  | amend c cad l => exact h.amendPart
  | release c => exact h.releasePart

theorem takeNext : s.Keeps t.takeNext := by
  unfold State.takeNext
  split
  next => exact h
  next q rest _ =>
    have hleft : t.Keeps (t.setRsc { t.rsc with requests := rest }) := t.keeps_setRsc rfl rfl rfl
    exact (h.trans hleft).takeRequest

theorem drain : s.Keeps t.drain := by
  unfold State.drain
  induction 2 * t.rsc.requests.length generalizing t with
  | zero => exact h
  | succ k ih => exact .ite (fun _ => h) fun _ => ih h.takeNext

/-! The slot expiry (R45 to R52). -/

theorem exhaustPart {p : RingPart} (hp : t.holds p) : s.Keeps (t.exhaustPart p) :=
  (h.removePart hp).pass.csqExhausted

theorem reportBoundary {p : RingPart} {o : BoundaryOutcome} : s.Keeps (t.reportBoundary p o) := by
  unfold State.reportBoundary
  split
  next => exact h.csqBoundary
  next => exact h

theorem applySpec {p : RingPart} {k : Slot} {x : Bool} {sp : Spec} (hp : t.holds p) (hs : p.status = .placed k x) :
    s.Keeps (t.applySpec p k sp).1 := by
  refine h.trans ⟨KeepsBeside.refl.applySpec, fun hm => ?_, fun ho => State.overtakenBounded_applySpec ho p k sp⟩
  obtain ⟨q, hq, h1, h2, h3⟩ := hp
  obtain ⟨older, younger, hparts, hcall⟩ := State.part_split hq
  exact State.mapLawful_applySpec hm hparts hcall (h1.trans hs) h2 h3

theorem applyStaged {p : RingPart} {k : Slot} {x : Bool} {ch : StagedChange} (hp : t.holds p)
    (hs : p.status = .placed k x) : s.Keeps (t.applyStaged p k ch) := by
  have hrsc : ∀ u : State, (u.csqRingLimit p.call p.line ch.limit).rsc = u.rsc := fun u => by
    rw [csqRingLimit_same u u _ _ _ rfl]
  have hl : s.Keeps ((t.modPart p.call fun q => q.withLimit ch.limit).csqRingLimit p.call p.line ch.limit) :=
    (h.modPart (f := fun q => q.withLimit ch.limit) (fun _ _ => rfl) fun _ hb => hb).csqRingLimit
  have hh : ((t.modPart p.call fun q => q.withLimit ch.limit).csqRingLimit p.call p.line ch.limit).holds
      (p.withLimit ch.limit) :=
    ((hp.modPart p.call (f := fun q => q.withLimit ch.limit) (fun _ => rfl) (fun _ => rfl)
      (fun _ => rfl) fun _ => rfl).of_parts (by rw [hrsc])).congr rfl rfl rfl rfl
  unfold State.applyStaged
  refine .ite (fun _ => hl.exhaustPart hh) fun _ => ?_
  dsimp only
  split
  next sp _ =>
    have happ := hl.applySpec (k := k) (sp := sp) hh hs
    exact happ.reportBoundary
  next =>
    have hnone := hl.modPart (c := p.call) (f := fun q => { q with staged := none }) (fun _ _ => rfl)
      fun _ hb => hb
    exact hnone.setRingClaim.pass.reportBoundary

theorem boundary {p : RingPart} {k : Slot} {x : Bool} (hp : t.holds p) (hs : p.status = .placed k x) :
    s.Keeps (t.boundary p k) := by
  have hc : s.Keeps (t.modPart p.call fun q => { q with cyclesCompleted := p.cyclesCompleted + 1 }) :=
    h.modPart (fun _ _ => rfl) fun _ hb => hb
  have hh : (t.modPart p.call fun q => { q with cyclesCompleted := p.cyclesCompleted + 1 }).holds
      { p with cyclesCompleted := p.cyclesCompleted + 1 } :=
    (hp.modPart p.call (f := fun q => { q with cyclesCompleted := p.cyclesCompleted + 1 }) (fun _ => rfl)
      (fun _ => rfl) (fun _ => rfl) fun _ => rfl).congr rfl rfl rfl rfl
  unfold State.boundary
  refine .ite (fun _ => hc.exhaustPart hh) fun _ => ?_
  dsimp only
  split
  next => exact hc.applyStaged hh hs
  next => exact hc.setRingClaim.reportBoundary

theorem slotBoundary {c : CallNo} : s.Keeps (t.slotBoundary c) := by
  unfold State.slotBoundary
  split
  next hp =>
    split
    next hs => exact h.boundary (State.holds_of_part hp) hs
    next => exact h
  next => exact h

end State.Keeps

/-- What a cycle's beginning does after the part's own change (R46). -/
theorem State.Keeps.begun {t : State} {p : RingPart} {k : Slot} :
    (t.modPart p.call fun q => { q with status := .placed k false, ringingBegun := true }).Keeps (t.beginCycle p k) := by
  have hline := Keeps.refl (s := t.modPart p.call fun q => { q with status := .placed k false, ringingBegun := true })
    |>.setRingClaim (n := p.line) (sp := p.spec) (k := k) |>.modLine (n := p.line)
      (f := fun r => { r with seizureCount := 0, tripCount := 0, hold := true }) rfl
  exact .ite (fun _ => hline) fun _ => hline.csqFirstRing

namespace State

variable {s : State} {p : RingPart}

/-- A start-pending part that begins its cycle is on the map as before, where the state holds it (R46). -/
theorem mapLawful_beginCycle {k : Slot} {x : Bool} (hp : s.holds p) (hs : p.status = .placed k x) (hm : s.MapLawful) :
    (s.beginCycle p k).MapLawful := by
  refine State.Keeps.begun.map (State.mapLawful_modPart hm _ _ fun q hq => ?_)
  obtain ⟨r, hr, h1, -, -⟩ := hp
  have hqs : q.status = .placed k x := Option.some.inj (hq.symm.trans hr) ▸ h1.trans hs
  simp [RingPart.mapView, hqs]

theorem mapLawful_slotPart (hp : s.holds p) (hm : s.MapLawful) : (s.slotPart p).MapLawful := by
  unfold State.slotPart
  split
  next => exact hm
  next hs =>
    split
    next => exact State.mapLawful_beginCycle hp hs hm
    next => exact hm
  next =>
    split
    next => exact hm
    next => exact State.Keeps.refl.setRingClaim.map hm

theorem keepsBeside_slotPart : s.KeepsBeside (s.slotPart p) := by
  unfold State.slotPart
  split
  next => exact .refl
  next =>
    split
    next => exact (KeepsBeside.refl.rsc _).next State.Keeps.begun
    next => exact .refl
  next =>
    split
    next => exact .refl
    next => exact KeepsBeside.refl.next State.Keeps.refl.setRingClaim

theorem overtakenBounded_slotPart (ho : s.overtakenBounded) : (s.slotPart p).overtakenBounded := by
  unfold State.slotPart
  split
  next => exact ho
  next =>
    split
    next =>
      exact State.Keeps.begun.overtaken
        (State.overtakenBounded_modPart ho fun _ _ => RingPart.countBounded_placed rfl)
    next => exact ho
  next =>
    split
    next => exact ho
    next => exact State.Keeps.refl.setRingClaim.overtaken ho

end State

/-! The parts of other calls stand at one part's slot expiry. -/

theorem State.csqFirstRing_rsc (s : State) (c : CallNo) (n : LineId) : (s.csqFirstRing c n).rsc = s.rsc := by
  unfold State.csqFirstRing
  split
  next => split <;> simp
  next => rfl

theorem State.part_of_rsc {s t : State} (h : t.rsc = s.rsc) (k : CallNo) : t.part k = s.part k := by
  simp [State.part, h]

theorem State.part_slotPart (s : State) {p : RingPart} {k : CallNo} (h : k ≠ p.call) :
    (s.slotPart p).part k = s.part k := by
  have hclaim : ∀ (u : State) sp j, (u.setRingClaim p.line sp j).rsc = u.rsc := fun u sp j => by simp [State.setRingClaim]
  unfold State.slotPart
  split
  next => rfl
  next j _ =>
    split
    next =>
      have hmod := s.part_modPart_ne h (f := fun q => { q with status := .placed j false, ringingBegun := true })
        fun _ => rfl
      rw [← hmod]
      apply State.part_of_rsc
      unfold State.beginCycle
      dsimp only
      split
      next => rw [State.modLine_rsc, hclaim]
      next => rw [State.csqFirstRing_rsc, State.modLine_rsc, hclaim]
    next => rfl
  next =>
    split
    next => rfl
    next => exact State.part_of_rsc (hclaim _ _ _) k

/-- The expiry at every part, of distinct calls, keeps the map. -/
theorem State.mapLawful_slotParts (l : List RingPart) (hd : partsDistinct l) {s : State} (hp : ∀ p ∈ l, s.holds p)
    (hm : s.MapLawful) : (l.foldl (fun s p => s.slotPart p) s).MapLawful := by
  induction l generalizing s with
  | nil => exact hm
  | cons p l ih =>
    obtain ⟨hnot, hd⟩ := List.nodup_cons.1 hd
    obtain ⟨hhead, hrest⟩ := List.forall_mem_cons.1 hp
    refine ih hd (fun q hq => ?_) (State.mapLawful_slotPart hhead hm)
    have hne : q.call ≠ p.call := fun heq => hnot (List.mem_map.2 ⟨q, hq, heq⟩)
    obtain ⟨r, hr, hrest⟩ := hrest q hq
    exact ⟨r, (s.part_slotPart hne).trans hr, hrest⟩

theorem State.holds_of_mem {s : State} (hd : partsDistinct s.rsc.parts) {p : RingPart} (hp : p ∈ s.rsc.parts) :
    s.holds p := by
  obtain ⟨older, younger, hsplit⟩ := List.append_of_mem hp
  exact State.holds_of_part (State.part_of hsplit (partsDistinct_split (hsplit ▸ hd)))

theorem State.keeps_slotParts (s : State) : s.Keeps (s.rsc.parts.foldl (fun s p => s.slotPart p) s) := by
  refine ⟨?beside, fun hm => State.mapLawful_slotParts _ hm.distinct (fun p => State.holds_of_mem hm.distinct) hm, ?count⟩
  case beside =>
    suffices ∀ (l : List RingPart) (u : State), u.KeepsBeside (l.foldl (fun s p => s.slotPart p) u) from this _ _
    intro l
    induction l with
    | nil => exact fun u => .refl
    | cons p l ih => exact fun u => State.keepsBeside_slotPart.trans (ih (u.slotPart p))
  case count =>
    intro ho
    exact List.foldlRecOn (motive := State.overtakenBounded) s.rsc.parts _ ho
      fun u hu p _ => State.overtakenBounded_slotPart hu

theorem State.Keeps.slotExpiry {s t : State} (h : s.Keeps t) : s.Keeps t.slotExpiry := by
  have hslot : t.Keeps t.advanceSlot := t.keeps_setRsc rfl rfl rfl
  exact ((h.trans hslot).trans (State.keeps_slotParts _)).trans
    (.foldl (fun u c => State.Keeps.refl.slotBoundary) _ _)

end Sys2Proof.Machine

/-! The table writes keep the laws: each handler's checks are what the laws ask of the record that it writes. -/

namespace Sys2Proof.Machine

/-- A table write keeps the laws when its record keeps those of the tables and of the map. -/
theorem State.keeps_setPtb (s : State) {x : Ptb} (ht : s.TablesLawful → (s.setPtb x).TablesLawful)
    (hm : s.MapLawful → (s.setPtb x).MapLawful) : s.Keeps (s.setPtb x) :=
  ⟨⟨ht, id, id, State.isolatedLawful_of_lines rfl rfl⟩, hm, id⟩

variable {s : State}

/-! Line attributes (R3). -/

theorem State.keeps_setAttr {n : LineId} {a : LineAttr} (h : 1 ≤ a.defaultCycles) (h' : a.defaultCycles ≤ 31) :
    s.Keeps (s.setAttr n a) := by
  refine s.keeps_setPtb (fun ht => ?_) (State.mapLawful_of_core rfl)
  refine ⟨ht.cadences, ht.entries, ht.parties, ht.capacities, fun m => ?_, ht.timing⟩
  simp only [State.attr, State.setPtb_ptb, tget_tset]
  split
  next => exact ⟨h, h'⟩
  next => exact ht.defaults m

theorem defaultCycles_of_lineAttrOf {h g c b i : Nat} {a : LineAttr} (ha : lineAttrOf h g c b i = some a) :
    a.defaultCycles = c := by
  obtain ⟨hh, hg, hc, hc', hb, hi⟩ := inRange_of_lineAttrOf ha
  rw [lineAttrOf_of_inRange hh hg hc hc' hb hi] at ha
  exact Option.some.inj ha ▸ rfl

theorem State.keeps_writeLineAttribute (r : Req) : s.Keeps (writeLineAttribute s r).1 := by
  unfold writeLineAttribute
  split
  next =>
    split
    next => exact .refl
    next =>
      split
      next => exact .refl
      next a ha =>
        obtain ⟨-, -, hc, hc', -, -⟩ := inRange_of_lineAttrOf ha
        split
        next => exact .refl
        next =>
          have hcycles := defaultCycles_of_lineAttrOf ha
          exact State.keeps_setAttr (hcycles ▸ hc) (hcycles ▸ hc')
  next => exact .refl

/-! Party entries (R5, R6). -/

theorem State.party_setParty (n m : LineId) (p q : PartyId) (e : Option PartyEntry) :
    (s.setParty n p e).party m q = if m = n ∧ q = p then e else s.party m q := by
  simp only [State.party, State.setParty, State.setPtb_ptb, tget_tset]
  by_cases hn : m = n
  · subst hn
    by_cases hq : q = p
    · simp [hq]
    · simp [hq, Ne.symm hq, tget_tset]
  · simp [hn, Ne.symm hn]

/-- The fields of a present entry are in range (R4), whatever its cadence. -/
def PartyEntry.inRange (e : PartyEntry) : Prop :=
  1 ≤ e.spec.bell ∧ e.spec.bell ≤ 7 ∧ (∀ x, e.identityClass = some x → x ≤ 14) ∧
    (e.code = [] ∨ 2 ≤ e.code.length ∧ e.code.length ≤ 4) ∧ ∀ d ∈ e.code, d ≤ 9

theorem bell_of_specFrom {bus leg cad bell : Nat} {sp : Spec} (h : specFrom bus leg cad bell = some sp) :
    sp.bell = bell := by
  unfold specFrom at h
  split at h
  next =>
    split at h
    next => exact Option.some.inj h ▸ rfl
    next => cases h
  next => cases h

theorem class_of_classOf {n : Nat} {c : Option Nat} (h : classOf n = some c) : ∀ x, c = some x → x ≤ 14 := by
  intro x hx
  have hn := le_of_classOf h
  rw [classOf_of_le hn] at h
  have hc := (Option.some.inj h).trans hx
  split at hc
  next => cases hc
  next => have := Option.some.inj hc; omega

theorem inRange_of_presentEntry {bus leg cad bell cls len : Nat} {d : List Nat} (hd : d.length = 4) {e : PartyEntry}
    (h : presentEntryOf bus leg cad bell cls len d = some e) : e.inRange := by
  unfold presentEntryOf at h
  split at h
  next sp c code hsp hc hcode =>
    obtain ⟨-, -, -, hb, hb'⟩ := inRange_of_specFrom hsp
    obtain ⟨hcode, hlen, hdigits, -⟩ := revertCodeOf_eq_some.1 hcode
    have hbell := bell_of_specFrom hsp
    rw [hcode] at hdigits
    refine Option.some.inj h ▸ ⟨hbell ▸ hb, hbell ▸ hb', class_of_classOf hc, ?_, hdigits⟩
    rcases hlen with h0 | hlen
    · left
      show code = []
      rw [← hcode, h0, List.take_zero]
    · right
      show 2 ≤ code.length ∧ code.length ≤ 4
      rw [← hcode, List.length_take, hd]
      omega
  next => cases h

theorem inRange_of_entry {pres bus leg cad bell cls len : Nat} {d : List Nat} (hd : d.length = 4) {e : PartyEntry}
    (h : entryOf pres bus leg cad bell cls len d = some (some e)) : e.inRange := by
  unfold entryOf at h
  split at h
  next => split at h <;> cases h
  next =>
    split at h
    next =>
      obtain ⟨e', he, heq⟩ := Option.map_eq_some_iff.1 h
      exact Option.some.inj heq ▸ inRange_of_presentEntry hd he
    next => cases h

/-- An entry that the line's other entries do not clash with keeps them distinct (R6). -/
theorem State.partiesDistinct_setParty {n m : LineId} {p : PartyId} {e : Option PartyEntry}
    (hc : ∀ x, e = some x → ¬ s.entryClashes n p x = true) (h : s.partiesDistinct m) :
    (s.setParty n p e).partiesDistinct m := by
  have apart : ∀ x o q, e = some x → q ≠ p → s.party n q = some o →
      (x.identityClass = none ∨ x.identityClass ≠ o.identityClass) ∧
        (x.code = [] ∨ o.code = [] ∨ ¬ (x.code <+: o.code ∨ o.code <+: x.code)) := by
    intro x o q hx hq ho
    have hno := hc x hx
    rw [State.entryClashes_iff] at hno
    push Not at hno
    obtain ⟨h1, h2⟩ := hno q o hq ho
    refine ⟨?_, ?_⟩
    · by_cases hxn : x.identityClass = none
      · exact .inl hxn
      · exact .inr (h1 hxn)
    · by_cases hxc : x.code = []
      · exact .inl hxc
      · by_cases hoc : o.code = []
        · exact .inr (.inl hoc)
        · exact .inr (.inr fun hp => hp.elim (h2 hxc hoc).1 (h2 hxc hoc).2)
  intro q q' x o hqq hx ho
  rw [State.party_setParty] at hx ho
  by_cases hq : m = n ∧ q = p
  · obtain ⟨rfl, rfl⟩ := hq
    rw [if_pos ⟨rfl, rfl⟩] at hx
    rw [if_neg fun hq' => hqq hq'.2.symm] at ho
    obtain ⟨hclass, hcode⟩ := apart x o q' hx (Ne.symm hqq) ho
    exact ⟨hclass, hcode.imp id (Or.imp id fun hp hpre => hp (.inl hpre))⟩
  · rw [if_neg hq] at hx
    by_cases hq' : m = n ∧ q' = p
    · obtain ⟨rfl, rfl⟩ := hq'
      rw [if_pos ⟨rfl, rfl⟩] at ho
      obtain ⟨hclass, hcode⟩ := apart o x q ho hqq hx
      refine ⟨?_, ?_⟩
      · rcases hclass with hclass | hclass
        · by_cases hxn : x.identityClass = none
          · exact .inl hxn
          · exact .inr (hclass ▸ hxn)
        · exact .inr (Ne.symm hclass)
      · rcases hcode with hcode | hcode | hcode
        · exact .inr (.inl hcode)
        · exact .inl hcode
        · exact .inr (.inr fun hpre => hcode (.inr hpre))
    · rw [if_neg hq'] at ho
      exact h q q' x o hqq hx ho

theorem State.keeps_writeEntry {n : LineId} {p : PartyId} {e : Option PartyEntry} (he : ∀ x, e = some x → x.inRange) :
    s.Keeps (s.writeEntry n p e).1 := by
  unfold State.writeEntry
  dsimp only
  split
  next hst =>
    have hpass : ∀ x, e = some x → s.cadence x.spec.cadence ≠ [] ∧ ¬ s.entryClashes n p x = true := by
      rintro x rfl
      unfold State.entryStatus at hst
      dsimp only at hst
      split at hst
      next => cases hst
      next =>
        split at hst
        next => cases hst
        next hcad =>
          split at hst
          next => cases hst
          next hcl => exact ⟨hcad, hcl⟩
    refine s.keeps_setPtb (fun ht => ?_) (State.mapLawful_of_core rfl)
    refine ⟨ht.cadences, fun m q x hx => ?_,
      fun m => State.partiesDistinct_setParty (fun x hx => (hpass x hx).2) (ht.parties m), ht.capacities, ht.defaults,
      ht.timing⟩
    have hx := (State.party_setParty n m p q e).symm.trans hx
    split at hx
    next => exact ⟨(hpass x hx).1, he x hx⟩
    next => exact ht.entries m q x hx
  next => exact .refl

theorem State.keeps_writeParty (r : Req) : s.Keeps (writeParty s r).1 := by
  unfold writeParty
  split
  next =>
    split
    next => exact .refl
    next =>
      split
      next he => exact State.keeps_writeEntry fun x hx => inRange_of_entry rfl (hx ▸ he)
      next => exact .refl
  next => exact .refl

/-! Cadences (R9). -/

theorem State.cadence_setCadence (c k : CadenceId) (l : List Nat) :
    (s.setCadence c l).cadence k = if c = k then l else s.cadence k := by
  simp only [State.cadence, State.setCadence, State.setPtb_ptb, tget_tset]

/-- A cadence that no entry and no ring part names is written without a change to any of them. -/
theorem State.keeps_setCadence {c : CadenceId} {l : List Nat} (hl : cadenceLawful l)
    (he : ¬ s.cadenceEntered c = true) (hr : ¬ s.cadenceRung c = true) : s.Keeps (s.setCadence c l) := by
  rw [State.cadenceEntered_iff] at he
  rw [State.cadenceRung_iff] at hr
  refine s.keeps_setPtb (fun ht => ?tables) fun hm => ?map
  case tables =>
    refine ⟨fun k => ?_, fun n p e hp => ?_, ht.parties, ht.capacities, ht.defaults, ht.timing⟩
    · have hk := State.cadence_setCadence (s := s) c k l
      rw [State.setCadence] at hk
      rw [hk]
      split
      next => exact hl
      next => exact ht.cadences k
    · have hp : s.party n p = some e := hp
      obtain ⟨hcad, hrest⟩ := ht.entries n p e hp
      refine ⟨?_, hrest⟩
      have hk := State.cadence_setCadence (s := s) c e.spec.cadence l
      rw [State.setCadence, if_neg fun heq => he ⟨n, p, e, hp, heq.symm⟩] at hk
      exact hk ▸ hcad
  case map =>
    have hrings : ∀ p ∈ s.rsc.parts, ∀ sl, (s.setCadence c l).ringsAt p sl = s.ringsAt p sl := by
      intro p hp sl
      have hne : ¬ c = p.spec.cadence := fun heq => hr ⟨p, hp, .inl heq.symm⟩
      simp only [State.ringsAt, State.cadence_setCadence, if_neg hne]
    refine ⟨hm.distinct, fun b sl => (hm.loadSum b sl).trans ?_, fun g sl => (hm.occupancySum g sl).trans ?_, hm.load,
      hm.occupancy⟩
    · refine congrArg List.sum (List.map_congr_left fun p hp => ?_)
      have := hrings p hp sl
      rw [State.setCadence] at this
      simp only [State.loadOf, this]
    · refine congrArg List.sum (List.map_congr_left fun p hp => ?_)
      have := hrings p hp sl
      rw [State.setCadence] at this
      simp only [State.occupancyOf, this]

theorem State.keeps_writeCadence (r : Req) : s.Keeps (writeCadence s r).1 := by
  unfold writeCadence
  split
  next =>
    split
    next hl =>
      split
      next => exact .refl
      next hn =>
        obtain ⟨rfl, hlawful, -, -⟩ := (cadenceFrom_eq_some rfl).1 hl
        simp only [Bool.or_eq_true, not_or] at hn
        exact State.keeps_setCadence hlawful hn.1 hn.2
    next => exact .refl
  next => exact .refl

/-! Capacities, exclusion flags and the timing record (R10, R11, R12). -/

theorem State.keeps_takeCapacity {b : BusId} {k : Nat} (hk : k ≤ 63) (hu : ¬ s.capacityInUse b k = true) :
    s.Keeps (s.takeCapacity b k) := by
  have hload : ∀ sl, tget (tget s.rsc.busLoad b) sl ≤ k := by
    intro sl
    simp only [State.capacityInUse, Bool.or_eq_true, decide_eq_true_eq, not_or, State.lt_peakLoad, not_exists] at hu
    exact Nat.le_of_not_lt (hu.1 sl)
  have hcap : ∀ d, (s.setCapacity b k).capacity d = if b = d then k else s.capacity d := fun d => by
    simp only [State.capacity, State.setCapacity, State.setPtb_ptb, tget_tset]
  have hset : s.Keeps (s.setCapacity b k) := by
    refine s.keeps_setPtb (fun ht => ?_) fun hm => ?_
    · refine ⟨ht.cadences, ht.entries, ht.parties, fun d => (hcap d).trans_le ?_, ht.defaults, ht.timing⟩
      split
      next => exact hk
      next => exact ht.capacities d
    · refine ⟨hm.distinct, hm.loadSum, hm.occupancySum, fun d sl => le_of_le_of_eq ?_ (hcap d).symm, hm.occupancy⟩
      split
      next heq => exact heq ▸ hload sl
      next => exact hm.load d sl
  exact .ite (fun _ => hset.pass) fun _ => hset

theorem State.keeps_writeBus (r : Req) : s.Keeps (writeBus s r).1 := by
  unfold writeBus
  split
  next =>
    split
    next => exact .refl
    next =>
      split
      next => exact .refl
      next hk =>
        split
        next => exact .refl
        next hu => exact State.keeps_takeCapacity (Nat.le_of_not_lt hk) hu
  next => exact .refl

theorem State.keeps_takeExclusion {g : GroupId} {x : Bool} (hu : ¬ s.exclusionInUse g x = true) :
    s.Keeps (s.takeExclusion g x) := by
  have hex : ∀ d, (s.setExclusion g x).exclusion d = if g = d then x else s.exclusion d := fun d => by
    simp only [State.exclusion, State.setExclusion, State.setPtb_ptb, tget_tset]
  have hset : s.Keeps (s.setExclusion g x) := by
    refine s.keeps_setPtb (fun ht => ⟨ht.cadences, ht.entries, ht.parties, ht.capacities, ht.defaults, ht.timing⟩)
      fun hm => ⟨hm.distinct, hm.loadSum, hm.occupancySum, hm.load, fun d sl hd => ?_⟩
    have hx := (hex d).symm.trans hd
    split at hx
    next heq =>
      subst heq hx
      cases hold : s.exclusion g with
      | true => exact hm.occupancy g sl hold
      | false =>
        simp only [State.exclusionInUse, hold, Bool.not_false, Bool.and_self, Bool.true_and, decide_eq_true_eq,
          State.lt_peakOccupancy, not_exists] at hu
        exact Nat.le_of_not_lt (hu sl)
    next => exact hm.occupancy d sl hx
  exact .ite (fun _ => hset.pass) fun _ => hset

theorem State.keeps_writeGroup (r : Req) : s.Keeps (writeGroup s r).1 := by
  unfold writeGroup
  split
  next =>
    split
    next =>
      split
      next => exact .refl
      next hu => exact State.keeps_takeExclusion hu
    next => exact .refl
  next => exact .refl

theorem legal_of_timingFrom {l : List Nat} {t : Timing} (h : timingFrom l = some t) : t.legal = true := by
  unfold timingFrom at h
  split at h
  next =>
    split at h
    next =>
      dsimp only at h
      split at h
      next hlegal => exact Option.some.inj h ▸ hlegal
      next => cases h
    next => cases h
  next => cases h

theorem State.keeps_writeTiming (r : Req) : s.Keeps (writeTiming s r).1 := by
  unfold writeTiming
  split
  next ht =>
    exact s.keeps_setPtb (fun h => ⟨h.cadences, h.entries, h.parties, h.capacities, h.defaults, legal_of_timingFrom ht⟩)
      (State.mapLawful_of_core rfl)
  next => exact .refl

theorem State.keeps_tableWrite (r : Req) : s.Keeps (tableWrite s r).1 := by
  unfold tableWrite
  split
  next => exact .refl
  next =>
    dsimp only
    split
    next => exact State.keeps_writeLineAttribute _
    next => exact State.keeps_writeParty _
    next => exact State.keeps_writeCadence _
    next => exact State.keeps_writeBus _
    next => exact State.keeps_writeGroup _
    next => exact State.keeps_writeTiming _
    next => exact .refl

end Sys2Proof.Machine

/-! The byte event, the link, the requests, the Management Port and the Highway Interface keep the laws, and so does
every command. -/

namespace Sys2Proof.Machine

/-! The LSV's judgement takes no line to THROUGH or REPLAYING. -/

namespace LineRec

variable (r : LineRec) (t : Timing) (b : Byte)

theorem judgeTrip_state (v : RingView) : (r.judgeTrip t v b).1.state = r.state := by
  unfold judgeTrip
  repeat' split
  all_goals rfl

theorem judgeOnHook_state : (r.judgeOnHook t b).1.state = r.state := by
  unfold judgeOnHook
  split
  next => split <;> rfl
  next => rfl

theorem judgeCallSeizure_state : (r.judgeCallSeizure t b).1.state = r.state := by
  unfold judgeCallSeizure
  split
  next => rfl
  next =>
    split
    next => split <;> rfl
    next => rfl

theorem judgeIdle_state : (r.judgeIdle b).1.state = r.state ∨ (r.judgeIdle b).1.state = .qualifying := by
  unfold judgeIdle
  split
  next => exact .inl rfl
  next =>
    split
    next => exact .inr rfl
    next => exact .inl rfl

theorem judgeQualifying_state :
    (r.judgeQualifying t b).1.state = r.state ∨ (r.judgeQualifying t b).1.state = .idle := by
  unfold judgeQualifying
  split
  next => exact .inl rfl
  next =>
    split
    next => split <;> exact .inl rfl
    next => exact .inr rfl

theorem qualify_state (v : Option RingView) : (r.qualify t v b).1.state = r.state ∨
    (r.qualify t v b).1.state = .qualifying ∨ (r.qualify t v b).1.state = .idle := by
  unfold qualify
  split
  next => exact (r.judgeIdle_state b).imp_right .inl
  next => exact (r.judgeQualifying_state t b).imp_right .inr
  next => exact .inl (r.judgeCallSeizure_state t b)
  next => exact .inl (r.judgeTrip_state t b _)
  iterate 5 exact .inl (r.judgeOnHook_state t b)
  iterate 2 exact .inl (r.judgeTrip_state t b _)
  next => exact .inl rfl

theorem judge_connected (v : Option RingView) (good : Bool) (h : (r.judge t v b good).1.state.connected) :
    r.state.connected := by
  have hq (q : LineRec) (h : (q.qualify t v b).1.state.connected) (hs : q.state = r.state) : r.state.connected := by
    rcases q.qualify_state t b v with heq | heq | heq <;> rw [heq] at h
    · exact hs ▸ h
    · simp at h
    · simp at h
  unfold judge at h
  split at h
  next =>
    split at h
    next =>
      split at h
      next => exact h
      next => exact hq _ h rfl
    next => exact hq _ h rfl
  next =>
    split at h
    next =>
      split at h
      next => exact h
      next => exact hq _ h rfl
    next => exact hq _ h rfl

end LineRec

namespace State.Keeps

variable {s t : State} {n : LineId} (h : s.Keeps t)

include h

/-! The byte event of a line (R64). -/

theorem tripQualified : s.Keeps (t.tripQualified n) := by
  unfold State.tripQualified
  split
  next => exact h
  next p _ =>
    have hm := h.modPart (c := p.call) (f := fun p => { p with tripDelivered := true }) (fun _ _ => rfl)
      fun _ hb => hb
    exact (hm.modLine (n := n) (f := fun r => r.withLoop .closed) (by simp)).csqTrip.peg

theorem takeVerdict {b : Byte} {v : Verdict} : s.Keeps (t.takeVerdict n b v) := by
  cases v with
  | nothing => exact h
  | faultEntry reason => exact h.enterFault
  | faultCleared => exact h.faultRecovered
  | seizure => exact h.seizureQualified
  | callSeizure => exact h.callSeized
  | onHook => exact h.onHookQualified
  | trip => exact h.tripQualified

theorem lineByteEvent : s.Keeps (t.lineByteEvent n) := by
  have hj : s.Keeps (t.setLine n (t.judgeLine n).1) :=
    h.trans (t.keeps_setLine fun _ hc => LineRec.judge_connected _ _ _ _ _ hc)
  have hd : s.Keeps (((t.setLine n (t.judgeLine n).1).takeVerdict n (t.lByte n) (t.judgeLine n).2).digitStep n
      (t.line n).state (t.judgeLine n).2 (upLoop (t.lByte n))) :=
    .ite (fun _ => hj.takeVerdict.digitByte) fun _ => hj.takeVerdict
  exact hd.testByte.byteTaken

theorem byteEventIf {cond : Bool} : s.Keeps (t.byteEventIf cond n) := .ite (fun _ => h.lineByteEvent) fun _ => h

theorem replayEndEvent : s.Keeps (t.replayEndEvent n) :=
  .ite (fun _ => h.lineByteEvent) fun _ => .ite (fun _ => h.generatorExpiry) fun _ => h

theorem testTimeoutEvent : s.Keeps t.testTimeoutEvent := by
  unfold State.testTimeoutEvent
  split
  next => exact h
  next => exact .ite (fun _ => h.lineByteEvent) fun _ => h

theorem lockoutExpiry : s.Keeps (t.lockoutExpiry n) :=
  .ite (fun _ => (h.modLine (f := fun r => { r with lockoutPhase := some .feedOff }) rfl).modDown) fun _ => h

theorem takeShelfLoss : s.Keeps t.takeShelfLoss :=
  .ite (fun _ => (h.setHwi _).trans (.foldl (fun _ _ => .ite (fun _ => .refl) fun _ => State.Keeps.refl.enterFault) _ _))
    fun _ => h

/-! The link (chapter 10). -/

/-- The link record changed, the link not becoming ISOLATED. -/
theorem setLkm {k : Lkm} (hk : k.state = .isolated → t.lkm.state = .isolated) : s.Keeps (t.setLkm k) :=
  h.trans ⟨⟨State.tablesLawful_of_ptb rfl, id, id, fun hs hi => hs (hk hi)⟩, State.mapLawful_of_core rfl, id⟩

end State.Keeps

/-- Every line leaves THROUGH and REPLAYING at entry into ISOLATED (R184, R185). -/
theorem State.isolateLine_left (s : State) (n : LineId) : ¬ ((s.isolateLine n).line n).state.connected := by
  rw [isolateLine_cases, LineState.connected_iff]
  split
  next => simp
  next hr =>
    split
    next => simp
    next ht =>
      rintro (h | h)
      · exact ht h
      · exact hr (.inl h)

/-- One line at entry into ISOLATED comes to no state that R185 excludes (R82). -/
theorem State.Keeps.isolateLine {s t : State} {n : LineId} (h : s.Keeps t) : s.Keeps (t.isolateLine n) := by
  unfold State.isolateLine
  split
  next => exact h.enterLockout
  next =>
    split
    next => exact h.enterLockout
    next => exact h.enterCall
  all_goals exact h

theorem State.Keeps.enterIsolated {s t : State} (h : s.Keeps t) : s.Keeps t.enterIsolated := by
  have hrest : (t.setLkm { t.lkm with state := .isolated, recovery := 0 }).Keeps t.enterIsolated :=
    (State.Keeps.refl.notify (x := .link .isolated t.lkm.state t.lkm.badCount)).trans
      (.foldl (f := fun s n => s.isolateLine n) (fun _ _ => State.Keeps.refl.isolateLine) lineIds _)
  refine h.trans ⟨⟨fun ht => hrest.tables (State.tablesLawful_of_ptb (s := t) rfl ht), hrest.digits, hrest.port,
    fun _ => ?_⟩, fun hm => hrest.map (State.mapLawful_of_core (s := t) rfl hm), hrest.overtaken⟩
  rw [State.isolatedLawful_iff]
  intro _ n
  obtain ⟨u, -, -, -, -, -, -, -, -, -, hu⟩ := enterIsolated_view t
  rw [hu]
  have hline := ((isolate_fold lineIds u lineIds_nodup).2.2.2.2 n).2 (mem_lineIds n)
  rw [hline.1]
  exact u.isolateLine_left n

/-! Entry into RELEASED (R186), which leaves the link in a state of which R185 says nothing. -/

namespace State.Keeps

variable {s t : State} {n : LineId} (h : s.Keeps t)

include h

theorem abortedAtRelease {rs : List Requester} : s.Keeps (t.abortedAtRelease n rs) := h.notifyAborted.peg

theorem abortAllTests : s.Keeps t.abortAllTests := by
  unfold State.abortAllTests
  dsimp only
  have hq : ∀ u : State, ∀ l : List TestRequest, u.Keeps (l.foldl (fun s q => s.abortedAtRelease q.line q.requesters) u) :=
    fun u l => .foldl (fun _ _ => State.Keeps.refl.abortedAtRelease) l u
  split
  next => exact (h.dropTest.abortedAtRelease.setItu).trans (hq _ _)
  next => exact h.setItu.trans (hq _ _)

theorem stopRinging : s.Keeps (t.stopRinging n) := h.modDown.modLine rfl

theorem releaseAllParts : s.Keeps t.releaseAllParts := by
  have hstop : t.Keeps (t.rsc.parts.foldl (fun s p => if p.isRinging then s.stopRinging p.line else s) t) :=
    .foldl (fun _ _ => .ite (fun _ => State.Keeps.refl.stopRinging) fun _ => .refl) _ _
  refine (h.trans hstop).trans ⟨KeepsBeside.refl.rsc _, fun hm => ?_, fun _ p hp => absurd hp List.not_mem_nil⟩
  have hzero : ∀ {k : Nat} (i : Fin k) (sl : Slot), tget (tget (Vector.replicate k (Vector.replicate 24 0)) i) sl = 0 :=
    fun i sl => by simp
  exact ⟨List.nodup_nil, hzero, hzero, fun b sl => (hzero b sl).trans_le (Nat.zero_le _),
    fun g sl _ => (hzero g sl).trans_le (Nat.zero_le 1)⟩

theorem endAllCalls : s.Keeps t.endAllCalls :=
  h.trans (.foldl (fun _ _ => State.Keeps.refl.endCall' (by simp)) _ _)

end State.Keeps

theorem State.lkm_stopRinging (s : State) (n : LineId) : (s.stopRinging n).lkm = s.lkm :=
  State.lkm_of_fixed (s.fixed_stopRinging n)

/-- What the entry into RELEASED does before the lines, R82's, are judged leaves the link as it is. -/
theorem State.lkm_released (s : State) : s.abortAllTests.releaseAllParts.endAllCalls.lkm = s.lkm := by
  have habort : s.abortAllTests.lkm = s.lkm := by
    have hreq : ∀ (l : List TestRequest) (u : State),
        (l.foldl (fun s q => s.abortedAtRelease q.line q.requesters) u).lkm = u.lkm := fun l u =>
      foldl_keeps (fun u : State => u.lkm) _
        (fun u q => State.lkm_of_fixed (by simp [State.abortedAtRelease])) l u
    unfold State.abortAllTests
    dsimp only
    rw [hreq]
    split
    next t _ => exact State.lkm_of_fixed (s := s) (by simp [State.abortedAtRelease])
    next => rfl
  have hparts : s.abortAllTests.releaseAllParts.lkm = s.abortAllTests.lkm :=
    foldl_keeps (fun u : State => u.lkm) (fun u (p : RingPart) => if p.isRinging then u.stopRinging p.line else u)
      (fun u p => by split <;> simp only [State.lkm_stopRinging]) _ s.abortAllTests
  have hcalls : ∀ u : State, u.endAllCalls.lkm = u.lkm := fun u =>
    foldl_keeps (fun u : State => u.lkm) _ (fun u c => State.lkm_of_fixed (by simp)) callNos u
  rw [hcalls, hparts, habort]

namespace State.Keeps

variable {s t : State} {n : LineId} (h : s.Keeps t)

include h

theorem enterReleased : s.Keeps t.enterReleased := by
  have hpre := ((h.setLkm (k := { t.lkm with state := .released, recovery := 0 }) (by simp)).notify
    (x := .link .released t.lkm.state t.lkm.badCount)).abortAllTests.releaseAllParts.endAllCalls
  refine hpre.trans ?_
  have hrel : ∀ (l : List LineId) (u : State), u.lkm.state = .released →
      u.Keeps (l.foldl (fun s n => s.releaseLine n) u) := by
    intro l
    induction l with
    | nil => exact fun _ _ => .refl
    | cons n l ih =>
      intro u hu
      have hline : u.Keeps (u.releaseLine n) ∧ (u.releaseLine n).lkm = u.lkm := by
        have hthrough : u.Keeps (u.enterThrough n) := State.Keeps.refl.enterThrough (by simp [hu])
        unfold State.releaseLine
        split
        iterate 4
          split
          · exact ⟨hthrough, State.lkm_of_fixed (by simp)⟩
          · exact ⟨State.Keeps.refl.enterIdle, State.lkm_of_fixed (by simp)⟩
        · exact ⟨State.Keeps.refl.enterIdle, State.lkm_of_fixed (by simp)⟩
        all_goals exact ⟨.refl, rfl⟩
      exact hline.1.trans (ih _ (hline.2 ▸ hu))
  refine hrel lineIds _ ?_
  rw [State.lkm_released, State.notify_lkm, State.setLkm_lkm]

theorem takeLinkChange {x : LinkChange} : s.Keeps (t.takeLinkChange x) := by
  cases x with
  | nothing => exact h
  | acquired => exact h.setLkm (by simp)
  | cleared => exact (h.setLkm (k := { t.lkm with state := .linked }) (by simp)).notify
  | warning => exact (h.setLkm (k := { t.lkm with state := .warning }) (by simp)).notify
  | lost =>
    unfold State.takeLinkChange
    dsimp only
    split
    next => exact h.enterIsolated
    next => exact h.enterReleased
  | restored => exact (h.setLkm (k := { t.lkm with state := .linked, recovery := 0 }) (by simp)).notify

theorem lkmInterval {good : Bool} : s.Keeps (t.lkmInterval good) := by
  refine (h.setLkm fun hi => ?_).takeLinkChange
  unfold Lkm.counted at hi
  split at hi <;> exact hi

end State.Keeps

end Sys2Proof.Machine

/-! The requests, the Management Port, the Highway Interface and the resets keep the laws, and so does every step. -/

namespace Sys2Proof.Machine

/-! The resets (R14, R178) give the power-on values, which are lawful. -/

theorem Mgp.lawful_initial (a : Option Address) : (Mgp.initial a).Lawful := by
  have hz : PortCounters.zero.bounded := ⟨Nat.zero_le _, Nat.zero_le _, Nat.zero_le _, Nat.zero_le _, Nat.zero_le _⟩
  exact ⟨Nat.zero_le _, Nat.zero_le _, Nat.zero_le _, Nat.zero_le _, hz, hz,
    Nat.zero_le _, Nat.zero_le _, Nat.zero_le _, Nat.zero_le _⟩

/-- The tables after a power-on reset (R14). -/
theorem State.tablesLawful_powerOn (pins : BitVec 5) : (State.powerOn pins).TablesLawful := by
  have hparty : ∀ n p, (State.powerOn pins).party n p = none := fun n p => by
    simp [State.party, State.powerOn, Ptb.initial]
  refine ⟨fun c => .inl ?_, fun n p e he => ?_, fun n p q e o _ he => ?_, fun b => ?_, fun n => ?_, by rfl⟩
  · simp [State.cadence, State.powerOn, Ptb.initial]
  · simp [hparty] at he
  · simp [hparty] at he
  · simp [State.capacity, State.powerOn, Ptb.initial]
  · simp [State.attr, State.powerOn, Ptb.initial, LineAttr.initial]

/-- A map without a part, whatever the tables. -/
theorem State.mapLawful_empty {s : State} (h : s.rsc = Rsc.initial) : s.MapLawful := by
  have hzero : ∀ (i : Fin 4) (sl : Slot), tget (tget (Vector.replicate 4 (Vector.replicate 24 0)) i) sl = 0 :=
    fun i sl => by simp
  constructor <;> simp only [h, Rsc.initial]
  · exact List.nodup_nil
  · exact hzero
  · exact hzero
  · exact fun b sl => (hzero b sl).trans_le (Nat.zero_le _)
  · exact fun g sl _ => (hzero g sl).trans_le (Nat.zero_le 1)

theorem State.overtakenBounded_empty {s : State} (h : s.rsc = Rsc.initial) : s.overtakenBounded := by
  intro p hp
  rw [h] at hp
  exact absurd hp List.not_mem_nil

theorem State.digitsBounded_initial {s : State} (h : s.dgu = Vector.replicate 16 DigitRec.initial) :
    s.digitsBounded := by
  intro n
  simp [State.digits, h, DigitRec.initial]

theorem State.keeps_powerOn (s : State) (pins : BitVec 5) : s.Keeps { State.powerOn pins with pending := s.pending } :=
  ⟨⟨fun _ => State.tablesLawful_of_ptb (s := State.powerOn pins) rfl (State.tablesLawful_powerOn pins), fun _ => State.digitsBounded_initial rfl,
    fun _ => Mgp.lawful_initial _, fun _ => State.isolatedLawful_of_ne (by simp [State.powerOn, Lkm.initial])⟩,
    fun _ => State.mapLawful_empty rfl, fun _ => State.overtakenBounded_empty rfl⟩

theorem State.keeps_softReset (s : State) : s.Keeps s.softReset :=
  ⟨⟨State.tablesLawful_of_ptb rfl, fun _ => State.digitsBounded_initial rfl, fun _ => Mgp.lawful_initial _,
    fun _ => State.isolatedLawful_of_ne (by simp [State.softReset, State.powerOn, Lkm.initial])⟩,
    fun _ => State.mapLawful_empty rfl, fun _ => State.overtakenBounded_empty rfl⟩

theorem State.serviceDirection_through {s : State} (h : s.serviceDirection = .through) : s.lkm.state ≠ .isolated := by
  unfold State.serviceDirection at h
  split at h
  next hl => exact State.not_isolated_of_linked hl
  next => cases h

namespace State.Keeps

variable {s t : State} {n : LineId} (h : s.Keeps t)

include h

/-! The meters (chapter 11). -/

theorem sample : s.Keeps t.sample :=
  h.trans (.foldl (fun u i => .ite (fun _ => u.keeps_raise i) fun _ => .refl) _ _)

/-! The requests on calls and lines (R124 to R127, R133, R110, R78 to R80). -/

theorem startRing {c : CallNo} {sp : Spec} {ch : RingChoice} : s.Keeps (t.startRing c n sp ch) :=
  h.setCall.enterCall.hand.drain

/-- A stop directs a line to THROUGH only by the link state (R127). -/
theorem stopCall {c : CallNo} {r : CallRec} : s.Keeps (t.stopCall c r) := by
  have hend : s.Keeps (t.endCall c .stopped (t.stopDirection r) none true) := by
    refine h.endCall fun hd => ?_
    unfold State.stopDirection at hd
    split at hd
    next =>
      split at hd
      next => split at hd
              next => cases hd
              next => exact State.serviceDirection_through hd
      next => cases hd
    next => split at hd <;> cases hd
  exact .ite (fun _ => hend.drain) fun _ => hend

theorem takeAmend {a : Amend} : s.Keeps (t.takeAmend a).1 := by
  have hlimit : s.Keeps (t.drain.amendLimit a) := by
    refine .ite (fun _ => h.drain) fun _ => ?_
    split
    next => exact h.drain.modCall
    next => exact h.drain
  exact hlimit.hand.drain

theorem startRevert {c : CallNo} {p : RevertParties} : s.Keeps (t.startRevert c n p) := by
  have hcall := (h.setCall (c := c) (r := some (newRevert .exchange n p.called p.caller))).enterCall (n := n) (k := .rv)
  exact (State.Keeps.ite (fun _ => hcall.enterHangupWait) fun _ => hcall.enterIdentifyCaller).peg

theorem takeBlock : s.Keeps (t.takeBlock n) :=
  .ite (fun _ => h.modLine (f := fun r => { r with blockRecorded := true }) rfl) fun _ => h.blockLine

theorem applyAfter {x : AfterReply} : s.Keeps (t.applyAfter x) := by
  cases x with
  | nothing => exact h
  | setAddress a => exact h.trans (t.keeps_setMgp_of_same rfl rfl rfl rfl rfl)
  | softReset => exact h.trans t.keeps_softReset

theorem putReply {code : Byte} {r : Req} {x : Option Nat} {a : Answer} : s.Keeps (t.putReply code r x a) :=
  h.trans (t.keeps_setMgp_of_same rfl rfl rfl rfl rfl)

theorem overrun : s.Keeps t.overrun := by
  refine (h.trans (t.keeps_setMgp (m := { t.mgp with counters := { t.mgp.counters with
    overrun := countUp t.mgp.counters.overrun } }) fun hm => ?_)).peg
  exact { hm with others := ⟨countUp_le _, hm.others.2⟩ }

end State.Keeps

variable {s : State}

/-! What each request leaves (R124 to R127, R133, R110, R78 to R83, R147, R17, R18, R191 to R196, R177, R166, R178). -/

theorem State.keeps_ringParty (n : LineId) (ch : RingChoice) : s.Keeps (s.ringParty n ch).1 := by
  unfold State.ringParty
  split
  next => exact .refl
  next =>
    split
    next => exact s.keeps_peg _ _
    next =>
      split
      next => exact .refl
      next => exact State.Keeps.refl.startRing

theorem State.keeps_ring (r : Req) : s.Keeps (ring s r).1 := by
  unfold ring
  split
  next =>
    split
    next => exact .refl
    next =>
      split
      next => exact .refl
      next =>
        split
        next => exact s.keeps_ringParty _ _
        next => exact .refl
  next => exact .refl

theorem State.keeps_ringStop (r : Req) : s.Keeps (ringStop s r).1 := by
  unfold ringStop
  split
  next =>
    split
    next => exact .refl
    next =>
      split
      next => exact .refl
      next =>
        split
        next => exact .refl
        next => exact State.Keeps.refl.stopCall
  next => exact .refl

theorem State.keeps_ringAmend (r : Req) : s.Keeps (ringAmend s r).1 := by
  unfold ringAmend
  split
  next =>
    split
    next => exact .refl
    next =>
      split
      next => exact State.Keeps.refl.takeAmend
      next => exact .refl
  next => exact .refl

theorem State.keeps_revertParty (n : LineId) (p : RevertParties) : s.Keeps (s.revertParty n p).1 := by
  unfold State.revertParty
  split
  next => exact .refl
  next =>
    split
    next => exact .refl
    next =>
      split
      next => exact s.keeps_peg _ _
      next =>
        split
        next => exact .refl
        next => exact State.Keeps.refl.startRevert

theorem State.keeps_revert (r : Req) : s.Keeps (revert s r).1 := by
  unfold revert
  split
  next =>
    split
    next => exact .refl
    next =>
      split
      next => exact .refl
      next =>
        split
        next => exact s.keeps_revertParty _ _
        next => exact .refl
  next => exact .refl

theorem State.keeps_identify (r : Req) : s.Keeps (identify s r).1 := by
  unfold identify
  split
  next =>
    split
    next => exact .refl
    next =>
      split
      next => exact State.Keeps.refl.requestTest
      next => exact .refl
  next => exact .refl

theorem State.keeps_lineBlock (r : Req) : s.Keeps (lineBlock s r).1 := by
  unfold lineBlock
  split
  next =>
    split
    next => exact .refl
    next => exact State.Keeps.refl.takeBlock
  next => exact .refl

theorem State.keeps_lineUnblock (r : Req) : s.Keeps (lineUnblock s r).1 := by
  unfold lineUnblock
  split
  next =>
    split
    next => exact .refl
    next =>
      split
      next => exact State.Keeps.refl.enterIdle
      next =>
        split
        next => exact s.keeps_modLine (f := fun r => { r with blockRecorded := false }) rfl
        next => exact .refl
  next => exact .refl

/-- The queries and the table readings leave the state as it is (R83, R147, R17, R18). -/
theorem lineQuery_state (s : State) (r : Req) : (lineQuery s r).1 = s := by
  unfold lineQuery
  split
  next => split <;> rfl
  next => rfl

theorem callQuery_state (s : State) (r : Req) : (callQuery s r).1 = s := by
  unfold callQuery
  split
  next =>
    split
    next => rfl
    next => split <;> rfl
  next => rfl

theorem tableRead_state (s : State) (r : Req) : (tableRead s r).1 = s := by
  unfold tableRead
  split <;> rfl

theorem tableCheck_state (s : State) (r : Req) : (tableCheck s r).1 = s := by
  unfold tableCheck
  split
  next =>
    split
    next => split <;> rfl
    next => rfl
  next => rfl

theorem meterRead_state (s : State) (r : Req) : (meterRead s r).1 = s := by
  unfold meterRead
  split
  next => split <;> rfl
  next => rfl

theorem setAddress_state (s : State) (r : Req) : (setAddress s r).1 = s := by
  unfold setAddress
  split
  next =>
    split
    next => rfl
    next => split <;> rfl
  next => rfl

theorem reset_state (s : State) (r : Req) : (reset s r).1 = s := by
  unfold reset
  split <;> rfl

theorem State.keeps_meterSet (r : Req) : s.Keeps (meterSet s r).1 := by
  unfold meterSet
  split
  next =>
    split
    next => exact .refl
    next =>
      split
      next => exact s.keeps_setTmu _
      next => exact .refl
  next => exact .refl

theorem State.keeps_meterPreset (r : Req) : s.Keeps (meterPreset s r).1 := by
  unfold meterPreset
  split
  next =>
    split
    next => exact .refl
    next => exact s.keeps_setTmu _
  next => exact .refl

theorem State.keeps_meterHold (b : Bool) (r : Req) : s.Keeps (meterHold b s r).1 := by
  unfold meterHold
  split
  next =>
    split
    next => exact s.keeps_setTmu _
    next =>
      split
      next => exact s.keeps_setTmu _
      next => exact .refl
  next => exact .refl

theorem State.keeps_meterClear (r : Req) : s.Keeps (meterClear s r).1 := by
  unfold meterClear
  split
  next => exact s.keeps_setTmu _
  next => exact .refl

theorem State.keeps_zeroCounters : s.Keeps (s.modCounters fun _ => Counters.zero) := by
  have hz := Mgp.lawful_initial none
  exact s.keeps_setMgp (m := { s.mgp with counters := Counters.zero }) fun h =>
    { h with ePort := hz.ePort, lPort := hz.lPort, others := hz.others }

theorem State.keeps_countersRead (r : Req) : s.Keeps (countersRead s r).1 := by
  unfold countersRead
  split
  next =>
    split
    next => exact .refl
    next => exact .ite (fun _ => s.keeps_zeroCounters) fun _ => .refl
  next => exact .refl

theorem State.keeps_executeCode (code : Byte) (r : Req) : s.Keeps (executeCode code s r).1 := by
  unfold executeCode
  split
  next => exact s.keeps_ring r
  next => exact s.keeps_ringStop r
  next => exact s.keeps_ringAmend r
  next => exact s.keeps_revert r
  next => exact s.keeps_identify r
  next => exact s.keeps_lineBlock r
  next => exact s.keeps_lineUnblock r
  next => exact .of_eq (lineQuery_state s r)
  next => exact .of_eq (callQuery_state s r)
  next => exact s.keeps_tableWrite r
  next => exact .of_eq (tableRead_state s r)
  next => exact .of_eq (tableCheck_state s r)
  next => exact s.keeps_meterSet r
  next => exact .of_eq (meterRead_state s r)
  next => exact s.keeps_meterPreset r
  next => exact s.keeps_meterHold true r
  next => exact s.keeps_meterHold false r
  next => exact s.keeps_meterClear r
  next => exact s.keeps_countersRead r
  next => exact .of_eq (setAddress_state s r)
  next => exact .of_eq (reset_state s r)
  next => exact .refl

end Sys2Proof.Machine

/-! The Management Port and the Highway Interface keep the laws, and so does every step (R163 to R172, R148 to R157). -/

namespace Sys2Proof.Machine

namespace State.Keeps

variable {s t : State} {p : Port} (h : s.Keeps t)

include h

/-! The requests taken (R165, R169, R170). -/

theorem handleRequest {code : Byte} {r : Req} {f : State → Req → State × Answer} (hf : ∀ u : State, u.Keeps (f u r).1) :
    s.Keeps (t.handleRequest code r f) := by
  unfold State.handleRequest
  split
  next => exact (h.trans (hf t)).applyAfter
  next =>
    split
    next => exact h.overrun
    next => exact (h.trans (hf t)).putReply

theorem takeMessage {m : List Byte} : s.Keeps (t.takeMessage m) := by
  have hcode : ∀ (r : Req) (u : State), u.Keeps (executeCode (messageCode m) u r).1 := fun r u =>
    u.keeps_executeCode (messageCode m) r
  exact .ite (fun _ => h.handleRequest (hcode _)) fun _ => .ite (fun _ => h.handleRequest (hcode _)) fun _ => h

/-! The messages judged, the pairs and the aborts (R158, R163, R164, R168). -/

theorem countValid : s.Keeps (t.countValid p) :=
  h.trans (t.keeps_setMgp fun hm => hm.onPort p fun _ hc => ⟨countUp_le _, hc.2⟩)

theorem judgeE {m : List Byte} : s.Keeps (t.judgeE m) :=
  .ite (fun _ => h.discard) fun _ => .ite (fun _ => h.discard) fun _ => h.countValid.takeMessage

theorem joinRelay {m : List Byte} : s.Keeps (t.joinRelay m) := by
  refine .ite (fun _ => ?_) fun hfull => h.trans (t.keeps_setMgp fun hm => { hm with relay := ?_ })
  · refine (h.trans (t.keeps_setMgp (m := { t.mgp with counters := { t.mgp.counters with
      relayDropped := countUp t.mgp.counters.relayDropped } }) fun hm => ?_)).peg
    exact { hm with others := ⟨hm.others.1, countUp_le _, hm.others.2.2⟩ }
  · simpa [relayCapacity] using hfull

theorem judgeL {m : List Byte} : s.Keeps (t.judgeL m) :=
  .ite (fun _ => h.discard) fun _ => .ite (fun _ => h.discard) fun _ => h.countValid.joinRelay

/-- The assemblers and the downstream relay, of which no law speaks (R163, R167). -/
theorem setAssemblers (a b c : Option (List Byte)) (q : Option (Byte × Byte)) :
    s.Keeps (t.setMgp { t.mgp with eAssembler := a, lAssembler := b, relay := c, relayPair := q }) :=
  h.trans (t.keeps_setMgp_of_same rfl rfl rfl rfl rfl)

end State.Keeps

/-- The downstream relay speaks of no queue and no counter (R167). -/
theorem Mgp.relayTakes_same (m : Mgp) (first : Bool) (b1 b2 : Byte) :
    ∃ r q, m.relayTakes first b1 b2 = { m with relay := r, relayPair := q } := by
  unfold Mgp.relayTakes
  split
  next => split <;> exact ⟨_, _, rfl⟩
  next => split <;> exact ⟨_, _, rfl⟩

namespace State.Keeps

variable {s t : State} {p : Port} (h : s.Keeps t)

include h

theorem pairE {b1 b2 : Byte} : s.Keeps (t.pairE b1 b2) := by
  unfold State.pairE
  dsimp only
  obtain ⟨r, q, hrelay⟩ := Mgp.relayTakes_same
    { t.mgp with eAssembler := (assemble t.mgp.eAssembler b1 b2).1 } t.mgp.eAssembler.isNone b1 b2
  rw [hrelay]
  split
  next => exact h.setAssemblers _ _ _ _
  next => exact h.setAssemblers _ _ _ _
  next => exact (h.setAssemblers _ _ none q).discard
  next => exact (h.setAssemblers _ _ none q).judgeE

theorem pairL {b1 b2 : Byte} : s.Keeps (t.pairL b1 b2) := by
  have hpair : s.Keeps (t.setMgp { t.mgp with lAssembler := (assemble t.mgp.lAssembler b1 b2).1 }) :=
    h.setAssemblers _ _ _ _
  unfold State.pairL
  dsimp only
  split
  next => exact hpair
  next => exact hpair
  next => exact hpair.discard
  next => exact hpair.judgeL

theorem handPair {b1 b2 : Byte} : s.Keeps (t.handPair p b1 b2) := by
  cases p with
  | e => exact h.pairE
  | l => exact h.pairL

theorem handAbort : s.Keeps (t.handAbort p) := by
  unfold State.handAbort
  split
  next =>
    split
    next => exact (h.setAssemblers none _ none _).discard
    next => exact h
  next =>
    split
    next => exact (h.setAssemblers _ none _ _).discard
    next => exact h

/-! The upstream slot (R168, R170, R171). -/

/-- The reply slot and the item being sent, of which no law speaks (R170). -/
theorem setReply (a : Option Sending) (b : Option Reply) :
    s.Keeps (t.setMgp { t.mgp with sending := a, replySlot := b }) :=
  h.trans (t.keeps_setMgp_of_same rfl rfl rfl rfl rfl)

theorem holdOffExpiry : s.Keeps t.holdOffExpiry := by
  unfold State.holdOffExpiry
  split
  next => exact .ite (fun _ => h.setReply _ _) fun _ => h
  next => exact h

theorem replySent : s.Keeps t.replySent := by
  have hsent : s.Keeps (t.setMgp { t.mgp with sending := none, replySlot := none }) := h.setReply none none
  refine .ite (fun _ => ?_) fun _ => h
  split
  next => exact hsent.applyAfter
  next => exact hsent

theorem relayedSent : s.Keeps t.relayedSent :=
  .ite (fun _ => h.trans (t.keeps_setMgp fun hm => { hm with relay := ((List.tail_sublist _).length_le).trans hm.relay }))
    fun _ => h

theorem noticeSent : s.Keeps t.noticeSent :=
  .ite (fun _ => h.trans (t.keeps_setMgp fun hm => { hm with urgent := ((List.tail_sublist _).length_le).trans hm.urgent }))
    fun _ => .ite
      (fun _ => h.trans (t.keeps_setMgp fun hm => { hm with routine := ((List.tail_sublist _).length_le).trans hm.routine }))
      fun _ => h

/-! The frames received and the closes (R150 to R152). -/

theorem setPort {x : RxPort} : s.Keeps (t.setPort p x) := by
  cases p with
  | e => exact h.setHwi _
  | l => exact h.setHwi _

theorem passOver : s.Keeps (t.passOver p) := h.setPort.handAbort

theorem validFrame {f : Frame} : s.Keeps (t.validFrame p f) :=
  .ite (fun _ => h.passOver) fun _ => h.setPort.handPair

theorem alignedFrame {f : Frame} : s.Keeps (t.alignedFrame p f) :=
  .ite (fun _ => .ite (fun _ => h.setPort.validFrame) fun _ => h.setPort.passOver) fun _ => h.setPort.passOver

theorem frameReceived {f : Frame} : s.Keeps (t.frameReceived p f) := by
  unfold State.frameReceived
  split
  next => exact h.alignedFrame
  next => exact h

theorem windowExamined {f : Frame} : s.Keeps (t.windowExamined p f) :=
  .ite (fun _ => h.setPort.validFrame) fun _ => h

theorem closePort : s.Keeps (t.closePort p) := .ite (fun _ => h.setPort) fun _ => h.setPort.handAbort

theorem closeE : s.Keeps t.closeE := h.closePort.lkmInterval

theorem closeEIf {c : LinkChange} : s.Keeps (t.closeEIf c) := .ite (fun _ => h.closeE) fun _ => h

theorem closeL : s.Keeps t.closeL := h.closePort.setHwi _

end State.Keeps

/-! The frames sent (R148, R172). -/

/-- The arbiter begins an item within the bounds of the port: the relayed-run count stops at 2 (R172). -/
theorem Mgp.Lawful.beginItem {m : Mgp} (h : m.Lawful) (i : UpstreamItem) : (m.beginItem i).Lawful := by
  cases i with
  | reply => exact h
  | relayed => exact { h with run := Nat.min_le_left _ _ }
  | urgent => exact { h with run := Nat.zero_le _ }
  | routine => exact { h with run := Nat.zero_le _ }

theorem Mgp.Lawful.arbitrate {m : Mgp} (h : m.Lawful) (allowed : Bool) : (m.arbitrate allowed).Lawful := by
  unfold Mgp.arbitrate
  split
  next => exact h
  next =>
    split
    next i _ => exact { h.beginItem i with }
    next => exact h

namespace State.Keeps

variable {s t : State} (h : s.Keeps t)

include h

theorem sendFrames : s.Keeps t.sendFrames := by
  have hsent : s.Keeps (t.setMgp { (t.mgp.arbitrate t.noticeAllowed).pairSent with relayPair := none }) :=
    h.trans (t.keeps_setMgp fun hm => { hm.arbitrate t.noticeAllowed with })
  exact hsent.setHwi _

/-- The timers count (00 section 5.2): no state of a line and no buffer changes. -/
theorem tick : s.Keeps t.tick := by
  refine h.trans ⟨⟨State.tablesLawful_of_ptb rfl, fun hd n => ?_, fun hm => { hm with }, fun hi hs n => ?_⟩,
    State.mapLawful_of_core rfl, id⟩
  · simpa [State.digits, State.tick, DigitRec.tick] using hd n
  · simpa [State.line, State.tick, LineRec.tick] using hi hs n

theorem sendFrame : s.Keeps t.sendFrame :=
  (h.sendFrames.trans (.foldl (fun u n => u.keeps_peg .foreignCode (some n)) _ _)).tick

theorem takeKind {k : RequestKind} : s.Keeps (t.takeKind k) := .ite (fun _ => h.takeNext) fun _ => h

theorem hangupExpiry {c : CallNo} : s.Keeps (t.hangupExpiry c) := by
  unfold State.hangupExpiry
  split
  next => exact .ite (fun _ => h.endCall' (by decide)) fun _ => h
  next => exact h

end State.Keeps

/-! Every step. -/

/-- Every command gives a next state, and that state keeps the laws. -/
theorem exec_next (c : Instr) (s : State) : ∃ t, exec c s = .next t ∧ s.Keeps t := by
  have h : s.Keeps s := .refl
  cases c with
  | powerOnReset _ => exact ⟨_, rfl, s.keeps_powerOn _⟩
  | frameSend => exact ⟨_, rfl, h.sendFrame⟩
  | frameReceived _ _ => exact ⟨_, rfl, h.frameReceived⟩
  | ePortIntervalClose => exact ⟨_, rfl, h.closeE⟩
  | shortTimeout => exact ⟨_, rfl, h.closeEIf⟩
  | longTimeout => exact ⟨_, rfl, h.closeEIf⟩
  | linkRestored => exact ⟨_, rfl, h.closeEIf⟩
  | lPortIntervalClose => exact ⟨_, rfl, h.closeL⟩
  | shelfLoss => exact ⟨_, rfl, h.takeShelfLoss⟩
  | lineByte _ => exact ⟨_, rfl, h.lineByteEvent⟩
  | seizureQualify _ => exact ⟨_, rfl, h.byteEventIf⟩
  | callSeizure _ => exact ⟨_, rfl, h.byteEventIf⟩
  | onHook _ => exact ⟨_, rfl, h.byteEventIf⟩
  | trip _ => exact ⟨_, rfl, h.byteEventIf⟩
  | faultEntry _ => exact ⟨_, rfl, h.byteEventIf⟩
  | faultCleared _ => exact ⟨_, rfl, h.byteEventIf⟩
  | lockoutTimerExpiry _ => exact ⟨_, rfl, h.lockoutExpiry⟩
  | discardEnd _ => exact ⟨_, rfl, h.byteEventIf⟩
  | digitEnd _ => exact ⟨_, rfl, h.byteEventIf⟩
  | collectionTimeout _ => exact ⟨_, rfl, h.collectionExpiry⟩
  | generatorTimerExpiry _ => exact ⟨_, rfl, .ite (fun _ => h.generatorExpiry) fun _ => h⟩
  | replayEnd _ => exact ⟨_, rfl, h.replayEndEvent⟩
  | slotTimerExpiry => exact ⟨_, rfl, .ite (fun _ => h.slotExpiry) fun _ => h⟩
  | placeRequest => exact ⟨_, rfl, h.takeKind⟩
  | stageRequest => exact ⟨_, rfl, h.takeKind⟩
  | amendRequest => exact ⟨_, rfl, h.takeKind⟩
  | releaseRequest => exact ⟨_, rfl, h.takeKind⟩
  | testTimeout => exact ⟨_, rfl, h.testTimeoutEvent⟩
  | hangupTimerExpiry _ => exact ⟨_, rfl, h.hangupExpiry⟩
  | replyHoldOffExpiry => exact ⟨_, rfl, h.holdOffExpiry⟩
  | replySent => exact ⟨_, rfl, h.replySent⟩
  | relayedMessageSent => exact ⟨_, rfl, h.relayedSent⟩
  | noticeSent => exact ⟨_, rfl, h.noticeSent⟩
  | occupancySample => exact ⟨_, rfl, h.sample⟩
  | ring req => exact ⟨_, rfl, h.handleRequest fun u => u.keeps_ring req⟩
  | ringStop req => exact ⟨_, rfl, h.handleRequest fun u => u.keeps_ringStop req⟩
  | ringAmend req => exact ⟨_, rfl, h.handleRequest fun u => u.keeps_ringAmend req⟩
  | revert req => exact ⟨_, rfl, h.handleRequest fun u => u.keeps_revert req⟩
  | identify req => exact ⟨_, rfl, h.handleRequest fun u => u.keeps_identify req⟩
  | lineBlock req => exact ⟨_, rfl, h.handleRequest fun u => u.keeps_lineBlock req⟩
  | lineUnblock req => exact ⟨_, rfl, h.handleRequest fun u => u.keeps_lineUnblock req⟩
  | lineQuery req => exact ⟨_, rfl, h.handleRequest fun u => .of_eq (lineQuery_state u req)⟩
  | callQuery req => exact ⟨_, rfl, h.handleRequest fun u => .of_eq (callQuery_state u req)⟩
  | tableWriteLineAttribute req => exact ⟨_, rfl, h.handleRequest fun u => u.keeps_writeLineAttribute req⟩
  | tableWriteParty req => exact ⟨_, rfl, h.handleRequest fun u => u.keeps_writeParty req⟩
  | tableWriteCadence req => exact ⟨_, rfl, h.handleRequest fun u => u.keeps_writeCadence req⟩
  | tableWriteBus req => exact ⟨_, rfl, h.handleRequest fun u => u.keeps_writeBus req⟩
  | tableWriteGroup req => exact ⟨_, rfl, h.handleRequest fun u => u.keeps_writeGroup req⟩
  | tableWriteTiming req => exact ⟨_, rfl, h.handleRequest fun u => u.keeps_writeTiming req⟩
  | tableRead req => exact ⟨_, rfl, h.handleRequest fun u => .of_eq (tableRead_state u req)⟩
  | tableCheck req => exact ⟨_, rfl, h.handleRequest fun u => .of_eq (tableCheck_state u req)⟩
  | meterSet req => exact ⟨_, rfl, h.handleRequest fun u => u.keeps_meterSet req⟩
  | meterRead req => exact ⟨_, rfl, h.handleRequest fun u => .of_eq (meterRead_state u req)⟩
  | meterPreset req => exact ⟨_, rfl, h.handleRequest fun u => u.keeps_meterPreset req⟩
  | meterFreeze req => exact ⟨_, rfl, h.handleRequest fun u => u.keeps_meterHold true req⟩
  | globalFreeze env => exact ⟨_, rfl, h.handleRequest fun u => u.keeps_meterHold true (globalMeter env)⟩
  | meterThaw req => exact ⟨_, rfl, h.handleRequest fun u => u.keeps_meterHold false req⟩
  | globalThaw env => exact ⟨_, rfl, h.handleRequest fun u => u.keeps_meterHold false (globalMeter env)⟩
  | meterClear req => exact ⟨_, rfl, h.handleRequest fun u => u.keeps_meterClear req⟩
  | countersRead req => exact ⟨_, rfl, h.handleRequest fun u => u.keeps_countersRead req⟩
  | setAddress req => exact ⟨_, rfl, h.handleRequest fun u => .of_eq (setAddress_state u req)⟩
  | reset req => exact ⟨_, rfl, h.handleRequest fun u => .of_eq (reset_state u req)⟩
  | alignmentFound _ _ => exact ⟨_, rfl, h.windowExamined⟩
  | unknownRequestCode code req => exact ⟨_, rfl, h.handleRequest fun u => u.keeps_executeCode code req⟩

theorem State.keeps_exec {c : Instr} {s t : State} (h : exec c s = .next t) : s.Keeps t := by
  obtain ⟨u, hu, hk⟩ := exec_next c s
  injection hu.symm.trans h with hut
  exact hut ▸ hk

/-- A step keeps the laws: it is a command's, with the queue shortened, or it idles. -/
theorem State.keeps_step {s t : State} (h : step s = .next t) : s.Keeps t := by
  unfold step at h
  split at h
  next =>
    injection h with hst
    exact .of_eq hst.symm
  next c rest _ =>
    have hqueue : s.Keeps { s with pending := rest } := State.keeps_of_same rfl rfl rfl rfl rfl rfl
    exact hqueue.trans (State.keeps_exec h)

/-! The headline laws. -/

/-- Settles O2: each of the 64 arms answers a next state. -/
theorem noCommandStopsThePart : Obligations.NoCommandStopsThePart := fun c s =>
  (exec_next c s).imp fun _ h => h.1

/-- Settles O4: the power-on values are lawful. -/
theorem resetStateIsLawful : Obligations.ResetStateIsLawful :=
  ⟨State.tablesLawful_powerOn 0, State.mapLawful_empty rfl,
    (State.buffersLawful_iff _).2 ⟨State.overtakenBounded_empty rfl, State.digitsBounded_initial rfl⟩,
    Mgp.lawful_initial _, State.isolatedLawful_of_ne (by decide)⟩

/-- Settles O5: by `State.keeps_step`. -/
theorem tablesStayLawful : Obligations.TablesStayLawful := fun _ _ h hs => (State.keeps_step hs).tables h

/-- Settles O6: by `State.keeps_step`. -/
theorem ringSlotMapStaysWithinCapacity : Obligations.RingSlotMapStaysWithinCapacity := fun _ _ h hs =>
  (State.keeps_step hs).map h

/-- Settles O7: by `State.keeps_step`. -/
theorem buffersStayLawful : Obligations.BuffersStayLawful := fun _ _ h hs => (State.keeps_step hs).buffers h

/-- Settles O8: by `State.keeps_step`. -/
theorem managementPortStaysBounded : Obligations.ManagementPortStaysBounded := fun _ _ h hs =>
  (State.keeps_step hs).port h

/-- Settles O9: by `State.keeps_step`. -/
theorem isolatedServiceHoldsNoThroughLine : Obligations.IsolatedServiceHoldsNoThroughLine := fun _ _ h hs =>
  (State.keeps_step hs).isolated h

/-- Settles O1: the two branches of `step`. -/
theorem stepTakesTheFrontCommand : Obligations.StepTakesTheFrontCommand := by
  refine ⟨fun c rest s h => ?_, fun s h => ?_⟩
  · rw [step, h]
  · rw [step, h]

end Sys2Proof.Machine

/-! TABLE WRITE of a bus capacity, a group flag and the timing record, TABLE READ and TABLE CHECK: what each handler makes
of a payload, and the statements about the requests (R10 to R12, R17 to R19). -/

namespace Sys2Proof.Machine

variable {s : State} {r : Req}

/-! The bus capacity (R10). -/

section Bus

variable {key cap : Nat}

theorem writeBus_of_length_ne (hl : r.payload.length ≠ 2) : writeBus s r = (s, refuse .badRequest) := by
  unfold writeBus
  split
  next heq => exact absurd (by simpa using congrArg List.length heq) hl
  next => rfl

theorem writeBus_of_outOfRange (hp : numbers r.payload = [key, cap]) (h : key = 0 ∨ 4 < key ∨ 63 < cap) :
    writeBus s r = (s, refuse .badRequest) := by
  cases hb : busOf key with
  | none => simp [writeBus, hp, hb]
  | some b =>
    have hcap : 63 < cap := by
      have hkey := bounds_of_busOf hb
      omega
    simp [writeBus, hp, hb, hcap]

theorem writeBus_of_bus {b : BusId} (hp : numbers r.payload = [b.val + 1, cap]) (hcap : cap ≤ 63) :
    writeBus s r = if s.capacityInUse b cap then (s, refuse .inUse) else (s.takeCapacity b cap, accept []) := by
  simp [writeBus, hp, Nat.not_lt.mpr hcap]

theorem State.capacityInUse_iff (b : BusId) : s.capacityInUse b cap = true ↔
    (∃ sl, cap < tget (tget s.rsc.busLoad b) sl) ∨
      ∃ p ∈ s.rsc.parts, ∃ sp : Spec, sp.bus = b ∧ cap < sp.bell ∧
        (sp = p.spec ∧ (∃ k, p.status = .queued k) ∨ ∃ ch, p.staged = some ch ∧ ch.spec = some sp) := by
  simp [State.capacityInUse, State.lt_peakLoad, State.lt_waitingBell]

end Bus

/-- Settles O17: check 1 of R10 reads the key and the capacity, check 2 is `State.capacityInUse_iff`, and a pass is the
scan of the waiting parts (`State.passes_pass`). -/
theorem busWrite : Obligations.BusWrite := by
  intro s r hears
  refine ⟨fun hl => refuses_of (st := .badRequest) rfl hears (writeBus_of_length_ne hl), fun key cap hp => ?_⟩
  refine ⟨fun h => refuses_of (st := .badRequest) rfl hears (writeBus_of_outOfRange hp h), ?_⟩
  rintro b rfl hcap
  have hw := writeBus_of_bus (s := s) hp hcap
  rw [← State.capacityInUse_iff]
  refine ⟨fun hu => ?inUse, fun hu => ?free, fun hd => State.passes_pass hd⟩
  case inUse =>
    rw [if_pos hu] at hw
    exact refuses_of (st := .inUse) rfl hears hw
  case free =>
    rw [if_neg hu] at hw
    exact answers_of rfl hears hw

/-! The group flag (R11). -/

section Group

variable {key x : Nat}

theorem writeGroup_of_length_ne (hl : r.payload.length ≠ 2) : writeGroup s r = (s, refuse .badRequest) := by
  unfold writeGroup
  split
  next heq => exact absurd (by simpa using congrArg List.length heq) hl
  next => rfl

theorem writeGroup_of_outOfRange (hp : numbers r.payload = [key, x]) (h : 3 < key ∨ 1 < x) :
    writeGroup s r = (s, refuse .badRequest) := by
  cases hg : groupOf key with
  | none => simp [writeGroup, hp, hg]
  | some g =>
    have hx : 1 < x := by
      have hkey := le_of_groupOf hg
      omega
    simp [writeGroup, hp, hg, flagOf_none hx]

theorem writeGroup_of_group {g : GroupId} (hp : numbers r.payload = [g.val, x]) (hx : x ≤ 1) :
    writeGroup s r = if s.exclusionInUse g (decide (x = 1)) then (s, refuse .inUse)
      else (s.takeExclusion g (decide (x = 1)), accept []) := by
  simp [writeGroup, hp, flagOf_eq hx]

/-- Check 2 of R11: only turning the flag on can be refused. -/
theorem State.exclusionInUse_iff (g : GroupId) : s.exclusionInUse g (decide (x = 1)) = true ↔
    x = 1 ∧ s.exclusion g = false ∧ ¬ ∀ sl, tget (tget s.rsc.occupancy g) sl ≤ 1 := by
  simp [State.exclusionInUse, State.lt_peakOccupancy, and_assoc]

theorem State.takeExclusion_on (g : GroupId) : s.takeExclusion g true = s.setExclusion g true := by
  simp [State.takeExclusion]

theorem State.takeExclusion_off (g : GroupId) : s.takeExclusion g false =
    if s.exclusion g = true then (s.setExclusion g false).pass else s.setExclusion g false := by
  simp [State.takeExclusion]

end Group

/-- Settles O18: check 1 of R11 reads the key and the flag, check 2 is `State.exclusionInUse_iff`, and a pass is the scan
of the waiting parts (`State.passes_pass`). -/
theorem groupWrite : Obligations.GroupWrite := by
  intro s r hears
  refine ⟨fun hl => refuses_of (st := .badRequest) rfl hears (writeGroup_of_length_ne hl), fun key x hp => ?_⟩
  refine ⟨fun h => refuses_of (st := .badRequest) rfl hears (writeGroup_of_outOfRange hp h), ?_⟩
  rintro g rfl hx
  have hw := writeGroup_of_group (s := s) hp hx
  refine ⟨fun h1 hoff hapart => ?inUse, fun h1 hfree => ?on, fun h0 => ?off, fun hd => State.passes_pass hd⟩
  case inUse =>
    rw [if_pos ((State.exclusionInUse_iff g).mpr ⟨h1, hoff, hapart⟩)] at hw
    exact refuses_of (st := .inUse) rfl hears hw
  case on =>
    have hu : ¬ s.exclusionInUse g (decide (x = 1)) = true := by
      rw [State.exclusionInUse_iff]
      rintro ⟨-, hoff, hapart⟩
      rcases hfree with hon | h
      · simp [hon] at hoff
      · exact hapart h
    rw [if_neg hu, decide_eq_true h1, State.takeExclusion_on] at hw
    rw [decide_eq_true h1]
    exact answers_of rfl hears hw
  case off =>
    have hne : x ≠ 1 := by omega
    have hu : ¬ s.exclusionInUse g (decide (x = 1)) = true := fun h => hne ((State.exclusionInUse_iff g).mp h).1
    rw [if_neg hu, decide_eq_false hne, State.takeExclusion_off] at hw
    rw [decide_eq_false hne]
    exact answers_of rfl hears hw

/-! The timing record (R12). -/

section Timing

variable {sq tq oq hi lo rc st rh short long act : Nat}

/-- A timeout from its code: code 0 is none, and another names its entry of the list (R16). -/
def timeoutNamed (intervals : List Nat) (code : Nat) : Option Nat :=
  if code = 0 then none else some (intervals.getD code 0)

theorem shortTimeoutOf_eq (n : Nat) :
    shortTimeoutOf n = if n ≤ 4 then some (timeoutNamed [0, 20, 100, 400, 2000] n) else none := by
  match n with
  | 0 | 1 | 2 | 3 | 4 => rfl
  | _ + 5 => simp [shortTimeoutOf]

theorem longTimeoutOf_eq (n : Nat) :
    longTimeoutOf n = if n ≤ 3 then some (timeoutNamed [0, 400, 2000, 12000] n) else none := by
  match n with
  | 0 | 1 | 2 | 3 => rfl
  | _ + 4 => simp [longTimeoutOf]

theorem longActionOf_eq (n : Nat) :
    longActionOf n = if n ≤ 1 then some (if n = 1 then .release else .isolate) else none := by
  match n with
  | 0 | 1 => rfl
  | _ + 2 => simp [longActionOf]

/-- The law of R12 on a record whose timeouts are read from codes. -/
theorem Timing.legal_iff {hw : Nat} {a b : List Nat} {action : LongAction} :
    Timing.legal ⟨sq, tq, oq, hw, rc, st, rh, timeoutNamed a short, timeoutNamed b long, action⟩ = true ↔
      (10 ≤ sq ∧ sq ≤ 200 ∧ 2 ≤ tq ∧ tq ≤ 15 ∧ 60 ≤ oq ∧ oq ≤ 200 ∧ 1000 ≤ hw ∧ hw ≤ 12000 ∧ 1 ≤ rc ∧ rc ≤ 31 ∧
        1 ≤ st ∧ st ≤ 23 ∧ rh ≤ 15) ∧ (short = 0 ∨ long = 0 ∨ a.getD short 0 < b.getD long 0) := by
  unfold Timing.legal timeoutNamed
  by_cases hs : short = 0
  · simp [hs]
  · by_cases hl : long = 0
    · simp [hl]
    · simp [hs, hl]

/-- The checks of R12 on the eleven fields, and the record that they leave. -/
theorem timingFrom_eq_some {t : Timing} : timingFrom [sq, tq, oq, hi, lo, rc, st, rh, short, long, act] = some t ↔
    (10 ≤ sq ∧ sq ≤ 200 ∧ 2 ≤ tq ∧ tq ≤ 15 ∧ 60 ≤ oq ∧ oq ≤ 200 ∧ 1000 ≤ 256 * hi + lo ∧ 256 * hi + lo ≤ 12000 ∧
      1 ≤ rc ∧ rc ≤ 31 ∧ 1 ≤ st ∧ st ≤ 23 ∧ rh ≤ 15 ∧ short ≤ 4 ∧ long ≤ 3 ∧ act ≤ 1 ∧
      (short = 0 ∨ long = 0 ∨ [0, 20, 100, 400, 2000].getD short 0 < [0, 400, 2000, 12000].getD long 0)) ∧
    t = ⟨sq, tq, oq, 256 * hi + lo, rc, st, rh, timeoutNamed [0, 20, 100, 400, 2000] short,
      timeoutNamed [0, 400, 2000, 12000] long, if act = 1 then .release else .isolate⟩ := by
  by_cases hcodes : short ≤ 4 ∧ long ≤ 3 ∧ act ≤ 1
  · obtain ⟨hs, hl, ha⟩ := hcodes
    simp only [timingFrom, shortTimeoutOf_eq, longTimeoutOf_eq, longActionOf_eq, if_pos hs, if_pos hl, if_pos ha,
      Option.ite_none_right_eq_some, Option.some.injEq, Timing.legal_iff]
    simp only [hs, hl, ha, true_and, and_assoc, eq_comm]
  · have hnone : timingFrom [sq, tq, oq, hi, lo, rc, st, rh, short, long, act] = none := by
      simp only [timingFrom, shortTimeoutOf_eq, longTimeoutOf_eq, longActionOf_eq]
      split
      next h1 h2 h3 => simp at h1 h2 h3; omega
      next => rfl
    rw [hnone]
    refine ⟨fun h => absurd h (by simp), fun h => ?_⟩
    omega

theorem writeTiming_of_notLegal (hp : timingFrom (numbers r.payload) = none) :
    writeTiming s r = (s, refuse .badRequest) := by
  simp [writeTiming, hp]

theorem writeTiming_of_legal {t : Timing} (hp : timingFrom (numbers r.payload) = some t) :
    writeTiming s r = (s.setTiming t, accept []) := by
  simp [writeTiming, hp]

theorem timingFrom_of_length_ne {l : List Nat} (hl : l.length ≠ 11) : timingFrom l = none := by
  unfold timingFrom
  split
  next => exact absurd rfl hl
  next => rfl

end Timing

/-- Settles O19: `timingFrom_eq_some` gives the checks of R12 and the record that they leave. -/
theorem timingWrite : Obligations.TimingWrite := by
  intro s r hears
  refine ⟨fun hl => ?length, fun sq tq oq hi lo rc st rh short long act hp => ⟨fun hbad => ?bad, fun hgood => ?good⟩⟩
  case length =>
    have hnone : timingFrom (numbers r.payload) = none := timingFrom_of_length_ne (by simpa using hl)
    exact refuses_of (st := .badRequest) rfl hears (writeTiming_of_notLegal hnone)
  case bad =>
    have hnone : timingFrom (numbers r.payload) = none :=
      Option.eq_none_iff_forall_ne_some.mpr fun t ht => hbad (timingFrom_eq_some.mp (hp ▸ ht)).1
    exact refuses_of (st := .badRequest) rfl hears (writeTiming_of_notLegal hnone)
  case good =>
    exact answers_of rfl hears (writeTiming_of_legal (hp ▸ timingFrom_eq_some.mpr ⟨hgood, rfl⟩))

/-! TABLE READ (R17). -/

section TableRead

theorem tableRead_of_record {fields : List Nat} (h : s.readRecord (numbers r.payload) = .ok fields) :
    tableRead s r = (s, accept (r.payload ++ fields.map byteOf)) := by
  simp [tableRead, h]

theorem tableRead_of_error {st : Status} (h : s.readRecord (numbers r.payload) = .error st) :
    tableRead s r = (s, refuse st) := by
  simp [tableRead, h]

/-- A selector out of 1 to 6, or a key of another length than its table's, names no record (R17 check 1). -/
theorem State.readRecord_of_length_ne {sel : Nat} {rest : List Nat}
    (h : sel = 0 ∨ 6 < sel ∨ rest.length + 1 ≠ (if sel = 2 then 3 else if sel = 6 then 1 else 2)) :
    s.readRecord (sel :: rest) = .error .badRequest := by
  unfold State.readRecord
  split
  case h_7 => rfl
  all_goals
    next heq =>
      obtain ⟨rfl, rfl⟩ := List.cons.inj heq
      simp at h

end TableRead

/-- Settles O20: `State.readRecord` by the selector, with the keys in and out of range. -/
theorem tableReadReturnsTheRecord : Obligations.TableReadReturnsTheRecord := by
  intro s r hears
  have reads {fields : List Nat} (h : s.readRecord (numbers r.payload) = .ok fields) :
      answers (.tableRead r) s 0x11 r s (0 :: (r.payload ++ fields.map byteOf)) :=
    answers_of rfl hears (tableRead_of_record h)
  have fails {st : Status} (h : s.readRecord (numbers r.payload) = .error st) :
      refuses (.tableRead r) s 0x11 r (byteOf (statusCode st)) :=
    refuses_of rfl hears (tableRead_of_error h)
  refine ⟨fun n hp => reads ?_, fun n p hp => reads ?_, fun c hp => reads ?_, fun b hp => reads ?_,
    fun g hp => reads ?_, fun hp => reads ?_, fun sel rest hp h => fails (st := .badRequest) ?_,
    fun hp => fails (st := .badRequest) ?_, fun line hp h => fails (st := .noLine) ?_,
    fun line p hp => ⟨fun h => fails (st := .noLine) ?_, fun h hparty => fails (st := .badRequest) ?_⟩,
    fun sel key hp h => fails (st := .badRequest) ?_⟩
  · simp [hp, State.readRecord]
  · simp [hp, State.readRecord]
  · simp [hp, State.readRecord]
  · simp [hp, State.readRecord]
  · simp [hp, State.readRecord, flag]
  · simp [hp, State.readRecord]
  · rw [hp, State.readRecord_of_length_ne h]
  · simp [hp, numbers, State.readRecord]
  · simp [hp, State.readRecord, lineOf_none h]
  · simp [hp, State.readRecord, lineOf_none h]
  · obtain ⟨n, hn⟩ := lineOf_of_le h
    simp [hp, State.readRecord, hn, partyOf_none hparty]
  · rcases h with ⟨rfl, h⟩ | ⟨rfl, h⟩ | ⟨rfl, h⟩
    · simp [hp, State.readRecord, cadenceOf_none h]
    · simp [hp, State.readRecord, busOf_none h]
    · simp [hp, State.readRecord, groupOf_none h]

/-! TABLE CHECK (R18, R19). -/

section TableCheck

variable {code line : Byte} {expected : List Byte}

theorem tableCheck_of_length_ne (h2 : r.payload.length ≠ 2) (h4 : r.payload.length ≠ 4) :
    tableCheck s r = (s, refuse .badRequest) := by
  unfold tableCheck
  split
  next expected hp =>
    simp only [hp, List.length_cons] at h2 h4
    rw [if_neg (by omega)]
  next => rfl

variable (hp : r.payload = code :: line :: expected) (he : expected = [] ∨ expected.length = 2)

include hp he

theorem tableCheck_of_region {bytes : List Nat} (h : s.region code.toNat line.toNat = .ok bytes) :
    tableCheck s r = (s, checkAnswer bytes expected) := by
  have hlen : expected.length = 0 ∨ expected.length = 2 := he.imp_left fun h => by rw [h]; rfl
  simp only [tableCheck, hp, if_pos hlen, h]

theorem tableCheck_of_error {st : Status} (h : s.region code.toNat line.toNat = .error st) :
    tableCheck s r = (s, refuse st) := by
  have hlen : expected.length = 0 ∨ expected.length = 2 := he.imp_left fun h => by rw [h]; rfl
  simp only [tableCheck, hp, if_pos hlen, h]

end TableCheck

theorem byteOf_comparisonCode (value expected : List Byte) :
    byteOf (comparisonCode value expected) = if expected = [] then 0 else if expected = value then 1 else 2 := by
  unfold comparisonCode
  split
  next => rfl
  next => split <;> rfl

theorem State.region_of_noRegion {code line : Nat} (h : code = 0 ∨ 4 < code) :
    s.region code line = .error .badRequest := by
  match code, h with
  | 0, _ => rfl
  | _ + 5, _ => rfl

theorem State.region_of_line_ne {code line : Nat} (h2 : 2 ≤ code) (h4 : code ≤ 4) (hl : line ≠ 0) :
    s.region code line = .error .badRequest := by
  match code, h2, h4 with
  | 2, _, _ | 3, _, _ | 4, _, _ => simp [State.region, hl]

/-- Settles O21: the region by its code, and the comparison byte by `byteOf_comparisonCode`. -/
theorem tableCheckReturnsTheCrc : Obligations.TableCheckReturnsTheCrc := by
  intro s r hears
  refine ⟨fun h2 h4 => refuses_of (st := .badRequest) rfl hears (tableCheck_of_length_ne h2 h4), ?_⟩
  intro code line expected hp he
  have replies {bytes : List Nat} (h : s.region code.toNat line.toNat = .ok bytes) :
      answers (.tableCheck r) s 0x12 r s ([0] ++ twoBytes (crc16 (bytes.map byteOf)).toNat ++
        [if expected = [] then 0 else if expected = twoBytes (crc16 (bytes.map byteOf)).toNat then 1 else 2]) := by
    rw [← byteOf_comparisonCode]
    exact answers_of rfl hears (tableCheck_of_region hp he h)
  have fails {st : Status} (h : s.region code.toNat line.toNat = .error st) :
      refuses (.tableCheck r) s 0x12 r (byteOf (statusCode st)) :=
    refuses_of rfl hears (tableCheck_of_error hp he h)
  refine ⟨?line, ?cadences, ?rest, ?all, ?noLine, ?noRegion, ?lineGiven⟩
  case line =>
    rintro n rfl hl
    exact replies (by simp [State.region, hl, State.lineRegion])
  case cadences =>
    rintro rfl rfl
    exact replies rfl
  case rest =>
    rintro rfl rfl
    exact replies rfl
  case all =>
    rintro rfl rfl
    exact replies rfl
  case noLine =>
    rintro rfl hl
    exact fails (st := .noLine) (by simp [State.region, lineOf_none hl])
  case noRegion =>
    intro h
    refine fails (st := .badRequest) (State.region_of_noRegion (h.imp_left fun h => ?_))
    rw [h]; rfl
  case lineGiven =>
    intro h2 h4 hl
    refine fails (st := .badRequest) (State.region_of_line_ne h2 h4 fun h => hl ?_)
    exact BitVec.eq_of_toNat_eq h

end Sys2Proof.Machine

/-! The request commands and their messages, what every request leaves of the reply slot, the message envelope, and the
record forms that a write is read back by (R162 to R164, R169, R170, R17). -/

namespace Sys2Proof.Machine

variable {s : State} {r : Req}

/-! A request command is its message (R174, R175). -/

theorem exec_of_commandRequest {c : Instr} {code : Byte} (h : commandRequest c = some (code, r)) :
    exec c s = .next (s.handleRequest code r (executeCode code)) := by
  cases c
  all_goals cases h
  all_goals rfl

theorem executeCode_of_unknown {code : Byte} (h : code.toNat ∉ requestCodes) :
    executeCode code s r = (s, refuse .badRequest) := by
  unfold executeCode
  split
  case h_22 => rfl
  all_goals
    next heq => exact absurd (by rw [heq]; decide) h

/-- Settles O11: `exec_of_commandRequest`, and the codes that `executeCode` has no arm for. -/
theorem requestRowIsItsMessage : Obligations.RequestRowIsItsMessage :=
  ⟨fun _ _ _ _ h => exec_of_commandRequest h,
    fun _ _ _ h hears => refuses_of (st := .badRequest) rfl hears (executeCode_of_unknown h)⟩

/-! What every request makes of the reply slot (R169, R170). -/

/-- A request's outcome that leaves the reply slot, and whose answer carries results only on acceptance. -/
structure Courteous (s : State) (x : State × Answer) : Prop where
  slot : x.1.fixed.replySlot = s.fixed.replySlot
  result : x.2.status ≠ .accepted → x.2.result = []

/-- Nothing waits for the reply to leave. -/
structure Prompt (s : State) (x : State × Answer) : Prop extends Courteous s x where
  after : x.2.after = .nothing

@[simp] theorem Prompt.refuse (st : Status) : Prompt s (s, refuse st) := ⟨⟨rfl, fun _ => rfl⟩, rfl⟩

@[simp] theorem prompt_accept (t : State) (res : List Byte) :
    Prompt s (t, accept res) ↔ t.fixed.replySlot = s.fixed.replySlot :=
  ⟨fun h => h.slot, fun h => ⟨⟨h, fun hst => absurd rfl hst⟩, rfl⟩⟩

@[simp] theorem prompt_refuse (t : State) (st : Status) :
    Prompt s (t, refuse st) ↔ t.fixed.replySlot = s.fixed.replySlot :=
  ⟨fun h => h.slot, fun h => ⟨⟨h, fun _ => rfl⟩, rfl⟩⟩

@[simp] theorem State.replySlot_setPtb (x : Ptb) : (s.setPtb x).fixed.replySlot = s.fixed.replySlot := rfl

theorem prompt_ring : Prompt s (ring s r) := by
  unfold ring State.ringParty
  repeat' split
  all_goals simp

theorem prompt_ringStop : Prompt s (ringStop s r) := by
  unfold ringStop
  repeat' split
  all_goals simp

theorem prompt_ringAmend : Prompt s (ringAmend s r) := by
  unfold ringAmend State.takeAmend
  repeat' split
  all_goals simp

theorem prompt_revert : Prompt s (revert s r) := by
  unfold revert State.revertParty
  repeat' split
  all_goals simp

theorem prompt_identify : Prompt s (identify s r) := by
  unfold identify State.takeIdentify
  repeat' split
  all_goals simp

theorem prompt_lineBlock : Prompt s (lineBlock s r) := by
  unfold lineBlock
  repeat' split
  all_goals simp

theorem prompt_lineUnblock : Prompt s (lineUnblock s r) := by
  unfold lineUnblock
  repeat' split
  all_goals simp

theorem prompt_lineQuery : Prompt s (lineQuery s r) := by
  unfold lineQuery
  repeat' split
  all_goals simp

theorem prompt_callQuery : Prompt s (callQuery s r) := by
  unfold callQuery
  repeat' split
  all_goals simp

theorem prompt_tableRead : Prompt s (tableRead s r) := by
  unfold tableRead
  split
  all_goals simp

theorem prompt_tableCheck : Prompt s (tableCheck s r) := by
  unfold tableCheck checkAnswer
  repeat' split
  all_goals simp

theorem prompt_writeLineAttribute : Prompt s (writeLineAttribute s r) := by
  unfold writeLineAttribute
  repeat' split
  all_goals simp [State.setAttr]

theorem prompt_writeEntry (n : LineId) (p : PartyId) (e : Option PartyEntry) : Prompt s (s.writeEntry n p e) := by
  unfold State.writeEntry
  dsimp only
  split
  all_goals simp [State.setParty]

theorem prompt_writeParty : Prompt s (writeParty s r) := by
  unfold writeParty
  repeat' split
  all_goals simp [prompt_writeEntry]

theorem prompt_writeCadence : Prompt s (writeCadence s r) := by
  unfold writeCadence
  repeat' split
  all_goals simp [State.setCadence]

theorem prompt_writeBus : Prompt s (writeBus s r) := by
  unfold writeBus State.takeCapacity
  repeat' split
  all_goals simp [State.setCapacity]

theorem prompt_writeGroup : Prompt s (writeGroup s r) := by
  unfold writeGroup State.takeExclusion
  repeat' split
  all_goals simp [State.setExclusion]

theorem prompt_writeTiming : Prompt s (writeTiming s r) := by
  unfold writeTiming
  split
  all_goals simp [State.setTiming]

theorem prompt_tableWrite : Prompt s (tableWrite s r) := by
  unfold tableWrite
  split
  next => simp
  next =>
    dsimp only
    split
    next => exact prompt_writeLineAttribute
    next => exact prompt_writeParty
    next => exact prompt_writeCadence
    next => exact prompt_writeBus
    next => exact prompt_writeGroup
    next => exact prompt_writeTiming
    next => simp

theorem prompt_meterSet : Prompt s (meterSet s r) := by
  unfold meterSet
  repeat' split
  all_goals simp

theorem prompt_meterRead : Prompt s (meterRead s r) := by
  unfold meterRead
  repeat' split
  all_goals simp

theorem prompt_meterPreset : Prompt s (meterPreset s r) := by
  unfold meterPreset
  repeat' split
  all_goals simp

theorem prompt_meterHold (b : Bool) : Prompt s (meterHold b s r) := by
  unfold meterHold
  repeat' split
  all_goals simp

theorem prompt_meterClear : Prompt s (meterClear s r) := by
  unfold meterClear
  repeat' split
  all_goals simp

theorem prompt_countersRead : Prompt s (countersRead s r) := by
  unfold countersRead
  repeat' split
  all_goals simp

/-- Every request but SET ADDRESS and RESET takes effect whole in its event. -/
theorem prompt_executeCode {code : Byte} (ha : code ≠ 0x21) (hr : code ≠ 0x22) : Prompt s (executeCode code s r) := by
  unfold executeCode
  split
  case h_1 => exact prompt_ring
  case h_2 => exact prompt_ringStop
  case h_3 => exact prompt_ringAmend
  case h_4 => exact prompt_revert
  case h_5 => exact prompt_identify
  case h_6 => exact prompt_lineBlock
  case h_7 => exact prompt_lineUnblock
  case h_8 => exact prompt_lineQuery
  case h_9 => exact prompt_callQuery
  case h_10 => exact prompt_tableWrite
  case h_11 => exact prompt_tableRead
  case h_12 => exact prompt_tableCheck
  case h_13 => exact prompt_meterSet
  case h_14 => exact prompt_meterRead
  case h_15 => exact prompt_meterPreset
  case h_16 => exact prompt_meterHold true
  case h_17 => exact prompt_meterHold false
  case h_18 => exact prompt_meterClear
  case h_19 => exact prompt_countersRead
  case h_20 heq => exact absurd (BitVec.eq_of_toNat_eq heq) ha
  case h_21 heq => exact absurd (BitVec.eq_of_toNat_eq heq) hr
  case h_22 => exact Prompt.refuse _

theorem courteous_setAddress : Courteous s (setAddress s r) := by
  unfold setAddress
  repeat' split
  case h_2.isFalse => exact ⟨rfl, fun _ => rfl⟩
  all_goals exact (Prompt.refuse _).toCourteous

theorem courteous_reset : Courteous s (reset s r) := by
  unfold reset
  split
  next => exact ⟨rfl, fun _ => rfl⟩
  next => exact (Prompt.refuse _).toCourteous

theorem courteous_executeCode {code : Byte} : Courteous s (executeCode code s r) := by
  by_cases ha : code = 0x21
  · exact ha ▸ courteous_setAddress
  · by_cases hr : code = 0x22
    · exact hr ▸ courteous_reset
    · exact (prompt_executeCode ha hr).toCourteous

/-- A broadcast SET ADDRESS leaves the reply slot. -/
theorem replySlot_broadcast_setAddress :
    ((setAddress s r).1.applyAfter (setAddress s r).2.after).mgp.replySlot = s.mgp.replySlot := by
  unfold setAddress
  repeat' split
  all_goals rfl

/-- What a broadcast RESET leaves in the reply slot: nothing, when it is accepted. -/
theorem replySlot_broadcast_reset :
    ((reset s r).1.applyAfter (reset s r).2.after).mgp.replySlot = s.mgp.replySlot ∨
      ((reset s r).1.applyAfter (reset s r).2.after).mgp.replySlot = none := by
  unfold reset
  split
  next => exact .inr rfl
  next => exact .inl rfl

theorem replySlot_broadcast {code : Byte} (hb : r.broadcast = true) :
    (s.handleRequest code r (executeCode code)).mgp.replySlot = s.mgp.replySlot ∨
      code = 0x22 ∧ (s.handleRequest code r (executeCode code)).mgp.replySlot = none := by
  rw [State.handleRequest_broadcast hb]
  by_cases ha : code = 0x21
  · subst ha
    exact .inl replySlot_broadcast_setAddress
  · by_cases hr : code = 0x22
    · subst hr
      exact replySlot_broadcast_reset.imp_right fun h => ⟨rfl, h⟩
    · have h := prompt_executeCode (s := s) (r := r) ha hr
      rw [h.after]
      exact .inl h.slot

/-- Settles O12: by the message of the command (`exec_of_commandRequest`), an occupied slot overruns, an empty one takes
the reply of a `Courteous` outcome, and a broadcast request leaves the slot (`replySlot_broadcast`). -/
theorem requestIsAnsweredOrOverruns : Obligations.RequestIsAnsweredOrOverruns := by
  refine ⟨fun c s code r h hb hs => ?occupied, fun c s code r h hb hs => ?answered, fun c s code r h hb => ?broadcast⟩
  case occupied =>
    rw [exec_of_commandRequest h, State.handleRequest_occupied hb hs]
    rfl
  case answered =>
    rw [exec_of_commandRequest h, State.handleRequest_addressed hb hs, State.replied,
      if_neg (by simp [hb])]
    exact ⟨_, _, rfl, rfl, rfl, rfl, rfl, _, _, rfl, courteous_executeCode.result⟩
  case broadcast =>
    exact ⟨_, exec_of_commandRequest h, replySlot_broadcast hb⟩

end Sys2Proof.Machine

/-! The record forms that a write is read back by (R16, R17), and the message envelope (R162 to R164). -/

namespace Sys2Proof.Machine

variable {s : State} {r : Req}

/-! The form of a record read from fields is these fields (R16). -/

theorem flag_of_flagOf {n : Nat} {x : Bool} (h : flagOf n = some x) : flag x = n := by
  obtain ⟨hn, rfl⟩ := flagOf_eq_some.mp h
  match n, hn with
  | 0, _ | 1, _ => rfl

theorem val_of_groupOf {n : Nat} {g : GroupId} (h : groupOf n = some g) : g.val = n := by
  unfold groupOf at h
  split at h
  next => cases h; rfl
  next => cases h

theorem val_of_lineOf {n : Nat} {l : LineId} (h : lineOf n = some l) : l.val = n := by
  unfold lineOf at h
  split at h
  next => cases h; rfl
  next => cases h

theorem val_of_cadenceOf {n : Nat} {c : CadenceId} (h : cadenceOf n = some c) : c.val = n := by
  unfold cadenceOf at h
  split at h
  next => cases h; rfl
  next => cases h

theorem val_of_busOf {n : Nat} {b : BusId} (h : busOf n = some b) : b.val + 1 = n := by
  unfold busOf at h
  split at h
  next hn => cases h; exact Nat.sub_add_cancel hn.1
  next => cases h

theorem val_of_partyOf {n : Nat} {p : PartyId} (h : partyOf n = some p) : p.val + 1 = n := by
  unfold partyOf at h
  split at h
  next hn => cases h; exact Nat.sub_add_cancel hn.1
  next => cases h

theorem legCode_of_legOfCode {n : Nat} {l : Leg} (h : legOfCode n = some l) : legCode l = n := by
  have hn := le_of_legOfCode h
  match n, hn, h with
  | 0, _, h | 1, _, h | 2, _, h => cases h; rfl

theorem lineAttrForm_of_lineAttrOf {h g c b i : Nat} {a : LineAttr} (ha : lineAttrOf h g c b i = some a) :
    lineAttrForm a = [h, g, c, b, i] := by
  obtain ⟨hh, hg, hc, hc', hb, hi⟩ := inRange_of_lineAttrOf ha
  rw [lineAttrOf_of_inRange hh hg hc hc' hb hi] at ha
  cases ha
  have hgroup := val_of_groupOf (groupOf_of_le hg)
  have hback := flag_of_flagOf (flagOf_eq hb)
  have hidentify := flag_of_flagOf (flagOf_eq hi)
  simp only [lineAttrForm, hgroup, hback, hidentify]
  match h, hh with
  | 0, _ | 1, _ => rfl

/-- A run of positions with its unused ones 0 (R16). -/
theorem padTo_take {k n : Nat} {d : List Nat} (hd : d.length = k) (hn : n ≤ k) (hz : ∀ x ∈ d.drop n, x = 0) :
    padTo k (d.take n) = d := by
  have hrest : d.drop n = List.replicate (k - n) 0 := List.eq_replicate_iff.mpr ⟨by simp [hd], hz⟩
  rw [padTo, List.length_take, hd, Nat.min_eq_left hn, ← hrest, List.take_append_drop]

theorem getD_of_classOf {n : Nat} {c : Option Nat} (h : classOf n = some c) : c.getD 15 = n := by
  rw [classOf_of_le (le_of_classOf h)] at h
  cases h
  split
  next hn => exact hn.symm
  next => rfl

theorem partyForm_of_presentEntryOf {bus leg cad bell cls len : Nat} {d : List Nat} {e : PartyEntry}
    (hd : d.length = 4) (h : presentEntryOf bus leg cad bell cls len d = some e) :
    partyForm (some e) = [1, bus, leg, cad, bell, cls, len] ++ d := by
  unfold presentEntryOf at h
  split at h
  next hsp hcls hcode =>
    cases h
    obtain ⟨rfl, hlen, -, hrest⟩ := revertCodeOf_eq_some.mp hcode
    have hle : len ≤ 4 := by omega
    unfold specFrom at hsp
    split at hsp
    next hb hl hc =>
      split at hsp
      next =>
        cases hsp
        simp [partyForm, val_of_busOf hb, legCode_of_legOfCode hl, val_of_cadenceOf hc, getD_of_classOf hcls,
          padTo_take hd hle hrest, hd, hle]
      next => cases hsp
    next => cases hsp
  next => cases h

theorem partyForm_of_entryOf {pres bus leg cad bell cls len : Nat} {d : List Nat} {e : Option PartyEntry}
    (hd : d.length = 4) (h : entryOf pres bus leg cad bell cls len d = some e) :
    partyForm e = [pres, bus, leg, cad, bell, cls, len] ++ d := by
  have hrange := inRange_of_entryOf hd h
  unfold entryOf at h
  split at h
  next h0 =>
    split at h
    next =>
      cases h
      obtain ⟨-, hz⟩ := hrange.resolve_right fun hp => by omega
      rw [List.cons_append, hz, h0]
      rfl
    next => cases h
  next =>
    split at h
    next h1 =>
      obtain ⟨x, hx, rfl⟩ := Option.map_eq_some_iff.mp h
      exact h1 ▸ partyForm_of_presentEntryOf hd hx
    next => cases h

theorem cadenceForm_of_cadenceFrom {count : Nat} {d l : List Nat} (hd : d.length = 8)
    (h : cadenceFrom count d = some l) : cadenceForm l = count :: d := by
  obtain ⟨rfl, -, hcount, hrest⟩ := (cadenceFrom_eq_some hd).mp h
  have hle : count ≤ 8 := by omega
  rw [cadenceForm, padTo_take hd hle hrest, List.length_take, hd, Nat.min_eq_left hle]

theorem shortTimeoutCode_named {n : Nat} (h : n ≤ 4) :
    shortTimeoutCode (timeoutNamed [0, 20, 100, 400, 2000] n) = n := by
  match n, h with
  | 0, _ | 1, _ | 2, _ | 3, _ | 4, _ => rfl

theorem longTimeoutCode_named {n : Nat} (h : n ≤ 3) :
    longTimeoutCode (timeoutNamed [0, 400, 2000, 12000] n) = n := by
  match n, h with
  | 0, _ | 1, _ | 2, _ | 3, _ => rfl

theorem longActionCode_named {n : Nat} (h : n ≤ 1) : longActionCode (if n = 1 then .release else .isolate) = n := by
  match n, h with
  | 0, _ | 1, _ => rfl

theorem timingForm_of_timingFrom {l : List Nat} {t : Timing} (hl : ∀ x ∈ l, x < 256) (h : timingFrom l = some t) :
    timingForm t = l := by
  match l, h with
  | [sq, tq, oq, hi, lo, rc, st, rh, short, long, act], h =>
    obtain ⟨hrange, rfl⟩ := timingFrom_eq_some.mp h
    have hlo : lo < 256 := hl lo (by simp)
    have hhigh : (256 * hi + lo) / 256 = hi := by omega
    have hlow : (256 * hi + lo) % 256 = lo := by omega
    obtain ⟨-, -, -, -, -, -, -, -, -, -, -, -, -, hs, hlg, ha, -⟩ := hrange
    simp only [timingForm, hhigh, hlow, shortTimeoutCode_named hs, longTimeoutCode_named hlg, longActionCode_named ha]

/-! An accepted write is read back (R17). -/

/-- The record of the key that the fields begin with is the rest of them. -/
def State.readsBack (t : State) (sel k : Nat) (fields : List Nat) : Prop :=
  t.readRecord (sel :: fields.take k) = .ok (fields.drop k)

section

variable {t : State} {a : Answer}

/-- A write that a last check may refuse, accepted. -/
theorem eq_of_accepted {p : Prop} [Decidable p] {u : State} {st : Status} {res : List Byte} (hst : st ≠ .accepted)
    (h : (if p then (s, refuse st) else (u, accept res)) = (t, a)) (ha : a.status = .accepted) : t = u := by
  split at h
  next => cases h; exact absurd ha hst
  next => cases h; rfl

theorem readsBack_lineAttribute (h : writeLineAttribute s r = (t, a)) (ha : a.status = .accepted) :
    t.readsBack 1 1 (numbers r.payload) := by
  unfold writeLineAttribute at h
  split at h
  next hp =>
    split at h
    next => cases h; cases ha
    next n hn =>
      split at h
      next => cases h; cases ha
      next attr hattr =>
        rw [eq_of_accepted (by decide) h ha, hp]
        simp [State.readsBack, State.readRecord, hn, State.attr, State.setAttr, lineAttrForm_of_lineAttrOf hattr]
  next => cases h; cases ha

theorem readsBack_party (h : writeParty s r = (t, a)) (ha : a.status = .accepted) :
    t.readsBack 2 2 (numbers r.payload) := by
  unfold writeParty at h
  split at h
  next hp =>
    split at h
    next => cases h; cases ha
    next n hn =>
      split at h
      next p e hparty hentry =>
        unfold State.writeEntry at h
        dsimp only at h
        split at h
        next =>
          cases h
          rw [hp]
          simp [State.readsBack, State.readRecord, hn, hparty, State.party_setParty,
            partyForm_of_entryOf (d := [_, _, _, _]) rfl hentry]
        next hst => cases h; exact absurd ha hst
      next => cases h; cases ha
  next => cases h; cases ha

theorem readsBack_cadence (h : writeCadence s r = (t, a)) (ha : a.status = .accepted) :
    t.readsBack 3 1 (numbers r.payload) := by
  unfold writeCadence at h
  split at h
  next hp =>
    split at h
    next c l hc hl =>
      rw [eq_of_accepted (by decide) h ha, hp]
      simp [State.readsBack, State.readRecord, hc, State.cadence_setCadence,
        cadenceForm_of_cadenceFrom (d := [_, _, _, _, _, _, _, _]) rfl hl]
    next => cases h; cases ha
  next => cases h; cases ha

/-- The tables after a write that may start a pass. -/
theorem State.ptb_takeCapacity (b : BusId) (k : Nat) : (s.takeCapacity b k).ptb = (s.setCapacity b k).ptb := by
  unfold State.takeCapacity
  split
  next => exact State.ptb_of_fixed (State.fixed_pass _)
  next => rfl

theorem State.ptb_takeExclusion (g : GroupId) (x : Bool) : (s.takeExclusion g x).ptb = (s.setExclusion g x).ptb := by
  unfold State.takeExclusion
  split
  next => exact State.ptb_of_fixed (State.fixed_pass _)
  next => rfl

theorem readsBack_bus (h : writeBus s r = (t, a)) (ha : a.status = .accepted) :
    t.readsBack 4 1 (numbers r.payload) := by
  unfold writeBus at h
  split at h
  next hp =>
    split at h
    next => cases h; cases ha
    next b hb =>
      split at h
      next => cases h; cases ha
      next =>
        rw [eq_of_accepted (by decide) h ha, hp]
        simp [State.readsBack, State.readRecord, hb, State.capacity, State.ptb_takeCapacity, State.setCapacity]
  next => cases h; cases ha

theorem readsBack_group (h : writeGroup s r = (t, a)) (ha : a.status = .accepted) :
    t.readsBack 5 1 (numbers r.payload) := by
  unfold writeGroup at h
  split at h
  next hp =>
    split at h
    next g x hg hx =>
      rw [eq_of_accepted (by decide) h ha, hp]
      simp [State.readsBack, State.readRecord, hg, State.exclusion, State.ptb_takeExclusion, State.setExclusion,
        flag_of_flagOf hx]
    next => cases h; cases ha
  next => cases h; cases ha

theorem readsBack_timing (h : writeTiming s r = (t, a)) (ha : a.status = .accepted) :
    t.readsBack 6 0 (numbers r.payload) := by
  unfold writeTiming at h
  split at h
  next x hx =>
    cases h
    simp [State.readsBack, State.readRecord, State.timing, State.setTiming,
      timingForm_of_timingFrom (fun _ => numbers_lt) hx]
  next => cases h; cases ha

/-- TABLE WRITE by its selector: the key is two numbers for a party, none for the timing record, else one. -/
theorem readsBack_tableWrite {sel : Byte} {rest : List Byte} (hp : r.payload = sel :: rest)
    (h : tableWrite s r = (t, a)) (ha : a.status = .accepted) :
    t.readsBack sel.toNat (if sel.toNat = 2 then 2 else if sel.toNat = 6 then 0 else 1) (numbers rest) := by
  simp only [tableWrite, hp] at h
  split at h
  next hsel => simpa [hsel] using readsBack_lineAttribute h ha
  next hsel => simpa [hsel] using readsBack_party h ha
  next hsel => simpa [hsel] using readsBack_cadence h ha
  next hsel => simpa [hsel] using readsBack_bus h ha
  next hsel => simpa [hsel] using readsBack_group h ha
  next hsel => simpa [hsel] using readsBack_timing h ha
  next => cases h; cases ha

end

/-- Settles O13: the record of the key that an accepted write begins with is the rest of the fields
(`readsBack_tableWrite`), and numbers and bytes are one to one (`payload_of_numbers`). -/
theorem tableWriteThenRead : Obligations.TableWriteThenRead := by
  intro s t r a sel k h ha hsel hk
  match hp : r.payload with
  | [] => simp [hp] at hsel
  | b :: rest =>
    have hb : b.toNat = sel := by simpa [hp] using hsel
    have hread := readsBack_tableWrite hp h ha
    have hk' : k = (if b.toNat = 2 then 2 else if b.toNat = 6 then 0 else 1) + 1 := by
      rw [hk, hb]
      split
      next => rfl
      next => split <;> rfl
    generalize (if b.toNat = 2 then 2 else if b.toNat = 6 then 0 else 1) = j at hread hk'
    subst hk'
    have htail : ((numbers rest).drop j).map byteOf = rest.drop j := by
      rw [List.map_drop, ← payload_of_numbers rfl]
    have hnumbers : numbers ((b :: rest).take (j + 1)) = b.toNat :: (numbers rest).take j := by
      simp [numbers, List.map_take]
    rw [tableRead_of_record (fields := (numbers rest).drop j) (by rw [hnumbers]; exact hread), htail]
    simp

end Sys2Proof.Machine

/-! The message envelope (R162 to R164), the meters (R192 to R195), the notices (R171), the part itself (R166, R177, R178)
and the upstream slot (R168, R170). -/

namespace Sys2Proof.Machine

variable {s : State} {r : Req}

/-! The message envelope (R162 to R164). -/

section Envelope

variable {dest source kind code : Byte} {payload : List Byte}

theorem length_message : (message dest source kind code payload).length = 8 + payload.length := by
  simp [message, twoBytes]
  omega

/-- The length field of any run of bytes that begins as the message does. -/
theorem messageLength_message (h : payload.length ≤ 32) (rest : List Byte) :
    messageLength (message dest source kind code payload ++ rest) = payload.length := by
  simp [messageLength, message, byteOf, Nat.mod_eq_of_lt (show payload.length < 256 by omega)]

theorem messageCheckAgrees_message (h : payload.length ≤ 32) :
    messageCheckAgrees (message dest source kind code payload) = true := by
  have hlen := messageLength_message (dest := dest) (source := source) (kind := kind) (code := code) h []
  rw [List.append_nil] at hlen
  have hbody : ([startValue, dest, source, kind, code, byteOf payload.length] ++ payload).length =
      6 + payload.length := by
    simp
    omega
  rw [messageCheckAgrees, hlen, decide_eq_true_eq]
  simp only [message]
  rw [List.drop_left' hbody, List.take_left' hbody]

theorem messagePayload_message (h : payload.length ≤ 32) :
    messagePayload (message dest source kind code payload) = payload := by
  have hlen := messageLength_message (dest := dest) (source := source) (kind := kind) (code := code) h []
  rw [List.append_nil] at hlen
  rw [messagePayload, hlen]
  simp [message]

/-- The length field is read from the first six bytes. -/
theorem messageLength_append {m : List Byte} (h : 6 ≤ m.length) (rest : List Byte) :
    messageLength (m ++ rest) = messageLength m := by
  have h5 : 5 < m.length := h
  simp [messageLength, List.getElem?_append_left h5]

/-- A pair of a message under way that does not end it (R163). -/
theorem assemble_goesOn {m : List Byte} {b1 b2 : Byte} {len : Nat} (hlen : len ≤ 32)
    (hfield : 6 ≤ (m ++ [b1, b2]).length → messageLength (m ++ [b1, b2]) = len)
    (hpart : (m ++ [b1, b2]).length < 8 + len) :
    assemble (some m) b1 b2 = (some (m ++ [b1, b2]), .taken) := by
  have hlong : ¬ (6 ≤ (m ++ [b1, b2]).length ∧ longestPayload < messageLength (m ++ [b1, b2])) := by
    rintro ⟨h6, h⟩
    rw [hfield h6, longestPayload] at h
    omega
  have hends : ¬ (6 ≤ (m ++ [b1, b2]).length ∧ 8 + messageLength (m ++ [b1, b2]) ≤ (m ++ [b1, b2]).length) := by
    rintro ⟨h6, h⟩
    rw [hfield h6] at h
    omega
  simp only [assemble, if_neg hlong, if_neg hends]

/-- The last pair of a message (R163). -/
theorem assemble_ends {m : List Byte} {b1 b2 : Byte} {len : Nat} (hlen : len ≤ 32)
    (hfield : messageLength (m ++ [b1, b2]) = len) (hends : 8 + len ≤ (m ++ [b1, b2]).length) :
    assemble (some m) b1 b2 = (none, .whole ((m ++ [b1, b2]).take (8 + len))) := by
  have h6 : 6 ≤ (m ++ [b1, b2]).length := by omega
  have hlong : ¬ longestPayload < len := Nat.not_lt.mpr hlen
  simp only [assemble, hfield, h6, hlong, hends, and_false, and_self, if_true, if_false]

/-- The assembler under way in a run of bytes that is a message with at most one byte after it: the pairs to come make
it whole (R163). -/
theorem feedPairs_whole {len : Nat} (hlen : len ≤ 32) : ∀ rest m : List Byte, rest.length % 2 = 0 → rest ≠ [] →
    messageLength (m ++ rest) = len → 8 + len ≤ (m ++ rest).length → (m ++ rest).length ≤ 9 + len →
    feedPairs (some m) rest = some (.whole ((m ++ rest).take (8 + len)))
  | [], _, _, hne, _, _, _ => absurd rfl hne
  | [_], _, heven, _, _, _, _ => by simp at heven
  | [b1, b2], m, _, _, hfield, hmin, _ => by rw [feedPairs, assemble_ends hlen hfield hmin]
  | b1 :: b2 :: b3 :: rest, m, heven, _, hfield, hmin, hmax => by
    have hrun : m ++ b1 :: b2 :: b3 :: rest = (m ++ [b1, b2]) ++ b3 :: rest := by simp
    rw [hrun] at hfield hmin hmax ⊢
    have hgoes : assemble (some m) b1 b2 = (some (m ++ [b1, b2]), .taken) := by
      refine assemble_goesOn hlen (fun h6 => by rw [← hfield, messageLength_append h6]) ?_
      simp at heven hmax ⊢
      omega
    simp only [feedPairs, hgoes]
    exact feedPairs_whole hlen (b3 :: rest) (m ++ [b1, b2]) (by simp at heven ⊢; omega) (by simp) hfield hmin hmax

/-- A message with or without a byte of fill, from the HUNT of the assembler. -/
theorem feedPairs_hunt {len : Nat} (hlen : len ≤ 32) {b2 : Byte} {rest : List Byte} (heven : rest.length % 2 = 0)
    (hfield : messageLength (startValue :: b2 :: rest) = len) (hmin : 8 + len ≤ rest.length + 2)
    (hmax : rest.length + 2 ≤ 9 + len) :
    feedPairs none (startValue :: b2 :: rest) = some (.whole ((startValue :: b2 :: rest).take (8 + len))) := by
  have hstart : assemble none startValue b2 = (some [startValue, b2], .taken) := rfl
  match rest with
  | [] => simp at hmin; omega
  | b3 :: rest =>
    simp only [feedPairs, hstart]
    exact feedPairs_whole hlen (b3 :: rest) [startValue, b2] heven (by simp) hfield (by simp at hmin ⊢; omega)
      (by simp at hmax ⊢; omega)

end Envelope

/-- Settles O10: the assembler makes the run whole (`feedPairs_hunt`), and the fields of the envelope. -/
theorem managementMessagesReassemble : Obligations.ManagementMessagesReassemble := by
  intro dest source kind code payload hp
  refine ⟨?feed, messageCheckAgrees_message hp, rfl, rfl, rfl, rfl, messagePayload_message hp⟩
  case feed =>
    obtain ⟨tail, htail⟩ : ∃ tail, message dest source kind code payload = startValue :: dest :: tail := ⟨_, rfl⟩
    have hlen := length_message (dest := dest) (source := source) (kind := kind) (code := code) (payload := payload)
    have hfield := messageLength_message (dest := dest) (source := source) (kind := kind) (code := code) hp
    have feeds (rest : List Byte) (hr : rest.length ≤ 1) (heven : (tail ++ rest).length % 2 = 0) :
        feedPairs none (message dest source kind code payload ++ rest) =
          some (.whole (message dest source kind code payload)) := by
      have hwhole : (message dest source kind code payload ++ rest).take (8 + payload.length) =
          message dest source kind code payload := List.take_left' hlen
      have hf := hfield rest
      rw [htail] at hlen hf hwhole ⊢
      simp only [List.length_cons] at hlen
      have hfeed := feedPairs_hunt hp heven hf (by simp; omega) (by simp; omega)
      rw [List.cons_append, List.cons_append] at hwhole ⊢
      rw [hfeed, hwhole]
    rw [htail, List.length_cons, List.length_cons] at hlen
    split
    next h =>
      rw [htail] at h
      simpa using feeds [] (by simp) (by simp at h ⊢; omega)
    next h =>
      rw [htail] at h
      exact feeds [0xFF] (by simp) (by simp at h ⊢; omega)

/-! The resets (R14, R178). -/

/-- Settles O3: the initial values of every block. -/
theorem powerOnResetValues : Obligations.PowerOnResetValues := by
  intro pins s
  refine ⟨addressOfPins pins, ?_, rfl⟩
  have hpins : pins.toNat < 32 := pins.isLt
  unfold addressOfPins
  split
  next h => rw [if_neg (by omega)]; rfl
  next h => rw [if_pos (by omega)]; rfl

/-- Settles O30: addressed, the soft reset waits with the reply; broadcast, it is `State.softReset`. (`reset` itself is
the handler's name.) -/
theorem reset_holds : Obligations.Reset := by
  intro s r
  refine ⟨fun hears hp => ?refused, fun hb hs hp => ?addressed, fun hb hp => ?broadcast⟩
  case refused =>
    refine refuses_of (st := .badRequest) rfl hears ?_
    unfold reset
    split
    next heq => exact absurd heq hp
    next => rfl
  case addressed =>
    have hx : reset s r = (s, { status := .accepted, result := [], after := .softReset }) := by simp [reset, hp]
    show Host.Outcome.next (s.handleRequest 0x22 r reset) = _
    rw [State.handleRequest_addressed hb hs, hx]
    rfl
  case broadcast =>
    have hx : reset s r = (s, { status := .accepted, result := [], after := .softReset }) := by simp [reset, hp]
    show Host.Outcome.next (s.handleRequest 0x22 r reset) = _
    rw [State.handleRequest_broadcast hb, hx]
    rfl

/-! SET ADDRESS (R166). -/

theorem setAddress_of_length_ne (hl : r.payload.length ≠ 1) : setAddress s r = (s, refuse .badRequest) := by
  unfold setAddress
  split
  next heq => exact absurd (by simpa using congrArg List.length heq) hl
  next => rfl

theorem setAddress_of_noAddress {b : Byte} (hp : r.payload = [b]) (hb : 30 < b.toNat) :
    setAddress s r = (s, refuse .badRequest) := by
  simp [setAddress, numbers_one hp, addressOf_none hb]

theorem setAddress_of_address {b : Byte} {a : Address} (hp : r.payload = [b]) (hb : b.toNat = a.val) :
    setAddress s r = if r.broadcast && s.mgp.address.isSome then (s, refuse .badRequest)
      else (s, { status := .accepted, result := [], after := .setAddress a }) := by
  simp [setAddress, numbers_one hp, hb]

/-- Settles O28: an address that may be set waits with the reply, or is taken in the event of a broadcast.
(`setAddress` itself is the handler's name.) -/
theorem setAddress_holds : Obligations.SetAddress := by
  intro s r
  refine ⟨fun hears hl => refuses_of (st := .badRequest) rfl hears (setAddress_of_length_ne hl),
    fun hears b hp hb => refuses_of (st := .badRequest) rfl hears (setAddress_of_noAddress hp hb), ?_⟩
  intro b a hp hb
  have hx := setAddress_of_address (s := s) hp hb
  have hexec : exec (.setAddress r) s = .next (s.handleRequest 0x21 r setAddress) := rfl
  refine ⟨fun hbr hs => ?addressed, fun hbr ha => ?set, fun hbr ha => ?stands⟩
  case addressed =>
    rw [if_neg (by simp [hbr])] at hx
    rw [hexec, State.handleRequest_addressed hbr hs, hx]
    rfl
  case set =>
    rw [if_neg (by simp [ha])] at hx
    rw [hexec, State.handleRequest_broadcast hbr, hx]
    rfl
  case stands =>
    rw [if_pos (by simpa [hbr, Option.isSome_iff_ne_none] using ha)] at hx
    rw [hexec, State.handleRequest_broadcast hbr, hx]
    rfl

/-! COUNTERS READ (R177). -/

theorem countersRead_of_length_ne (hl : r.payload.length ≠ 1) : countersRead s r = (s, refuse .badRequest) := by
  unfold countersRead
  split
  next heq => exact absurd (by simpa using congrArg List.length heq) hl
  next => rfl

theorem countersRead_of_noFlag {b : Byte} (hp : r.payload = [b]) (hb : 1 < b.toNat) :
    countersRead s r = (s, refuse .badRequest) := by
  simp [countersRead, numbers_one hp, flagOf_none hb]

theorem countersRead_of_flag {b : Byte} {x : Bool} (hp : r.payload = [b]) (hb : flagOf b.toNat = some x) :
    countersRead s r = (if x then s.modCounters (fun _ => Counters.zero) else s,
      accept (s.mgp.counters.list.flatMap twoBytes)) := by
  simp [countersRead, numbers_one hp, hb]

/-- Settles O27: the clear flag of the request. (`countersRead` itself is the handler's name.) -/
theorem countersRead_holds : Obligations.CountersRead := by
  intro s r hears
  exact ⟨fun hl => refuses_of (st := .badRequest) rfl hears (countersRead_of_length_ne hl),
    fun b hp hb => refuses_of (st := .badRequest) rfl hears (countersRead_of_noFlag hp hb),
    fun hp => answers_of rfl hears (countersRead_of_flag hp (x := false) rfl),
    fun hp => answers_of rfl hears (countersRead_of_flag hp (x := true) rfl)⟩

/-! The upstream slot (R166, R168, R170, R171). -/

/-- Settles O29: `State.replySent` and what waited for the reply. -/
theorem replySent : Obligations.ReplySent := by
  intro s rep hslot hsend
  have hsent : exec .replySent s =
      .next ((s.setMgp { s.mgp with sending := none, replySlot := none }).applyAfter rep.after) := by
    show Host.Outcome.next s.replySent = _
    simp [State.replySent, Mgp.hasSent, hsend, hslot]
  refine ⟨fun h => ?_, fun a h => ?_, fun h => ?_⟩
  all_goals
    rw [hsent, h]
    rfl

/-- Settles O42: each command's guard, and the head of its queue. -/
theorem upstreamItemsLeave : Obligations.UpstreamItemsLeave := by
  intro s
  have hold : exec .replyHoldOffExpiry s = .next s.holdOffExpiry := rfl
  have relayed : exec .relayedMessageSent s = .next s.relayedSent := rfl
  have notice : exec .noticeSent s = .next s.noticeSent := rfl
  refine ⟨fun rep hr h0 => ?_, fun h => ?_, fun hs m rest hq => ?_, fun hs => ?_, fun hs n rest hq => ?_,
    fun hs n rest hq => ?_, fun hu hr => ?_⟩
  · simp [hold, State.holdOffExpiry, hr, h0, State.setMgp]
  · cases hr : s.mgp.replySlot with
    | none => simp [hold, State.holdOffExpiry, hr]
    | some rep => simp [hold, State.holdOffExpiry, hr, h rep hr]
  · simp [relayed, State.relayedSent, Mgp.hasSent, hs, hq, State.setMgp]
  · simp [relayed, State.relayedSent, Mgp.hasSent, hs]
  · simp [notice, State.noticeSent, Mgp.hasSent, hs, hq, State.setMgp]
  · simp [notice, State.noticeSent, Mgp.hasSent, hs, hq, State.setMgp]
  · simp [notice, State.noticeSent, Mgp.hasSent, hu, hr]

/-! Notices (R171). -/

theorem State.notify_of_room {n : Notice} (h : noticeQueueFull s.mgp n = false) :
    s.notify n = { s with mgp := noticeJoined s.mgp n } := by
  simp [State.notify_eq, noticeInto, h]

theorem State.notify_of_full {n : Notice} (h : noticeQueueFull s.mgp n = true) :
    s.notify n = State.peg { s with mgp := noticeDropped s.mgp n } .noticeLost none := by
  simp [State.notify_eq, State.peg_eq, noticeInto, h]

/-- Settles O41: by the class of the notice and the room of its queue. -/
theorem noticeJoinsItsQueueOrIsLost : Obligations.NoticeJoinsItsQueueOrIsLost := by
  intro s n
  refine ⟨fun hc hl => ?_, fun hc hl => ?_, fun hc hl => ?_, fun hc hl => ?_⟩
  · rw [State.notify_of_room (by simp [noticeQueueFull, hc, urgentCapacity, Nat.not_le.mpr hl])]
    simp [noticeJoined, hc]
  · rw [State.notify_of_room (by simp [noticeQueueFull, hc, routineCapacity, Nat.not_le.mpr hl])]
    simp [noticeJoined, hc]
  · rw [State.notify_of_full (by simp [noticeQueueFull, hc, urgentCapacity, hl])]
    simp [noticeDropped, hc, countUp]
  · rw [State.notify_of_full (by simp [noticeQueueFull, hc, routineCapacity, hl])]
    simp [noticeDropped, hc, countUp]

/-! The meters (R192 to R195). -/

/-- The number of four bytes, the most significant first. -/
theorem append_bytes (a b c d : Byte) :
    (a ++ b ++ c ++ d : BitVec 32) =
      BitVec.ofNat 32 (((a.toNat * 256 + b.toNat) * 256 + c.toNat) * 256 + d.toNat) := by
  apply BitVec.eq_of_toNat_eq
  have ha := a.isLt
  have hb := b.isLt
  have hc := c.isLt
  have hd := d.isLt
  simp only [BitVec.toNat_append, BitVec.toNat_ofNat]
  rw [← Nat.shiftLeft_add_eq_or_of_lt hd, ← Nat.shiftLeft_add_eq_or_of_lt hc, ← Nat.shiftLeft_add_eq_or_of_lt hb]
  simp only [Nat.shiftLeft_eq]
  omega

theorem toNat_ofNat_meter (i : MeterId) : (BitVec.ofNat 8 i.val).toNat = i.val := by
  simp [Nat.mod_eq_of_lt (show i.val < 256 by omega)]

theorem meterPreset_of_meter {i : MeterId} {a b c d : Byte} (hp : r.payload = [BitVec.ofNat 8 i.val, a, b, c, d]) :
    meterPreset s r = (s.setMeter i { s.meter i with
      count := BitVec.ofNat 32 (((a.toNat * 256 + b.toNat) * 256 + c.toNat) * 256 + d.toNat) }, accept []) := by
  simp only [meterPreset, hp, toNat_ofNat_meter, meterOf_val, append_bytes]

theorem meterPreset_of_length_ne (hl : r.payload.length ≠ 5) : meterPreset s r = (s, refuse .badRequest) := by
  unfold meterPreset
  split
  next heq => exact absurd (by simp [heq]) hl
  next => rfl

theorem meterPreset_of_noMeter {i a b c d : Byte} (hp : r.payload = [i, a, b, c, d]) (hi : 7 < i.toNat) :
    meterPreset s r = (s, refuse .badRequest) := by
  simp [meterPreset, hp, meterOf_none hi]

theorem meterHold_of_meter (frozen : Bool) {i : MeterId} (hp : r.payload = [BitVec.ofNat 8 i.val]) :
    meterHold frozen s r = (s.setMeter i { s.meter i with frozen := frozen }, accept []) := by
  simp only [meterHold, numbers_one hp, toNat_ofNat_meter, meterOf_val]

theorem meterHold_of_global (frozen : Bool) (hp : r.payload = [8]) :
    meterHold frozen s r = (s.setGlobalFreeze frozen, accept []) := by
  simp [meterHold, numbers_one hp, meterOf]

theorem meterHold_of_length_ne (frozen : Bool) (hl : r.payload.length ≠ 1) :
    meterHold frozen s r = (s, refuse .badRequest) := by
  unfold meterHold
  split
  next heq => exact absurd (by simpa using congrArg List.length heq) hl
  next => rfl

theorem meterHold_of_noMeter (frozen : Bool) {b : Byte} (hp : r.payload = [b]) (hb : 8 < b.toNat) :
    meterHold frozen s r = (s, refuse .badRequest) := by
  have hne : b.toNat ≠ 8 := by omega
  simp only [meterHold, numbers_one hp, meterOf_none (show 7 < b.toNat by omega), if_neg hne]

theorem meterClear_of_length_ne (hl : r.payload.length ≠ 1) : meterClear s r = (s, refuse .badRequest) := by
  unfold meterClear
  split
  next heq => exact absurd (by simp [heq]) hl
  next => rfl

theorem meterClear_of_bits {bits : Byte} (hp : r.payload = [bits]) :
    meterClear s r = (s.setTmu { s.tmu with meters := clearedMeters s.tmu.meters bits }, accept []) := by
  simp [meterClear, hp]

/-- Settles O23: each handler by its payload. -/
theorem meterStateRequests : Obligations.MeterStateRequests := by
  intro s r hears
  refine ⟨fun i a b c d hp => ?preset, fun i hp => ⟨?freeze, ?thaw⟩, fun hp => ⟨?globalFreeze, ?globalThaw⟩,
    fun bits hp => ?clear, fun hl => ?presetLength, fun i a b c d hp hi => ?presetMeter,
    fun hl => ⟨?freezeLength, ?thawLength, ?clearLength⟩, fun b hp hb => ⟨?freezeMeter, ?thawMeter⟩⟩
  case preset => exact answers_of rfl hears (meterPreset_of_meter hp)
  case freeze => exact answers_of rfl hears (meterHold_of_meter true hp)
  case thaw => exact answers_of rfl hears (meterHold_of_meter false hp)
  case globalFreeze =>
    have hr : globalMeter r.toEnvelope = r := by rw [globalMeter, ← hp]
    exact answers_of (hr ▸ rfl) hears (meterHold_of_global true hp)
  case globalThaw =>
    have hr : globalMeter r.toEnvelope = r := by rw [globalMeter, ← hp]
    exact answers_of (hr ▸ rfl) hears (meterHold_of_global false hp)
  case clear =>
    exact ⟨_, answers_of rfl hears (meterClear_of_bits hp), rfl, fun i => by
      simp [State.meter, State.setTmu, clearedMeters]⟩
  case presetLength => exact refuses_of (st := .badRequest) rfl hears (meterPreset_of_length_ne hl)
  case presetMeter => exact refuses_of (st := .badRequest) rfl hears (meterPreset_of_noMeter hp hi)
  case freezeLength => exact refuses_of (st := .badRequest) rfl hears (meterHold_of_length_ne true hl)
  case thawLength => exact refuses_of (st := .badRequest) rfl hears (meterHold_of_length_ne false hl)
  case clearLength => exact refuses_of (st := .badRequest) rfl hears (meterClear_of_length_ne hl)
  case freezeMeter => exact refuses_of (st := .badRequest) rfl hears (meterHold_of_noMeter true hp hb)
  case thawMeter => exact refuses_of (st := .badRequest) rfl hears (meterHold_of_noMeter false hp hb)

/-- Settles O25: a peg is the raise of the meters that it selects (`pegChain_steps`), which `raiseLeads_of` describes. -/
theorem pegRaisesTheMetersThatSelectIt : Obligations.PegRaisesTheMetersThatSelectIt := by
  refine ⟨fun s e line => raiseLeads_of 8 (fun _ _ => rfl) (pegChain_steps 9 e line (s.tmu, s.mgp)).symm ?_, by decide⟩
  exact s.peg_eq e line

/-- The meters that an occupancy sample raises (R193). -/
def State.sampleSelects (s : State) (m : Meter) : Bool :=
  decide (m.mode = .occupancy) && meterCounts s.tmu m && m.conditionHolds (s.quantity m.selection)

/-- One meter's part in a raise is its raise (R194), where the event selects it. -/
theorem raiseStep_eq (sel : Meter → Bool) (x : Tmu × Mgp) (i : MeterId) :
    raiseStep chainFuel sel x i = if sel (tget x.1.meters i) then raiseMeter i x else x := by
  unfold raiseStep raiseMeter noticeInto
  rfl

/-- The sample is the raise of the meters that it selects, one by one. -/
theorem State.sample_fold (s : State) (l : List MeterId) (x : Tmu × Mgp) (hx : x.1.globalFrozen = s.tmu.globalFrozen) :
    l.foldl (fun u i => u.sampleMeter i) { s with tmu := x.1, mgp := x.2 } =
      { s with tmu := (l.foldl (raiseStep chainFuel s.sampleSelects) x).1,
               mgp := (l.foldl (raiseStep chainFuel s.sampleSelects) x).2 } := by
  induction l generalizing x with
  | nil => rfl
  | cons i l ih =>
    have hstep : State.sampleMeter { s with tmu := x.1, mgp := x.2 } i =
        { s with tmu := (raiseStep chainFuel s.sampleSelects x i).1,
                 mgp := (raiseStep chainFuel s.sampleSelects x i).2 } := by
      have hsel : s.sampleSelects (tget x.1.meters i) = (decide ((tget x.1.meters i).mode = .occupancy) &&
          meterCounts x.1 (tget x.1.meters i) &&
          (tget x.1.meters i).conditionHolds (s.quantity (tget x.1.meters i).selection)) := by
        simp [State.sampleSelects, meterCounts, hx]
      have hguard : State.sampleMeter { s with tmu := x.1, mgp := x.2 } i =
          if s.sampleSelects (tget x.1.meters i) then State.raise { s with tmu := x.1, mgp := x.2 } i
          else { s with tmu := x.1, mgp := x.2 } := by
        rw [hsel]
        rfl
      rw [hguard, raiseStep_eq]
      cases s.sampleSelects (tget x.1.meters i) with
      | true =>
        unfold State.raise
        rfl
      | false => rfl
    rw [List.foldl_cons, List.foldl_cons, hstep]
    exact ih _ ((globalFrozen_raiseStep chainFuel i x _).trans hx)

theorem State.quantity_eq (s : State) (k : Nat) : s.quantity k =
    if k = 0 then s.placedOn 0 else if k = 1 then s.placedOn 1 else if k = 2 then s.placedOn 2
    else if k = 3 then s.placedOn 3
    else if k = 4 then (s.rsc.parts.filter (fun p => p.isQueued)).length
    else if k = 5 then (lineIds.filter (fun n => decide ((s.line n).state = .call))).length
    else s.itu.queue.length := by
  match k with
  | 0 | 1 | 2 | 3 | 4 | 5 => rfl
  | _ + 6 => rfl

/-- Settles O26: the sample is a raise (`State.sample_fold`), which `raiseLeads_of` describes. -/
theorem occupancySample : Obligations.OccupancySample := by
  intro s quantity
  have hsel : s.sampleSelects = fun m => m.enabled && !m.frozen && !s.tmu.globalFrozen &&
      decide (m.mode = .occupancy) &&
      decide (if m.invert then quantity m.selection < m.threshold else m.threshold ≤ quantity m.selection) := by
    funext m
    have hq : s.quantity m.selection = quantity m.selection := s.quantity_eq m.selection
    have hcond : m.conditionHolds (s.quantity m.selection) =
        decide (if m.invert then quantity m.selection < m.threshold else m.threshold ≤ quantity m.selection) := by
      rw [hq, Meter.conditionHolds]
      split <;> rfl
    rw [State.sampleSelects, meterCounts, hcond, Bool.and_comm (decide (m.mode = .occupancy))]
  rw [← hsel]
  exact raiseLeads_of 9 (fun _ _ => rfl) rfl (congrArg Host.Outcome.next (s.sample_fold meterIds (s.tmu, s.mgp) rfl))

end Sys2Proof.Machine

/-! The byte of a line: seizure on a line and in a call, and the trip of a ringing part (R54, R66 to R68). -/

namespace Sys2Proof.Machine

variable {s : State} {n : LineId}

@[simp] theorem State.setLine_setLine (s : State) (n : LineId) (q r : LineRec) :
    (s.setLine n q).setLine n r = s.setLine n r := by
  simp [State.setLine]

@[simp] theorem State.freed_setLine (s : State) (n : LineId) (q : LineRec) (c : CallNo) (rec : CallRec) :
    (s.setLine n q).freed c rec = (s.freed c rec).setLine n q := rfl

/-! A loop state that changes (R65). -/

theorem LineRec.withLoop_closed {r : LineRec} (h : r.loop = .opened) :
    r.withLoop .closed = { r with loop := .closed, seizureCount := 0, onHookCount := 0 } := by
  simp [LineRec.withLoop, h]

theorem LineRec.withLoop_opened {r : LineRec} (h : r.loop = .closed) :
    r.withLoop .opened = { r with loop := .opened, seizureCount := 0, onHookCount := 0 } := by
  simp [LineRec.withLoop, h]

theorem LineRec.withLoop_same {r : LineRec} {l : Loop} (h : r.loop = l) : r.withLoop l = r := by
  simp [LineRec.withLoop, h]

/-- The byte event in which the LSV finds something, and the row of its finding, which is that event (log 3). -/
theorem both_of_verdict {c : Instr} {r : LineRec} {v : Verdict} {t : State} (hj : s.judgeLine n = (r, v))
    (hv : v ≠ .nothing) (hc : exec c s = exec (.lineByte n) s)
    (ht : (s.setLine n r).takeVerdict n (s.lByte n) v = t) (hu : t.testRests n) :
    exec (.lineByte n) s = .next (t.byteTaken n) ∧ exec c s = .next (t.byteTaken n) := by
  have h := lineByte_of_verdict hj hv ht hu
  exact ⟨h, hc.trans h⟩

theorem State.testRests_of_testOn {t : State} (h : s.testOn n = none) (ht : t.testOn n = s.testOn n) : t.testRests n :=
  State.testRests_of_none (ht.trans h)

/-! Seizure qualification on a line in IDLE and in QUALIFYING (R66). -/

section Seizure

variable (hf : upFault (s.lByte n) = none) (hh : (s.line n).hold = false) (hl : (s.line n).loop = .opened)

include hf hh hl

theorem judgeLine_idle_closed (hs : (s.line n).state = .idle) (hb : upLoop (s.lByte n) = .closed) :
    s.judgeLine n = ({ s.line n with faultCount := 0, state := .qualifying, seizureCount := 1 }, .nothing) := by
  rw [State.judgeLine_of hf (by simp [hs])]
  simp [LineRec.qualify, hs, hl, LineRec.judgeIdle, hh, hb]

theorem judgeLine_idle_opened (hs : (s.line n).state = .idle) (hb : upLoop (s.lByte n) = .opened) :
    s.judgeLine n = ({ s.line n with faultCount := 0, seizureCount := 0 }, .nothing) := by
  rw [State.judgeLine_of hf (by simp [hs])]
  simp [LineRec.qualify, hs, hl, LineRec.judgeIdle, hh, hb]

theorem judgeLine_qualifying_opened (hs : (s.line n).state = .qualifying) (hb : upLoop (s.lByte n) = .opened) :
    s.judgeLine n = ({ s.line n with faultCount := 0, state := .idle, seizureCount := 0 }, .nothing) := by
  rw [State.judgeLine_of hf (by simp [hs])]
  simp [LineRec.qualify, hs, hl, LineRec.judgeQualifying, hh, hb]

theorem judgeLine_qualifying_closed (hs : (s.line n).state = .qualifying) (hb : upLoop (s.lByte n) = .closed) :
    s.judgeLine n = ({ s.line n with faultCount := 0, seizureCount := (s.line n).seizureCount + 1 },
      if s.timing.seizureQualify ≤ (s.line n).seizureCount + 1 then .seizure else .nothing) := by
  rw [State.judgeLine_of hf (by simp [hs])]
  simp only [LineRec.qualify, hs, hl, LineRec.judgeQualifying, hh, hb, Bool.false_eq_true, if_false, if_true]
  split <;> rfl

end Seizure

/-- What a qualified seizure leads to, by the link state and the line's handling (R67). -/
theorem State.seizureQualified_linked {t : State} (hl : t.lkm.state = .acquiring ∨ t.lkm.state = .linked ∨
    t.lkm.state = .warning) : t.seizureQualified n =
      if (t.attr n).handling = .exchange then t.enterThrough n
      else if t.hasCodes n then t.enterCollecting n else t.enterReplaying n := by
  unfold State.seizureQualified
  rcases hl with h | h | h
  all_goals
    rw [h]
    cases (t.attr n).handling <;> rfl

theorem State.seizureQualified_isolated {t : State} (hl : t.lkm.state = .isolated) : t.seizureQualified n =
    if t.hasCodes n then t.enterCollecting n else t.enterLockout n := by
  unfold State.seizureQualified
  rw [hl]

theorem State.seizureQualified_released {t : State} (hl : t.lkm.state = .released) :
    t.seizureQualified n = t.enterThrough n := by
  unfold State.seizureQualified
  rw [hl]

/-- Settles O31: the judgement of the byte by the line's state and the byte's loop field, and what a qualified seizure
leads to by the link state. -/
theorem seizureOnALine : Obligations.SeizureOnALine := by
  intro s n ht hf hh hl r next
  have rests : s.testRests n := State.testRests_of_none ht
  have quiet {q : LineRec} (hj : s.judgeLine n = (q, .nothing)) (hs : r.state = .idle ∨ r.state = .qualifying) :
      next q := by
    refine lineByte_of_nothing hj ?_ ?_ rests
    all_goals
      show r.state ≠ _
      rcases hs with h | h <;> simp [h]
  refine ⟨fun hs hb => quiet (judgeLine_idle_closed hf hh hl hs hb) (.inl hs),
    fun hs hb => quiet (judgeLine_idle_opened hf hh hl hs hb) (.inl hs),
    fun hs hb => quiet (judgeLine_qualifying_opened hf hh hl hs hb) (.inr hs),
    fun hs hb hq => quiet (by
      rw [judgeLine_qualifying_closed hf hh hl hs hb, if_neg (Nat.not_le.mpr hq)]) (.inr hs), ?_⟩
  intro hs hb hq hd q goes down inLink codes through collecting replaying lockout
  have hj := judgeLine_qualifying_closed hf hh hl hs hb
  rw [if_pos hq] at hj
  set u := s.setLine n { s.line n with faultCount := 0, seizureCount := (s.line n).seizureCount + 1 } with hu
  have hcodes : u.hasCodes n = true ↔ codes := u.hasCodes_iff n
  have hline : (u.line n).withLoop .closed = { q with state := .qualifying } := by
    rw [LineRec.withLoop_closed (by simpa [hu] using hl)]
    simp [hu, q, r, ← hs]
  have leads {t : State} (h : u.seizureQualified n = t) (hrests : t.testOn n = s.testOn n) : goes t :=
    both_of_verdict hj (by decide) (seizureQualify_of hj) h (State.testRests_of_testOn ht hrests)
  have enterThrough : u.enterThrough n = through := by
    rw [State.enterThrough_eq, hline]
    simp [hu, through, down, LineRec.noLockout]
  have enterCollecting : u.enterCollecting n = collecting := by
    rw [State.enterCollecting_eq, hline]
    simp [hu, collecting, down]
  have enterReplaying : u.enterReplaying n = replaying := by
    rw [State.enterReplaying_eq, hline]
    simp [hu, replaying, down, hd, DigitRec.initial]
  have enterLockout : u.enterLockout n = lockout := by
    rw [State.enterLockout_eq, hline]
    simp [hu, lockout, down]
  refine ⟨fun hk ha => leads (t := through) ?_ ?_, fun hk ha hc => leads (t := collecting) ?_ ?_,
    fun hk ha hc => leads (t := replaying) ?_ ?_, fun hk hc => leads (t := collecting) ?_ ?_,
    fun hk hc => leads (t := lockout) ?_ ?_, fun hk => leads (t := through) ?_ ?_⟩
  · rw [State.seizureQualified_linked (t := u) hk, if_pos (show (u.attr n).handling = .exchange from ha), enterThrough]
  · simp [through]
  · rw [State.seizureQualified_linked (t := u) hk, if_neg (by simp [hu, ha]), if_pos (hcodes.mpr hc), enterCollecting]
  · simp [collecting]
  · rw [State.seizureQualified_linked (t := u) hk, if_neg (by simp [hu, ha]), if_neg (mt hcodes.mp hc), enterReplaying]
  · simp [replaying]
  · rw [State.seizureQualified_isolated (t := u) hk, if_pos (hcodes.mpr hc), enterCollecting]
  · simp [collecting]
  · rw [State.seizureQualified_isolated (t := u) hk, if_neg (mt hcodes.mp hc), enterLockout]
  · simp [lockout]
  · rw [State.seizureQualified_released (t := u) hk, enterThrough]
  · simp [through]

/-! Seizure qualification in CALL (R68). -/

/-- The judgement of a byte on a line in CALL with no ringing part. -/
theorem judgeLine_callSeizure (hf : upFault (s.lByte n) = none) (hs : (s.line n).state = .call)
    (hl : (s.line n).loop = .opened) (hh : (s.line n).hold = false)
    (hp : ∀ p ∈ s.rsc.parts, p.line = n → ∀ k, p.status ≠ .placed k false) :
    s.judgeLine n =
      if upLoop (s.lByte n) = .closed then
        if s.timing.seizureQualify ≤ (s.line n).seizureCount + 1 then
          ({ s.line n with faultCount := 0, seizureCount := 0 }, .callSeizure)
        else ({ s.line n with faultCount := 0, seizureCount := (s.line n).seizureCount + 1 }, .nothing)
      else ({ s.line n with faultCount := 0, seizureCount := 0 }, .nothing) := by
  rw [State.judgeLine_of hf (by simp [hs]), State.ringView_none hp]
  simp only [LineRec.qualify, hs, hl, LineRec.judgeCallSeizure, hh, Bool.false_eq_true, if_false]

theorem State.line_of_callOn {c : CallNo} {rec : CallRec} (hc : s.callOn n = some c) (hr : s.callRec c = some rec) :
    rec.line = n := by
  obtain ⟨r, hr', hn⟩ := State.callOn_some hc
  cases hr.symm.trans hr'
  exact hn

theorem State.callOnLine_some {c : CallNo} {rec : CallRec} (hr : s.callRec c = some rec) (hn : rec.line = n) :
    s.callOnLine c n = some rec :=
  hn ▸ State.callOnLine_of hr

theorem State.callOnLine_eq_some {c : CallNo} {rec : CallRec} :
    s.callOnLine c n = some rec ↔ s.callRec c = some rec ∧ rec.line = n := by
  simp [State.callOnLine, Option.filter_eq_some_iff]

/-- Where the link state sends a line that leaves service (R2). -/
theorem State.serviceDirection_eq : s.serviceDirection = if s.linked then .through else .lockout := rfl

/-- What the call makes of a seizure, by its state (R122, R128, R129, R138). -/
theorem State.csqSeizure_eq {c : CallNo} {rec : CallRec} (hc : s.callOnLine c n = some rec) :
    s.csqSeizure c n =
      if rec.state = .waiting then s.endCall c .glare s.serviceDirection (some .glare) true
      else if rec.state = .ringing then s.answerRing c rec
      else if rec.state = .revertRinging then s.answerRevert c rec
      else s := by
  simp only [State.csqSeizure, hc]
  cases rec.state <;> rfl

/-- The line at the start of a seizure that its call takes. -/
theorem State.callSeized_eq {c : CallNo} {r : LineRec} (hc : s.callOn n = some c) (hl : r.loop = .opened) :
    (s.setLine n r).callSeized n =
      (s.setLine n { r with loop := .closed, seizureCount := 0, onHookCount := 0 }).csqSeizure c n := by
  have hloop : (s.setLine n r).modLine n (fun r => r.withLoop .closed) =
      s.setLine n { r with loop := .closed, seizureCount := 0, onHookCount := 0 } := by
    simp [State.modLine, LineRec.withLoop_closed hl]
  have hcall : (s.setLine n { r with loop := .closed, seizureCount := 0, onHookCount := 0 }).callOn n = some c := hc
  simp only [State.callSeized, hloop, hcall]

/-- Settles O32: the judgement of the byte (`judgeLine_callSeizure`), and what the call makes of the seizure
(`State.csqSeizure_eq`), with an answer by `answerLeads_of`. -/
theorem seizureInACall : Obligations.SeizureInACall := by
  intro s n c rec hu hf hs hl hh hp hc hr r next
  have hj := judgeLine_callSeizure hf hs hl hh hp
  have hn : rec.line = n := State.line_of_callOn hc hr
  have quiet {q : LineRec} (h : s.judgeLine n = (q, .nothing)) : next q :=
    lineByte_of_nothing h (by simp [hs]) (by simp [hs]) (State.testRests_of_none hu.1)
  refine ⟨fun hb => ?opened, fun hb hq => ?counts, fun hb hq => ?qualified⟩
  case opened =>
    rw [if_neg (by simp [hb])] at hj
    exact quiet hj
  case counts =>
    rw [if_pos hb, if_neg (Nat.not_le.mpr hq)] at hj
    exact quiet hj
  case qualified =>
    intro q goes down
    rw [if_pos hb, if_pos hq] at hj
    have hcall : (s.setLine n q).callOnLine c n = some rec := State.callOnLine_some hr hn
    have hseize := State.csqSeizure_eq hcall
    have leads {t : State} (h : (s.setLine n q).csqSeizure c n = t) (hrests : t.testRests n) : goes t :=
      both_of_verdict hj (by decide) (callSeizure_of hj) ((State.callSeized_eq
        (r := { s.line n with faultCount := 0, seizureCount := 0 }) hc hl).trans h) hrests
    have hqs : q.state = .call := hs
    refine ⟨fun h1 h2 h3 => ?stands, fun hw hlink => ?glare, fun hw hlink => ?glareLockout, ?answer⟩
    case stands =>
      rw [if_neg h1, if_neg h2, if_neg h3] at hseize
      exact leads hseize (State.testRests_of_none hu.1)
    case glare =>
      have hdir : (s.setLine n q).serviceDirection = .through := if_pos hlink
      subst hn
      rw [if_pos hw, hdir, State.endCall_of_call (s := s.setLine rec.line q) (by simpa using hr) hu (by simpa using hqs)] at hseize
      refine leads (hseize.trans ?_) (State.testRests_of_testOn hu.1 (by simp))
      simp [endReports, directed, LineRec.withLoop_same, LineRec.noLockout, q, down]
    case glareLockout =>
      have hdir : (s.setLine n q).serviceDirection = .lockout := if_neg (Bool.eq_false_iff.mp hlink)
      subst hn
      rw [if_pos hw, hdir, State.endCall_of_call (s := s.setLine rec.line q) (by simpa using hr) hu (by simpa using hqs)] at hseize
      refine leads (hseize.trans ?_) (State.testRests_of_testOn hu.1 (by simp))
      simp [endReports, directed, LineRec.withLoop_same, q, down]
    case answer =>
      refine answerLeads_of hr hn hu q hqs rfl goes [] (fun t ht hst hrests => ?_) (fun t ht hst hrests => ?_)
      · rw [if_neg (by simp [hst]), if_pos hst, ht] at hseize
        exact leads hseize hrests
      · rw [if_neg (by simp [hst]), if_neg (by simp [hst]), if_pos hst, ht] at hseize
        exact leads hseize hrests

/-! The trip of a ringing part (R54). -/

section Trip

variable {older younger : List RingPart} {p : RingPart} {k : Slot}
  (hp : s.rsc.parts = older ++ p :: younger) (ho : ∀ o ∈ older ++ younger, o.line ≠ n ∧ o.call ≠ p.call)
  (hn : p.line = n) (hk : p.status = .placed k false)

include hp ho hn hk

theorem State.ringView_of : s.ringView n = some ⟨isRingCode (s.down n).ring, p.tripDelivered⟩ := by
  rw [State.ringView, State.ringingPart_of hp ho hn hk]
  rfl

/-- The field that counts toward a trip: the trip field where the part's claim carries RING, else the loop field. -/
def State.tripCounts (s : State) (n : LineId) : Bool :=
  if isRingCode (s.down n).ring then upTrip (s.lByte n) else decide (upLoop (s.lByte n) = .closed)

omit hp ho hn hk in
theorem State.tripCounts_iff : s.tripCounts n = true ↔
    (∃ b l, (s.down n).ring = some (.ring b l)) ∧ upTrip (s.lByte n) = true ∨
      ¬ (∃ b l, (s.down n).ring = some (.ring b l)) ∧ upLoop (s.lByte n) = .closed := by
  rw [← isRingCode_iff, State.tripCounts]
  cases isRingCode (s.down n).ring <;> simp

/-- The judgement of a byte on a line in CALL with a ringing part. -/
theorem judgeLine_trip (hf : upFault (s.lByte n) = none) (hs : (s.line n).state = .call)
    (hl : (s.line n).loop = .opened) (hh : (s.line n).hold = false) :
    s.judgeLine n =
      if p.tripDelivered = true then ({ s.line n with faultCount := 0 }, .nothing)
      else if s.tripCounts n = true then
        if s.timing.tripQualify ≤ (s.line n).tripCount + 1 then
          ({ s.line n with faultCount := 0, tripCount := 0 }, .trip)
        else ({ s.line n with faultCount := 0, tripCount := (s.line n).tripCount + 1 }, .nothing)
      else ({ s.line n with faultCount := 0, tripCount := 0 }, .nothing) := by
  rw [State.judgeLine_of hf (by simp [hs]), State.ringView_of hp ho hn hk]
  simp only [LineRec.qualify, hs, hl, LineRec.judgeTrip, hh, Bool.or_false, State.tripCounts]

/-- The line and the part at the start of a trip that the call takes. -/
theorem State.tripQualified_eq {r : LineRec} (hl : r.loop = .opened) :
    (s.setLine n r).tripQualified n =
      ((({ s with rsc := { s.rsc with parts := older ++ { p with tripDelivered := true } :: younger } } : State).setLine
        n { r with loop := .closed, seizureCount := 0, onHookCount := 0 }).csqTrip p.call n).reported
        [.peg .trip (some n)] := by
  have hring : (s.setLine n r).ringingPart n = some p := State.ringingPart_of hp ho hn hk
  have hpart := State.modPart_of (s := s.setLine n r) hp ho (fun p => { p with tripDelivered := true })
  simp only [State.tripQualified, hring]
  rw [hpart]
  simp [State.modLine, State.setLine, State.line, LineRec.withLoop_closed hl, State.reported]

end Trip

/-- What the call makes of a trip, by its state (R122, R129, R138). -/
theorem State.csqTrip_eq {c : CallNo} {rec : CallRec} (hc : s.callOnLine c n = some rec) :
    s.csqTrip c n =
      if rec.state = .ringing then s.answerRing c rec
      else if rec.state = .revertRinging then s.answerRevert c rec
      else s := by
  simp only [State.csqTrip, hc]
  cases rec.state <;> rfl

theorem State.csqTrip_stands {c : CallNo} (h : ∀ rec, s.callRec c = some rec → rec.line = n →
    rec.state ≠ .ringing ∧ rec.state ≠ .revertRinging) : s.csqTrip c n = s := by
  cases hc : s.callOnLine c n with
  | none => simp [State.csqTrip, hc]
  | some rec =>
    obtain ⟨hr, hn⟩ := State.callOnLine_eq_some.mp hc
    obtain ⟨h1, h2⟩ := h rec hr hn
    rw [State.csqTrip_eq hc, if_neg h1, if_neg h2]

/-- Settles O33: the judgement of the byte (`judgeLine_trip`), and what the call makes of the trip (`State.csqTrip_eq`),
with an answer by `answerLeads_of`. -/
theorem tripOfARingingPart : Obligations.TripOfARingingPart := by
  intro s n older younger p k hu hf hs hl hh hp ho hn hk r next ringOn counts
  have hj := judgeLine_trip hp ho hn hk hf hs hl hh
  have hcounts : s.tripCounts n = true ↔ counts := State.tripCounts_iff
  have quiet {q : LineRec} (h : s.judgeLine n = (q, .nothing)) : next q :=
    lineByte_of_nothing h (by simp [hs]) (by simp [hs]) (State.testRests_of_none hu.1)
  refine ⟨fun hd => ?delivered, fun hd hc => ?zero, fun hd hc hq => ?counts, fun hd hc hq => ?qualified⟩
  case delivered =>
    rw [if_pos hd] at hj
    exact quiet hj
  case zero =>
    rw [if_neg (by simp [hd]), if_neg (mt hcounts.mp hc)] at hj
    exact quiet hj
  case counts =>
    rw [if_neg (by simp [hd]), if_pos (hcounts.mpr hc), if_neg (Nat.not_le.mpr hq)] at hj
    exact quiet hj
  case qualified =>
    intro q goes parts t
    rw [if_neg (by simp [hd]), if_pos (hcounts.mpr hc), if_pos hq] at hj
    have htrip := State.tripQualified_eq hp ho hn hk (r := { s.line n with faultCount := 0, tripCount := 0 }) hl
    have leads {v : State} (h : (t.setLine n q).csqTrip p.call n = v) (hrests : v.testRests n) :
        goes (v.reported [.peg .trip (some n)]) :=
      both_of_verdict hj (by decide) (trip_of hj) (htrip.trans (by rw [← h])) fun x hx => hrests x (by simpa using hx)
    refine ⟨fun h => leads (State.csqTrip_stands h) (State.testRests_of_none hu.1), fun rec hr hrn => ?_⟩
    have hcall : (t.setLine n q).callOnLine p.call n = some rec := State.callOnLine_some hr hrn
    have htake := State.csqTrip_eq hcall
    refine answerLeads_of (s := t) hr hrn hu q hs rfl goes _ (fun v hv hst hrests => leads ?_ hrests)
      (fun v hv hst hrests => leads ?_ hrests)
    · rw [htake, if_pos hst, hv]
    · rw [htake, if_neg (by simp [hst]), if_pos hst, hv]

end Sys2Proof.Machine

/-! The on-hook of a line (R69, R116, R131, R134, R135, R139, R140). -/

namespace Sys2Proof.Machine

variable {s t : State} {n : LineId} {c : CallNo} {rec : CallRec}

/-! What a call makes of an on-hook. -/

theorem State.direct_of_idle (h : (s.line n).state = .idle) (d : Direction) : s.direct n d = s := by
  simp [State.direct, h]

/-- The record of a call in IDENTIFYING or of an answered ring whose test the on-hook aborts (R131). -/
def CallRec.unheard (rec : CallRec) : CallRec :=
  { rec with answered := some .unidentified, testResult := some .aborted }

theorem State.csqOnHook_identifying (hc : s.callOnLine c n = some rec) (hs : rec.state = .identifying) :
    s.csqOnHook c n = (s.modCall c CallRec.unheard).endCall c .answered .idle none true := by
  simp only [State.csqOnHook, hc, hs]
  rfl

theorem State.csqOnHook_rung (hc : s.callOnLine c n = some rec)
    (hs : rec.state = .waiting ∨ rec.state = .ringing ∨ rec.state = .revertRinging) : s.csqOnHook c n = s := by
  simp only [State.csqOnHook, hc]
  rcases hs with h | h | h
  all_goals rw [h]

theorem State.csqOnHook_talk (hc : s.callOnLine c n = some rec) (hs : rec.state = .talk) :
    s.csqOnHook c n = s.endCall c (if rec.answered ≠ none ∧ rec.answered = rec.caller.map .party
      then .completedUnconfirmed else .completed) .idle none true := by
  simp only [State.csqOnHook, hc, hs]
  simp [Option.isSome_iff_ne_none]

theorem State.csqOnHook_anew (hc : s.callOnLine c n = some rec)
    (hs : rec.state = .identifyCaller ∨ rec.state = .hangupWait) :
    s.csqOnHook c n = s.enterRevertRinging c s.timing.revertCycles 0 := by
  simp only [State.csqOnHook, hc]
  rcases hs with h | h
  all_goals
    rw [h]
    rfl

theorem State.csqOnHook_answerTest (hc : s.callOnLine c n = some rec) (hs : rec.state = .answerTest) {limit : Nat}
    (hl : rec.ringLimit = some limit) :
    s.csqOnHook c n = if limit ≤ rec.cyclesRung then s.endCall c .noAnswer .idle (some .noAnswer) true
      else s.enterRevertRinging c limit rec.cyclesRung := by
  simp only [State.csqOnHook, hc, hs, State.resumeRevertRinging, hl, Option.getD_some]

/-- The state with a place request for the call's ring part, and the call in REVERT_RINGING (R136). -/
def State.rungAnew (s : State) (n : LineId) (c : CallNo) (rec : CallRec) (sp : Spec) (limit done : Nat) : State :=
  { s.handed [.place c n sp limit done] with csq := tset s.csq c (some { rec with
      state := .revertRinging, hangupTimer := none, ringPart := true, ringLimit := some limit, cyclesRung := done }) }

/-- Entry into REVERT_RINGING: the record, the place request and the call's claim (R136). -/
theorem State.enterRevertRinging_withLine (hr : s.callRec c = some rec) (hn : rec.line = n) {sp : Spec}
    (hsp : s.specOf n rec.called = some sp) (r : LineRec) (d : DigitRec) (k : DownClaims) (u : UpClaims)
    (limit done : Nat) : (s.withLine n r d k u).enterRevertRinging c limit done =
      (s.rungAnew n c rec sp limit done).withLine n r d { k with call := some .feed } u := by
  subst hn
  set t := s.withLine rec.line r d k u with ht
  have hrt : t.callRec c = some rec := by simpa [ht] using hr
  have hspec : ((t.modCall c fun r => { r with state := .revertRinging, hangupTimer := none }).callClaim rec.line
      .feed).specOf rec.line rec.called = some sp := hsp
  have hcsq : tget s.csq c = some rec := hr
  simp only [State.enterRevertRinging, hrt, hspec]
  simp [State.requestRevertRinging, State.modCall, State.setCall, State.callClaim, State.hand, State.handed,
    State.rungAnew, State.callRec, hcsq, ht]
  simp [State.withLine, State.modDown, State.setDown, State.down]

/-- The end of a call whose line, in CALL, goes to IDLE (R141). -/
theorem State.endCall_idle_withLine (hr : s.callRec c = some rec) (hn : rec.line = n) (hu : s.untested n)
    {r : LineRec} (hs : r.state = .call) (hl : r.loop = .opened) (d : DigitRec) (k : DownClaims) (u : UpClaims)
    (result : EndResult) (e : Option PegEvent) :
    (s.withLine n r d k u).endCall c result .idle e true =
      ((s.freed c rec).withLine n { r.noLockout with state := .idle, faultReason := none } DigitRec.initial
        { k.noLsv with call := none } ⟨false, none, false⟩).reported (endReports c rec result e) := by
  subst hn
  set t := s.withLine rec.line r d k u with ht
  have hrt : t.callRec c = some rec := by simpa [ht] using hr
  have hut : t.untested rec.line := hu
  rw [State.endCall_of_call hrt hut (by simpa [ht] using hs)]
  simp [ht, directed, LineRec.withLoop_same hl]
  simp [State.freed, State.withLine, State.handed]

theorem State.freed_unheard (s : State) (c : CallNo) (rec : CallRec) :
    (s.setCall c (some rec.unheard)).freed c rec.unheard = s.freed c rec := by
  simp only [State.freed, State.setCall, tset_tset]
  rfl

theorem State.modCall_withLine (hr : s.callRec c = some rec) (f : CallRec → CallRec) (r : LineRec) (d : DigitRec)
    (k : DownClaims) (u : UpClaims) :
    (s.withLine n r d k u).modCall c f = (s.setCall c (some (f rec))).withLine n r d k u := by
  have hcsq : tget s.csq c = some rec := hr
  simp [State.modCall, State.callRec, State.setCall, hcsq]
  simp [State.withLine]

/-! Reports commute with what they do not touch. -/

theorem State.freed_reported (s : State) (l : List Report) (c : CallNo) (rec : CallRec) :
    (s.reported l).freed c rec = (s.freed c rec).reported l := by
  obtain ⟨f, hf⟩ := State.reported_uniform l
  rw [hf, hf]
  rfl

theorem State.modDown_reported (s : State) (l : List Report) (n : LineId) (f : DownClaims → DownClaims) :
    (s.reported l).modDown n f = (s.modDown n f).reported l := by
  obtain ⟨g, hg⟩ := State.reported_uniform l
  rw [hg, hg]
  rfl

theorem State.nextTest_reported (s : State) (l : List Report) : (s.reported l).nextTest = s.nextTest.reported l := by
  obtain ⟨f, hf⟩ := State.reported_uniform l
  rw [hf, hf]
  simp only [State.nextTest]
  split <;> rfl

theorem nextTest_cons {q : TestRequest} {rest : List TestRequest} (h : t.itu.queue = q :: rest) : t.nextTest =
    ({ t with itu := ⟨rest, some ⟨q.line, q.requesters, 0, true⟩⟩ } : State).modDown q.line
      (fun d => { d with test := some .test }) := by
  simp only [State.nextTest, h]
  rfl

theorem State.testRests_of_inProgress_none (h : t.itu.inProgress = none) : t.testRests n := by
  simp [State.testRests, State.testOn, h]

theorem State.testRests_of_fresh {x : Test} (h : t.itu.inProgress = some x) (hx : x.fresh = true) : t.testRests n := by
  intro y hy
  simp only [State.testOn, h, Option.filter_eq_some_iff, Option.some.injEq] at hy
  rw [← hy.1, hx]

/-! The abort of a request on a line that the on-hook has taken to IDLE (R116). -/

/-- The IDENTITY notice of an aborted test. -/
def abortedIdentity (n : LineId) : Report := .notice (.identity n .aborted none none)

/-- The end of a call in IDENTIFYING whose line goes on-hook (R131). -/
def unheardEnd (c : CallNo) (rec : CallRec) : Report := .notice (.callEnd (callEndOf c rec.unheard .answered))

/-- The ABORTED results delivered to a list of requesters, in its order. -/
def State.deliverAll (s : State) (n : LineId) (rs : List Requester) : State :=
  rs.foldl (fun s x => s.deliverAborted n x) s

/-- A call gone from an idle line: its record freed and its claim withdrawn. -/
def State.uncalled (s : State) (n : LineId) (c : CallNo) (rec : CallRec) : State :=
  (s.freed c rec).modDown n (fun d => { d with call := none })

theorem State.uncalled_reported (s : State) (l : List Report) (n : LineId) (c : CallNo) (rec : CallRec) :
    (s.reported l).uncalled n c rec = (s.uncalled n c rec).reported l := by
  rw [State.uncalled, State.freed_reported, State.modDown_reported, ← State.uncalled]

theorem State.deliverAll_exchange (s : State) (n : LineId) :
    s.deliverAll n [.exchange] = s.reported [abortedIdentity n] := rfl

section Delivered

variable (hi : (s.line n).state = .idle) (hu : s.untested n) (hr : s.callRec c = some rec) (hn : rec.line = n)
  (hs : rec.state = .identifying)

include hi hu hr hn hs

theorem State.csqOnHook_idle : s.csqOnHook c n = (s.uncalled n c rec).reported [unheardEnd c rec] := by
  have hcsq : tget s.csq c = some rec := hr
  have hmod : s.modCall c CallRec.unheard = s.setCall c (some rec.unheard) := by
    simp [State.modCall, State.callRec, hcsq]
  have hcall : (s.setCall c (some rec.unheard)).callRec c = some rec.unheard := by simp [State.callRec, State.setCall]
  subst hn
  rw [State.csqOnHook_identifying (State.callOnLine_of hr) hs, hmod, State.endCall_eq hcall _ _ _ _ (fun _ => hu)]
  rw [State.direct_of_idle (by exact hi)]
  rw [State.freed_unheard]
  rfl

theorem State.deliverAll_call : s.deliverAll n [.call c] = (s.uncalled n c rec).reported [unheardEnd c rec] :=
  State.csqOnHook_idle hi hu hr hn hs

theorem State.deliverAll_call_exchange : s.deliverAll n [.call c, .exchange] =
    (s.uncalled n c rec).reported [unheardEnd c rec, abortedIdentity n] := by
  rw [show s.deliverAll n [.call c, .exchange] = (s.csqOnHook c n).reported [abortedIdentity n] from rfl,
    State.csqOnHook_idle hi hu hr hn hs, ← State.reported_append]
  rfl

theorem State.deliverAll_exchange_call : s.deliverAll n [.exchange, .call c] =
    (s.uncalled n c rec).reported [abortedIdentity n, unheardEnd c rec] := by
  rw [show s.deliverAll n [.exchange, .call c] = (s.reported [abortedIdentity n]).csqOnHook c n from rfl,
    State.csqOnHook_idle (by simpa using hi) (by simpa [State.untested] using hu) (by simpa using hr) hn hs,
    State.uncalled_reported, ← State.reported_append]
  rfl

end Delivered

/-- The abort of a waiting request at an on-hook, from what its requesters make of it. -/
theorem State.abortAtOnHook_of_waiting_delivered {older younger : List TestRequest} {rs : List Requester}
    (h : s.testOn n = none) (hq : s.itu.queue = older ++ ⟨n, rs⟩ :: younger) (ho : ∀ q ∈ older ++ younger, q.line ≠ n)
    {l : List Report}
    (hd : (s.setItu { s.itu with queue := older ++ younger }).deliverAll n rs = t.reported l) :
    s.abortAtOnHook n = t.reported (l ++ [.peg .testAborted (some n)]) := by
  rw [State.abortAtOnHook_of_waiting h hq ho, State.reported_append]
  exact congrArg (fun t => t.peg .testAborted (some n)) hd

/-- The abort of the test in progress at an on-hook, from what its requesters make of it. -/
theorem State.abortAtOnHook_of_test_delivered {x : Test} (h : s.testOn n = some x) {l : List Report}
    (hd : (s.dropTest n).deliverAll n x.requesters = t.reported l) :
    s.abortAtOnHook n = t.nextTest.reported (l ++ [.peg .testAborted (some n)]) := by
  rw [State.abortAtOnHook_of_test h, ← State.nextTest_reported, State.reported_append]
  exact congrArg (fun t => (t.peg .testAborted (some n)).nextTest) hd

/-! What a qualified on-hook does, by the line's state (R69). -/

theorem judgeLine_onHook (hf : upFault (s.lByte n) = none) (hl : (s.line n).loop = .closed)
    (hs : (s.line n).state = .call ∨ (s.line n).state = .collecting ∨ (s.line n).state = .replaying ∨
      (s.line n).state = .through ∨ (s.line n).state = .lockout) :
    s.judgeLine n = if upLoop (s.lByte n) = .opened then
        ({ s.line n with faultCount := 0, onHookCount := (s.line n).onHookCount + 1 },
          if s.timing.onHookQualify ≤ (s.line n).onHookCount + 1 then .onHook else .nothing)
      else ({ s.line n with faultCount := 0, onHookCount := 0 }, .nothing) := by
  rw [State.judgeLine_closed hf hl hs, LineRec.judgeOnHook]
  split_ifs <;> rfl

theorem State.onHookQualified_idles {r : LineRec} (hl : r.loop = .closed) (hs : r.state ≠ .call) :
    (s.setLine n r).onHookQualified n =
      (s.withLine n { { r with loop := .opened, seizureCount := 0, onHookCount := 0 }.noLockout with
        state := .idle, faultReason := none } DigitRec.initial (s.down n).noLsv ⟨false, none, false⟩).abortAtOnHook n := by
  simp [State.onHookQualified, hs, State.modLine, LineRec.withLoop_opened hl, State.enterIdle_eq, LineRec.withLoop_same]

theorem State.onHookQualified_call {r : LineRec} (hl : r.loop = .closed) (hs : r.state = .call) :
    (s.setLine n r).onHookQualified n =
      let u := (s.setLine n { r with loop := .opened, seizureCount := 0, onHookCount := 0 }).abortAtOnHook n
      (s.callBesideTest n).elim u (fun c => u.csqOnHook c n) := by
  have hbeside : (s.setLine n r).callBesideTest n = s.callBesideTest n := rfl
  simp only [State.onHookQualified, State.line_setLine_self, hs, if_true, State.modLine, LineRec.withLoop_opened hl,
    State.setLine_setLine, hbeside]
  cases s.callBesideTest n <;> rfl

/-! The states that an on-hook leads to. -/

section Written

variable (s : State) (n : LineId) (r : LineRec) (d : DigitRec) (k : DownClaims) (u : UpClaims)

theorem State.uncalled_withLine (i : Itu) (c : CallNo) (rec : CallRec) :
    ((s.withLine n r d k u).setItu i).uncalled n c rec =
      { s.freed c rec with itu := i }.withLine n r d { k with call := none } u := by
  simp [State.uncalled, State.freed, State.handed, State.setItu, State.withLine, State.modDown, State.setDown, State.down]

theorem State.dropTest_withLine : (s.withLine n r d k u).dropTest n =
    (s.withLine n r d { k with test := none } u).setItu ⟨s.itu.queue, none⟩ := by
  simp [State.dropTest, State.setItu, State.withLine, State.modDown, State.setDown, State.down]

end Written

/-- The abort of a test that one call alone asked for, at the on-hook that the call takes with it (R134, R139). -/
theorem State.abortAtOnHook_of_ownTest {x : Test} (hi : s.itu = ⟨[], some x⟩) (hn : x.line = n)
    (hrs : x.requesters = [.call c]) {l : List Report} (hd : (s.dropTest n).csqOnHook c n = t.reported l)
    (hq : t.itu.queue = []) : s.abortAtOnHook n = t.reported (l ++ [.peg .testAborted (some n)]) := by
  rw [State.abortAtOnHook_of_test_delivered (x := x) (by simp [State.testOn, hi, hn, Option.filter])
    (by rw [hrs]; exact hd), nextTest_nil hq]

theorem State.callBesideTest_ownTest {x : Test} (hi : s.itu = ⟨[], some x⟩) (hn : x.line = n)
    (hrs : x.requesters = [.call c]) (hc : s.callOn n = some c) : s.callBesideTest n = none := by
  simp [State.callBesideTest, hc, State.requestersOn, State.testOn, hi, hn, Option.filter, hrs]

/-- Settles O34: the judgement of the byte (`judgeLine_onHook`); then, on a line that goes to IDLE, the abort of its
request from what each requester makes of ABORTED, and, on a line in CALL, what its call makes of the on-hook. -/
theorem onHookOfALine : Obligations.OnHookOfALine := by
  intro s n hf hl r next
  have quiet {x : LineRec} (ht : s.testOn n = none) (hj : s.judgeLine n = (x, .nothing))
      (hs : r.state = .through ∨ r.state = .lockout ∨ r.state = .call) : next x := by
    refine lineByte_of_nothing hj ?_ ?_ (State.testRests_of_none ht)
    all_goals
      show r.state ≠ _
      rcases hs with h | h | h <;> simp [h]
  refine ⟨fun ht hs hb => ?closed, fun ht hs hb hq => ?counts, fun hb hq => ?qualified⟩
  case closed =>
    have hj := judgeLine_onHook hf hl (by tauto)
    rw [if_neg (by simp [hb])] at hj
    exact quiet ht hj hs
  case counts =>
    have hj := judgeLine_onHook hf hl (by tauto)
    rw [if_pos hb, if_neg (Nat.not_le.mpr hq)] at hj
    exact quiet ht hj hs
  case qualified =>
    intro q idle goes down idles abort exch rings unheard
    have leads {t : State} (hs : (s.line n).state = .call ∨ (s.line n).state = .collecting ∨
        (s.line n).state = .replaying ∨ (s.line n).state = .through ∨ (s.line n).state = .lockout)
        (h : (s.setLine n { s.line n with faultCount := 0, onHookCount := (s.line n).onHookCount + 1
          }).onHookQualified n = t) (hrests : t.testRests n) : goes t := by
      have hj := judgeLine_onHook hf hl hs
      rw [if_pos hb, if_pos hq] at hj
      exact both_of_verdict hj (by decide) (onHook_of hj) h hrests
    have hidles (hs : r.state ≠ .call) : (s.setLine n { s.line n with faultCount := 0, onHookCount :=
        (s.line n).onHookCount + 1 }).onHookQualified n = (idles s down).abortAtOnHook n :=
      State.onHookQualified_idles (s := s) hl hs
    have through {t : State} (hs : r.state = .through) (h : (idles s down).abortAtOnHook n = t)
        (hrests : t.testRests n) : goes t :=
      leads (.inr (.inr (.inr (.inl hs)))) ((hidles (by simp [hs])).trans h) hrests
    have hidle (t : State) (d : DownClaims) : ((idles t d).line n).state = .idle := by simp [idles, idle]
    refine ⟨fun hu hs => ?untested, fun hs older younger rs ht ho hw => ?waiting, fun hs x hx hxn ho => ?testing,
      fun c rec hs hc hr => ?calling⟩
    case untested =>
      refine leads (by tauto) ((hidles ?_).trans (State.abortAtOnHook_untested (by simpa [idles, State.untested] using hu))) ?_
      · rcases hs with h | h | h | h <;> simp [h]
      · exact State.testRests_of_testOn hu.1 (by simp [idles])
    case waiting =>
      intro left
      have hu : ((idles s down).setItu left).untested n := ⟨ht, ho⟩
      have hidle : (((idles s down).setItu left).line n).state = .idle := hidle s down
      have aborts {t : State} {l : List Report} (hd : ((idles s down).setItu left).deliverAll n rs = t.reported l)
          (hi : t.itu = left) : goes (t.reported (l ++ [abort])) := by
        refine through hs (State.abortAtOnHook_of_waiting_delivered (s := idles s down) ht hw ho hd) (State.testRests_of_testOn ht ?_)
        simp [State.testOn, hi, left]
      refine ⟨fun hrs => aborts (by rw [hrs, State.deliverAll_exchange]) rfl, fun c rec hr hn hst => ?_⟩
      intro ended ends
      have hv : ((idles s down).setItu left).uncalled n c rec = _ :=
        State.uncalled_withLine s n idle DigitRec.initial down ⟨false, none, false⟩ left c rec
      refine ⟨fun hrs => aborts (l := [ended]) ?_ (by simp [idles]), fun hrs => aborts (l := [ended, exch]) ?_ (by simp [idles]),
        fun hrs => aborts (l := [exch, ended]) ?_ (by simp [idles])⟩
      · rw [hrs, State.deliverAll_call hidle hu hr hn hst, hv]
        rfl
      · rw [hrs, State.deliverAll_call_exchange hidle hu hr hn hst, hv]
        rfl
      · rw [hrs, State.deliverAll_exchange_call hidle hu hr hn hst, hv]
        rfl
    case testing =>
      intro ends
      set itu : Itu := ⟨s.itu.queue, none⟩ with hitu
      have hon : s.testOn n = some x := by simp [State.testOn, hx, hxn, Option.filter]
      have hdrop : (idles s down).dropTest n = (idles s { down with test := none }).setItu itu :=
        State.dropTest_withLine s n idle DigitRec.initial down ⟨false, none, false⟩
      have hu : ((idles s { down with test := none }).setItu itu).untested n := ⟨rfl, ho⟩
      have hidle (d : DownClaims) : (((idles s d).setItu itu).line n).state = .idle := hidle s d
      have aborts {t : State} {d : DownClaims} {l : List Report}
          (hd : ((idles s { down with test := none }).setItu itu).deliverAll n x.requesters =
            (idles { t with itu := itu } d).reported l) (hdown : t.hwi.down = s.hwi.down) : ends t d (l ++ [abort]) := by
        have h := State.abortAtOnHook_of_test_delivered (s := idles s down) hon (hdrop ▸ hd)
        refine ⟨fun hq => ?_, fun y rest hq => ?_⟩
        · rw [nextTest_nil (by simpa [idles, itu] using hq)] at h
          rw [hitu, hq] at h
          exact through hs h (State.testRests_of_inProgress_none (by simp [idles]))
        · intro v begun
          have hy : y.line ≠ n := ho y (by simp [hq])
          rw [nextTest_cons (q := y) (rest := rest) (by simpa [idles, itu] using hq)] at h
          refine through hs (h.trans ?_) (State.testRests_of_fresh (x := ⟨y.line, y.requesters, 0, true⟩) (by simp [v, idles]) rfl)
          refine congrArg (fun t : State => t.reported _) ?_
          simp [State.modDown, State.setDown, State.down, idles, State.withLine, v, begun, tget_tset_ne _ _ (Ne.symm hy), hdown]
      refine ⟨fun hrs => aborts (by rw [hrs, State.deliverAll_exchange]; rfl) rfl, fun c rec hr hn hst => ?_⟩
      intro ended ends
      have hv : ((idles s { down with test := none }).setItu itu).uncalled n c rec = _ :=
        State.uncalled_withLine s n idle DigitRec.initial { down with test := none } ⟨false, none, false⟩ itu c rec
      refine ⟨fun hrs => aborts (l := [ended]) ?_ rfl, fun hrs => aborts (l := [ended, exch]) ?_ rfl,
        fun hrs => aborts (l := [exch, ended]) ?_ rfl⟩
      · rw [hrs, State.deliverAll_call (hidle _) hu hr hn hst, hv]
        rfl
      · rw [hrs, State.deliverAll_call_exchange (hidle _) hu hr hn hst, hv]
        rfl
      · rw [hrs, State.deliverAll_exchange_call (hidle _) hu hr hn hst, hv]
        rfl
    case calling =>
      have hn : rec.line = n := State.line_of_callOn hc hr
      have hqs : q.state = .call := hs
      have hcall := State.onHookQualified_call (s := s) (n := n)
        (r := { s.line n with faultCount := 0, onHookCount := (s.line n).onHookCount + 1 }) hl hs
      have takes {t : State} (hu : s.untested n) (h : (s.setLine n q).csqOnHook c n = t) (hrests : t.testOn n = none) :
          goes t := by
        rw [State.callBesideTest_untested hu, hc] at hcall
        refine leads (.inl hs) (hcall.trans ?_) (State.testRests_of_none hrests)
        rw [State.abortAtOnHook_untested (by exact hu)]
        exact h
      have hset : s.setLine n q = s.withLine n q (s.digits n) (s.down n) (s.up n) := State.setLine_eq s n q
      have hline : (s.setLine n q).callOnLine c n = some rec := State.callOnLine_some hr hn
      refine ⟨fun hu hst => takes hu (State.csqOnHook_rung hline hst) hu.1, fun hu hst => ?talk,
        fun hu hst sp hsp => ?hangup, fun x hi hxn hrs => ?tested⟩
      case talk =>
        intro result
        refine takes hu ?_ ((State.testOn_reported _ _ n).trans hu.1)
        rw [State.csqOnHook_talk hline hst, hset, State.endCall_idle_withLine hr hn hu hqs rfl]
        rfl
      case hangup =>
        refine takes hu ?_ hu.1
        rw [State.csqOnHook_anew hline (.inr hst), hset, State.enterRevertRinging_withLine hr hn hsp]
        rfl
      case tested =>
        set own : State := { s with itu := ⟨[], none⟩ } with hown
        have hu : own.untested n := ⟨rfl, by simp [hown]⟩
        have hdrop : (s.setLine n q).dropTest n =
            own.withLine n q (s.digits n) { s.down n with test := none } (s.up n) := by
          rw [State.setLine_eq, State.dropTest_withLine, hi]
          rfl
        have hro : own.callRec c = some rec := hr
        rw [State.callBesideTest_ownTest hi hxn hrs hc] at hcall
        have aborts {t : State} {l : List Report}
            (h : (own.withLine n q (s.digits n) { s.down n with test := none } (s.up n)).csqOnHook c n = t.reported l)
            (ht : t.itu = ⟨[], none⟩) : goes (t.reported (l ++ [abort])) := by
          refine leads (.inl hs) (hcall.trans ?_) (State.testRests_of_inProgress_none (by simp [ht]))
          exact State.abortAtOnHook_of_ownTest (s := s.setLine n q) hi hxn hrs (by rw [hdrop]; exact h) (by simp [ht])
        have hline : (own.withLine n q (s.digits n) { s.down n with test := none } (s.up n)).callOnLine c n = some rec :=
          State.callOnLine_some hr hn
        refine ⟨fun hst sp hsp => aborts (l := []) ?identifyCaller rfl,
          fun hst sp limit hsp hlim hlt => aborts (l := []) ?answerTest rfl,
          fun hst limit hlim hle => aborts (l := [_, _]) ?noAnswer rfl, fun hst => aborts (l := [_]) ?identifying rfl⟩
        case identifyCaller =>
          rw [State.csqOnHook_anew hline (.inl hst), State.enterRevertRinging_withLine hro hn hsp]
          rfl
        case answerTest =>
          rw [State.csqOnHook_answerTest hline hst hlim, if_neg (Nat.not_le.mpr hlt),
            State.enterRevertRinging_withLine hro hn hsp]
          rfl
        case noAnswer =>
          rw [State.csqOnHook_answerTest hline hst hlim, if_pos hle, State.endCall_idle_withLine hro hn hu hqs rfl, endReports, hn]
          rfl
        case identifying =>
          rw [State.csqOnHook_identifying hline hst]
          rw [State.modCall_withLine hro, State.endCall_idle_withLine (s := own.setCall c (some rec.unheard))
            (rec := rec.unheard) (by simp [State.callRec, State.setCall]) hn hu hqs rfl, State.freed_unheard]
          rfl

end Sys2Proof.Machine

/-! Entry into FAULT and recovery from it (R72 to R75), and the watch of the shelf (R151, R152). -/

namespace Sys2Proof.Machine

variable {s t : State} {n : LineId} {c : CallNo} {rec : CallRec}

/-! Reports on a state whose bridge and downstream claims are written anew. -/

theorem State.reported_rebridged (s : State) (l : List Report) (i : Itu) (k : Vector DownClaims 16) :
    ({ s.reported l with itu := i, hwi := { (s.reported l).hwi with down := k } } : State) =
      ({ s with itu := i, hwi := { s.hwi with down := k } } : State).reported l := by
  obtain ⟨f, hf⟩ := State.reported_uniform l
  rw [hf, hf]

theorem State.reported_reitu (s : State) (l : List Report) (i : Itu) :
    ({ s.reported l with itu := i } : State) = ({ s with itu := i } : State).reported l := by
  obtain ⟨f, hf⟩ := State.reported_uniform l
  rw [hf, hf]

/-- What the abort of a line's request leads to, on a line that a change of state has written anew, from the abort
itself (R115, R116). -/
theorem abortLeads_of {q : LineRec} {d : DigitRec} {u : UpClaims} {down : DownClaims} {first last : List Report}
    {goes : State → Prop} (hi : t.itu = s.itu) (hd : t.hwi.down = s.hwi.down)
    (leads : ∀ v : State, v = ((t.withLine n q d down u).reported first).abortTest n → v.testRests n →
      goes (v.reported last)) :
    abortLeads s n (fun i k => ({ t with itu := i } : State).withLine n q d k u) down first last goes := by
  set w : State := (t.withLine n q d down u).reported first with hw
  have hwi : w.itu = s.itu := by simpa [hw] using hi
  have hwd (m : LineId) (hm : m ≠ n) : w.down m = s.down m := by
    simp [hw, State.down, State.withLine, tget_tset_ne _ _ (Ne.symm hm), hd]
  obtain ⟨huntested, hwaiting, htesting⟩ := State.abortTest_leads hwi hwd
    (f := fun v => v.testRests n → goes (v.reported last)) (leads _ rfl)
  refine ⟨fun hu => ?untested, fun older younger rs ht ho hq => ?waiting,
    fun x hx hxn ho => ⟨fun hq => ?alone, fun y rest hq => ?next⟩⟩
  case untested =>
    have h := huntested hu (State.testRests_of_testOn hu.1 (by simp [State.testOn, hwi]))
    rw [hw, ← State.reported_append] at h
    exact hi ▸ h
  case waiting =>
    have h := hwaiting older younger rs ht ho hq (State.testRests_of_testOn ht (by simp [State.testOn]))
    rw [hw, State.reported_reitu, ← State.reported_append, ← State.reported_append, ← List.append_assoc] at h
    exact h
  case alone =>
    have h := (htesting x hx hxn ho).1 hq (State.testRests_of_inProgress_none (by simp))
    rw [hw, State.reported_rebridged, ← State.reported_append, ← State.reported_append, ← List.append_assoc] at h
    simpa [State.withLine, State.down, abortReports] using h
  case next =>
    intro v begun
    have h := (htesting x hx hxn ho).2 y rest hq (State.testRests_of_fresh (by simp; rfl) rfl)
    rw [hw, State.reported_rebridged, ← State.reported_append, ← State.reported_append, ← List.append_assoc] at h
    simpa [State.withLine, State.down, abortReports, v, begun] using h

/-! The judgement of a byte that shows a fault (R72). -/

section Verdicts

variable (r : LineRec) (t : Timing) (v : RingView) (b : Byte)

@[simp] theorem LineRec.judgeIdle_isFaultEntry : (r.judgeIdle b).2.isFaultEntry = false := by
  unfold LineRec.judgeIdle
  split_ifs <;> rfl

@[simp] theorem LineRec.judgeQualifying_isFaultEntry : (r.judgeQualifying t b).2.isFaultEntry = false := by
  unfold LineRec.judgeQualifying
  split_ifs <;> rfl

@[simp] theorem LineRec.judgeCallSeizure_isFaultEntry : (r.judgeCallSeizure t b).2.isFaultEntry = false := by
  unfold LineRec.judgeCallSeizure
  split_ifs <;> rfl

@[simp] theorem LineRec.judgeTrip_isFaultEntry : (r.judgeTrip t v b).2.isFaultEntry = false := by
  unfold LineRec.judgeTrip
  split_ifs <;> rfl

@[simp] theorem LineRec.judgeOnHook_isFaultEntry : (r.judgeOnHook t b).2.isFaultEntry = false := by
  unfold LineRec.judgeOnHook
  split_ifs <;> rfl

@[simp] theorem Verdict.isFaultEntry_nothing : Verdict.nothing.isFaultEntry = false := rfl

/-- No qualification of a state is an entry into FAULT. -/
theorem LineRec.qualify_isFaultEntry (v : Option RingView) : (r.qualify t v b).2.isFaultEntry = false := by
  unfold LineRec.qualify
  split
  all_goals simp

end Verdicts

section Faulty

variable {reason : FaultReason} (hs : (s.line n).state ≠ .fault) (hf : upFault (s.lByte n) = some reason)

include hs hf

theorem judgeLine_faulty (hc : (s.line n).faultCount + 1 < 20) :
    s.judgeLine n = ({ s.line n with faultCount := (s.line n).faultCount + 1 } : LineRec).qualify s.timing (s.ringView n)
      (s.lByte n) := by
  simp [State.judgeLine, LineRec.judge, hs, hf, faultQualify, Nat.not_le.mpr hc]

theorem judgeLine_faultEntry (hc : 20 ≤ (s.line n).faultCount + 1) :
    s.judgeLine n = ({ s.line n with faultCount := (s.line n).faultCount + 1 }, .faultEntry reason) := by
  simp [State.judgeLine, LineRec.judge, hs, hf, faultQualify, hc]

theorem faultEntry_short (hc : (s.line n).faultCount + 1 < 20) : exec (.faultEntry n) s = .next s := by
  have h : (s.verdict n).isFaultEntry = false := by
    rw [State.verdict, judgeLine_faulty hs hf hc]
    exact LineRec.qualify_isFaultEntry _ _ _ _
  simp [exec, execFaultEntry, State.byteEventIf, h]

end Faulty

/-! Entry into FAULT, taken whole (R73). -/

theorem State.discardDigits_withLine (s : State) (n : LineId) (r : LineRec) (d : DigitRec) (k : DownClaims)
    (u : UpClaims) : (s.withLine n r d k u).discardDigits n =
      s.withLine n r DigitRec.initial k { u with replay := none } := by
  simp [State.discardDigits]

theorem State.discardDigits_reported (s : State) (l : List Report) (n : LineId) :
    (s.reported l).discardDigits n = (s.discardDigits n).reported l := by
  obtain ⟨f, hf⟩ := State.reported_uniform l
  rw [hf, hf]
  rfl

/-- Entry into FAULT on a line with no call, and on a line with one. -/
theorem State.enterFault_uncalled {r : LineRec} {reason : FaultReason} (hc : s.callOn n = none) :
    (s.setLine n r).enterFault n reason =
      (((s.withLine n (r.faulted reason) DigitRec.initial { (s.down n).noLsv with fault := some .feedOff }
        ⟨true, none, false⟩).reported []).abortTest n).reported [.notice (.lineFault n reason), .peg .lineFault (some n)] := by
  have hcall : (s.setLine n r).callOn n = none := hc
  rw [State.enterFault_eq]
  simp only [hcall, State.line_setLine_self, State.withLine_setLine, State.discardDigits_withLine]
  rfl

theorem State.enterFault_called {r : LineRec} {reason : FaultReason} (hc : s.callOn n = some c)
    (hr : s.callRec c = some rec) :
    (s.setLine n r).enterFault n reason =
      ((((s.freed c rec).withLine n (r.faulted reason) DigitRec.initial
        { (s.down n).noLsv with fault := some .feedOff, call := none } ⟨true, none, false⟩).reported
        [.notice (.callEnd (callEndOf c rec .fault))]).abortTest n).reported
        [.notice (.lineFault n reason), .peg .lineFault (some n)] := by
  have hcall : (s.setLine n r).callOn n = some c := hc
  have hn : rec.line = n := State.line_of_callOn hc hr
  rw [State.enterFault_eq]
  simp only [hcall, State.line_setLine_self, State.withLine_setLine]
  rw [State.endCall_eq (r := rec) (by simpa using hr) _ _ _ _ (by simp), State.direct_nowhere, hn,
    State.discardDigits_reported]
  simp [State.modDown, State.setDown, State.down, State.discardDigits, State.setDigits, State.modUp, State.setUp,
    State.freed, State.handed, State.withLine, State.up]
  rfl

/-- Settles O35: the judgement of the byte, short of the count and at its end, and the entry with the call ended and
the request aborted (`abortLeads_of`). -/
theorem faultEntryTakesTheLineWhole : Obligations.FaultEntryTakesTheLineWhole := by
  intro s n reason hs hf r
  refine ⟨fun hc => ?short, fun hc => ?whole⟩
  case short =>
    intro counted next
    have hj := judgeLine_faulty hs hf hc
    refine ⟨faultEntry_short hs hf hc, fun ht hst hl hh hb => ?idle, fun ht hst hl hb => ?held⟩
    case idle =>
      refine lineByte_of_nothing (hj.trans ?_) (by simp [show (s.line n).state = _ from hst])
        (by simp [show (s.line n).state = _ from hst]) (State.testRests_of_none ht)
      simp [LineRec.qualify, show (s.line n).state = _ from hst, show (s.line n).loop = _ from hl, LineRec.judgeIdle,
        show (s.line n).hold = _ from hh, hb, counted, r]
    case held =>
      have hserved : (s.line n).state ≠ .collecting ∧ (s.line n).state ≠ .replaying := by
        show r.state ≠ _ ∧ r.state ≠ _
        rcases hst with h | h | h <;> simp [h]
      refine lineByte_of_nothing (hj.trans ?_) hserved.1 hserved.2 (State.testRests_of_none ht)
      rcases hst with h | h | h
      all_goals simp [LineRec.qualify, show (s.line n).state = _ from h, show (s.line n).loop = _ from hl,
        LineRec.judgeOnHook, hb, counted, r]
  case whole =>
    intro q down reports goes faulted
    have hj := judgeLine_faultEntry hs hf hc
    have hq : ({ s.line n with faultCount := (s.line n).faultCount + 1 } : LineRec).faulted reason = q := rfl
    have leads {v : State} (h : (s.setLine n { s.line n with faultCount := (s.line n).faultCount + 1 }).enterFault n
        reason = v) (hrests : v.testRests n) : goes v :=
      both_of_verdict hj (by simp) (faultEntry_of hj) h hrests
    refine ⟨fun hcall => ?_, fun c rec hcall hr => ?_⟩
    · refine abortLeads_of (first := []) rfl rfl fun v hv hrests => leads ?_ (by simpa [State.testRests] using hrests)
      rw [State.enterFault_uncalled hcall, hv, hq]
    · refine abortLeads_of (State.itu_freed s c rec) (congrArg Hwi.down (State.hwi_freed s c rec)) fun v hv hrests =>
        leads ?_ (by simpa [State.testRests] using hrests)
      rw [State.enterFault_called hcall hr, hv, hq]

/-! The counts of a blocked and of a faulted line (R72, R74). -/

section Counts

variable (hp : ∀ p ∈ s.rsc.parts, p.line = n → ∀ k, p.status ≠ .placed k false)

include hp

theorem judgeLine_blocked (hs : (s.line n).state = .blocked) :
    s.judgeLine n =
      (upFault (s.lByte n)).elim ({ s.line n with faultCount := 0 }, .nothing) (fun reason =>
        ({ s.line n with faultCount := (s.line n).faultCount + 1 },
          if 20 ≤ (s.line n).faultCount + 1 then .faultEntry reason else .nothing)) := by
  simp only [State.judgeLine, State.ringView_none hp, LineRec.judge, hs]
  cases upFault (s.lByte n) with
  | none => simp [LineRec.qualify]
  | some reason =>
    by_cases hc : 20 ≤ (s.line n).faultCount + 1
    all_goals simp [faultQualify, hc, LineRec.qualify]

theorem judgeLine_fault (hs : (s.line n).state = .fault) :
    s.judgeLine n =
      if upFault (s.lByte n) = none ∧ s.hwi.lPort.good = true then
        ({ s.line n with clearCount := (s.line n).clearCount + 1 },
          if 400 ≤ (s.line n).clearCount + 1 then .faultCleared else .nothing)
      else ({ s.line n with clearCount := 0 }, .nothing) := by
  have hstands (r : LineRec) (h : r.state = .fault) (t : Timing) (b : Byte) : r.qualify t none b = (r, .nothing) := by
    cases hl : r.loop
    all_goals simp [LineRec.qualify, h]
  simp only [State.judgeLine, State.ringView_none hp, LineRec.judge, hs, if_true, clearQualify]
  split_ifs
  · rfl
  · exact hstands _ rfl _ _
  · exact hstands _ rfl _ _

end Counts

/-! What a line goes to when its fault has cleared (R74). -/

/-- The record of a line whose fault has cleared. -/
def LineRec.cleared (r : LineRec) : LineRec := { r with clearCount := 0, blockRecorded := false }

theorem State.faultRecovered_recorded {loop : Loop} (h : (s.line n).blockRecorded = true) :
    s.faultRecovered n loop = ((s.setLine n (s.line n).cleared).notify (.lineRecovered n .blocked)).enterBlocked n := by
  simp only [State.faultRecovered, h, if_true]
  rfl

theorem State.faultRecovered_opened (h : (s.line n).blockRecorded = false) :
    s.faultRecovered n .opened = ((s.setLine n (s.line n).cleared).notify (.lineRecovered n .idle)).enterIdle n := by
  simp only [State.faultRecovered, h, Bool.false_eq_true, if_false, if_true]
  rfl

theorem State.faultRecovered_closed (h : (s.line n).blockRecorded = false) :
    s.faultRecovered n .closed = ((s.setLine n (s.line n).cleared).notify (.lineRecovered n .lockout)).enterLockout n := by
  simp only [State.faultRecovered, h, Bool.false_eq_true, if_false]
  rfl

theorem State.withLine_reported (s : State) (l : List Report) (n : LineId) (r : LineRec) (d : DigitRec)
    (k : DownClaims) (u : UpClaims) : (s.reported l).withLine n r d k u = (s.withLine n r d k u).reported l := by
  obtain ⟨f, hf⟩ := State.reported_uniform l
  rw [hf, hf]
  rfl

/-- Settles O36: the judgement of the byte (`judgeLine_blocked`, `judgeLine_fault`), and the entry that a cleared fault
makes (`State.faultRecovered`). -/
theorem faultClearing : Obligations.FaultClearing := by
  intro s n ht hp r fault next
  have quiet {x : LineRec} (hj : s.judgeLine n = (x, .nothing)) (hs : r.state = .blocked ∨ r.state = .fault) :
      next x := by
    refine lineByte_of_nothing hj ?_ ?_ (State.testRests_of_none ht)
    all_goals
      show r.state ≠ _
      rcases hs with h | h <;> simp [h]
  refine ⟨fun hs hf => ?sound, fun hs hf hc => ?counts, fun hs hf => ?zero, fun hs hf hg hc => ?clears,
    fun hs hf hg hc hl => ?cleared⟩
  case sound =>
    have hj := judgeLine_blocked hp hs
    rw [show upFault (s.lByte n) = none from hf] at hj
    exact quiet hj (.inl hs)
  case counts =>
    obtain ⟨reason, hreason⟩ := Option.ne_none_iff_exists'.mp hf
    have hj := judgeLine_blocked hp hs
    rw [show upFault (s.lByte n) = some reason from hreason, Option.elim_some, if_neg (Nat.not_le.mpr hc)] at hj
    exact quiet hj (.inl hs)
  case zero =>
    have hj := judgeLine_fault hp hs
    rw [if_neg (by rintro ⟨h1, h2⟩; rcases hf with h | h; exacts [h h1, by simp [h2] at h])] at hj
    exact quiet hj (.inr hs)
  case clears =>
    have hj := judgeLine_fault hp hs
    rw [if_pos ⟨hf, hg⟩, if_neg (Nat.not_le.mpr hc)] at hj
    exact quiet hj (.inr hs)
  case cleared =>
    intro goes q down
    have hj := judgeLine_fault hp hs
    rw [if_pos ⟨hf, hg⟩, if_pos hc] at hj
    set u := s.setLine n { s.line n with clearCount := (s.line n).clearCount + 1 } with hu
    have leads {v : State} (h : u.faultRecovered n (upLoop (s.lByte n)) = v) (hrests : v.testOn n = s.testOn n) :
        goes v :=
      both_of_verdict hj (by simp) (faultCleared_of hj) h (State.testRests_of_testOn ht hrests)
    have hrec : (u.line n).cleared = { q with faultReason := r.faultReason } := by
      simp [hu, LineRec.cleared, q, r]
    have hnotify (x : Notice) : (u.setLine n (u.line n).cleared).notify x =
        (s.setLine n { q with faultReason := r.faultReason }).reported [.notice x] := by
      rw [hrec, hu, State.setLine_setLine]
      rfl
    have hloop {x : LineRec} (h : x.loop = .opened) : x.withLoop .opened = x := LineRec.withLoop_same h
    refine ⟨fun hb => leads (v := State.reported _ _) ?_ (by simp), fun hb hbl => leads (v := State.reported _ _) ?_ (by simp),
      fun hb hbl => leads (v := State.reported _ _) ?_ (by simp)⟩
    · rw [State.faultRecovered_recorded (by simpa [hu] using hb), hnotify, State.enterBlocked_eq, State.withLine_reported]
      simp [LineRec.noLockout, down, q, hl]
    · rw [hbl, State.faultRecovered_opened (by simpa [hu] using hb), hnotify, State.enterIdle_eq, State.withLine_reported]
      simp [LineRec.noLockout, down, hloop, q, hl]
    · rw [hbl, State.faultRecovered_closed (by simpa [hu] using hb), hnotify, State.enterLockout_eq, State.withLine_reported,
        ← State.reported_append]
      simp [LineRec.withLoop_closed, down, q, hl]

/-! The watch of the shelf (R75, R151, R152, R158). -/

/-- The HWI after the close of an L-port interval (R151, R152). -/
def Hwi.intervalClosed (h : Hwi) : Hwi :=
  { ({ h with lPort := h.lPort.closed } : Hwi).countShelf h.lPort.validTaken with byteWaits := Vector.replicate 16 true }

theorem closeL_standing (h : s.hwi.lPort.frameSeen = true ∨ s.mgp.lAssembler = none) :
    exec .lPortIntervalClose s = .next { s with hwi := s.hwi.intervalClosed } := by
  rw [closeL_eq]
  by_cases hf : s.hwi.lPort.frameSeen = true
  · simp only [hf, if_true]
    rfl
  · have hidle := handAbort_idle (s.setHwi { s.hwi with lPort := s.hwi.lPort.closed }) .l (h.resolve_left hf)
    simp only [hf, hidle]
    rfl

theorem closeL_aborting (hf : s.hwi.lPort.frameSeen = false) (ha : s.mgp.lAssembler ≠ none) :
    exec .lPortIntervalClose s = .next (State.peg { s with
      hwi := s.hwi.intervalClosed
      mgp := { s.mgp with
        lAssembler := none
        counters := s.mgp.counters.onPort .l (fun c => c.discarded .abort) } } .msgDiscarded none) := by
  obtain ⟨m, hm⟩ := Option.ne_none_iff_exists'.mp ha
  rw [closeL_eq]
  simp only [hf, Bool.false_eq_true, if_false]
  simp [State.handAbort, State.setHwi, hm, State.discard, State.setMgp, State.modCounters, State.peg_eq]
  rfl

/-- The state after the HWI's report of shelf loss has been taken. -/
def State.shelfTaken (s : State) : State := { s with hwi := { s.hwi with shelfReported := false } }

theorem shelfLoss_unreported (h : s.hwi.shelfReported = false) : exec .shelfLoss s = .next s := by
  simp [exec, execShelfLoss, State.takeShelfLoss, h]

theorem shelfLoss_reported (h : s.hwi.shelfReported = true) : exec .shelfLoss s =
    .next (lineIds.foldl (fun s n => if (s.line n).state = .fault then s else s.enterFault n .shelf) s.shelfTaken) := by
  simp only [exec, execShelfLoss, State.takeShelfLoss, h, if_true]
  rfl

/-- Settles O37: the close of the interval (`closeL_standing`, `closeL_aborting`), and shelf loss line by line
(`shelf_fold`). -/
theorem shelfIsWatched : Obligations.ShelfIsWatched := by
  refine ⟨fun s => ?close, fun s => ⟨shelfLoss_unreported, fun hr => ?loss⟩⟩
  case close =>
    intro p closed h hwi
    have hhwi : s.hwi.intervalClosed = hwi := by
      rw [Hwi.intervalClosed, countShelf_eq s { s.hwi with lPort := s.hwi.lPort.closed } rfl rfl]
      simp only [hwi, h, p, closed]
      split_ifs <;> rfl
    refine ⟨fun hs => hhwi ▸ closeL_standing hs, fun hf ha => ?_⟩
    intro k port mgp
    rw [closeL_aborting hf ha, hhwi]
    rfl
  case loss =>
    obtain ⟨hline, hdigits, hup, hdown, -, hcalls, hfixed⟩ := shelf_fold lineIds s.shelfTaken lineIds_nodup
    have hloss := shelfLoss_reported hr
    generalize lineIds.foldl (fun s n => if (s.line n).state = .fault then s else s.enterFault n .shelf)
      s.shelfTaken = t at *
    refine ⟨t, hloss, fun n hf => ?_, fun n hf => ?_, State.shelfReported_of_fixed hfixed,
      State.restStands_of_fixed hfixed⟩
    · have hout : ¬ (n ∈ lineIds ∧ (s.shelfTaken.line n).state ≠ .fault) := fun h => h.2 hf
      have hdown := hdown n
      rw [if_neg hout] at hdown
      exact ⟨(hline n).trans (if_neg hout), (hdigits n).trans (if_neg hout), (hup n).trans (if_neg hout), hdown⟩
    · have hin : n ∈ lineIds ∧ (s.shelfTaken.line n).state ≠ .fault := ⟨mem_lineIds n, hf⟩
      have hdown := hdown n
      rw [if_pos hin] at hdown
      exact ⟨(hline n).trans (if_pos hin), (hdigits n).trans (if_pos hin), (hup n).trans (if_pos hin),
        congrArg (fun d => d.fault) hdown, congrArg (fun d => d.blocked) hdown, congrArg (fun d => d.lockout) hdown,
        congrArg (fun d => d.collecting) hdown, congrArg (fun d => d.ring) hdown, fun c hc => hcalls n hin.1 hin.2 c hc⟩

end Sys2Proof.Machine

/-! The timers of a line and of a call, and the Digit Unit (R77, R85 to R104, R135). -/

namespace Sys2Proof.Machine

variable {s t : State} {n : LineId} {c : CallNo} {rec : CallRec}

/-! The expiries (R77, R92, R135). -/

theorem LineRec.lockoutDue_iff {r : LineRec} : r.lockoutDue = true ↔
    r.state = .lockout ∧ r.lockoutPhase = some .tone ∧ r.lockoutTimer = some 0 := by
  simp [LineRec.lockoutDue]

theorem DigitRec.collectionDue_iff {d : DigitRec} : d.collectionDue = true ↔ ∃ k, d.collection = some ⟨k, 0⟩ := by
  unfold DigitRec.collectionDue
  split
  next t h =>
    obtain ⟨k, l⟩ := t
    simp [h]
  next h => simp [h]

theorem State.lockoutExpiry_due (h : (s.line n).lockoutDue = true) : s.lockoutExpiry n =
    s.withLine n { s.line n with lockoutPhase := some .feedOff } (s.digits n)
      { s.down n with lockout := some .feedOff } (s.up n) := by
  rw [State.lockoutExpiry, if_pos h]
  simp [State.modLine, State.setLine_eq]

/-- The end of a collection on a line whose loop is closed, by the link state (R96). -/
theorem State.mismatch_linked (hl : s.linked = true) (hc : (s.line n).loop = .closed) : s.mismatch n =
    s.withLine n { s.line n with state := .replaying }
      { s.digits n with collection := none, generator := .toneWait, generatorTimer := 100, sending := none, quiet := 0 }
      (s.down n).noLsv { s.up n with onHook := true, replay := some .closed } := by
  rw [State.mismatch, if_pos hl, State.enterReplaying_eq, LineRec.withLoop_same hc]

/-- The record of a line in LOCKOUT. -/
def LineRec.locked (r : LineRec) : LineRec :=
  { r with state := .lockout, faultReason := none, lockoutTimer := some 6000, lockoutPhase := some .tone }

theorem State.enterLockout_closed (hc : (s.line n).loop = .closed) : s.enterLockout n =
    (s.withLine n (s.line n).locked DigitRec.initial { (s.down n).noLsv with lockout := some .hangupTone }
      ⟨false, none, true⟩).reported [.notice (.lineLockout n), .peg .lockout (some n)] := by
  rw [State.enterLockout_eq, LineRec.withLoop_same hc]
  rfl

theorem State.mismatch_unlinked (hl : s.linked = false) (hc : (s.line n).loop = .closed) : s.mismatch n =
    (s.withLine n (s.line n).locked DigitRec.initial { (s.down n).noLsv with lockout := some .hangupTone }
      ⟨false, none, true⟩).reported [.notice (.lineLockout n), .peg .lockout (some n)] := by
  rw [State.mismatch, if_neg (by simp [hl]), State.enterLockout_closed hc]

theorem State.hangupExpiry_due (hr : s.callRec c = some rec) (hs : rec.state = .hangupWait)
    (ht : rec.hangupTimer = some 0) :
    s.hangupExpiry c = s.endCall c .abandoned .lockout (some .revertAbandoned) true := by
  simp [State.hangupExpiry, hr, hs, ht]

theorem State.hangupExpiry_other (hr : s.callRec c = some rec) (h : rec.state ≠ .hangupWait ∨ rec.hangupTimer ≠ some 0) :
    s.hangupExpiry c = s := by
  simp only [State.hangupExpiry, hr]
  rw [if_neg (by tauto)]

/-- Settles O39: each expiry where its timer is due, and where it is not. -/
theorem lineAndCallTimersExpire : Obligations.LineAndCallTimersExpire := by
  intro s n r down lockout locked isDue
  have hdue : (s.line n).lockoutDue = true ↔ isDue := LineRec.lockoutDue_iff
  refine ⟨fun h => congrArg _ (State.lockoutExpiry_due (hdue.mpr h)), fun h => ?notDue, fun hs hc k hk => ?collection,
    fun h => ?notCollecting, fun c rec hr => ⟨fun hs ht hn hst hl hu => ?hangup, fun h => ?notHangup⟩⟩
  case notDue => exact congrArg _ (if_neg (mt hdue.mp h))
  case collection =>
    have hexpiry : s.collectionExpiry n = s.mismatch n := if_pos ⟨hs, DigitRec.collectionDue_iff.mpr ⟨k, hk⟩⟩
    exact ⟨fun hl => congrArg _ (hexpiry.trans (State.mismatch_linked hl hc)),
      fun hl => congrArg _ (hexpiry.trans (State.mismatch_unlinked hl hc))⟩
  case notCollecting =>
    refine congrArg _ (if_neg ?_)
    rintro ⟨hs, hd⟩
    obtain ⟨k, hk⟩ := DigitRec.collectionDue_iff.mp hd
    exact h.elim (fun h => h hs) (fun h => h k hk)
  case hangup =>
    subst hn
    have hend := State.endCall_of_call hr hu hst .abandoned .lockout (some .revertAbandoned) true
    refine congrArg _ ((State.hangupExpiry_due hr hs ht).trans (hend.trans ?_))
    simp [directed, LineRec.withLoop_same (show (s.line rec.line).loop = .closed from hl), endReports, lockout, r, locked, down]
  case notHangup => exact congrArg _ (State.hangupExpiry_other hr h)

/-! What the receiver finds in one interval (R85 to R89). -/

/-- What an interval that ends neither a digit nor a discard leads to, from what the receiver finds in it. -/
theorem receiverLeads_of {d : DigitRec} {loop : Loop} {goes first invalid : DigitRec → Prop}
    (h : ∀ e x, d.receive loop = (e, x) → (x = .nothing ∨ x = .pulse → goes e) ∧ (x = .firstBreak → first e) ∧
      (x = .invalid → invalid e)) :
    receiverLeads d loop goes first invalid := by
  have nothing {e : DigitRec} (he : d.receive loop = (e, .nothing)) : goes e := (h _ _ he).1 (.inl rfl)
  refine ⟨?closed, ?opened⟩
  case closed =>
    rintro rfl
    refine ⟨fun hp => nothing ?_, fun hp h6 h16 h10 => (h _ _ ?_).1 (.inr rfl), fun hp hb => (h _ _ ?_).2.2 rfl,
      fun hp he => nothing ?_⟩
    · simp [DigitRec.receive, hp]
    · simp [DigitRec.receive, hp, DigitRec.judgeBreak, h6, h16, h10]
    · have hbad : ¬ (6 ≤ d.element ∧ d.element ≤ 16 ∧ d.pulses < 10) := by omega
      simp [DigitRec.receive, hp, DigitRec.judgeBreak, hbad, DigitRec.discarding]
    · have hend : ¬ endMake ≤ d.element + 1 := Nat.not_le.mpr he
      rcases hp with hp | hp
      all_goals simp [DigitRec.receive, hp, hend]
  case opened =>
    rintro rfl
    refine ⟨fun hp => (h _ _ ?_).2.1 rfl, fun hp => nothing ?_, fun hp h4 h12 => nothing ?_,
      fun hp hb => (h _ _ ?_).2.2 rfl, fun hp => nothing ?_⟩
    · simp [DigitRec.receive, hp]
    · simp [DigitRec.receive, hp]
    · simp [DigitRec.receive, hp, DigitRec.judgeMake, h4, h12]
    · have hbad : ¬ (4 ≤ d.element ∧ d.element ≤ 12) := by omega
      simp [DigitRec.receive, hp, DigitRec.judgeMake, hbad, DigitRec.discarding]
    · simp [DigitRec.receive, hp]

/-- The record of a receiver whose digit has ended (R88). -/
def DigitRec.rested (d : DigitRec) : DigitRec := { d with phase := .waiting, element := 0, pulses := 0 }

theorem DigitRec.receive_digit {d : DigitRec} (hp : d.phase = .make) (he : 40 ≤ d.element + 1) :
    d.receive .closed = (d.rested, .digit (digitOfPulses d.pulses)) := by
  have hend : endMake ≤ d.element + 1 := he
  simp [DigitRec.receive, hp, hend, DigitRec.rested]

theorem DigitRec.receive_discardEnd {d : DigitRec} (hp : d.phase = .discarding) (he : 40 ≤ d.element + 1) :
    d.receive .closed = ({ d with phase := .waiting, element := 0 }, .discardEnd) := by
  have hend : endMake ≤ d.element + 1 := he
  simp [DigitRec.receive, hp, hend]

/-- The row of a digit's end is the byte event in which it ends (log 3). -/
theorem digitEnd_of {r : LineRec} {d : DigitRec} {x : Nat} (hj : s.judgeLine n = (r, .nothing))
    (hs : (s.line n).state = .collecting ∨ (s.line n).state = .replaying)
    (hd : (s.digits n).receive (upLoop (s.lByte n)) = (d, .digit x)) :
    exec (.digitEnd n) s = exec (.lineByte n) s := by
  simp [exec, execDigitEnd, execLineByte, State.byteEventIf, State.received, hs, State.verdict, hj, hd, Received.isDigit]

theorem discardEnd_of {r : LineRec} {d : DigitRec} (hj : s.judgeLine n = (r, .nothing))
    (hs : (s.line n).state = .collecting ∨ (s.line n).state = .replaying)
    (hd : (s.digits n).receive (upLoop (s.lByte n)) = (d, .discardEnd)) :
    exec (.discardEnd n) s = exec (.lineByte n) s := by
  simp [exec, execDiscardEnd, execLineByte, State.byteEventIf, State.received, hs, State.verdict, hj, hd]

/-! The byte of a line in COLLECTING (R91 to R94). -/

theorem State.receiveLoop_withLine {r : LineRec} {d e : DigitRec} {k : DownClaims} {u : UpClaims} {loop : Loop}
    {x : Received} (h : d.receive loop = (e, x)) :
    (s.withLine n r d k u).receiveLoop n loop = (s.withLine n r e k u).takeReceived n x := by
  simp [State.receiveLoop, h]

/-- The line's downstream claims after an interval of a collection (R91). -/
def DownClaims.toned (k : DownClaims) (loop : Loop) : DownClaims :=
  if loop = .opened then { k with collecting := some .feed } else k

theorem State.collectByte_setLine {r : LineRec} {e : DigitRec} {loop : Loop} {x : Received}
    (h : (s.digits n).receive loop = (e, x)) :
    (s.setLine n r).digitByte n .collecting loop =
      (s.withLine n r e ((s.down n).toned loop) (s.up n)).takeReceived n x := by
  have htone : (s.setLine n r).removeDialTone n loop =
      s.withLine n r (s.digits n) ((s.down n).toned loop) (s.up n) := by
    rw [State.setLine_eq, State.removeDialTone, DownClaims.toned]
    split <;> simp
  rw [State.digitByte, State.collectByte, htone, State.receiveLoop_withLine h]

/-- A digit that ends on a line in COLLECTING joins the buffer and is compared, unless it is the 13th (R90, R93). -/
theorem State.digitJoins_collecting {r : LineRec} {d : DigitRec} {k : DownClaims} {u : UpClaims} {x : Nat}
    (hs : r.state = .collecting) (hb : d.buffer.length < 12) :
    (s.withLine n r d k u).digitJoins n x =
      (s.withLine n r { d with buffer := d.buffer ++ [x] } k u).matchDigit n := by
  have hroom : ¬ bufferCapacity ≤ d.buffer.length := Nat.not_le.mpr hb
  simp [State.digitJoins, hroom, hs]

theorem State.digitJoins_full {r : LineRec} {d : DigitRec} {k : DownClaims} {u : UpClaims} {x : Nat}
    (hb : d.buffer.length = 12) : (s.withLine n r d k u).digitJoins n x = (s.withLine n r d k u).enterLockout n := by
  simp [State.digitJoins, hb, bufferCapacity]

/-- Entry into IDENTIFY_CALLER with the bridge idle (R111, R134). -/
theorem State.enterIdentifyCaller_idle (hr : s.callRec c = some rec) (hi : s.itu = ⟨[], none⟩) :
    s.enterIdentifyCaller c n =
      ({ s with
        csq := tset s.csq c (some { rec with state := .identifyCaller }),
        itu := ⟨[], some ⟨n, [.call c], 0, true⟩⟩ } : State).modDown n
        (fun k => { k with call := some .feed, test := some .test }) := by
  have hcsq : tget s.csq c = some rec := hr
  rw [State.enterIdentifyCaller, State.requestTest_idle (by exact hi)]
  simp [State.callClaim, State.modDown, State.setDown, State.down, State.modCall, State.setCall, State.callRec, hcsq]

/-- A match with a call number free and the bridge idle (R95, R132, R134). -/
theorem State.revertMatch_of {p : PartyId} (hc : s.callRec c = none) (hl : ∀ k, k < c → s.callRec k ≠ none)
    (hi : s.itu = ⟨[], none⟩) {r : LineRec} {d : DigitRec} {k : DownClaims} {u : UpClaims} :
    (s.withLine n r d k u).revertMatch n p =
      (({ s with csq := tset s.csq c (some (newRevert .isLocal n p none)), itu := ⟨[], some ⟨n, [.call c], 0, true⟩⟩ } : State).withLine
        n { r.noLockout with state := .call } DigitRec.initial
        { k.noLsv with call := some .feed, test := some .test } ⟨false, none, true⟩).reported
        [.notice (.revertLocalStart c n p), .peg .revertStarted (some n)] := by
  have hfree : (s.withLine n r d k u).freeCall = some c := State.freeCall_of hc hl
  have hmade : (((s.withLine n r d k u).setCall c (some (newRevert .isLocal n p none))).enterCall n .rv) =
      (s.setCall c (some (newRevert .isLocal n p none))).withLine n { r.noLockout with state := .call } DigitRec.initial
        k.noLsv ⟨false, none, true⟩ := by
    rw [State.enterCall_eq]
    simp [State.setCall, State.withLine, State.line, State.down]
  simp only [State.revertMatch, hfree, hmade]
  change ((State.withLine _ _ _ _ _ _).reported [.notice (.revertLocalStart c n p), .peg .revertStarted (some n)]).enterIdentifyCaller c n = _
  rw [State.enterIdentifyCaller_idle (rec := newRevert .isLocal n p none) (by simp [State.callRec, State.setCall])
    (by simpa using hi)]
  obtain ⟨f, hf⟩ := State.reported_uniform [.notice (.revertLocalStart c n p), .peg .revertStarted (some n)]
  rw [hf, hf]
  simp [State.modDown, State.setDown, State.down, State.withLine, State.setCall, newRevert]

/-- The comparison of a buffer that no code equals, by whether a code opens with it (R93). -/
theorem State.compareCodes_opening {b : List Nat} (hb : b ≠ []) (h : ∀ p, ¬ ∃ e, s.party n p = some e ∧ e.code = b)
    (ho : ∃ p e, s.party n p = some e ∧ b.length < e.code.length ∧ b <+: e.code) : s.compareCodes n b = .opening := by
  rw [State.compareCodes_other hb h, if_pos (State.opens_iff.mpr ho)]

theorem State.compareCodes_mismatch {b : List Nat} (hb : b ≠ []) (h : ∀ p, ¬ ∃ e, s.party n p = some e ∧ e.code = b)
    (ho : ¬ ∃ p e, s.party n p = some e ∧ b.length < e.code.length ∧ b <+: e.code) :
    s.compareCodes n b = .mismatch := by
  rw [State.compareCodes_other hb h, if_neg (mt State.opens_iff.mp ho)]

theorem State.revertMatch_full {p : PartyId} (h : ∀ c, s.callRec c ≠ none) (hc : (s.line n).loop = .closed) :
    s.revertMatch n p = (s.withLine n (s.line n).locked DigitRec.initial
      { (s.down n).noLsv with lockout := some .hangupTone } ⟨false, none, true⟩).reported
      [.notice (.revertRefused n p), .notice (.lineLockout n), .peg .lockout (some n)] := by
  have hfree : s.freeCall = none := State.freeCall_none h
  simp only [State.revertMatch, hfree]
  change (s.reported [.notice (.revertRefused n p)]).enterLockout n = _
  rw [State.enterLockout_closed (by simpa using hc), State.withLine_reported, ← State.reported_append]
  simp

/-- The judgement of the byte of a line in COLLECTING or REPLAYING whose on-hook does not qualify in it (R69). -/
theorem judgeLine_served (hf : upFault (s.lByte n) = none)
    (hs : (s.line n).state = .collecting ∨ (s.line n).state = .replaying) (hl : (s.line n).loop = .closed)
    (hq : upLoop (s.lByte n) = .opened → (s.line n).onHookCount + 1 < s.timing.onHookQualify) :
    s.judgeLine n = ({ s.line n with
      faultCount := 0
      onHookCount := if upLoop (s.lByte n) = .opened then (s.line n).onHookCount + 1 else 0 }, .nothing) := by
  rw [judgeLine_onHook hf hl (by tauto)]
  by_cases hb : upLoop (s.lByte n) = .opened
  · rw [if_pos hb, if_pos hb, if_neg (Nat.not_le.mpr (hq hb))]
  · rw [if_neg hb, if_neg hb]

/-- Settles O38: the digit's end by what the comparison of its buffer finds (`State.matchDigit`), and every other
interval by what the receiver finds in it (`receiverLeads_of`). -/
theorem digitEndsInCollection : Obligations.DigitEndsInCollection := by
  refine ⟨fun s n ht hf hb hs hl hp he hlen => ?digit, fun s n ht hf hs hl hq => ?interval⟩
  case digit =>
    intro buffer r d down goes isCode opens lockout locked
    have hj : s.judgeLine n = (r, .nothing) := judge_quiet hf hl hb (.inl hs)
    have hreceive := DigitRec.receive_digit hp he
    have hbuffer : buffer ≠ [] := by simp [buffer]
    have htakes : (s.setLine n r).digitByte n .collecting .closed =
        (s.withLine n r d (s.down n) (s.up n)).matchDigit n := by
      rw [State.collectByte_setLine hreceive, State.takeReceived,
        State.digitJoins_collecting (r := r) (d := (s.digits n).rested) hs hlen]
      rfl
    have leads {t : State} (h : (s.withLine n r d (s.down n) (s.up n)).matchDigit n = t) (hrests : t.testRests n) :
        goes t := by
      have hbyte := lineByte_of_digits hj (by rw [hs, hb]; exact htakes.trans h) hrests
      exact ⟨hbyte, (digitEnd_of hj (.inl hs) (by rw [hb]; exact hreceive)).trans hbyte⟩
    have compares {x : Comparison} (h : s.compareCodes n buffer = x) :
        (s.withLine n r d (s.down n) (s.up n)).compareCodes n
          ((s.withLine n r d (s.down n) (s.up n)).digits n).buffer = x := by
      rw [State.digits_withLine_self]
      exact h
    refine ⟨fun hno ho => ?opening, fun hno ho hk => ?replays, fun hno ho hk => ?locks,
      fun p hcode huniq => ⟨fun hfull => ?refused, fun c hc hlow hi => ?reverts⟩⟩
    case opening =>
      refine leads ?_ (State.testRests_of_testOn ht (State.testOn_withLine s n r _ _ _ n))
      simp only [State.matchDigit, compares (State.compareCodes_opening hbuffer hno ho)]
      simp
    case replays =>
      refine leads ?_ (State.testRests_of_testOn ht (State.testOn_withLine s n _ _ _ _ n))
      simp only [State.matchDigit, compares (State.compareCodes_mismatch hbuffer hno ho)]
      rw [State.mismatch_linked (by exact hk) (by simpa using hl)]
      simp [down]
    case locks =>
      refine leads ?_ (State.testRests_of_testOn ht ((State.testOn_reported _ _ n).trans (State.testOn_withLine s n _ _ _ _ n)))
      simp only [State.matchDigit, compares (State.compareCodes_mismatch hbuffer hno ho)]
      rw [State.mismatch_unlinked (by exact hk) (by simpa using hl)]
      simp [lockout, locked, down, LineRec.locked]
    case refused =>
      refine leads ?_ (State.testRests_of_testOn ht ((State.testOn_reported _ _ n).trans (State.testOn_withLine s n _ _ _ _ n)))
      simp only [State.matchDigit, compares (State.compareCodes_isCode hbuffer hcode huniq)]
      rw [State.revertMatch_full (by exact hfull) (by simpa using hl)]
      simp [lockout, locked, down, LineRec.locked]
    case reverts =>
      refine leads ?_ (State.testRests_of_fresh (x := ⟨n, [.call c], 0, true⟩) (by simp) rfl)
      simp only [State.matchDigit, compares (State.compareCodes_isCode hbuffer hcode huniq)]
      exact State.revertMatch_of hc hlow hi
  case interval =>
    intro loop r down next
    have hj : s.judgeLine n = (r, .nothing) := judgeLine_served hf (.inl hs) hl hq
    have leads {e : DigitRec} {x : Received} {t : State} (he : (s.digits n).receive loop = (e, x))
        (h : (s.withLine n r e ((s.down n).toned loop) (s.up n)).takeReceived n x = t) (hrests : t.testOn n = s.testOn n) :
        exec (.lineByte n) s = .next (t.byteTaken n) :=
      lineByte_of_digits hj (by rw [hs]; exact (State.collectByte_setLine he).trans h) (State.testRests_of_testOn ht hrests)
    refine receiverLeads_of fun e x he => ⟨fun hx => ?_, fun hx => ?_, fun hx => ?_⟩
    · refine leads he ?_ (State.testOn_withLine s n _ _ _ _ n)
      rcases hx with rfl | rfl
      all_goals rfl
    · subst hx
      refine leads he ?_ (State.testOn_withLine s n _ _ _ _ n)
      simp [State.takeReceived, down, DownClaims.toned, loop]
    · subst hx
      refine leads he ?_ (State.testOn_withLine s n _ _ _ _ n)
      have hcollecting : r.state = .collecting := hs
      simp only [State.takeReceived, State.line_withLine_self, hcollecting, if_true, State.restartCollection]
      simp only [State.modDigits_withLine, State.modDown_withLine, DownClaims.toned]
      split <;> rfl

/-! The replay generator (R98 to R104). -/

section Generator

variable {x : Nat} {rest : List Nat}

/-- A digit in sending, with the pulses that it has (R100). -/
def sendingOf (x : Nat) : DigitInSending := ⟨x, if x = 0 then 10 else x⟩

theorem State.generatorTakes_cons (hb : (s.digits n).buffer = x :: rest) : s.generatorTakes n =
    s.withLine n (s.line n)
      { s.digits n with buffer := rest, sending := some (sendingOf x), generator := .brk, generatorTimer := 12 }
      (s.down n) { s.up n with replay := some .opened } := by
  simp only [State.generatorTakes, hb]
  simp [State.setReplay, State.modUp, State.setUp, State.up, State.modDigits, State.setDigits, State.withLine,
    State.line, State.down, State.digits, sendingOf]

theorem State.generatorTakes_nil (hb : (s.digits n).buffer = []) : s.generatorTakes n =
    s.withLine n (s.line n) { s.digits n with sending := none, generator := .stall, generatorTimer := 0 }
      (s.down n) { s.up n with replay := some .closed } := by
  have hbuffer : (tget s.dgu n).buffer = [] := hb
  simp only [State.generatorTakes, hb]
  simp [State.setReplay, State.modUp, State.setUp, State.up, State.modDigits, State.setDigits, State.withLine,
    State.line, State.down, State.digits, hbuffer]

/-- The replay of a line is done (R104). -/
def DigitRec.replayDone (d : DigitRec) : Prop := d.buffer = [] ∧ d.generator = .stall ∧ 400 ≤ d.quiet

theorem State.endReplayIfDone_goesOn (h : ¬ (s.digits n).replayDone) : s.endReplayIfDone n = s :=
  if_neg fun hd => h hd.2

theorem State.endReplayIfDone_ends (hs : (s.line n).state = .replaying) (h : (s.digits n).replayDone)
    (hc : (s.line n).loop = .closed) : s.endReplayIfDone n =
      s.withLine n { (s.line n).noLockout with state := .through, faultReason := none } DigitRec.initial
        (s.down n).noLsv ⟨false, none, false⟩ := by
  rw [State.endReplayIfDone, if_pos ⟨hs, h⟩, State.enterThrough_eq, LineRec.withLoop_same hc]

/-- The line's generator waits for dial tone and its E-port byte carries it (R99). -/
def State.hearsTone (s : State) (n : LineId) : Prop :=
  (s.digits n).generator = .toneWait ∧ downCode (s.eByte n) = some .dialTone

theorem State.hearDialTone_of (h : s.hearsTone n) : s.hearDialTone n = s.generatorTakes n := if_pos h

theorem State.hearDialTone_not (h : ¬ s.hearsTone n) : s.hearDialTone n = s := if_neg h

end Generator

/-! The expiry of the generator timer (R99, R100). -/

theorem State.generatorDue_iff : s.generatorDue n = true ↔ (s.line n).state = .replaying ∧
    (s.digits n).generator ≠ .off ∧ (s.digits n).generator ≠ .stall ∧ (s.digits n).generatorTimer = 0 := by
  simp only [State.generatorDue, Bool.and_eq_true, decide_eq_true_eq, DigitRec.generatorDue]
  cases (s.digits n).generator
  all_goals simp

theorem generatorTimerExpiry_due (h : s.generatorDue n = true) :
    exec (.generatorTimerExpiry n) s = .next (s.generatorExpiry n) := congrArg _ (if_pos h)

theorem generatorTimerExpiry_notDue (h : ¬ s.generatorDue n = true) :
    exec (.generatorTimerExpiry n) s = .next s := congrArg _ (if_neg h)

theorem State.generatorExpiry_seeks (h : (s.digits n).generator = .toneWait ∨ (s.digits n).generator = .interDigit) :
    s.generatorExpiry n = (s.generatorTakes n).endReplayIfDone n := by
  rw [State.generatorExpiry]
  rcases h with h | h
  all_goals rw [h]

theorem State.generatorExpiry_make (h : (s.digits n).generator = .make) : s.generatorExpiry n =
    s.withLine n (s.line n) { s.digits n with generator := .brk, generatorTimer := 12 } (s.down n)
      { s.up n with replay := some .opened } := by
  rw [State.generatorExpiry, h]
  simp [State.setReplay, State.modUp, State.setUp, State.up, State.modDigits, State.setDigits, State.withLine,
    State.line, State.down, State.digits]

/-- The end of a generated break, with pulses left and with none (R100). -/
theorem State.generatorExpiry_brk (h : (s.digits n).generator = .brk) {g : DigitInSending}
    (hg : (s.digits n).sending = some g) : s.generatorExpiry n =
      if g.pulsesLeft - 1 = 0 then
        (s.withLine n (s.line n) { s.digits n with
          sending := some { g with pulsesLeft := g.pulsesLeft - 1 }, generator := .interDigit, generatorTimer := 80 }
          (s.down n) { s.up n with replay := some .closed }).reported [.peg .digitReplayed (some n)]
      else s.withLine n (s.line n) { s.digits n with
          sending := some { g with pulsesLeft := g.pulsesLeft - 1 }, generator := .make, generatorTimer := 8 }
          (s.down n) { s.up n with replay := some .closed } := by
  rw [State.generatorExpiry, h]
  simp only [State.endBreak, hg]
  simp [State.setReplay, State.modUp, State.setUp, State.up, State.modDigits, State.setDigits, State.withLine,
    State.line, State.down, State.digits, State.reported]

/-! The byte of a line in REPLAYING (R85 to R90, R99, R101, R104). -/

/-- The record of a replaying line before the generator looks at it: what the receiver leaves, with the quiet count. -/
theorem State.replayByte_setLine {r : LineRec} {e : DigitRec} {loop : Loop} {x : Received}
    (h : (s.digits n).receive loop = (e, x)) :
    (s.setLine n r).digitByte n .replaying loop =
      let t := (s.withLine n r { e with quiet := quietAfter (s.digits n).quiet loop } (s.down n) (s.up n)).takeReceived n x
      if (t.line n).state = .replaying then (t.hearDialTone n).endReplayIfDone n else t := by
  rw [State.digitByte, replay_step (s.setLine n r) n loop e x h, State.setLine_eq]
  simp

/-- The receiver leaves the generator and the buffer. -/
theorem DigitRec.receive_keeps (d : DigitRec) (loop : Loop) :
    (d.receive loop).1.generator = d.generator ∧ (d.receive loop).1.buffer = d.buffer := by
  unfold DigitRec.receive DigitRec.judgeBreak DigitRec.judgeMake DigitRec.discarding
  cases d.phase
  all_goals
    cases loop
    all_goals grind

/-- A replaying line that neither hears dial tone nor ends its replay stands as the receiver leaves it. -/
theorem State.replay_stands (htone : ¬ s.hearsTone n) (hdone : ¬ (s.digits n).replayDone) :
    (s.hearDialTone n).endReplayIfDone n = s := by
  rw [State.hearDialTone_not htone, State.endReplayIfDone_goesOn hdone]

theorem replayEnd_of_byte (hs : (s.line n).state = .replaying) (ht : exec (.lineByte n) s = .next t)
    (hend : (t.line n).state = .through) : exec (.replayEnd n) s = .next t := by
  have hbyte : s.lineByteEvent n = t := Host.Outcome.next.inj ht
  have h : s.replayEndsInByte n = true := by simp [State.replayEndsInByte, hs, hbyte, hend]
  simp only [exec, execReplayEnd, State.replayEndEvent, h, if_true, hbyte]

theorem replayEnd_of_expiry (hd : s.generatorDue n = true) (ht : s.generatorExpiry n = t)
    (hend : (t.line n).state = .through)
    (hbyte : ∀ t, exec (.lineByte n) s = .next t → (t.line n).state ≠ .through) :
    exec (.replayEnd n) s = .next t := by
  have h1 : s.replayEndsInByte n = false := by
    simp [State.replayEndsInByte, hbyte (s.lineByteEvent n) rfl]
  have h2 : s.replayEndsInExpiry n = true := by simp [State.replayEndsInExpiry, hd, ht, hend]
  simp only [exec, execReplayEnd, State.replayEndEvent, h1, h2, Bool.false_eq_true, if_false, if_true, ht]

theorem replayEnd_not (hs : (s.line n).state ≠ .replaying) : exec (.replayEnd n) s = .next s := by
  have h1 : s.replayEndsInByte n = false := by simp [State.replayEndsInByte, hs]
  have h2 : s.replayEndsInExpiry n = false := by simp [State.replayEndsInExpiry, State.generatorDue, hs]
  simp only [exec, execReplayEnd, State.replayEndEvent, h1, h2, Bool.false_eq_true, if_false]

/-- A digit that ends on a line in REPLAYING joins the buffer, and a generator in STALL takes it (R101). -/
theorem State.digitJoins_replaying {r : LineRec} {d : DigitRec} {k : DownClaims} {u : UpClaims} {x : Nat}
    (hs : r.state = .replaying) (hb : d.buffer.length < 12) :
    (s.withLine n r d k u).digitJoins n x =
      let v := s.withLine n r { d with buffer := d.buffer ++ [x] } k u
      if d.generator = .stall then v.generatorTakes n else v := by
  have hroom : ¬ bufferCapacity ≤ d.buffer.length := Nat.not_le.mpr hb
  simp [State.digitJoins, hroom, hs]

/-- The byte event of a line in REPLAYING, from what the receiver finds and what the generator then does. -/
theorem replaying_byte {r : LineRec} {e : DigitRec} {x : Received} {v : State} (ht : s.testOn n = none)
    (hj : s.judgeLine n = (r, .nothing)) (hs : (s.line n).state = .replaying)
    (he : (s.digits n).receive (upLoop (s.lByte n)) = (e, x))
    (hv : (s.withLine n r { e with quiet := quietAfter (s.digits n).quiet (upLoop (s.lByte n)) } (s.down n)
      (s.up n)).takeReceived n x = v)
    (hvs : (v.line n).state = .replaying) (hend : (v.hearDialTone n).endReplayIfDone n = t)
    (hrests : t.testOn n = s.testOn n) : exec (.lineByte n) s = .next (t.byteTaken n) := by
  refine lineByte_of_digits hj ?_ (State.testRests_of_testOn ht hrests)
  rw [hs, State.replayByte_setLine he, hv]
  simp only [hvs, if_true, hend]

theorem replaying_byte_leaves {r : LineRec} {e : DigitRec} {x : Received} (ht : s.testOn n = none)
    (hj : s.judgeLine n = (r, .nothing)) (hs : (s.line n).state = .replaying)
    (he : (s.digits n).receive (upLoop (s.lByte n)) = (e, x))
    (hv : (s.withLine n r { e with quiet := quietAfter (s.digits n).quiet (upLoop (s.lByte n)) } (s.down n)
      (s.up n)).takeReceived n x = t)
    (hvs : (t.line n).state ≠ .replaying) (hrests : t.testOn n = s.testOn n) :
    exec (.lineByte n) s = .next (t.byteTaken n) := by
  refine lineByte_of_digits hj ?_ (State.testRests_of_testOn ht hrests)
  rw [hs, State.replayByte_setLine he, hv]
  simp only [hvs, if_false]

/-- Settles O40: the expiry of the generator timer by the generator's phase, and the byte of a line by what the receiver
finds in it and what the generator does after it (`replaying_byte`). -/
theorem replayOfDigits : Obligations.ReplayOfDigits := by
  refine ⟨fun s n hl => ?generator, fun s n ht hf hb hl => ?byte, fun s n ht hf hs hl hq => ?interval⟩
  case generator =>
    intro r d down next through
    refine ⟨fun hs hz => ?due, fun h => ?notDue, replayEnd_not, fun hs ht hf hb hg hbuf hp hq => ?inByte⟩
    case due =>
      have due (h : d.generator ≠ .off ∧ d.generator ≠ .stall) : s.generatorDue n = true :=
        State.generatorDue_iff.mpr ⟨hs, h.1, h.2, hz⟩
      have expires {t : State} (h : d.generator ≠ .off ∧ d.generator ≠ .stall) (ht : s.generatorExpiry n = t) :
          exec (.generatorTimerExpiry n) s = .next t :=
        (generatorTimerExpiry_due (due h)).trans (congrArg _ ht)
      have seeking (h : d.generator = .toneWait ∨ d.generator = .interDigit) :
          d.generator ≠ .off ∧ d.generator ≠ .stall := by
        rcases h with h | h <;> simp [h]
      refine ⟨fun hk x rest hbuf => expires (seeking hk) ?_, fun hk hbuf hq => expires (seeking hk) ?_,
        fun hk hbuf hq => ?ends, fun hg g hsend hleft => expires (by simp [hg]) ?_,
        fun hg g hsend hleft => expires (by simp [hg]) ?_, fun hg => expires (by simp [hg]) ?_⟩
      · rw [State.generatorExpiry_seeks hk, State.generatorTakes_cons hbuf,
          State.endReplayIfDone_goesOn (by simp [DigitRec.replayDone])]
        rfl
      · rw [State.generatorExpiry_seeks hk, State.generatorTakes_nil hbuf,
          State.endReplayIfDone_goesOn (by simpa [DigitRec.replayDone] using fun _ => hq)]
      · have hends : s.generatorExpiry n = through := by
          rw [State.generatorExpiry_seeks hk, State.generatorTakes_nil hbuf,
            State.endReplayIfDone_ends (by simpa using hs) (by simpa [DigitRec.replayDone] using ⟨hbuf, hq⟩)
              (by simpa using hl)]
          simp [through, LineRec.noLockout, r, down]
        exact ⟨expires (seeking hk) hends, replayEnd_of_expiry (due (seeking hk)) hends (by simp [through])⟩
      · rw [State.generatorExpiry_brk hg hsend, if_neg (by omega)]
      · rw [State.generatorExpiry_brk hg hsend, if_pos (by omega), hleft]
      · exact State.generatorExpiry_make hg
    case notDue =>
      refine generatorTimerExpiry_notDue (mt State.generatorDue_iff.mp ?_)
      rintro ⟨h1, h2, h3, h4⟩
      rcases h with h | h | h | h
      exacts [h h1, h h4, h2 h, h3 h]
    case inByte =>
      intro ended
      have he : (s.digits n).receive (upLoop (s.lByte n)) = (s.digits n, .nothing) := by
        rw [hb]
        simp [DigitRec.receive, show (s.digits n).phase = .waiting from hp]
      have hj := judge_quiet hf hl hb (.inr hs)
      have hquiet : quietAfter (s.digits n).quiet (upLoop (s.lByte n)) = 400 := by
        rw [hb]
        exact Nat.min_eq_left hq
      have hbyte : exec (.lineByte n) s = .next (ended.byteTaken n) := by
        refine replaying_byte ht hj hs he rfl (by simpa [State.takeReceived] using hs) ?_ (State.testOn_withLine s n _ _ _ _ n)
        rw [State.takeReceived, State.hearDialTone_not (by simp [State.hearsTone, show (s.digits n).generator = _ from hg]),
          State.endReplayIfDone_ends (by simpa using hs)
            (by rw [hquiet]; simpa [DigitRec.replayDone] using ⟨hbuf, hg⟩) (by simpa using hl)]
        simp [ended, LineRec.noLockout, r, down]
      exact ⟨hbyte, replayEnd_of_byte hs hbyte (by simp [ended])⟩
  case byte =>
    intro d r digit ended sending both toneHeard
    have hreplays (hs : r.state = .replaying) : (s.line n).state = .replaying := hs
    have hj (hs : r.state = .collecting ∨ r.state = .replaying) : s.judgeLine n = (r, .nothing) := judge_quiet hf hl hb hs
    have hdigit (hp : d.phase = .make) (he : 40 ≤ d.element + 1) :
        (s.digits n).receive (upLoop (s.lByte n)) = ((s.digits n).rested, .digit digit) := by
      rw [hb]
      exact DigitRec.receive_digit hp he
    have hdiscard (hp : d.phase = .discarding) (he : 40 ≤ d.element + 1) :
        (s.digits n).receive (upLoop (s.lByte n)) = ({ d with phase := .waiting, element := 0 }, .discardEnd) := by
      rw [hb]
      exact DigitRec.receive_discardEnd hp he
    have hwaits (hp : d.phase = .waiting) : (s.digits n).receive (upLoop (s.lByte n)) = (d, .nothing) := by
      rw [hb]
      simp [DigitRec.receive, show (s.digits n).phase = .waiting from hp, d]
    have hquiet : quietAfter (s.digits n).quiet (upLoop (s.lByte n)) = min 400 (d.quiet + 1) := by
      rw [hb]
      rfl
    have noDigit {t : State} {x : DigitRec} {m : Nat} (hs : r.state = .collecting ∨ r.state = .replaying)
        (h : exec (.lineByte n) s = .next t) (hx : (s.digits n).receive (upLoop (s.lByte n)) = (x, .digit m)) :
        exec (.lineByte n) s = .next t ∧ exec (.digitEnd n) s = .next t := ⟨h, (digitEnd_of (hj hs) hs hx).trans h⟩
    have noDiscard {t : State} {x : DigitRec} (hs : r.state = .collecting ∨ r.state = .replaying)
        (h : exec (.lineByte n) s = .next t) (hx : (s.digits n).receive (upLoop (s.lByte n)) = (x, .discardEnd)) :
        exec (.lineByte n) s = .next t ∧ exec (.discardEnd n) s = .next t := ⟨h, (discardEnd_of (hj hs) hs hx).trans h⟩
    refine ⟨fun hs hp he hlen hg htone => noDigit (.inr hs) ?joins (hdigit hp he),
      fun hs hp he hbuf hg => noDigit (.inr hs) ?stallTakes (hdigit hp he),
      fun hs hp he hlen => noDigit hs ?full (hdigit hp he),
      fun hs hp he => noDiscard (.inl hs) ?discardCollecting (hdiscard hp he),
      fun hs hp he hg htone => noDiscard (.inr hs) ?discardReplaying (hdiscard hp he),
      fun hs hp htone x rest hbuf => ?toneTakes, fun hs hp htone hbuf hq => ?toneStalls⟩
    case joins =>
      refine replaying_byte (v := s.withLine n r { ended with buffer := d.buffer ++ [digit] } (s.down n) (s.up n)) ht
        (hj (.inr hs)) hs (hdigit hp he) ?_ (by simpa using hs) (State.replay_stands ?_ ?_)
        (State.testOn_withLine s n _ _ _ _ n)
      · refine (State.digitJoins_replaying (r := r) hs (by exact hlen)).trans ((if_neg (by exact hg)).trans ?_)
        rw [hquiet]
        rfl
      · simpa [State.hearsTone, toneHeard, ended] using htone
      · simp [DigitRec.replayDone]
    case stallTakes =>
      refine replaying_byte (v := s.withLine n r
        { ended with buffer := [], sending := sending digit, generator := .brk, generatorTimer := 12 } (s.down n)
        { s.up n with replay := some .opened }) ht (hj (.inr hs)) hs (hdigit hp he) ?_ (by simpa using hs)
        (State.replay_stands ?_ ?_) (State.testOn_withLine s n _ _ _ _ n)
      · refine (State.digitJoins_replaying (r := r) hs (by simp [DigitRec.rested, show (s.digits n).buffer = [] from hbuf])).trans
          ((if_pos (by exact hg)).trans ?_)
        rw [hquiet, State.generatorTakes_cons (x := digit) (rest := [])
          (by simp [DigitRec.rested, show (s.digits n).buffer = [] from hbuf])]
        simp [DigitRec.rested, ended, sending, sendingOf, d]
      · simp [State.hearsTone]
      · simp [DigitRec.replayDone]
    case full =>
      have hlock {e : DigitRec} (he : e.buffer.length = 12) (k : DownClaims) (hk : k.noLsv = (s.down n).noLsv) :
          (s.withLine n r e k (s.up n)).takeReceived n (.digit digit) = ((s.withLine n
            { r with state := .lockout, faultReason := none, lockoutTimer := some 6000, lockoutPhase := some .tone }
            DigitRec.initial { (s.down n).noLsv with lockout := some .hangupTone } ⟨false, none, true⟩).reported
            [.notice (.lineLockout n), .peg .lockout (some n)]) := by
        rw [State.takeReceived, State.digitJoins_full he, State.enterLockout_closed (by simpa using hl)]
        simp [LineRec.locked, hk]
      rcases hs with hs | hs
      · refine lineByte_of_digits (hj (.inl hs)) ?_ (State.testRests_of_testOn ht (State.testOn_reported _ _ n))
        rw [show (s.line n).state = .collecting from hs, State.collectByte_setLine (hdigit hp he)]
        refine hlock (e := (s.digits n).rested) hlen _ ?_
        rw [hb]
        rfl
      · exact replaying_byte_leaves ht (hj (.inr hs)) hs (hdigit hp he) (hlock (by exact hlen) _ rfl) (by simp)
          (State.testOn_reported _ _ n)
    case discardCollecting =>
      refine lineByte_of_digits (hj (.inl hs)) ?_ (State.testRests_of_testOn ht (State.testOn_withLine s n _ _ _ _ n))
      rw [show (s.line n).state = .collecting from hs, State.collectByte_setLine (hdiscard hp he), hb]
      rfl
    case discardReplaying =>
      refine replaying_byte ht (hj (.inr hs)) hs (hdiscard hp he) rfl (by simpa [State.takeReceived] using hs) ?_
        (State.testOn_withLine s n _ _ _ _ n)
      refine (State.replay_stands ?_ ?_).trans ?_
      · simpa [State.hearsTone, State.takeReceived, toneHeard, d] using htone
      · simp [DigitRec.replayDone, State.takeReceived, show (s.digits n).generator ≠ .stall from hg, d]
      · rw [State.takeReceived, hquiet]
    case toneTakes =>
      refine replaying_byte ht (hj (.inr hs)) hs (hwaits hp) rfl (by simpa [State.takeReceived] using hs) ?_
        (State.testOn_withLine s n _ _ _ _ n)
      rw [State.takeReceived, State.hearDialTone_of (by simpa [State.hearsTone] using htone),
        State.generatorTakes_cons (x := x) (rest := rest) (by simpa using hbuf),
        State.endReplayIfDone_goesOn (by simp [DigitRec.replayDone]), hquiet]
      simp [sending, sendingOf]
    case toneStalls =>
      refine replaying_byte ht (hj (.inr hs)) hs (hwaits hp) rfl (by simpa [State.takeReceived] using hs) ?_
        (State.testOn_withLine s n _ _ _ _ n)
      have hmin : min 400 (d.quiet + 1) = d.quiet + 1 := Nat.min_eq_right hq.le
      rw [State.takeReceived, State.hearDialTone_of (by simpa [State.hearsTone] using htone),
        State.generatorTakes_nil (by simpa using hbuf), hquiet, hmin,
        State.endReplayIfDone_goesOn]
      · simp
      · rw [State.digits_withLine_self, State.digits_withLine_self]
        exact fun h => Nat.not_le.mpr hq h.2.2
  case interval =>
    intro loop quiet htone hdone r next
    have hj : s.judgeLine n = (r, .nothing) := judgeLine_served hf (.inr hs) hl hq
    have hquiet : quietAfter (s.digits n).quiet loop = quiet := by
      simp only [quietAfter, quiet]
      cases loop
      all_goals rfl
    obtain ⟨hgen, hbuf⟩ := (s.digits n).receive_keeps loop
    have leads {e : DigitRec} {x : Received} (f : DigitRec → DigitRec)
        (he : ({ s.digits n with quiet := quiet } : DigitRec).receive loop = (e, x))
        (htake : (s.withLine n r e (s.down n) (s.up n)).takeReceived n x = s.withLine n r (f e) (s.down n) (s.up n))
        (hf : (f e).generator = e.generator ∧ (f e).buffer = e.buffer ∧ (f e).quiet = e.quiet) : next (f e) := by
      rw [receive_quiet] at he
      obtain ⟨rfl, rfl⟩ := Prod.mk.inj he
      refine replaying_byte ht hj hs rfl (by rw [hquiet]; exact htake) (by simpa using hs)
        (State.replay_stands ?_ ?_) (State.testOn_withLine s n _ _ _ _ n)
      · rw [State.hearsTone, State.digits_withLine_self, hf.1]
        exact fun h => htone ⟨hgen ▸ h.1, h.2⟩
      · rw [State.digits_withLine_self, DigitRec.replayDone, hf.1, hf.2.1, hf.2.2]
        rintro ⟨h1, h2, h3⟩
        exact hdone ⟨hgen ▸ h2, hbuf ▸ h1, h3⟩
    refine receiverLeads_of fun e x he => ⟨fun hx => ?_, fun hx => ?_, fun hx => ?_⟩
    · refine leads id he ?_ ⟨rfl, rfl, rfl⟩
      rcases hx with rfl | rfl
      all_goals rfl
    · subst hx
      exact leads (fun d => { d with collection := none }) he (by simp [State.takeReceived]) ⟨rfl, rfl, rfl⟩
    · subst hx
      refine leads id he ?_ ⟨rfl, rfl, rfl⟩
      simp [State.takeReceived, show r.state = .replaying from hs]

end Sys2Proof.Machine

/-! The frames that an interval sends (R148, R155 to R157, R170 to R173). -/

namespace Sys2Proof.Machine

variable {s t : State} {n : LineId}

/-! The state from which the timers of an interval count. -/

/-- The state after both frames and the pegs of the lines newly policed. -/
def State.framesReported (s : State) : State :=
  s.sendFrames.reported (s.newlyPoliced.map (fun n => .peg .foreignCode (some n)))

theorem frameSend_eq (s : State) : exec .frameSend s = .next s.framesReported.tick :=
  congrArg _ s.sendFrame_eq

theorem fixed_framesReported (s : State) : s.framesReported.fixed = s.sendFrames.fixed := State.fixed_reported _ _

/-! What the composition of the frames leaves. -/

@[simp] theorem Mgp.arbitrate_urgent (m : Mgp) (b : Bool) : (m.arbitrate b).urgent = m.urgent := by
  unfold Mgp.arbitrate Mgp.beginItem
  grind

@[simp] theorem Mgp.arbitrate_routine (m : Mgp) (b : Bool) : (m.arbitrate b).routine = m.routine := by
  unfold Mgp.arbitrate Mgp.beginItem
  grind

@[simp] theorem Mgp.arbitrate_counters (m : Mgp) (b : Bool) : (m.arbitrate b).counters = m.counters := by
  unfold Mgp.arbitrate Mgp.beginItem
  grind

@[simp] theorem Mgp.arbitrate_replySlot (m : Mgp) (b : Bool) : (m.arbitrate b).replySlot = m.replySlot := by
  unfold Mgp.arbitrate Mgp.beginItem
  grind

/-- The policing marks of the frame, and the lines on which they come on (R156). -/
theorem policing_sendFrames (s : State) (n : LineId) : tget s.sendFrames.hwi.policing n = s.policed n := by
  simp [State.sendFrames, State.setHwi]

/-! The count of the timers (log 1). -/

theorem State.line_tick (s : State) (n : LineId) : s.tick.line n = (s.line n).tick := tget_map _ _ _

theorem State.digits_tick (s : State) (n : LineId) : s.tick.digits n = (s.digits n).tick := tget_map _ _ _

theorem State.callRec_tick (s : State) (c : CallNo) : s.tick.callRec c = (s.callRec c).map CallRec.tick :=
  tget_map _ _ _

theorem line_framesReported (s : State) (n : LineId) : s.framesReported.line n = s.line n :=
  State.line_reported s.sendFrames _ n

theorem digits_framesReported (s : State) (n : LineId) : s.framesReported.digits n = s.digits n :=
  State.digits_reported s.sendFrames _ n

theorem callRec_framesReported (s : State) (c : CallNo) : s.framesReported.callRec c = s.callRec c :=
  State.callRec_reported s.sendFrames _ c

theorem rsc_framesReported (s : State) : s.framesReported.rsc = s.rsc := State.rsc_reported s.sendFrames _

theorem itu_framesReported (s : State) : s.framesReported.itu = s.itu := State.itu_reported s.sendFrames _

theorem ptb_framesReported (s : State) : s.framesReported.ptb = s.ptb := State.ptb_reported s.sendFrames _

theorem lkm_framesReported (s : State) : s.framesReported.lkm = s.lkm := State.lkm_reported s.sendFrames _

theorem pending_framesReported (s : State) : s.framesReported.pending = s.pending := State.pending_reported s.sendFrames _

/-- The interval's start leaves the ports' received bytes and the claims. -/
theorem hwi_framesReported (s : State) : s.framesReported.hwi = { s.hwi with
    eSent := some (s.frameUp (s.mgp.arbitrate s.noticeAllowed)), lSent := some s.frameDown
    policing := Vector.ofFn s.policed } := State.hwi_reported s.sendFrames _

theorem State.hwi_tick (s : State) : s.tick.hwi = s.hwi := rfl

/-- Settles O44: the state that ticks is that of the frames and the pegs, and the tick counts each timer. -/
theorem frameSendCountsTheTimers : Obligations.FrameSendCountsTheTimers := by
  intro s
  have hfix := fixed_framesReported s
  have hslot : s.framesReported.mgp.replySlot = s.mgp.replySlot :=
    (State.replySlot_of_fixed hfix).trans (Mgp.arbitrate_replySlot _ _)
  have hpolice (n : LineId) : tget s.framesReported.hwi.policing n = s.policed n :=
    (congrArg (fun p => tget p n) (State.policing_of_fixed hfix)).trans (policing_sendFrames s n)
  refine ⟨_, frameSend_eq s, fun n => ?line, fun n => ?digits, fun c => ?call, ?ring, ?reply, ?bridge,
    fun n => ⟨?down, ?up⟩, ?ePort, ?lPort, ptb_framesReported s,
    lkm_framesReported s, pending_framesReported s, ?pegs⟩
  case line =>
    rw [State.line_tick, line_framesReported]
    rfl
  case digits =>
    rw [State.digits_tick, digits_framesReported]
    rfl
  case call =>
    rw [State.callRec_tick, callRec_framesReported]
    rfl
  case ring => rw [State.tick, rsc_framesReported]
  case reply => exact congrArg (fun r => r.map Reply.tick) hslot
  case down => rw [State.down, State.hwi_tick, hwi_framesReported, State.down]
  case up => rw [State.up, State.hwi_tick, hwi_framesReported, State.up]
  case ePort => rw [State.hwi_tick, hwi_framesReported]
  case lPort => rw [State.hwi_tick, hwi_framesReported]
  case bridge => rw [State.tick, itu_framesReported]
  case pegs =>
    intro newly
    have hnewly : newly = s.newlyPoliced :=
      List.filter_congr fun n _ => congrArg (fun b => b && !tget s.hwi.policing n) (hpolice n)
    refine ⟨s.sendFrames, rfl, Mgp.arbitrate_urgent _ _, Mgp.arbitrate_routine _ _, Mgp.arbitrate_counters _ _, ?_⟩
    rw [hnewly]
    exact ⟨rfl, rfl, rfl, rfl⟩

/-! The bytes of a frame (R155 to R157). -/

/-- A line's claims in the order of their ranks (R155). -/
def DownClaims.places (c : DownClaims) : List (Option DownCode) :=
  [c.fault, c.blocked, c.test, c.ring, c.call, c.lockout, c.collecting]

theorem findSome?_places (x : Option DownCode) (l : List (Option DownCode)) :
    (x :: l).findSome? id = (x <|> l.findSome? id) := by
  cases x
  all_goals rfl

theorem DownClaims.carried_eq (c : DownClaims) : c.carried = c.places.findSome? id := by
  simp only [DownClaims.carried, DownClaims.places, findSome?_places, List.findSome?_nil]
  cases c.collecting
  all_goals rfl

theorem DownClaims.carried_some {c : DownClaims} {code : DownCode} {older younger : List (Option DownCode)}
    (h : c.places = older ++ some code :: younger) (ho : ∀ x ∈ older, x = none) : c.carried = some code := by
  have hnone : older.findSome? id = none := List.findSome?_eq_none_iff.mpr ho
  simp [DownClaims.carried_eq, h, List.findSome?_append, hnone]

theorem DownClaims.carried_none_iff {c : DownClaims} : c.carried = none ↔ ∀ x ∈ c.places, x = none := by
  simp [DownClaims.carried_eq, List.findSome?_eq_none_iff]

theorem State.downLine_carried {code : DownCode} (h : (s.down n).carried = some code) : s.downLine n = downByte code := by
  simp [State.downLine, h]

theorem State.downLine_passed {code : DownCode} (h : (s.down n).carried = none) (hl : s.linked = true)
    (hf : ¬ isForeign (s.eByte n) = true) (hc : downCode (s.eByte n) = some code) : s.downLine n = downByte code := by
  simp [State.downLine, h, State.passDown, hl, police, hf, hc]

theorem State.downLine_policed (h : (s.down n).carried = none) (hf : s.linked = false ∨ isForeign (s.eByte n) = true) :
    s.downLine n = 0 := by
  rcases hf with hf | hf
  · simp [State.downLine, h, State.passDown, hf, downByte]
  · simp [State.downLine, h, State.passDown, police, hf, downByte]

theorem State.policed_iff : s.policed n = true ↔
    (∀ x ∈ (s.down n).places, x = none) ∧ s.linked = true ∧ isForeign (s.eByte n) = true := by
  simp [State.policed, DownClaims.carried_none_iff, and_assoc]

theorem State.upLine_fault (h : (s.up n).fault = true) : s.upLine n = s.lByte n := by simp [State.upLine, h]

theorem State.upLine_replay (h : (s.up n).fault = false) {l : Loop} (hr : (s.up n).replay = some l) :
    s.upLine n = replayByte l (s.lByte n) := by
  simp [State.upLine, h, hr]

theorem State.upLine_onHook (h : (s.up n).fault = false) (hr : (s.up n).replay = none) :
    s.upLine n = if (s.up n).onHook then onHookByte (s.lByte n) else s.lByte n := by
  simp [State.upLine, h, hr]

/-! The upstream slot (R170 to R172). -/

theorem Mgp.arbitrate_sending {m : Mgp} {x : Sending} (h : m.sending = some x) (b : Bool) : m.arbitrate b = m := by
  simp [Mgp.arbitrate, h]

theorem Mgp.arbitrate_chosen {m : Mgp} (h : m.sending = none) {b : Bool} {x : UpstreamItem} (hc : m.choose b = some x) :
    m.arbitrate b = { m.beginItem x with sending := some ⟨x, m.itemBytes x⟩ } := by
  simp [Mgp.arbitrate, h, hc]

theorem Mgp.arbitrate_idle {m : Mgp} (h : m.sending = none) {b : Bool} (hc : m.choose b = none) : m.arbitrate b = m := by
  simp [Mgp.arbitrate, h, hc]

theorem pairOf_eq (l : List Byte) : pairOf l = (l.getD 0 0xFF, l.getD 1 0xFF) := by
  match l with
  | [] => rfl
  | [_] => rfl
  | _ :: _ :: _ => rfl

theorem Mgp.upstreamPair_eq {m : Mgp} {x : UpstreamItem} {l : List Byte} (h : m.sending = some ⟨x, l⟩) :
    m.upstreamPair = (l.getD 0 0xFF, l.getD 1 0xFF) := by
  simp only [Mgp.upstreamPair, h, pairOf_eq]

/-- The Management Port as the arbiter leaves it for the frame. -/
def State.arbitrated (s : State) : Mgp := s.mgp.arbitrate s.linked

theorem hwi_frameSent (s : State) : s.sendFrame.hwi = { s.hwi with
    eSent := some (s.frameUp s.arbitrated), lSent := some s.frameDown, policing := Vector.ofFn s.policed } :=
  hwi_sendFrame s

theorem sending_frameSent (s : State) :
    s.sendFrame.mgp.sending = s.arbitrated.sending.map (fun x => { x with rest := x.rest.drop 2 }) :=
  sending_sendFrame s

theorem policing_frameSent (s : State) (n : LineId) : tget s.sendFrame.hwi.policing n = s.policed n := by
  rw [hwi_frameSent, tget_ofFn]

/-- The pair and the rest of an upstream message, as the frame leaves them. -/
theorem frameSent_sending {x : UpstreamItem} {l : List Byte} (h : s.arbitrated.sending = some ⟨x, l⟩) :
    (s.frameUp s.arbitrated).mgmt1 = l.getD 0 0xFF ∧ (s.frameUp s.arbitrated).mgmt2 = l.getD 1 0xFF ∧
      s.sendFrame.mgp.sending = some ⟨x, l.drop 2⟩ := by
  rw [sending_frameSent, h, State.frameUp, Mgp.upstreamPair_eq h]
  exact ⟨rfl, rfl, rfl⟩

theorem frameOf_check (lines : Vector Byte 16) (b1 b2 : Byte) :
    (frameOf lines b1 b2).check = crc8 ((frameOf lines b1 b2).sync :: ((frameOf lines b1 b2).lines.toList ++
      [(frameOf lines b1 b2).mgmt1, (frameOf lines b1 b2).mgmt2])) := by
  rw [frameOf]

theorem frameDown_mgmt {b1 b2 : Byte} (h : s.mgp.relayPair.getD (fill, fill) = (b1, b2)) :
    s.frameDown.mgmt1 = b1 ∧ s.frameDown.mgmt2 = b2 := by
  simp [State.frameDown, h, frameOf]

/-! The choice at a free slot (R172). -/

theorem Mgp.replyEligible_iff {m : Mgp} : m.replyEligible = true ↔ ∃ rep, m.replySlot = some rep ∧ rep.holdOff = none := by
  unfold Mgp.replyEligible
  cases m.replySlot
  all_goals simp

theorem Mgp.nextNotice_none_iff {m : Mgp} {b : Bool} :
    m.nextNotice b = none ↔ ¬ (b = true ∧ (m.urgent ≠ [] ∨ m.routine ≠ [])) := by
  unfold Mgp.nextNotice
  split_ifs
  all_goals simp_all

theorem Mgp.choose_reply {m : Mgp} {b : Bool} (h : ∃ rep, m.replySlot = some rep ∧ rep.holdOff = none) :
    m.choose b = some .reply := if_pos (Mgp.replyEligible_iff.mpr h)

theorem Mgp.choose_relayed {m : Mgp} {b : Bool} (h : ¬ ∃ rep, m.replySlot = some rep ∧ rep.holdOff = none)
    (hb : m.relayBuffer ≠ []) (hr : m.runCount < 2 ∨ m.nextNotice b = none) : m.choose b = some .relayed := by
  rw [Mgp.choose, if_neg (mt Mgp.replyEligible_iff.mp h), if_pos ⟨hb, hr⟩]

theorem Mgp.choose_notice {m : Mgp} {b : Bool} (h : ¬ ∃ rep, m.replySlot = some rep ∧ rep.holdOff = none)
    (hr : m.relayBuffer = [] ∨ 2 ≤ m.runCount ∧ m.nextNotice b ≠ none) : m.choose b = m.nextNotice b := by
  rw [Mgp.choose, if_neg (mt Mgp.replyEligible_iff.mp h), if_neg]
  rintro ⟨h1, h2⟩
  rcases hr with hr | ⟨hr, hn⟩
  · exact h1 hr
  · exact h2.elim (Nat.not_lt.mpr hr) hn

theorem Mgp.nextNotice_urgent {m : Mgp} (h : m.urgent ≠ []) : m.nextNotice true = some .urgent := by
  simp [Mgp.nextNotice, h]

theorem Mgp.nextNotice_routine {m : Mgp} (h : m.urgent = []) (hr : m.routine ≠ []) :
    m.nextNotice true = some .routine := by
  simp [Mgp.nextNotice, h, hr]

/-- The run count and the lost indicators of the state after the frame. -/
theorem frameSent_counts (s : State) : s.sendFrame.mgp.runCount = s.arbitrated.runCount ∧
    s.sendFrame.mgp.urgentLost = s.arbitrated.urgentLost ∧
    ((∀ n, tget s.sendFrame.hwi.policing n = true → tget s.hwi.policing n = true) →
      s.sendFrame.mgp.routineLost = s.arbitrated.routineLost) :=
  ⟨runCount_sendFrame s, urgentLost_sendFrame s, routineLost_sendFrame s⟩

theorem Mgp.beginItem_urgentLost (m : Mgp) (x : UpstreamItem) :
    (m.beginItem x).urgentLost = (m.urgentLost && decide (x ≠ .urgent)) := by
  cases x
  all_goals simp [Mgp.beginItem]

theorem Mgp.beginItem_routineLost (m : Mgp) (x : UpstreamItem) :
    (m.beginItem x).routineLost = (m.routineLost && decide (x ≠ .routine)) := by
  cases x
  all_goals simp [Mgp.beginItem]

/-- The frame in which an item begins. -/
theorem frameSent_begins (hfree : s.mgp.sending = none) {x : UpstreamItem} (hc : s.mgp.choose s.linked = some x)
    {bytes : List Byte} (hb : s.mgp.itemBytes x = bytes) {run : Nat} (hr : (s.mgp.beginItem x).runCount = run) :
    (s.frameUp s.arbitrated).mgmt1 = bytes.getD 0 0xFF ∧ (s.frameUp s.arbitrated).mgmt2 = bytes.getD 1 0xFF ∧
      s.sendFrame.mgp.sending = some ⟨x, bytes.drop 2⟩ ∧ s.sendFrame.mgp.runCount = run ∧
      s.sendFrame.mgp.urgentLost = (s.mgp.urgentLost && decide (x ≠ .urgent)) ∧
      ((∀ n, tget s.sendFrame.hwi.policing n = true → tget s.hwi.policing n = true) →
        s.sendFrame.mgp.routineLost = (s.mgp.routineLost && decide (x ≠ .routine))) := by
  have harb : s.arbitrated = { s.mgp.beginItem x with sending := some ⟨x, bytes⟩ } :=
    hb ▸ Mgp.arbitrate_chosen hfree hc
  obtain ⟨hrun, hurgent, hroutine⟩ := frameSent_counts s
  obtain ⟨h1, h2, h3⟩ := frameSent_sending (s := s) (x := x) (l := bytes) (by rw [harb])
  refine ⟨h1, h2, h3, hrun.trans ?_, hurgent.trans ?_, fun hp => (hroutine hp).trans ?_⟩
  all_goals rw [harb]
  · exact hr
  · exact Mgp.beginItem_urgentLost _ _
  · exact Mgp.beginItem_routineLost _ _

/-- A frame whose slot stays free carries fill. -/
theorem frameSent_idle (hfree : s.mgp.sending = none) (hc : s.mgp.choose s.linked = none) :
    (s.frameUp s.arbitrated).mgmt1 = 0xFF ∧ (s.frameUp s.arbitrated).mgmt2 = 0xFF ∧
      s.sendFrame.mgp.sending = none ∧ s.sendFrame.mgp.runCount = s.mgp.runCount ∧
      s.sendFrame.mgp.urgentLost = s.mgp.urgentLost ∧
      ((∀ n, tget s.sendFrame.hwi.policing n = true → tget s.hwi.policing n = true) →
        s.sendFrame.mgp.routineLost = s.mgp.routineLost) := by
  have harb : s.arbitrated = s.mgp := Mgp.arbitrate_idle hfree hc
  obtain ⟨hrun, hurgent, hroutine⟩ := frameSent_counts s
  rw [sending_frameSent, hrun, hurgent, harb, hfree, State.frameUp, Mgp.upstreamPair, hfree]
  rw [harb] at hroutine
  exact ⟨rfl, rfl, rfl, rfl, rfl, hroutine⟩

theorem noticeMessage_eq (a : Option Address) (lost : Bool) (x : Notice) : noticeMessage a lost x =
    message 31 (sourceOf a) 3 (noticeCode x) ((if lost then 1 else 0) :: noticeFields x) := by
  rw [noticeMessage, byteOf_flag]

/-- Settles O43: the bytes of both frames, the item that the arbiter begins in a free slot, and the fields of a notice. -/
theorem framesOfAnInterval : Obligations.FramesOfAnInterval := by
  refine ⟨fun s => ?bytes, fun s hfree => ?arbiter, ?notices⟩
  case bytes =>
    refine ⟨s.sendFrame, s.frameDown, s.frameUp s.arbitrated, rfl, congrArg Hwi.lSent (hwi_frameSent s),
      congrArg Hwi.eSent (hwi_frameSent s), rfl, rfl, frameOf_check _ _ _, frameOf_check _ _ _, fun n => ?down, fun n => ?up, fun b1 b2 h => ?relayed,
      fun h => ?noRelay, relayPair_sendFrame s, fun x b1 b2 rest h => ?pair, fun x b h => ?last, fun x h => ?finished⟩
    case down =>
      intro c claims foreign
      have hline : tget s.frameDown.lines n = s.downLine n := tget_ofFn _ _
      have hforeign : isForeign (s.eByte n) = true ↔ foreign := foreign_iff _
      rw [hline, policing_frameSent, State.policed_iff, hforeign]
      have hnone : (s.down n).carried = none ↔ ∀ x ∈ claims, x = none := DownClaims.carried_none_iff
      exact ⟨fun code older younger h ho => State.downLine_carried (DownClaims.carried_some h ho),
        fun h hl hf code hc => State.downLine_passed (hnone.mpr h) hl (mt hforeign.mp hf) hc,
        fun h hf => State.downLine_policed (hnone.mpr h) (hf.imp_right hforeign.mpr), Iff.rfl⟩
    case up =>
      intro c
      have hline : tget (s.frameUp s.arbitrated).lines n = s.upLine n := tget_ofFn _ _
      rw [hline]
      refine ⟨State.upLine_fault, fun hf x hx => State.upLine_replay hf hx, fun hf hx ho => ?_, fun hf hx ho => ?_⟩
      · rw [State.upLine_onHook hf hx, if_pos ho, onHookByte]
        simp [upReadingValid]
      · rw [State.upLine_onHook hf hx, if_neg (by simp [show (s.up n).onHook = false from ho])]
    case relayed => exact frameDown_mgmt (by rw [h]; rfl)
    case noRelay => exact frameDown_mgmt (by rw [h]; rfl)
    case pair =>
      exact frameSent_sending ((congrArg Mgp.sending (Mgp.arbitrate_sending h s.linked)).trans h)
    case last =>
      exact frameSent_sending ((congrArg Mgp.sending (Mgp.arbitrate_sending h s.linked)).trans h)
    case finished =>
      exact frameSent_sending ((congrArg Mgp.sending (Mgp.arbitrate_sending h s.linked)).trans h)
  case arbiter =>
    refine ⟨s.sendFrame, s.frameUp s.arbitrated, rfl, congrArg Hwi.eSent (hwi_frameSent s), ?_⟩
    intro m source mayNotice replies indicators begins marked
    have hsource : sourceOf m.address = source := by
      cases h : m.address
      all_goals simp only [sourceOf, source, h, byteOf]
    have hmay : m.nextNotice s.linked = none ↔ ¬ mayNotice := Mgp.nextNotice_none_iff
    refine ⟨fun rep hr hh => ?reply, fun hno hr x rest hb => ?relayed, fun hno hr hl x rest hu => ?urgent,
      fun hno hr hl hu x rest hq => ?routine, fun hno hb hn => ?idle⟩
    case reply =>
      refine frameSent_begins hfree (Mgp.choose_reply ⟨rep, hr, hh⟩) ?_ rfl
      simp only [Mgp.itemBytes, show s.mgp.replySlot = some rep from hr, replyMessage]
      rw [← hsource]
    case relayed =>
      refine frameSent_begins hfree (Mgp.choose_relayed hno (by simp [show s.mgp.relayBuffer = _ from hb])
        (hr.imp_right hmay.mpr)) ?_ rfl
      simp [Mgp.itemBytes, show s.mgp.relayBuffer = _ from hb]
    case urgent =>
      have hnotice : m.nextNotice s.linked = some .urgent := hl ▸ Mgp.nextNotice_urgent (by simp [hu])
      refine frameSent_begins hfree ((Mgp.choose_notice hno ?_).trans hnotice) ?_ rfl
      · exact hr.imp_right fun h => ⟨h, by rw [hnotice]; simp⟩
      · simp only [Mgp.itemBytes, show s.mgp.urgent = _ from hu, noticeMessage_eq]
        rw [← hsource]
    case routine =>
      have hnotice : m.nextNotice s.linked = some .routine := hl ▸ Mgp.nextNotice_routine hu (by simp [hq])
      refine frameSent_begins hfree ((Mgp.choose_notice hno ?_).trans hnotice) ?_ rfl
      · exact hr.imp_right fun h => ⟨h, by rw [hnotice]; simp⟩
      · simp only [Mgp.itemBytes, show s.mgp.routine = _ from hq, noticeMessage_eq]
        rw [← hsource]
    case idle =>
      exact frameSent_idle hfree ((Mgp.choose_notice hno (.inl hb)).trans (hmay.mpr hn))
  case notices =>
    intro number absent one reply sent
    have habsent (v : Option Nat) : byteOf (orAbsent v) = absent v := by
      cases v
      all_goals rfl
    have hreply (a : Option Answered) : a.map answeredCode = a.map reply := by
      refine Option.map_congr fun x _ => ?_
      cases x
      all_goals rfl
    refine ⟨fun e => ⟨rfl, rfl, ?_⟩, fun c k l a again => ⟨rfl, rfl, ?_⟩, fun l why => ⟨rfl, rfl, rfl⟩,
      fun l entered => ⟨rfl, rfl, rfl⟩, fun l => ⟨rfl, rfl, rfl⟩, fun l outcome p reading => ⟨rfl, rfl, ?_⟩,
      fun c l p => ⟨rfl, rfl, rfl⟩, fun l p => ⟨rfl, rfl, rfl⟩, fun event left bad => ⟨rfl, rfl, rfl⟩,
      fun meters => ⟨rfl, rfl, rfl⟩, rfl, rfl, rfl, rfl, rfl, rfl, rfl, rfl⟩
    all_goals
      simp only [noticeFields, List.map_cons, List.map_nil, habsent, hreply]
      rfl

end Sys2Proof.Machine

/-! The frames that a port receives (R150, R151, R158, R163 to R168). -/

namespace Sys2Proof.Machine

variable {s t : State} {p : Port} {f : Frame}

/-! A frame that is not taken (R150, R151). -/

/-- The frame's check agrees (R149). -/
def frameChecks (f : Frame) : Prop := f.check = crc8 (f.sync :: (f.lines.toList ++ [f.mgmt1, f.mgmt2]))

theorem frameChecks_iff : frameCheckAgrees f = true ↔ frameChecks f := by
  rw [frameCheckAgrees, decide_eq_true_eq]
  rfl

theorem frameGood_iff : frameGood f = true ↔ f.sync = 0x9C ∧ frameChecks f := by
  rw [frameGood, Bool.and_eq_true, decide_eq_true_eq, frameChecks_iff]
  rfl

@[simp] theorem State.port_setPort (s : State) (p : Port) (r : RxPort) : (s.setPort p r).port p = r := by
  cases p
  all_goals rfl

@[simp] theorem State.setPort_setPort (s : State) (p : Port) (q r : RxPort) :
    (s.setPort p q).setPort p r = s.setPort p r := by
  cases p
  all_goals rfl

theorem State.setPort_port (s : State) (p : Port) : s.setPort p (s.port p) = s := by
  cases p
  all_goals rfl

/-- A command of a frame that the port sees and does not take, with the port as it leaves it: a wrong sync value, an
invalid frame, and a slip. -/
def passesOver (s : State) (p : Port) (f : Frame) (command : Instr) (after : RxPort) : Prop :=
  let q := s.port p
  (command = .frameReceived p f ∧ q.alignment = .aligned ∧ f.sync ≠ 0x9C ∧ q.wrongSync = 0 ∧
      after = { q with wrongSync := 1, frameSeen := true }) ∨
    (command = .frameReceived p f ∧ q.alignment = .aligned ∧ f.sync ≠ 0x9C ∧ q.wrongSync ≠ 0 ∧
      after = { q with alignment := .hunting, frameSeen := true }) ∨
    (command = .frameReceived p f ∧ q.alignment = .aligned ∧ f.sync = 0x9C ∧ (¬ frameChecks f ∨ q.validTaken = true) ∧
      after = { q with wrongSync := 0, frameSeen := true }) ∨
    (command = .alignmentFound p f ∧ q.alignment = .hunting ∧ f.sync = 0x9C ∧ frameChecks f ∧ q.validTaken = true ∧
      after = { q with alignment := .aligned, wrongSync := 0, frameSeen := true })

theorem frameReceived_aligned (h : (s.port p).alignment = .aligned) :
    exec (.frameReceived p f) s = .next (if f.sync = 0x9C then
        (if frameCheckAgrees f then (s.setPort p { s.port p with wrongSync := 0 }).validFrame p f
          else (s.setPort p { s.port p with wrongSync := 0 }).passOver p)
      else (s.setPort p (s.port p).wrongSyncSeen).passOver p) := by
  have haligned : s.frameReceived p f = s.alignedFrame p f := by rw [State.frameReceived, h]
  exact congrArg _ haligned

theorem frameReceived_hunting (h : (s.port p).alignment = .hunting) : exec (.frameReceived p f) s = .next s := by
  simp only [exec, execFrameReceived, State.frameReceived, h]

theorem alignmentFound_not (h : ¬ ((s.port p).alignment = .hunting ∧ f.sync = 0x9C ∧ frameChecks f)) :
    exec (.alignmentFound p f) s = .next s :=
  congrArg _ (if_neg fun hg => h ⟨hg.1, frameGood_iff.mp hg.2⟩)

/-- A frame passed over hands an abort (R151, R158). -/
theorem passedOver_hands {command : Instr} {after : RxPort} (h : passesOver s p f command after) :
    exec command s = .next ((s.setPort p after).handAbort p) := by
  obtain ⟨rfl, ha, hs, hw, rfl⟩ | ⟨rfl, ha, hs, hw, rfl⟩ | ⟨rfl, ha, hs, hc, rfl⟩ | ⟨rfl, ha, hs, hc, hv, rfl⟩ := h
  · rw [frameReceived_aligned ha, if_neg hs]
    simp [State.passOver, RxPort.wrongSyncSeen, hw]
  · rw [frameReceived_aligned ha, if_neg hs]
    simp [State.passOver, RxPort.wrongSyncSeen, hw]
  · rw [frameReceived_aligned ha, if_pos hs]
    by_cases hk : frameChecks f
    · have hv : (s.port p).validTaken = true := hc.resolve_left (not_not.mpr hk)
      simp [frameChecks_iff.mpr hk, State.validFrame, hv, State.passOver]
    · simp [Bool.eq_false_iff.mpr (mt frameChecks_iff.mp hk), State.passOver]
  · simp [exec, execAlignmentFound, State.windowExamined, ha, frameGood_iff.mpr ⟨hs, hc⟩, State.validFrame, hv,
      State.passOver]

/-- No message is under way on the port. -/
def State.noMessage (s : State) (p : Port) : Prop :=
  match p with
  | .e => s.mgp.eAssembler = none
  | .l => s.mgp.lAssembler = none

theorem State.noMessage_setPort {r : RxPort} (h : s.noMessage p) : (s.setPort p r).noMessage p := by
  cases p
  all_goals exact h

/-- A frame passed over with no message under way changes the port alone. -/
theorem passedOver_idle {command : Instr} {after : RxPort} (h : passesOver s p f command after) (hn : s.noMessage p) :
    exec command s = .next (s.setPort p after) := by
  rw [passedOver_hands h, handAbort_idle _ _ (State.noMessage_setPort hn)]

/-- A command of a valid frame that the port takes (R150, R151). -/
def takesFrame (s : State) (p : Port) (f : Frame) (command : Instr) : Prop :=
  (command = .frameReceived p f ∧ (s.port p).alignment = .aligned) ∨
    (command = .alignmentFound p f ∧ (s.port p).alignment = .hunting)

/-- The port after a valid frame is taken. -/
def RxPort.took (q : RxPort) (f : Frame) : RxPort :=
  { q with alignment := .aligned, wrongSync := 0, lastGood := f.lines, validTaken := true, frameSeen := true }

theorem taken_idle {command : Instr} (hs : f.sync = 0x9C) (hc : frameChecks f) (hv : (s.port p).validTaken = false)
    (h : takesFrame s p f command) (hb : f.mgmt1 ≠ 0xC3) (hn : s.noMessage p) :
    exec command s = .next (s.setPort p ((s.port p).took f)) := by
  rw [validFrame_hands hs hc hv h, handPair_idle _ _ _ _ hb (State.noMessage_setPort hn)]
  rfl

/-! An abort of a message under way (R163, R164). -/

theorem discard_abort (s : State) (p : Port) (h : ¬ s.noMessage p) : s.handAbort p =
    (match p with
     | .e => ({ s with mgp := { s.mgp with
        eAssembler := none, relay := none,
        counters := { s.mgp.counters with ePort := s.mgp.counters.ePort.discarded .abort } } } : State)
     | .l => { s with mgp := { s.mgp with
        lAssembler := none,
        counters := { s.mgp.counters with lPort := s.mgp.counters.lPort.discarded .abort } } }).peg .msgDiscarded none := by
  cases p
  case e =>
    obtain ⟨m, hm⟩ := Option.ne_none_iff_exists'.mp (show s.mgp.eAssembler ≠ none from h)
    simp only [State.handAbort, hm]
    rfl
  case l =>
    obtain ⟨m, hm⟩ := Option.ne_none_iff_exists'.mp (show s.mgp.lAssembler ≠ none from h)
    simp only [State.handAbort, hm]
    rfl

/-! A valid frame that carries a message (R163 to R165, R167, R168). -/

/-- The part's address in force is the number of this byte (R165). -/
def State.isOwn (s : State) (b : Byte) : Prop := ∃ a, s.mgp.address = some a ∧ a.val = b.toNat

theorem State.isOwn_iff {b : Byte} : s.mgp.address.map Fin.val = some b.toNat ↔ s.isOwn b := by
  simp [State.isOwn]

/-- The first pair of a message of the E-port, for this part alone and otherwise (R163, R167). -/
theorem pairE_begins_own {b : Byte} (h : s.mgp.eAssembler = none) (ho : s.isOwn b) :
    s.pairE 0xC3 b = s.setMgp { s.mgp with eAssembler := some [0xC3, b] } := by
  simp [State.pairE, h, assemble, startValue, Mgp.relayTakes, State.isOwn_iff.mpr ho]

theorem pairE_begins_other {b : Byte} (h : s.mgp.eAssembler = none) (ho : ¬ s.isOwn b) :
    s.pairE 0xC3 b = s.setMgp { s.mgp with
      eAssembler := some [0xC3, b], relay := some [0xC3, b], relayPair := some (0xC3, b) } := by
  have hother : ¬ s.mgp.address.map Fin.val = some b.toNat := mt State.isOwn_iff.mp ho
  simp only [State.pairE, h, assemble, startValue, if_true, Option.isNone_none, Mgp.relayTakes, hother, if_false]

theorem pairL_begins {b : Byte} (h : s.mgp.lAssembler = none) :
    s.pairL 0xC3 b = s.setMgp { s.mgp with lAssembler := some [0xC3, b] } := by
  simp [State.pairL, h, assemble, startValue]

/-- A message that has ended, by its bytes taken (R163). -/
def messageEnds (all : List Byte) : Prop :=
  6 ≤ all.length ∧ (all.getD 5 0).toNat ≤ 32 ∧ 8 + (all.getD 5 0).toNat ≤ all.length

/-- The message cut from the bytes taken (R163). -/
def wholeMessage (all : List Byte) : List Byte := all.take (8 + (all.getD 5 0).toNat)

theorem getD_wholeMessage (all : List Byte) {i : Nat} (h : i < 8) : (wholeMessage all).getD i 0 = all.getD i 0 :=
  getD_take_of_lt all (by omega)

/-- The check of a message agrees (R164). -/
def messageAgrees (all : List Byte) : Prop :=
  let check := (crc16 (all.take (6 + (all.getD 5 0).toNat))).toNat
  (all.drop (6 + (all.getD 5 0).toNat)).take 2 = [BitVec.ofNat 8 (check / 256), BitVec.ofNat 8 check]

theorem messageAgrees_iff {all : List Byte} (h : messageEnds all) :
    messageCheckAgrees (wholeMessage all) = true ↔ messageAgrees all :=
  checkAgrees_iff all h

theorem messagePayload_wholeMessage (all : List Byte) :
    messagePayload (wholeMessage all) = (all.drop 6).take (all.getD 5 0).toNat := by
  rw [messagePayload, messageLength, getD_wholeMessage all (by decide), wholeMessage, List.drop_take, List.take_take]
  congr 1
  omega

/-- The request that a message's bytes hold (R165). -/
def requestIn (all : List Byte) (broadcast : Bool) : Req :=
  { source := all.getD 2 0, broadcast := broadcast, payload := (all.drop 6).take (all.getD 5 0).toNat }

theorem requestOf_wholeMessage (all : List Byte) (broadcast : Bool) :
    requestOf (wholeMessage all) broadcast = requestIn all broadcast := by
  rw [requestOf, messagePayload_wholeMessage, messageSource, getD_wholeMessage all (by decide), requestIn]

/-- A valid request by its destination: for all, for this part, and for neither (R165). -/
theorem takeMessage_broadcast {all : List Byte} (h : all.getD 1 0 = 31) : s.takeMessage (wholeMessage all) =
    s.handleRequest (all.getD 4 0) (requestIn all true) (executeCode (all.getD 4 0)) := by
  have hdest : messageDestination (wholeMessage all) = 31 := by
    rw [messageDestination, getD_wholeMessage all (by decide), h]
    rfl
  rw [State.takeMessage, if_pos hdest, requestOf_wholeMessage, messageCode, getD_wholeMessage all (by decide)]

theorem takeMessage_own {all : List Byte} (h : s.isOwn (all.getD 1 0)) : s.takeMessage (wholeMessage all) =
    s.handleRequest (all.getD 4 0) (requestIn all false) (executeCode (all.getD 4 0)) := by
  have hdest : messageDestination (wholeMessage all) = (all.getD 1 0).toNat := by
    rw [messageDestination, getD_wholeMessage all (by decide)]
  obtain ⟨a, ha, hv⟩ := h
  have hnot : ¬ messageDestination (wholeMessage all) = 31 := by
    rw [hdest, ← hv]
    exact Nat.ne_of_lt a.isLt
  have hown : s.mgp.address.map Fin.val = some (messageDestination (wholeMessage all)) := by
    rw [hdest, ha, ← hv]
    rfl
  rw [State.takeMessage, if_neg hnot, if_pos hown, requestOf_wholeMessage, messageCode,
    getD_wholeMessage all (by decide)]

theorem takeMessage_other {all : List Byte} (h : all.getD 1 0 ≠ 31) (ho : ¬ s.isOwn (all.getD 1 0)) :
    s.takeMessage (wholeMessage all) = s := by
  have hdest : messageDestination (wholeMessage all) = (all.getD 1 0).toNat := by
    rw [messageDestination, getD_wholeMessage all (by decide)]
  rw [State.takeMessage, if_neg, if_neg]
  · rw [hdest]
    exact mt State.isOwn_iff.mp ho
  · rw [hdest]
    exact fun hc => h (BitVec.eq_of_toNat_eq hc)

/-- Settles O45: a frame passed over (`passedOver_hands`), the abort that it hands to a message under way, and a frame
taken, by what the assembler finds in its pair (`pairE_some`, `pairL_some`). -/
theorem frameIsTaken : Obligations.FrameIsTaken := by
  refine ⟨fun s p f hb he hl => ?idle, fun s p f command after => ?aborts, fun s p f command => ?taken⟩
  case idle =>
    intro q goes checks
    have hn : s.noMessage p := by
      cases p
      exacts [he rfl, hl rfl]
    have hgoes {c : Instr} {r : RxPort} (h : exec c s = .next (s.setPort p r)) : goes c r := by
      cases p
      all_goals exact h
    have passes {c : Instr} {r : RxPort} (h : passesOver s p f c r) : goes c r := hgoes (passedOver_idle h hn)
    refine ⟨frameReceived_hunting, fun ha hs hw => passes (.inl ⟨rfl, ha, hs, hw, rfl⟩),
      fun ha hs hw => passes (.inr (.inl ⟨rfl, ha, hs, hw, rfl⟩)),
      fun ha hs hc => passes (.inr (.inr (.inl ⟨rfl, ha, hs, hc, rfl⟩))), fun ha hs hc hv => ?valid, fun h => ?notFound,
      fun ha hs hc hv => hgoes (taken_idle hs hc hv (.inr ⟨rfl, ha⟩) hb hn),
      fun ha hs hc hv => ?slip⟩
    case valid =>
      have h := taken_idle hs hc hv (.inl ⟨rfl, ha⟩) hb hn
      rw [RxPort.took, ← ha] at h
      exact hgoes h
    case notFound =>
      refine alignmentFound_not ?_
      rintro ⟨h1, h2, h3⟩
      rcases h with h | h | h
      exacts [absurd (h1.symm.trans h) (by decide), h h2, h h3]
    case slip =>
      have h := passes (c := .alignmentFound p f) (.inr (.inr (.inr ⟨rfl, ha, hs, hc, hv, rfl⟩)))
      exact h
  case aborts =>
    intro q checks h k up mgpE mgpL
    have h' : passesOver s p f command after := h
    refine ⟨fun hp hm => ?_, fun hp hm => ?_⟩
    · subst hp
      rw [passedOver_hands h', discard_abort (s.setPort .e after) .e hm]
      rfl
    · subst hp
      rw [passedOver_hands h', discard_abort (s.setPort .l after) .l hm]
      rfl
  case taken =>
    intro q hs hc hv h after b1 b2 k up length goesOn tooLong ends agrees
    have hands : exec command s = .next ((s.setPort p after).handPair p b1 b2) := validFrame_hands hs hc hv h
    refine ⟨fun hp => ?ePort, fun hp => ?lPort⟩
    case ePort =>
      intro at' own pair closed counted
      subst hp
      have hpair : exec command s = .next ((s.setPort .e after).pairE b1 b2) := hands
      refine ⟨fun hn hb => ⟨fun ho => ?_, fun ho => ?_⟩, fun m hm => ?_⟩
      · rw [hpair, hb, pairE_begins_own (s := s.setPort .e after) hn ho]
        rfl
      · rw [hpair, hb, pairE_begins_other (s := s.setPort .e after) hn ho]
        rfl
      intro all
      obtain ⟨hgoes, hlong, hwhole⟩ := pairE_some (s := s.setPort .e after) b1 b2 hm
      have judged (he : ends all) : exec command s = .next ((at' closed).judgeE (wholeMessage all)) :=
        hpair.trans (congrArg _ (hwhole he))
      obtain ⟨hcheck, hkind, hvalid⟩ := judgeE_cases (at' closed) (wholeMessage all)
      rw [getD_wholeMessage all (by decide)] at hkind hvalid
      have sound (he : ends all) (ha : agrees all) : messageCheckAgrees (wholeMessage all) = true :=
        (messageAgrees_iff he).mpr ha
      refine ⟨fun h => hpair.trans (congrArg _ (hgoes h)), fun h => hpair.trans (congrArg _ (hlong h)),
        fun he ha => (judged he).trans (congrArg _ (hcheck (Bool.eq_false_iff.mpr (mt (messageAgrees_iff he).mp ha)))),
        fun he ha hk => (judged he).trans (congrArg _ (hkind (sound he ha) hk)), fun he ha hk => ?_⟩
      intro valid code request
      have taken : exec command s = .next (valid.takeMessage (wholeMessage all)) :=
        (judged he).trans (congrArg _ (hvalid (sound he ha) hk))
      exact ⟨fun hd => taken.trans (congrArg _ (takeMessage_broadcast hd)),
        fun hd => taken.trans (congrArg _ (takeMessage_own hd)),
        fun hd ho => taken.trans (congrArg _ (takeMessage_other hd ho))⟩
    case lPort =>
      intro at' counted
      subst hp
      have hpair : exec command s = .next ((s.setPort .l after).pairL b1 b2) := hands
      refine ⟨fun hn hb => ?_, fun m hm => ?_⟩
      · rw [hpair, hb, pairL_begins (s := s.setPort .l after) hn]
        rfl
      intro all kindKnown valid
      obtain ⟨hgoes, hlong, hwhole⟩ := pairL_some (s := s.setPort .l after) b1 b2 hm
      have judged (he : ends all) :
          exec command s = .next ((at' { s.mgp with lAssembler := none }).judgeL (wholeMessage all)) :=
        hpair.trans (congrArg _ (hwhole he))
      obtain ⟨hcheck, hkind, hvalid⟩ := judgeL_cases (at' { s.mgp with lAssembler := none }) (wholeMessage all)
      rw [getD_wholeMessage all (by decide)] at hkind hvalid
      have sound (he : ends all) (ha : agrees all) : messageCheckAgrees (wholeMessage all) = true :=
        (messageAgrees_iff he).mpr ha
      have joins (he : ends all) (ha : agrees all) (hk : kindKnown) :
          exec command s = .next ((at' valid).joinRelay (wholeMessage all)) :=
        (judged he).trans (congrArg _ (hvalid (sound he ha) hk))
      exact ⟨fun h => hpair.trans (congrArg _ (hgoes h)), fun h => hpair.trans (congrArg _ (hlong h)),
        fun he ha => (judged he).trans (congrArg _ (hcheck (Bool.eq_false_iff.mpr (mt (messageAgrees_iff he).mp ha)))),
        fun he ha hk => (judged he).trans (congrArg _ (hkind (sound he ha) hk)),
        fun he ha hk hr => (joins he ha hk).trans (congrArg _ (if_neg (Nat.not_le.mpr hr))),
        fun he ha hk hr => (joins he ha hk).trans (congrArg _ (if_pos hr))⟩

end Sys2Proof.Machine

/-! The close of an E-port interval and the link (R181 to R188). -/

namespace Sys2Proof.Machine

variable {s t : State} {n : LineId}

/-! The close of the interval, with no message aborted (R151, R181). -/

/-- The state after the E-port's interval has closed, before the Link Monitor's event. -/
def State.ePortClosed (s : State) : State := { s with hwi := { s.hwi with ePort := s.hwi.ePort.closed } }

theorem closePort_e (h : s.hwi.ePort.frameSeen = true ∨ s.mgp.eAssembler = none) : s.closePort .e = s.ePortClosed := by
  by_cases hf : s.hwi.ePort.frameSeen = true
  · exact if_pos hf
  · exact (if_neg hf).trans (handAbort_idle s.ePortClosed .e (h.resolve_left hf))

theorem State.closeE_eq (h : s.hwi.ePort.frameSeen = true ∨ s.mgp.eAssembler = none) : s.closeE =
    (s.ePortClosed.setLkm (s.lkm.counted s.hwi.ePort.validTaken)).takeLinkChange s.linkChangeAtClose := by
  rw [State.closeE, closePort_e h]
  rfl

/-- The interval's close, by the change of link state that it brings about. -/
theorem ePortIntervalClose_eq (h : s.hwi.ePort.frameSeen = true ∨ s.mgp.eAssembler = none) {k : Lkm} {c : LinkChange}
    (hk : s.lkm.counted s.hwi.ePort.validTaken = k) (hc : s.linkChangeAtClose = c) :
    exec .ePortIntervalClose s = .next ((s.ePortClosed.setLkm k).takeLinkChange c) :=
  congrArg _ (hk ▸ hc ▸ State.closeE_eq h)

/-- A command of a change of link state: the close, where it brings the change about, and nothing else (log 3). -/
theorem linkCommand_stands {c : LinkChange} (h : s.linkChangeAtClose = c) :
    (c ≠ .warning → exec .shortTimeout s = .next s) ∧ (c ≠ .lost → exec .longTimeout s = .next s) ∧
      (c ≠ .restored → exec .linkRestored s = .next s) :=
  ⟨fun hc => congrArg _ (if_neg (h ▸ hc)), fun hc => congrArg _ (if_neg (h ▸ hc)), fun hc => congrArg _ (if_neg (h ▸ hc))⟩

theorem shortTimeout_comes (h : s.linkChangeAtClose = .warning) : exec .shortTimeout s = exec .ePortIntervalClose s :=
  congrArg _ (if_pos h)

theorem linkRestored_comes (h : s.linkChangeAtClose = .restored) : exec .linkRestored s = exec .ePortIntervalClose s :=
  congrArg _ (if_pos h)

/-! The counts and the change (R181, R182, R187). -/

theorem Lkm.counted_bad (k : Lkm) : k.counted false = ⟨k.state, min 12000 (k.badCount + 1), k.lastRun, 0⟩ := rfl

theorem Lkm.counted_good (k : Lkm) : k.counted true = ⟨k.state, 0, if k.badCount = 0 then k.lastRun else k.badCount,
    if linkLost k.state then min 200 (k.recovery + 1) else k.recovery⟩ := rfl

section Change

variable (hg : s.hwi.ePort.validTaken = true)

include hg

theorem linkChange_acquiring (h : s.lkm.state = .acquiring) : s.linkChangeAtClose = .acquired := by
  simp [State.linkChangeAtClose, hg, Lkm.counted_good, linkChange, h]

theorem linkChange_linked (h : s.lkm.state = .linked) : s.linkChangeAtClose = .nothing := by
  simp [State.linkChangeAtClose, hg, Lkm.counted_good, linkChange, h]

theorem linkChange_warning (h : s.lkm.state = .warning) : s.linkChangeAtClose = .cleared := by
  simp [State.linkChangeAtClose, hg, Lkm.counted_good, linkChange, h]

theorem linkChange_down (h : s.lkm.state = .isolated ∨ s.lkm.state = .released) : s.linkChangeAtClose =
    if min 200 (s.lkm.recovery + 1) = 200 then .restored else .nothing := by
  rcases h with h | h
  all_goals simp [State.linkChangeAtClose, hg, Lkm.counted_good, linkChange, h, linkLost, linkedService, recoveryIntervals]

end Change

section Bad

variable (hg : s.hwi.ePort.validTaken = false)

include hg

theorem linkChange_downBad (h : s.lkm.state = .isolated ∨ s.lkm.state = .released) : s.linkChangeAtClose = .nothing := by
  rcases h with h | h
  all_goals simp [State.linkChangeAtClose, hg, Lkm.counted_bad, linkChange, h]

theorem linkChange_warningBad (h : s.lkm.state = .warning) : s.linkChangeAtClose =
    if s.timing.longTimeout = some (min 12000 (s.lkm.badCount + 1)) then .lost else .nothing := by
  simp only [State.linkChangeAtClose, hg, Lkm.counted_bad, linkChange, h]

theorem linkChange_upBad (h : s.lkm.state = .acquiring ∨ s.lkm.state = .linked) : s.linkChangeAtClose =
    if s.timing.longTimeout = some (min 12000 (s.lkm.badCount + 1)) then .lost
    else if s.timing.shortTimeout = some (min 12000 (s.lkm.badCount + 1)) then .warning else .nothing := by
  rcases h with h | h
  all_goals simp only [State.linkChangeAtClose, hg, Lkm.counted_bad, linkChange, h]

end Bad

theorem linkChange_good (t : Timing) (k : Lkm) : linkChange t k true ≠ .warning ∧ linkChange t k true ≠ .lost := by
  cases h : k.state
  all_goals grind [linkChange]

theorem linkChange_bad (t : Timing) (k : Lkm) : linkChange t k false ≠ .restored := by
  cases h : k.state
  all_goals grind [linkChange]

/-- Settles O46: the counts, and the change that the close brings about by the state and the counts. -/
theorem ePortIntervalCloses : Obligations.EPortIntervalCloses := by
  intro s hidle p good k bad run recovery closed link goes isDue stands down
  have hlost : linkLost k.state = true ↔ down := by
    cases h : k.state
    all_goals simp [linkLost, linkedService, down, h]
  have countedUp (hg : good = true) (hd : ¬ down) : s.lkm.counted s.hwi.ePort.validTaken = ⟨k.state, 0, run, k.recovery⟩ := by
    rw [show s.hwi.ePort.validTaken = true from hg, Lkm.counted_good, if_neg (mt hlost.mp hd)]
  have countedDown (hg : good = true) (hd : down) : s.lkm.counted s.hwi.ePort.validTaken = ⟨k.state, 0, run, recovery⟩ := by
    rw [show s.hwi.ePort.validTaken = true from hg, Lkm.counted_good, if_pos (hlost.mpr hd)]
  have countedBad (hg : good = false) : s.lkm.counted s.hwi.ePort.validTaken = ⟨k.state, bad, k.lastRun, 0⟩ := by
    rw [show s.hwi.ePort.validTaken = false from hg, Lkm.counted_bad]
  refine ⟨fun hg hs => ?up, fun hg hs => ?cleared, fun hg hd hr => ?recovering, fun hg hd hr => ?restored,
    fun hg => ?goodStands, fun hg hd => ?downBad, fun hg => ?badStands, fun hg hd hl hw => ?counts, fun hg hs hl hw => ?warns⟩
  case up =>
    have hd : ¬ down := by
      rintro (h | h)
      all_goals rcases hs with hs | hs <;> simp [hs] at h
    rcases hs with hs | hs
    · have h := ePortIntervalClose_eq hidle (countedUp hg hd) (linkChange_acquiring hg hs)
      exact h
    · have h := ePortIntervalClose_eq hidle (countedUp hg hd) (linkChange_linked hg hs)
      rw [hs] at h
      exact h
  case cleared =>
    have h := ePortIntervalClose_eq hidle (countedUp hg (by simp [down, hs])) (linkChange_warning hg hs)
    rw [hs] at h
    exact h
  case recovering =>
    have hc : s.linkChangeAtClose = .nothing := (linkChange_down hg hd).trans (if_neg (Nat.ne_of_lt hr))
    exact ⟨ePortIntervalClose_eq hidle (countedDown hg hd) hc, (linkCommand_stands hc).2.2 (by decide)⟩
  case restored =>
    have hc : s.linkChangeAtClose = .restored := (linkChange_down hg hd).trans (if_pos (Nat.le_antisymm (Nat.min_le_left _ _) hr))
    have h := ePortIntervalClose_eq hidle (countedDown hg hd) hc
    exact ⟨h, (linkRestored_comes hc).trans h⟩
  case goodStands =>
    have h := linkChange_good s.timing (s.lkm.counted s.hwi.ePort.validTaken)
    rw [← show s.hwi.ePort.validTaken = true from hg] at h
    exact ⟨(linkCommand_stands rfl).1 h.1, (linkCommand_stands rfl).2.1 h.2⟩
  case downBad =>
    have hc := linkChange_downBad hg hd
    exact ⟨ePortIntervalClose_eq hidle (countedBad hg) hc, (linkCommand_stands hc).1 (by decide),
      (linkCommand_stands hc).2.1 (by decide)⟩
  case badStands =>
    have h := linkChange_bad s.timing (s.lkm.counted s.hwi.ePort.validTaken)
    rw [← show s.hwi.ePort.validTaken = false from hg] at h
    exact (linkCommand_stands rfl).2.2 h
  case counts =>
    have hc : s.linkChangeAtClose = .nothing := by
      by_cases hs : k.state = .warning
      · exact (linkChange_warningBad hg hs).trans (if_neg hl)
      · have hup : s.lkm.state = .acquiring ∨ s.lkm.state = .linked := by
          cases h : s.lkm.state
          all_goals simp [down, k, h] at hd hs ⊢
        exact (linkChange_upBad hg hup).trans ((if_neg hl).trans (if_neg (hw.resolve_left hs)))
    exact ⟨ePortIntervalClose_eq hidle (countedBad hg) hc, (linkCommand_stands hc).1 (by decide),
      (linkCommand_stands hc).2.1 (by decide)⟩
  case warns =>
    have hc : s.linkChangeAtClose = .warning := (linkChange_upBad hg hs).trans ((if_neg hl).trans (if_pos hw))
    have h := ePortIntervalClose_eq hidle (countedBad hg) hc
    exact ⟨h, (shortTimeout_comes hc).trans h⟩

/-! The long timeout (R183 to R186). -/

/-- The state that the long timeout enters ISOLATED or RELEASED from (R181, R183). -/
def State.timedOut (s : State) : State :=
  (s.closePort .e).setLkm ⟨s.lkm.state, min 12000 (s.lkm.badCount + 1), s.lkm.lastRun, 0⟩

theorem State.takeLost_isolate (h : s.timing.longAction = .isolate) : s.takeLinkChange .lost = s.enterIsolated := by
  simp only [State.takeLinkChange, h]

theorem State.takeLost_release (h : s.timing.longAction = .release) : s.takeLinkChange .lost = s.enterReleased := by
  simp only [State.takeLinkChange, h]

/-- The record of a line that ISOLATE sends to LOCKOUT (R82). -/
theorem isolateLine_locked (h : (s.line n).state = .replaying ∨ ((s.line n).state = .through ∧ s.callOn n = none)) :
    (s.isolateLine n).line n = { s.line n with
        state := .lockout, loop := .closed,
        seizureCount := if (s.line n).loop = .closed then (s.line n).seizureCount else 0,
        onHookCount := if (s.line n).loop = .closed then (s.line n).onHookCount else 0, faultReason := none,
        lockoutTimer := some 6000, lockoutPhase := some .tone } ∧
      (s.isolateLine n).digits n = DigitRec.initial ∧ (s.isolateLine n).up n = ⟨false, none, true⟩ ∧
      (s.isolateLine n).down n = { (s.down n).noLsv with lockout := some .hangupTone } := by
  rw [isolateLine_cases, if_pos h]
  cases hl : (s.line n).loop
  all_goals simp [LineRec.withLoop, hl]

theorem isolateLine_called (h : (s.line n).state = .through) (hc : s.callOn n ≠ none) :
    (s.isolateLine n).line n = { s.line n with state := .call, lockoutTimer := none, lockoutPhase := none } ∧
      (s.isolateLine n).digits n = DigitRec.initial ∧ (s.isolateLine n).up n = ⟨false, none, false⟩ ∧
      (s.isolateLine n).down n = (s.down n).noLsv := by
  rw [isolateLine_cases, if_neg (by simp [h, hc]), if_pos h]
  simp

theorem isolateLine_stands (h : (s.line n).state ≠ .replaying) (ht : (s.line n).state ≠ .through) :
    s.isolateLine n = s := by
  rw [isolateLine_cases, if_neg (by simp [h, ht]), if_neg ht]

/-- Settles O47: the long timeout enters ISOLATED (`lost_eq`), and each line is isolated for itself (`isolate_fold`). -/
theorem longTimeoutIsolates : Obligations.LongTimeoutIsolates := by
  intro s hv h1 h2 bad hl ha
  obtain ⟨hclose, htimeout, hlost⟩ := lost_eq s hv h1 h2 hl
  obtain ⟨hcsq, hrsc, hitu, hptb, -, hlsv, hdgu, hdown, hup⟩ := closePort_view s
  obtain ⟨u, ucsq, ursc, uitu, uptb, ulkm, ulsv, udgu, udown, uup, hfold⟩ := enterIsolated_view s.timedOut
  have hentry : s.closeE = lineIds.foldl (fun s n => s.isolateLine n) u :=
    hlost.trans ((State.takeLost_isolate (s := s.timedOut) (by rw [State.timing]; exact hptb ▸ ha)).trans hfold)
  obtain ⟨tcsq, trsc, titu, tfixed, hlines⟩ := isolate_fold lineIds u lineIds_nodup
  rw [← hentry] at tcsq trsc titu tfixed hlines
  have hucsq : u.csq = s.csq := ucsq.trans hcsq
  refine ⟨s.closeE, hclose, htimeout, (State.lkm_of_fixed tfixed).trans ulkm, tcsq.trans hucsq,
    trsc.trans (ursc.trans hrsc), titu.trans (uitu.trans hitu),
    (State.ptb_of_fixed tfixed).trans (uptb.trans hptb), fun n => ?_⟩
  intro r locked
  have hline : u.line n = r := congrArg (fun v => tget v n) (ulsv.trans hlsv)
  have hdigits : u.digits n = s.digits n := congrArg (fun v => tget v n) (udgu.trans hdgu)
  have hdn : u.down n = s.down n := congrArg (fun v => tget v n) (udown.trans hdown)
  have hupn : u.up n = s.up n := congrArg (fun v => tget v n) (uup.trans hup)
  have hcall : u.callOn n = s.callOn n := by simp only [State.callOn, State.callRec, hucsq]
  obtain ⟨tline, tdigits, tdown, tup⟩ := (hlines n).2 (mem_lineIds n)
  have locks (h : r.state = .replaying ∨ (r.state = .through ∧ s.callOn n = none)) : locked := by
    obtain ⟨l1, l2, l3, l4⟩ := isolateLine_locked (s := u) (n := n) (by rw [hline, hcall]; exact h)
    rw [hline] at l1
    rw [hdn] at l4
    exact ⟨tline.trans l1, tdigits.trans l2, tup.trans l3, tdown.trans l4⟩
  refine ⟨fun h => locks (.inl h), fun h hc => locks (.inr ⟨h, hc⟩), fun h hc => ?_, fun h ht => ?_⟩
  · obtain ⟨l1, l2, l3, l4⟩ := isolateLine_called (s := u) (n := n) (by rw [hline]; exact h) (by rw [hcall]; exact hc)
    rw [hline] at l1
    rw [hdn] at l4
    exact ⟨tline.trans l1, tdigits.trans l2, tup.trans l3, tdown.trans l4⟩
  · rw [isolateLine_stands (by rw [hline]; exact h) (by rw [hline]; exact ht)] at tline tdigits tdown tup
    exact ⟨tline.trans hline, tdigits.trans hdigits, tup.trans hupn, tdown.trans hdn⟩

/-! The entry into RELEASED, step by step (R186). -/

/-- What the abort of the tests leaves: all but the bridge, the claims and the reports. -/
def State.besideTests (s : State) : Vector LineRec 16 × Vector DigitRec 16 × Rsc × Vector (Option CallRec) 24 × Fixed :=
  (s.lsv, s.dgu, s.rsc, s.csq, s.fixed)

theorem State.besideTests_iff {s t : State} : t.besideTests = s.besideTests ↔
    t.lsv = s.lsv ∧ t.dgu = s.dgu ∧ t.rsc = s.rsc ∧ t.csq = s.csq ∧ t.fixed = s.fixed := by
  simp only [State.besideTests, Prod.mk.injEq]

theorem State.besideTests_abortedAtRelease (s : State) (n : LineId) (rs : List Requester) :
    (s.abortedAtRelease n rs).besideTests = s.besideTests := by
  simp [State.besideTests, State.abortedAtRelease]

theorem State.itu_abortedAtRelease (s : State) (n : LineId) (rs : List Requester) :
    (s.abortedAtRelease n rs).itu = s.itu := by
  unfold State.abortedAtRelease State.notifyAborted
  split
  all_goals simp

theorem State.abortAllTests_view (s : State) :
    s.abortAllTests.itu = ⟨[], none⟩ ∧ s.abortAllTests.besideTests = s.besideTests := by
  unfold State.abortAllTests
  dsimp only
  constructor
  · exact foldl_keeps State.itu _ (fun s (q : TestRequest) => s.itu_abortedAtRelease q.line q.requesters) _ _
  · rw [foldl_keeps State.besideTests _ (fun s (q : TestRequest) => s.besideTests_abortedAtRelease q.line q.requesters)]
    split
    next x _ =>
      refine (State.besideTests_abortedAtRelease (s.dropTest x.line) x.line x.requesters).trans ?_
      simp [State.besideTests]
    next => rfl

/-- What the release of the ring parts leaves: all but the parts, the map, the ring claims and the trip counts. -/
def State.besideParts (s : State) :
    (LineId → LineState × Loop) × Vector DigitRec 16 × Vector (Option CallRec) 24 × Itu × Fixed :=
  (fun n => ((s.line n).state, (s.line n).loop), s.dgu, s.csq, s.itu, s.fixed)

theorem State.besideParts_iff {s t : State} : t.besideParts = s.besideParts ↔
    (∀ n, (t.line n).state = (s.line n).state ∧ (t.line n).loop = (s.line n).loop) ∧ t.dgu = s.dgu ∧ t.csq = s.csq ∧
      t.itu = s.itu ∧ t.fixed = s.fixed := by
  simp only [State.besideParts, Prod.mk.injEq, funext_iff]

theorem State.besideParts_stopRinging (s : State) (n : LineId) : (s.stopRinging n).besideParts = s.besideParts := by
  have hline (m : LineId) : ((s.stopRinging n).line m).state = (s.line m).state ∧
      ((s.stopRinging n).line m).loop = (s.line m).loop := by
    by_cases h : m = n
    · subst h
      exact ⟨by simp [State.stopRinging], by simp [State.stopRinging]⟩
    · exact ⟨by simp [State.stopRinging, h], by simp [State.stopRinging, h]⟩
  exact State.besideParts_iff.mpr ⟨hline, by simp [State.stopRinging], by simp [State.stopRinging],
    by simp [State.stopRinging], by simp⟩

/-- The ring parts and the map cleared (R39). -/
def Rsc.cleared (r : Rsc) : Rsc :=
  { r with parts := [], busLoad := Rsc.initial.busLoad, occupancy := Rsc.initial.occupancy }

theorem State.releaseAllParts_view (s : State) :
    s.releaseAllParts.rsc = s.rsc.cleared ∧ s.releaseAllParts.besideParts = s.besideParts := by
  have hrsc := foldl_keeps State.rsc (fun s (p : RingPart) => if p.isRinging then s.stopRinging p.line else s)
    (fun s p => by split <;> rfl) s.rsc.parts s
  have hbeside := foldl_keeps State.besideParts (fun s (p : RingPart) => if p.isRinging then s.stopRinging p.line else s)
    (fun s p => by split <;> simp only [State.besideParts_stopRinging]) s.rsc.parts s
  exact ⟨congrArg Rsc.cleared hrsc, hbeside⟩

/-- What the end of the calls leaves, with no test requested: all but the calls, their claims and the requests handed. -/
def State.besideCalls (s : State) : Vector LineRec 16 × Vector DigitRec 16 × Rsc × Itu × Fixed :=
  (s.lsv, s.dgu, { s.rsc with requests := [] }, s.itu, s.fixed)

theorem State.besideCalls_iff {s t : State} : t.besideCalls = s.besideCalls ↔
    t.lsv = s.lsv ∧ t.dgu = s.dgu ∧ { t.rsc with requests := [] } = { s.rsc with requests := [] } ∧ t.itu = s.itu ∧
      t.fixed = s.fixed := by
  simp only [State.besideCalls, Prod.mk.injEq]

theorem State.endCall_lost (s : State) (c : CallNo) (hi : s.itu = ⟨[], none⟩) :
    (s.endCall c .linkLost .nowhere none true).besideCalls = s.besideCalls ∧
      (s.endCall c .linkLost .nowhere none true).csq = tset s.csq c none := by
  cases hr : s.callRec c with
  | none =>
    have hcsq : tget s.csq c = none := hr
    have h : s.endCall c .linkLost .nowhere none true = s := by simp only [State.endCall, hr]
    rw [h, ← hcsq, tset_tget]
    exact ⟨rfl, rfl⟩
  | some rec =>
    have hu : s.untested rec.line := ⟨by simp [State.testOn, hi], by simp [hi]⟩
    rw [State.endCall_eq hr _ _ _ _ fun _ => hu, State.direct_nowhere]
    refine ⟨?_, by simp [State.freed]⟩
    simp only [State.besideCalls, State.lsv_reported, State.dgu_reported, State.rsc_reported, State.itu_reported,
      State.fixed_reported, State.modDown_lsv, State.modDown_dgu, State.modDown_rsc, State.modDown_itu, State.fixed_modDown]
    rfl

theorem State.endCalls_view (l : List CallNo) (s : State) (hi : s.itu = ⟨[], none⟩) :
    (l.foldl (fun s c => s.endCall c .linkLost .nowhere none true) s).besideCalls = s.besideCalls ∧
      ∀ c, (c ∈ l ∨ s.callRec c = none) →
        (l.foldl (fun s c => s.endCall c .linkLost .nowhere none true) s).callRec c = none := by
  induction l generalizing s with
  | nil => exact ⟨rfl, fun c h => h.resolve_left (by simp)⟩
  | cons a l ih =>
    obtain ⟨hbeside, hcsq⟩ := State.endCall_lost s a hi
    have hi' : (s.endCall a .linkLost .nowhere none true).itu = ⟨[], none⟩ :=
      (State.besideCalls_iff.mp hbeside).2.2.2.1.trans hi
    obtain ⟨hview, hgone⟩ := ih _ hi'
    refine ⟨hview.trans hbeside, fun c hc => hgone c ?_⟩
    have hcall : (s.endCall a .linkLost .nowhere none true).callRec c = if a = c then none else s.callRec c := by
      simp only [State.callRec, hcsq, tget_tset]
    rw [hcall]
    by_cases ha : a = c
    · exact .inr (if_pos ha)
    · rw [if_neg ha]
      exact hc.imp_left fun h => (List.mem_cons.mp h).resolve_left (Ne.symm ha)

theorem State.endAllCalls_view (s : State) (hi : s.itu = ⟨[], none⟩) :
    s.endAllCalls.besideCalls = s.besideCalls ∧ ∀ c, s.endAllCalls.callRec c = none := by
  obtain ⟨h1, h2⟩ := State.endCalls_view callNos s hi
  exact ⟨h1, fun c => h2 c (.inl (mem_callNos c))⟩

/-! The lines at the entry into RELEASED (R82). -/

/-- The line states that the entry leaves through the loop's state. -/
def LineState.leaves (st : LineState) : Prop :=
  st = .collecting ∨ st = .replaying ∨ st = .lockout ∨ st = .call

theorem releaseLine_leaves (h : (s.line n).state.leaves) : s.releaseLine n =
    if (s.line n).loop = .closed then s.enterThrough n else s.enterIdle n := by
  unfold State.releaseLine
  rcases h with h | h | h | h
  all_goals rw [h]

theorem releaseLine_blocked (h : (s.line n).state = .blocked) : s.releaseLine n = s.enterIdle n := by
  unfold State.releaseLine
  rw [h]

theorem releaseLine_stands (h : ¬ (s.line n).state.leaves) (hb : (s.line n).state ≠ .blocked) : s.releaseLine n = s := by
  unfold State.releaseLine
  cases hs : (s.line n).state
  all_goals simp [hs, LineState.leaves] at h hb ⊢

/-- The release of a line writes that line alone. -/
theorem releaseLine_eq (s : State) (n : LineId) :
    ∃ r d k u, s.releaseLine n = s.withLine n r d k u := by
  by_cases h : (s.line n).state.leaves
  · rw [releaseLine_leaves h]
    split
    · exact ⟨_, _, _, _, s.enterThrough_eq n⟩
    · exact ⟨_, _, _, _, s.enterIdle_eq n⟩
  · by_cases hb : (s.line n).state = .blocked
    · exact ⟨_, _, _, _, (releaseLine_blocked hb).trans (s.enterIdle_eq n)⟩
    · exact ⟨_, _, _, _, (releaseLine_stands h hb).trans (s.withLine_self n).symm⟩

/-- What the release of the lines leaves: all but the lines, their digits and their claims. -/
def State.besideLines (s : State) : Rsc × Vector (Option CallRec) 24 × Itu × Fixed := (s.rsc, s.csq, s.itu, s.fixed)

theorem State.besideLines_releaseLine (s : State) (n : LineId) : (s.releaseLine n).besideLines = s.besideLines := by
  obtain ⟨r, d, k, u, h⟩ := releaseLine_eq s n
  rw [h]
  rfl

/-- The release of a line reads that line alone. -/
theorem releaseLine_congr {t : State} (hl : t.line n = s.line n) (hd : t.digits n = s.digits n) :
    (t.releaseLine n).line n = (s.releaseLine n).line n ∧ (t.releaseLine n).digits n = (s.releaseLine n).digits n := by
  by_cases h : (s.line n).state.leaves
  · rw [releaseLine_leaves h, releaseLine_leaves (s := t) (by rw [hl]; exact h), hl]
    split
    · rw [State.enterThrough_eq, State.enterThrough_eq, hl]
      simp
    · rw [State.enterIdle_eq, State.enterIdle_eq, hl]
      simp
  · by_cases hb : (s.line n).state = .blocked
    · rw [releaseLine_blocked hb, releaseLine_blocked (s := t) (by rw [hl]; exact hb), State.enterIdle_eq,
        State.enterIdle_eq, hl]
      simp
    · rw [releaseLine_stands h hb, releaseLine_stands (s := t) (by rw [hl]; exact h) (by rw [hl]; exact hb)]
      exact ⟨hl, hd⟩

theorem releaseLines_line (l : List LineId) (s : State) (hl : l.Nodup) (hn : n ∈ l) :
    (l.foldl (fun s n => s.releaseLine n) s).line n = (s.releaseLine n).line n ∧
      (l.foldl (fun s n => s.releaseLine n) s).digits n = (s.releaseLine n).digits n := by
  have hother (m : LineId) (h : n ≠ m) (s : State) :
      (s.releaseLine m).line n = s.line n ∧ (s.releaseLine m).digits n = s.digits n := by
    obtain ⟨r, d, k, u, he⟩ := releaseLine_eq s m
    rw [he]
    exact ⟨(withLine_other h r d k u).1, (withLine_other h r d k u).2.1⟩
  have hout (l : List LineId) (s : State) (h : n ∉ l) : (l.foldl (fun s n => s.releaseLine n) s).line n = s.line n ∧
      (l.foldl (fun s n => s.releaseLine n) s).digits n = s.digits n := by
    induction l generalizing s with
    | nil => exact ⟨rfl, rfl⟩
    | cons a l ih =>
      obtain ⟨ha, hl⟩ := not_or.mp (mt List.mem_cons.mpr h)
      obtain ⟨h1, h2⟩ := ih (s.releaseLine a) hl
      exact ⟨h1.trans (hother a ha s).1, h2.trans (hother a ha s).2⟩
  induction l generalizing s with
  | nil => simp at hn
  | cons a l ih =>
    obtain ⟨ha, hl⟩ := List.nodup_cons.mp hl
    by_cases h : n = a
    · subst h
      exact hout l _ ha
    · obtain ⟨h1, h2⟩ := ih (s.releaseLine a) hl ((List.mem_cons.mp hn).resolve_left h)
      obtain ⟨h3, h4⟩ := releaseLine_congr (hother a h s).1 (hother a h s).2
      exact ⟨h1.trans h3, h2.trans h4⟩

/-- The state at the entry into RELEASED, its notice sent (R186, R188). -/
def State.releasing (s : State) : State :=
  (s.setLkm { s.lkm with state := .released, recovery := 0 }).notify (.link .released s.lkm.state s.lkm.badCount)

/-- The state of the entry into RELEASED before the lines are judged: no test, no part and no call. -/
def State.emptied (s : State) : State := s.releasing.abortAllTests.releaseAllParts.endAllCalls

theorem State.enterReleased_eq (s : State) :
    s.enterReleased = lineIds.foldl (fun s n => s.releaseLine n) s.emptied := by
  unfold State.enterReleased
  rfl

/-- What stands, and what is gone, before the lines are judged (R39, R143, R186). -/
theorem State.emptied_view (s : State) :
    (∀ c, s.emptied.callRec c = none) ∧ s.emptied.itu = ⟨[], none⟩ ∧
      { s.emptied.rsc with requests := [] } = { s.rsc.cleared with requests := [] } ∧
      s.emptied.fixed = s.releasing.fixed ∧ s.emptied.dgu = s.dgu ∧
      ∀ n, (s.emptied.line n).state = (s.line n).state ∧ (s.emptied.line n).loop = (s.line n).loop := by
  obtain ⟨hidle, htests⟩ := s.releasing.abortAllTests_view
  obtain ⟨alsv, adgu, arsc, -, afixed⟩ := State.besideTests_iff.mp htests
  obtain ⟨hrsc, hparts⟩ := s.releasing.abortAllTests.releaseAllParts_view
  obtain ⟨bline, bdgu, -, bitu, bfixed⟩ := State.besideParts_iff.mp hparts
  obtain ⟨hcalls, hgone⟩ := s.releasing.abortAllTests.releaseAllParts.endAllCalls_view (bitu.trans hidle)
  obtain ⟨clsv, cdgu, crsc, citu, cfixed⟩ := State.besideCalls_iff.mp hcalls
  have hlsv : s.releasing.lsv = s.lsv := by simp [State.releasing]
  have hdgu : s.releasing.dgu = s.dgu := by simp [State.releasing]
  have hr : s.releasing.rsc = s.rsc := by simp [State.releasing]
  rw [arsc, hr] at hrsc
  rw [hrsc] at crsc
  have hline (n : LineId) : s.releasing.abortAllTests.line n = s.line n :=
    congrArg (fun v => tget v n) (alsv.trans hlsv)
  have hidle' := citu.trans (bitu.trans hidle)
  unfold State.emptied
  generalize s.releasing.abortAllTests.releaseAllParts.endAllCalls = w at *
  refine ⟨hgone, hidle', crsc, cfixed.trans (bfixed.trans afixed), cdgu.trans (bdgu.trans (adgu.trans hdgu)), fun n => ?_⟩
  obtain ⟨h1, h2⟩ := bline n
  have hc : w.line n = s.releasing.abortAllTests.releaseAllParts.line n := congrArg (fun v => tget v n) clsv
  rw [hc, ← hline n]
  exact ⟨h1, h2⟩

/-- The record of a line after the entry into RELEASED, by the state that it leaves (R82). -/
theorem releaseLine_view (s : State) (n : LineId) :
    let st := (s.line n).state
    let t := s.releaseLine n
    (st.leaves → ((s.line n).loop = .closed → (t.line n).state = .through) ∧
      ((s.line n).loop = .opened → (t.line n).state = .idle) ∧ t.digits n = DigitRec.initial) ∧
    (st = .blocked → (t.line n).state = .idle ∧ (t.line n).loop = .opened) ∧
    (¬ st.leaves → st ≠ .blocked → (t.line n).state = st) ∧
    (t.line n).loop = (if st = .blocked then .opened else (s.line n).loop) := by
  intro st t
  by_cases h : st.leaves
  · have hb : st ≠ .blocked := by
      rintro hb
      simp [hb, LineState.leaves] at h
    have ht : t = _ := releaseLine_leaves h
    refine ⟨fun _ => ?_, fun hc => absurd hc hb, fun hc => absurd h hc, ?_⟩
    all_goals
      rw [ht, State.enterThrough_eq, State.enterIdle_eq]
      cases hl : (s.line n).loop
      all_goals simp [LineRec.withLoop, hl, LineRec.noLockout, hb]
  · by_cases hb : st = .blocked
    · have ht : t = _ := releaseLine_blocked hb
      refine ⟨fun hc => absurd hc h, fun _ => ?_, fun _ hc => absurd hb hc, ?_⟩
      all_goals
        rw [ht, State.enterIdle_eq]
        simp [LineRec.withLoop, LineRec.noLockout, hb]
        grind
    · have ht : t = s := releaseLine_stands h hb
      refine ⟨fun hc => absurd hc h, fun hc => absurd hc hb, fun _ _ => by rw [ht], ?_⟩
      rw [ht, if_neg hb]

/-- Settles O48: the long timeout enters RELEASED (`lost_eq`), which leaves no test, part or call
(`State.emptied_view`), and then each line by its state (`releaseLine_view`). -/
theorem longTimeoutReleases : Obligations.LongTimeoutReleases := by
  intro s hv h1 h2 bad hl ha
  obtain ⟨hclose, htimeout, hlost⟩ := lost_eq s hv h1 h2 hl
  obtain ⟨hcsq, hrsc, hitu, hptb, -, hlsv, hdgu, hdown, hup⟩ := closePort_view s
  have hentry : s.closeE = lineIds.foldl (fun s n => s.releaseLine n) s.timedOut.emptied :=
    hlost.trans ((State.takeLost_release (s := s.timedOut) (by rw [State.timing]; exact hptb ▸ ha)).trans
      s.timedOut.enterReleased_eq)
  obtain ⟨ecall, eitu, ersc, efixed, edgu, eline⟩ := s.timedOut.emptied_view
  have hrest := foldl_keeps State.besideLines _ State.besideLines_releaseLine lineIds s.timedOut.emptied
  rw [← hentry] at hrest
  obtain ⟨trsc, tcsq, titu, tfixed⟩ : s.closeE.rsc = _ ∧ s.closeE.csq = _ ∧ s.closeE.itu = _ ∧ s.closeE.fixed = _ := by
    simpa only [State.besideLines, Prod.mk.injEq] using hrest
  have hfixed := tfixed.trans efixed
  have hlkm : s.closeE.lkm = s.timedOut.releasing.lkm := State.lkm_of_fixed hfixed
  have hptb' : s.closeE.ptb = s.timedOut.releasing.ptb := State.ptb_of_fixed hfixed
  rw [← trsc] at ersc
  rw [show s.timedOut.rsc = s.rsc from hrsc] at ersc
  obtain ⟨hparts, hload, hocc, hstart, hcycle, htimer, -⟩ := Rsc.mk.inj ersc
  refine ⟨s.closeE, hclose, htimeout, ?link, fun c => ?call, titu.trans eitu, hparts, fun b sl => ?load,
    fun g sl => ?occupancy, hstart, hcycle, htimer, ?tables, fun n => ?line⟩
  case link =>
    rw [hlkm, State.releasing, State.notify_lkm]
    rfl
  case call =>
    rw [State.callRec, tcsq]
    exact ecall c
  case load =>
    rw [hload]
    simp [Rsc.cleared, Rsc.initial]
  case occupancy =>
    rw [hocc]
    simp [Rsc.cleared, Rsc.initial]
  case tables =>
    rw [hptb', State.releasing, State.notify_ptb]
    exact hptb
  case line =>
    intro st
    obtain ⟨tline, tdigits⟩ := releaseLines_line lineIds s.timedOut.emptied lineIds_nodup (mem_lineIds n)
    obtain ⟨hst, hloop⟩ := eline n
    have hclosedLine : s.timedOut.line n = s.line n := congrArg (fun v => tget v n) hlsv
    rw [hclosedLine] at hst hloop
    have hview := releaseLine_view s.timedOut.emptied n
    simp only [hst, hloop, ← tline, ← tdigits, ← hentry] at hview
    obtain ⟨hleaves, hblocked, hstands, hl⟩ := hview
    refine ⟨hleaves, hblocked, fun h => hstands ?_ ?_, hl⟩
    all_goals
      show ¬ _
      rcases h with h | h | h | h
      all_goals simp [show (s.line n).state = _ from h, LineState.leaves]

end Sys2Proof.Machine

/-! The operations on one ring part among parts of other calls (R24 to R38). -/

namespace Sys2Proof.Machine

variable {s u v : State} {older younger l : List RingPart} {p q : RingPart} {c : CallNo} {sp : Spec} {g : GroupId}
  {k : Slot}

@[simp] theorem State.withParts_parts (s m : State) (l : List RingPart) : (s.withParts l m).rsc.parts = l := rfl

@[simp] theorem State.withParts_again (s m m' : State) (l l' : List RingPart) :
    (s.withParts l m).withParts l' m' = s.withParts l' m' := rfl

/-- The map of a state with other parts. -/
@[simp] theorem State.withParts_map (s t m : State) (l l' : List RingPart) :
    s.withParts l (t.withParts l' m) = s.withParts l m := rfl

theorem firstFit_congr (h1 : u.rsc.busLoad = v.rsc.busLoad) (h2 : u.rsc.occupancy = v.rsc.occupancy)
    (h3 : u.ptb = v.ptb) (h4 : u.rsc.startPointer = v.rsc.startPointer) (h : v.firstFit sp g k) : u.firstFit sp g k := by
  obtain ⟨i, hk, hf, hn⟩ := h
  refine ⟨i, by rw [h4]; exact hk, (fits_congr h1 h2 h3 sp g k).2 hf, fun j hj hx => hn j hj ?_⟩
  rw [h4] at hx
  exact (fits_congr h1 h2 h3 sp g _).1 hx

/-! One part changed, placed, queued or removed. -/

section
variable (hp : s.rsc.parts = older ++ p :: younger) (ho : ∀ o ∈ older ++ younger, o.call ≠ p.call)
include hp ho

theorem State.modPart_eq (f : RingPart → RingPart) :
    s.modPart p.call f = s.withParts (older ++ f p :: younger) s := by
  rw [State.modPart, hp, map_part rfl f ho]; rfl

/-- R24, R28, R33: the part put into the map at an offset. -/
theorem State.putAt_eq (sp : Spec) (g : GroupId) (k : Slot) (pending : Bool) : s.putAt p.call sp g k pending =
    s.withParts (overtakenBy sp.bus older ++ { p with status := .placed k pending } :: younger) (s.mapAdd sp g k) := by
  have hm := State.modPart_eq (s := s.mapAdd sp g k) hp ho (fun p => { p with status := .placed k pending })
  simp only [State.putAt, hm, State.withParts_parts]
  rw [overtaken_of (p := { p with status := .placed k pending }) rfl _ ho]; rfl

/-- R31: the part joins or rejoins the wait queue. -/
theorem State.joinQueue_eq (n : LineId) : s.joinQueue p.call n =
    (s.withParts (older ++ { p with status := .queued 0 } :: younger) s).reported [.peg .ringQueued (some n)] := by
  rw [State.joinQueue, State.modPart_eq hp ho]; rfl

/-- R26, R27: the offset that an eligible part finds. -/
theorem State.offsetFor_of (hb : noneBlocks older sp.bus) (hk : s.firstFit sp g k) : s.offsetFor p.call sp g = some k := by
  rw [State.offsetFor, if_pos, State.offsetSearch_some hk]
  rw [State.eligible_iff, hp, olderThan_of ho]
  exact hb

/-- R26, R27: an ineligible part, and one that passes at no offset, find none. -/
theorem State.offsetFor_none (h : ¬ noneBlocks older sp.bus ∨ ∀ k, ¬ s.fitsAt sp g k) : s.offsetFor p.call sp g = none := by
  rcases h with hb | hf
  · rw [State.offsetFor, if_neg]
    rw [State.eligible_iff, hp, olderThan_of ho]
    exact hb
  · rw [State.offsetFor, State.offsetSearch_none hf]
    exact ite_self none

/-- R26, R36, R51: a part stays at an offset where it is eligible and passes. -/
theorem State.stays_iff : (s.eligible p.call sp.bus && s.placementTest sp g k) = true ↔
    noneBlocks older sp.bus ∧ s.fitsAt sp g k := by
  rw [Bool.and_eq_true, State.eligible_iff, State.placementTest_iff, hp, olderThan_of ho]

/-- R38: a part in the wait queue is removed. -/
theorem State.removePart_queued {m : Nat} (hq : p.status = .queued m) :
    s.removePart p = s.withParts (older ++ younger) s := by
  rw [State.removePart, hq]
  dsimp only
  rw [hp, filter_part ho]; rfl

/-- R38: a start-pending part is removed. -/
theorem State.removePart_pending (hq : p.status = .placed k true) :
    s.removePart p = s.withParts (older ++ younger) (s.mapRemove p.spec p.group k) := by
  rw [State.removePart, hq]
  simp only [if_true]
  rw [show (s.mapRemove p.spec p.group k).rsc.parts = s.rsc.parts from rfl, hp, filter_part ho]; rfl

end

/-- R26, R27: a state that differs from another in its parts places by the search at the other's offset. -/
theorem State.foundPlace_congr {map map' : State} (hb : map.rsc.busLoad = map'.rsc.busLoad)
    (hm : map.rsc.occupancy = map'.rsc.occupancy) (l : List RingPart) (m : State) :
    (u.withParts l m).foundPlace map older younger p k = u.foundPlace map' older younger p k := by
  simp only [State.foundPlace, State.withParts, hb, hm]
  rfl

/-! Distinct calls of the parts (R20). -/

theorem partsDistinct_without (h : partsDistinct (older ++ p :: younger)) : partsDistinct (older ++ younger) := by
  unfold partsDistinct at h ⊢
  exact h.sublist ((List.Sublist.append_left (List.sublist_cons_self p younger) older).map _)

theorem partsDistinct_with (h : partsDistinct (older ++ p :: younger)) (hc : q.call = p.call) :
    partsDistinct (older ++ q :: younger) := by
  simpa [partsDistinct, hc] using h

theorem partsDistinct_overtaken (b : BusId) (h : partsDistinct (older ++ younger)) :
    partsDistinct (overtakenBy b older ++ younger) := by
  simpa [partsDistinct] using h

theorem partsDistinct_youngest (h : partsDistinct l) (hc : ∀ o ∈ l, o.call ≠ p.call) : partsDistinct (l ++ [p]) := by
  unfold partsDistinct at h ⊢
  rw [List.map_append, List.nodup_append]
  refine ⟨h, List.nodup_singleton _, fun a ha b hb => ?_⟩
  obtain ⟨o, hol, rfl⟩ := List.mem_map.1 ha
  rw [List.map_singleton, List.mem_singleton] at hb
  exact hb ▸ hc o hol

/-- R34: the pass that ends an event. -/
theorem State.leads_pass {t : State} (hd : partsDistinct t.rsc.parts) {x : Instr} (h : exec x s = .next t.pass) :
    ∃ v, t.passes v ∧ exec x s = .next v :=
  ⟨t.pass, State.passes_pass hd, h⟩

/-! A request taken (R122). -/

/-- The state without the request that is taken. -/
def State.taking (s : State) (rest : List RscRequest) : State := { s with rsc := { s.rsc with requests := rest } }

theorem placeRequest_other (h : ∀ c n sp l d, s.rsc.requests.head? ≠ some (.place c n sp l d)) :
    exec .placeRequest s = .next s := by
  refine congrArg Host.Outcome.next (if_neg fun hk => ?_)
  obtain ⟨r, hr, hr'⟩ := Option.map_eq_some_iff.1 hk
  cases r with
  | place c n sp l d => exact h c n sp l d hr
  | stage | amend | release => cases hr'

theorem stageRequest_other (h : ∀ c sp, s.rsc.requests.head? ≠ some (.stage c sp)) : exec .stageRequest s = .next s := by
  refine congrArg Host.Outcome.next (if_neg fun hk => ?_)
  obtain ⟨r, hr, hr'⟩ := Option.map_eq_some_iff.1 hk
  cases r with
  | stage c sp => exact h c sp hr
  | place | amend | release => cases hr'

theorem amendRequest_other (h : ∀ c x l, s.rsc.requests.head? ≠ some (.amend c x l)) :
    exec .amendRequest s = .next s := by
  refine congrArg Host.Outcome.next (if_neg fun hk => ?_)
  obtain ⟨r, hr, hr'⟩ := Option.map_eq_some_iff.1 hk
  cases r with
  | amend c x l => exact h c x l hr
  | place | stage | release => cases hr'

theorem releaseRequest_other (h : ∀ c, s.rsc.requests.head? ≠ some (.release c)) : exec .releaseRequest s = .next s := by
  refine congrArg Host.Outcome.next (if_neg fun hk => ?_)
  obtain ⟨r, hr, hr'⟩ := Option.map_eq_some_iff.1 hk
  cases r with
  | release c => exact h c hr
  | place | stage | amend => cases hr'

section
variable {rest : List RscRequest} {n : LineId} {limit done : Nat}

/-- The oldest request is taken when its kind is the command's (R122). -/
theorem State.takeKind_of {x : RscRequest} (h : s.rsc.requests = x :: rest) :
    s.takeKind x.kindOf = (s.taking rest).takeRequest x := by
  rw [State.takeKind, if_pos (by rw [h]; rfl), State.takeNext, h]; rfl

theorem placeRequest_of (h : s.rsc.requests = .place c n sp limit done :: rest) :
    exec .placeRequest s = .next ((s.taking rest).takePlace c n sp limit done) :=
  congrArg Host.Outcome.next (State.takeKind_of h)

theorem stageRequest_of (h : s.rsc.requests = .stage c sp :: rest) :
    exec .stageRequest s = .next ((s.taking rest).stagePart c sp) :=
  congrArg Host.Outcome.next (State.takeKind_of h)

theorem amendRequest_of {x : Option CadenceId} {y : Option Nat} (h : s.rsc.requests = .amend c x y :: rest) :
    exec .amendRequest s = .next ((s.taking rest).amendPart c x y) :=
  congrArg Host.Outcome.next (State.takeKind_of h)

theorem releaseRequest_of (h : s.rsc.requests = .release c :: rest) :
    exec .releaseRequest s = .next ((s.taking rest).releasePart c) :=
  congrArg Host.Outcome.next (State.takeKind_of h)

end

end Sys2Proof.Machine

/-! The requests taken by the RSC (R29, R36, R38, R50, R122, R136, R137). -/

namespace Sys2Proof.Machine

variable {s u v : State} {older younger : List RingPart} {p : RingPart} {c : CallNo} {n : LineId} {sp : Spec}
  {limit done : Nat} {k : Slot}

/-! A place request (R29). -/

/-- R20: a call that holds a part is not given a second. -/
theorem State.takePlace_held (h : ¬ ∀ p ∈ s.rsc.parts, p.call ≠ c) : s.takePlace c n sp limit done = s := by
  obtain ⟨p, hp⟩ : ∃ p, s.part c = some p := by
    rw [← Option.isSome_iff_exists, State.part, List.find?_isSome]
    push Not at h
    simpa using h
  rw [State.takePlace, hp]

theorem State.takePlace_refused (hf : ∀ p ∈ s.rsc.parts, p.call ≠ c) (h : s.capacity sp.bus < sp.bell) :
    s.takePlace c n sp limit done = (s.reported [.peg .ringRefused (some n)]).csqPlaceRefused c n := by
  rw [State.takePlace, State.part_none hf]
  exact if_pos (over_iff.2 h)

theorem State.takePlace_created (hf : ∀ p ∈ s.rsc.parts, p.call ≠ c) (h : sp.bell ≤ s.capacity sp.bus) :
    s.takePlace c n sp limit done = (s.createPart c n sp limit done).stageAlternation c n sp := by
  rw [State.takePlace, State.part_none hf]
  exact if_neg fun hx => absurd (over_iff.1 hx) (by omega)

/-- R136: the refusal reaches no call but one in REVERT_RINGING. -/
theorem State.csqPlaceRefused_stands (h : ∀ r, ¬ (s.callRec c = some r ∧ r.line = n ∧ r.state = .revertRinging)) :
    s.csqPlaceRefused c n = s := by
  cases hr : s.callOnLine c n with
  | none => rw [State.csqPlaceRefused, hr]
  | some r =>
    obtain ⟨hc, hl⟩ := State.callOnLine_eq_some.1 hr
    rw [State.csqPlaceRefused, hr]
    exact if_neg fun hs => h r ⟨hc, hl, hs⟩

/-- R136: a call in REVERT_RINGING ends. -/
theorem State.csqPlaceRefused_ends {r : CallRec} (hc : s.callRec c = some r) (hl : r.line = n)
    (hs : r.state = .revertRinging) : s.csqPlaceRefused c n = s.endCall c .noAnswer .idle (some .noAnswer) true := by
  rw [State.csqPlaceRefused, State.callOnLine_some hc hl]
  exact if_pos hs

/-- R29, R31: a new part that finds no offset waits. -/
theorem State.createPart_queued (hf : ∀ p ∈ s.rsc.parts, p.call ≠ c)
    (h : ¬ noneBlocks s.rsc.parts sp.bus ∨ ∀ k, ¬ s.fitsAt sp (s.attr n).group k) : s.createPart c n sp limit done =
    State.pass ((s.withParts (s.rsc.parts ++ [newPart c n (s.attr n).group sp limit done]) s).reported
      [.peg .ringQueued (some n)]) := by
  let x := newPart c n (s.attr n).group sp limit done
  let t := s.setRsc { s.rsc with parts := s.rsc.parts ++ [newPart c n (s.attr n).group sp limit done] }
  have hp : t.rsc.parts = s.rsc.parts ++ x :: [] := rfl
  have ho : ∀ o ∈ s.rsc.parts ++ [], o.call ≠ x.call := by rw [List.append_nil]; exact hf
  have hn : t.offsetFor c sp (s.attr n).group = none :=
    State.offsetFor_none hp ho (h.imp id fun hk k => mt (fits_congr (s := s) (t := t) rfl rfl rfl _ _ _).1 (hk k))
  have hj : t.joinQueue c n = (s.withParts (s.rsc.parts ++ [x]) s).reported [.peg .ringQueued (some n)] :=
    State.joinQueue_eq hp ho n
  rw [State.createPart]
  dsimp only
  rw [hn, hj]

/-! A release request (R38). -/

theorem State.releasePart_eq (hp : s.rsc.parts = older ++ p :: younger) (ho : ∀ o ∈ older ++ younger, o.call ≠ p.call) :
    s.releasePart p.call = (s.removePart p).pass := by
  rw [State.releasePart, State.part_of hp ho]

/-! A stage and an amend request (R30, R36, R50). -/

section
variable (hp : s.rsc.parts = older ++ p :: younger) (ho : ∀ o ∈ older ++ younger, o.call ≠ p.call)
include hp ho

theorem State.stagePart_eq (sp : Spec) : s.stagePart p.call sp =
    if s.overCapacity sp then s.peg .ringRefused (some p.line)
    else s.withParts (older ++ { p with staged := some ⟨some sp, none⟩ } :: younger) s := by
  rw [State.stagePart, State.part_of hp ho, ← State.modPart_eq hp ho (fun p => { p with staged := some ⟨some sp, none⟩ })]

/-- R50: an amend of a part that rings is staged. -/
theorem State.amendPart_ringing (h : p.status = .placed k false) (x : Option CadenceId) (y : Option Nat) :
    s.amendPart p.call x y = s.withParts
      (older ++ { p with staged := some ⟨x.map p.spec.withCadence, y⟩ } :: younger) s := by
  rw [State.amendPart, State.part_of hp ho,
    ← State.modPart_eq hp ho (fun p => { p with staged := some ⟨x.map p.spec.withCadence, y⟩ })]
  dsimp only
  rw [h]

/-- R36: an amend of the cycle limit alone. -/
theorem State.amendPart_limit (h : ∀ k, p.status ≠ .placed k false) (y : Option Nat) :
    s.amendPart p.call none y = s.withParts (older ++ p.withLimit y :: younger) s := by
  rw [State.amendPart, State.part_of hp ho, ← State.modPart_eq hp ho (fun p => p.withLimit y)]
  dsimp only
  rcases hs : p.status with m | ⟨k, pending⟩
  · rfl
  · cases pending
    · exact absurd hs (h k)
    · rfl

/-- R36: an amend of the cadence of a part that waits. -/
theorem State.amendPart_queued {m : Nat} (h : p.status = .queued m) (x : CadenceId) (y : Option Nat) :
    s.amendPart p.call (some x) y =
      State.pass (s.withParts (older ++ { p.withLimit y with spec := p.spec.withCadence x } :: younger) s) := by
  have h1 := State.modPart_eq hp ho (fun p => p.withLimit y)
  have h2 := State.modPart_eq (s := s.modPart p.call fun p => p.withLimit y) (p := p.withLimit y) (by rw [h1]; rfl) ho
    (fun p => { p with spec := p.spec.withCadence x })
  rw [State.amendPart, State.part_of hp ho]
  dsimp only
  rw [h]
  dsimp only
  rw [show (s.modPart p.call fun p => p.withLimit y).modPart p.call _ = _ from h2, h1]
  rfl

/-- R36: an amend of the cadence of a start-pending part. -/
theorem State.amendPart_pending (h : p.status = .placed k true) (x : CadenceId) (y : Option Nat) :
    s.amendPart p.call (some x) y = (s.withParts (older ++ p.withLimit y :: younger) s).amendPending p k x := by
  rw [State.amendPart, State.part_of hp ho, ← State.modPart_eq hp ho (fun p => p.withLimit y)]
  dsimp only
  rw [h]

end

/-- The part with an amend's cadence and cycle limit applied at once (R36). -/
def RingPart.amended (p : RingPart) (x : CadenceId) (y : Option Nat) : RingPart :=
  { p.withLimit y with spec := p.spec.withCadence x }

/-- The part out of the map, with its amended spec (R36). -/
def State.amending (s : State) (older younger : List RingPart) (p : RingPart) (k : Slot) (x : CadenceId)
    (y : Option Nat) : State :=
  s.withParts (older ++ p.amended x y :: younger) (s.mapRemove p.spec p.group k)

section
variable (ho : ∀ o ∈ older ++ younger, o.call ≠ p.call) {x : CadenceId} {y : Option Nat}

theorem State.amending_parts : (s.amending older younger p k x y).rsc.parts = older ++ p.amended x y :: younger := rfl

theorem State.amending_fitsAt (sp : Spec) (g : GroupId) (k' : Slot) :
    (s.amending older younger p k x y).fitsAt sp g k' ↔ (s.mapRemove p.spec p.group k).fitsAt sp g k' :=
  fits_congr (t := s.amending older younger p k x y) (s := s.mapRemove p.spec p.group k) rfl rfl rfl sp g k'

include ho

theorem State.amending_modPart (x : CadenceId) (y : Option Nat) (k : Slot) :
    ((s.withParts (older ++ p.withLimit y :: younger) s).mapRemove p.spec p.group k).modPart p.call
      (fun r => { r with spec := p.spec.withCadence x }) = s.amending older younger p k x y := by
  rw [show p.call = (p.withLimit y).call from rfl, State.modPart_eq (p := p.withLimit y) rfl ho]
  rfl

/-- R36: the part keeps its offset. -/
theorem State.amendPending_stays (hb : noneBlocks older (p.spec.withCadence x).bus)
    (hf : (s.mapRemove p.spec p.group k).fitsAt (p.spec.withCadence x) p.group k) :
    (s.withParts (older ++ p.withLimit y :: younger) s).amendPending p k x = State.pass
      ((s.withParts (overtakenBy (p.spec.withCadence x).bus older ++
          { p.amended x y with status := .placed k true } :: younger)
        ((s.mapRemove p.spec p.group k).mapAdd (p.spec.withCadence x) p.group k)).reported
        [.peg .ringPlaced (some p.line)]) := by
  let w := s.amending older younger p k x y
  have hs : (w.eligible p.call (p.spec.withCadence x).bus && w.placementTest (p.spec.withCadence x) p.group k) = true :=
    (State.stays_iff State.amending_parts ho).2 ⟨hb, (State.amending_fitsAt _ _ _).2 hf⟩
  have hput : w.putAt p.call (p.spec.withCadence x) p.group k true = _ := State.putAt_eq State.amending_parts ho _ _ _ _
  simp only [State.amendPending, State.amending_modPart ho x y k, State.passAfter_eq]
  rw [if_pos hs, hput]
  rfl

/-- R36: the part is moved by the search. -/
theorem State.amendPending_moves {k' : Slot} (hb : noneBlocks older (p.spec.withCadence x).bus)
    (hf : ¬ (s.mapRemove p.spec p.group k).fitsAt (p.spec.withCadence x) p.group k)
    (hk : (s.mapRemove p.spec p.group k).firstFit (p.spec.withCadence x) p.group k') :
    (s.withParts (older ++ p.withLimit y :: younger) s).amendPending p k x = State.pass
      (s.foundPlace ((s.mapRemove p.spec p.group k).mapAdd (p.spec.withCadence x) p.group k') older younger
        (p.amended x y) k') := by
  let w := s.amending older younger p k x y
  have hs : ¬ (w.eligible p.call (p.spec.withCadence x).bus && w.placementTest (p.spec.withCadence x) p.group k) = true :=
    mt (State.stays_iff State.amending_parts ho).1 fun h => hf ((State.amending_fitsAt _ _ _).1 h.2)
  have hfor : w.offsetFor p.call (p.spec.withCadence x) p.group = some k' :=
    State.offsetFor_of (p := p.amended x y) State.amending_parts ho hb (firstFit_congr rfl rfl rfl rfl hk)
  have hplace : w.placeBySearch p.call p.line (p.spec.withCadence x) p.group k' = _ :=
    State.placeBySearch_eq State.amending_parts ho k'
  simp only [State.amendPending, State.amending_modPart ho x y k, State.passAfter_eq]
  rw [if_neg hs, hfor]
  refine congrArg State.pass (hplace.trans (State.foundPlace_congr rfl rfl _ _))

/-- R36: the part rejoins the queue. -/
theorem State.amendPending_queues (h : ¬ noneBlocks older (p.spec.withCadence x).bus ∨
      ∀ k', ¬ (s.mapRemove p.spec p.group k).fitsAt (p.spec.withCadence x) p.group k') :
    (s.withParts (older ++ p.withLimit y :: younger) s).amendPending p k x = State.pass
      ((s.withParts (older ++ { p.amended x y with status := .queued 0 } :: younger) (s.mapRemove p.spec p.group k)).reported
        [.peg .ringQueued (some p.line)]) := by
  let w := s.amending older younger p k x y
  have h' : ¬ noneBlocks older (p.spec.withCadence x).bus ∨ ∀ k', ¬ w.fitsAt (p.spec.withCadence x) p.group k' :=
    h.imp id fun hn k' => mt (State.amending_fitsAt _ _ _).1 (hn k')
  have hs : ¬ (w.eligible p.call (p.spec.withCadence x).bus && w.placementTest (p.spec.withCadence x) p.group k) = true :=
    mt (State.stays_iff State.amending_parts ho).1 fun hs => h'.elim (fun hb => hb hs.1) (fun hn => hn k hs.2)
  have hfor : w.offsetFor p.call (p.spec.withCadence x) p.group = none := State.offsetFor_none (p := p.amended x y) State.amending_parts ho h'
  have hjoin : w.joinQueue p.call p.line = _ := State.joinQueue_eq State.amending_parts ho _
  simp only [State.amendPending, State.amending_modPart ho x y k, State.passAfter_eq]
  rw [if_neg hs, hfor]
  exact congrArg State.pass hjoin

end

/-- The line record of a call that ends with its line directed to IDLE. -/
def LineRec.idled (q : LineRec) : LineRec :=
  { q with
    state := .idle, loop := .opened, seizureCount := if q.loop = .opened then q.seizureCount else 0,
    onHookCount := if q.loop = .opened then q.onHookCount else 0, faultReason := none,
    lockoutTimer := none, lockoutPhase := none }

theorem directed_idle (q : LineRec) : directed q .idle = q.idled := by
  cases h : q.loop <;> simp [directed, LineRec.idled, LineRec.withLoop, LineRec.noLockout, h]

/-- R30, R136: a refused place request ends a call in REVERT_RINGING. -/
theorem State.takePlace_ends {rec : CallRec} (hf : ∀ p ∈ s.rsc.parts, p.call ≠ c) (hcap : s.capacity sp.bus < sp.bell)
    (hc : s.callRec c = some rec) (hl : rec.line = n) (hs : rec.state = .revertRinging) (hu : s.untested n)
    (hcall : (s.line n).state = .call) : s.takePlace c n sp limit done =
    ((s.freed c rec).withLine n (s.line n).idled DigitRec.initial { (s.down n).noLsv with call := none }
      ⟨false, none, false⟩).reported
      [.peg .ringRefused (some n), .notice (.callEnd (callEndOf c rec .noAnswer)), .peg .noAnswer (some n)] := by
  subst hl
  rw [State.takePlace_refused hf hcap, State.csqPlaceRefused_ends (r := rec) (by simpa using hc) rfl hs,
    State.endCall_of_call (r := rec) (by simpa using hc) (by simpa [State.untested, State.testOn] using hu)
      (by simpa using hcall)]
  simp only [directed_idle, State.freed_reported, State.withLine_reported, ← State.reported_append, State.line_reported,
    State.down_reported]
  rfl

/-- Settles O49: a request taken by its kind, with the laws of the place, stage, amend and release operations. -/
theorem ringRequestsAreTaken : Obligations.RingRequestsAreTaken := by
  unfold Obligations.RingRequestsAreTaken
  refine ⟨?place, ?part, fun s => ⟨placeRequest_other, stageRequest_other, amendRequest_other, releaseRequest_other⟩, ?absent⟩
  case absent =>
    intro s c rest hf u
    have hn : u.part c = none := State.part_none (s := u) hf
    refine ⟨fun h => ?_, fun sp h => ?_, fun x y h => ?_⟩
    · rw [releaseRequest_of h, State.releasePart, show (s.taking rest).part c = none from hn]; rfl
    · rw [stageRequest_of h, State.stagePart, show (s.taking rest).part c = none from hn]; rfl
    · rw [amendRequest_of h, State.amendPart, show (s.taking rest).part c = none from hn]; rfl
  case place =>
    intro s c n sp limit done rest hreq g made u next fresh reverts taken
    have hexec := placeRequest_of hreq
    have htaken : ∀ t, exec .placeRequest s = .next (t.stageAlternation c n sp) → t.csq = s.csq → t.ptb = s.ptb →
        taken t := by
      intro t ht hcsq hptb
      obtain ⟨hnone, hsome⟩ := stageAlternation_of s t c n sp hcsq hptb
      refine ⟨fun h => ht.trans (congrArg _ (hnone h)), fun rec hr => ⟨fun hb called caller q h1 h2 h3 h4 => ?_, fun h => ?_⟩⟩
      · exact ht.trans (congrArg _ ((hsome rec hr).1 hb called caller q h1 h2 h3 h4))
      · exact ht.trans (congrArg _ ((hsome rec hr).2 h))
    refine ⟨fun hf => hexec.trans (congrArg _ (State.takePlace_held (s := u) hf)), fun hf hcap => ⟨fun h => ?_, ?ends⟩,
      fun hf hcap hb k hk => ?_, fun hf hcap hd h => ?_⟩
    · refine hexec.trans (congrArg _ ((State.takePlace_refused (s := u) hf hcap).trans ?_))
      exact State.csqPlaceRefused_stands fun r ⟨hc, hr⟩ => h r ⟨(State.callRec_reported u _ c).symm.trans hc, hr⟩
    case ends =>
      rintro rec ⟨hc, hl, hs⟩ hu hcall q idle
      exact hexec.trans (congrArg _ (State.takePlace_ends (s := u) hf hcap hc hl hs hu hcall))
    · refine ⟨s.mapAdd sp g k, State.mapAdded_mapAdd sp g k, htaken _ ?_ ?_ ?_⟩
      · refine hexec.trans (congrArg _ ((State.takePlace_created (s := u) hf hcap).trans ?_))
        rw [createPart_place u c n sp limit done k hf hb (firstFit_congr rfl rfl rfl rfl hk)]
        rfl
      · exact State.csq_reported _ _
      · exact State.ptb_reported _ _
    · have hd' := partsDistinct_youngest (p := newPart c n g sp limit done) hd hf
      let t : State := (u.withParts (s.rsc.parts ++ [made (.queued 0)]) s).reported [.peg .ringQueued (some n)]
      refine ⟨t.pass, State.passes_pass (by rw [State.rsc_reported]; exact hd'), htaken _ ?_ ?_ ?_⟩
      · refine hexec.trans (congrArg _ ((State.takePlace_created (s := u) hf hcap).trans ?_))
        rw [State.createPart_queued (s := u) hf
          (h.imp id fun hk k => mt (fits_congr (s := s) (t := u) rfl rfl rfl _ _ _).1 (hk k))]
        rfl
      · exact (csq_pass t).trans (State.csq_reported _ _)
      · exact State.ptb_of_fixed ((State.fixed_pass t).trans (State.fixed_reported _ _))
  case part =>
    intro s older younger p rest hp hd u gone changed leads
    have ho := partsDistinct_split (hp ▸ hd)
    have hwith : ∀ q : RingPart, q.call = p.call → partsDistinct (older ++ q :: younger) :=
      fun q hq => partsDistinct_with (hp ▸ hd) hq
    have hgone : partsDistinct gone := partsDistinct_without (hp ▸ hd)
    refine ⟨fun hreq => ?release, fun sp hreq => ?stage, fun x y hreq => ?amend⟩
    case release =>
      have hexec := (releaseRequest_of hreq).trans (congrArg _ (State.releasePart_eq (s := u) hp ho))
      refine ⟨fun m hm => ?_, fun k hk => ?_, fun k hk => ?_⟩
      · exact State.leads_pass hgone (hexec.trans (by rw [State.removePart_queued (s := u) hp ho hm]; rfl))
      · exact ⟨s.mapRemove p.spec p.group k, State.mapRemoved_mapRemove _ _ _, State.leads_pass hgone
          (hexec.trans (by rw [State.removePart_pending (s := u) hp ho hk]; rfl))⟩
      · exact ⟨s.mapRemove p.spec p.group k, State.mapRemoved_mapRemove _ _ _, State.leads_pass hgone
          (hexec.trans (by rw [removePart_ringing u older younger p p k hp ho hk rfl]; rfl))⟩
    case stage =>
      have hexec := (stageRequest_of hreq).trans (congrArg _ (State.stagePart_eq (s := u) hp ho sp))
      exact ⟨fun h => hexec.trans (congrArg _ (if_pos (over_iff.2 h))),
        fun h => hexec.trans (congrArg _ (if_neg fun hx => absurd (over_iff.1 hx) (Nat.not_lt.2 h)))⟩
    case amend =>
      intro p'
      have hexec := amendRequest_of hreq
      refine ⟨fun k hk => ?_, fun hk hx => ?_, fun m c hm hx => ?_, fun k c hk hx => ?pending⟩
      · exact hexec.trans (congrArg _ (State.amendPart_ringing (s := u) hp ho hk x y))
      · subst hx
        exact hexec.trans (congrArg _ (State.amendPart_limit (s := u) hp ho hk y))
      · subst hx
        exact State.leads_pass (hwith (p.amended c y) rfl) (hexec.trans (congrArg _ (State.amendPart_queued (s := u) hp ho hm c y)))
      case pending =>
        subst hx
        intro sp now
        have hexec := hexec.trans (congrArg _ (State.amendPart_pending (s := u) hp ho hk c y))
        have hov : ∀ q : RingPart, q.call = p.call → partsDistinct (overtakenBy sp.bus older ++ q :: younger) :=
          fun q hq => partsDistinct_overtaken sp.bus (hwith q hq)
        refine ⟨s.mapRemove p.spec p.group k, State.mapRemoved_mapRemove _ _ _, rfl, rfl, fun hb hf => ?_,
          fun hb hf k' hk' => ?_, fun h => ?_⟩
        · refine ⟨_, State.mapAdded_mapAdd sp p.group k, State.leads_pass ?_ (hexec.trans (congrArg _
            ((State.amendPending_stays (s := u) ho hb hf).trans ?_)))⟩
          · rw [State.rsc_reported]
            exact hov now rfl
          · have hst : now = { p.amended c y with status := .placed k true } := by rw [← hk]; rfl
            rw [hst]
            rfl
        · refine ⟨_, State.mapAdded_mapAdd sp p.group k', State.leads_pass ?_ (hexec.trans (congrArg _
            ((State.amendPending_moves (s := u) ho hb hf hk').trans rfl)))⟩
          rw [State.foundPlace_parts]
          exact hov _ rfl
        · refine State.leads_pass ?_ (hexec.trans (congrArg _ ((State.amendPending_queues (s := u) ho h).trans rfl)))
          rw [State.rsc_reported]
          exact hwith _ rfl

end Sys2Proof.Machine

/-! The slot timer expiry (R43 to R52). -/

namespace Sys2Proof.Machine

variable {s u v t : State} {older younger : List RingPart} {p q : RingPart} {c : CallNo} {n : LineId} {sp : Spec}
  {k : Slot}

/-! A slot at which a part has no work (R45). -/

/-- R45: the part waits, or its ringing begins at another slot. -/
def RingPart.restsAt (p : RingPart) (slot : Slot) : Prop :=
  (∃ m, p.status = .queued m) ∨ ∃ k, p.status = .placed k true ∧ k ≠ slot

theorem State.slotPart_rests (h : p.restsAt s.rsc.cycleSlot) : s.slotPart p = s := by
  rcases h with ⟨m, h⟩ | ⟨k, h, hk⟩
  · rw [State.slotPart, h]
  · rw [State.slotPart, h]
    exact if_neg hk

theorem State.slotParts_rest (l : List RingPart) (h : ∀ p ∈ l, p.restsAt s.rsc.cycleSlot) :
    l.foldl (fun s p => s.slotPart p) s = s := by
  induction l with
  | nil => rfl
  | cons p l ih =>
    rw [List.foldl_cons, State.slotPart_rests (h p List.mem_cons_self)]
    exact ih fun q hq => h q (List.mem_cons_of_mem p hq)

theorem State.boundaryCalls_rest (h : ∀ p ∈ s.rsc.parts, p.restsAt s.rsc.cycleSlot) : s.boundaryCalls = [] := by
  rw [State.boundaryCalls, List.map_eq_nil_iff, List.filter_eq_nil_iff]
  intro p hp
  rcases h p hp with ⟨m, h⟩ | ⟨k, h, -⟩ <;> simp [h]

theorem slotTimerExpiry_due (h : s.rsc.slotTimer = 0) : exec .slotTimerExpiry s = .next s.slotExpiry :=
  congrArg Host.Outcome.next (if_pos (decide_eq_true h))

theorem slotTimerExpiry_stands (h : s.rsc.slotTimer ≠ 0) : exec .slotTimerExpiry s = .next s :=
  congrArg Host.Outcome.next (if_neg (by simpa [State.slotDue] using h))

theorem State.slotExpiry_rests (h : ∀ p ∈ s.rsc.parts, p.restsAt (s.rsc.cycleSlot + 1)) : s.slotExpiry = s.advanceSlot := by
  have hr : ∀ p ∈ s.advanceSlot.rsc.parts, p.restsAt s.advanceSlot.rsc.cycleSlot := h
  rw [State.slotExpiry, State.slotParts_rest _ hr, State.boundaryCalls_rest hr]
  rfl

/-! The line of a part (R44, R46, R55). -/

theorem State.stopRinging_eq (s : State) (n : LineId) : s.stopRinging n =
    s.withLine n { s.line n with seizureCount := 0, tripCount := 0, hold := true } (s.digits n)
      { s.down n with ring := none } (s.up n) := by
  simp [State.stopRinging, State.modDown, State.setDown, State.modLine, State.setLine, State.withLine, State.line,
    State.down, State.digits, State.up]

theorem State.setRingClaim_modLine (s : State) (n : LineId) (sp : Spec) (k : Slot) (f : LineRec → LineRec) :
    (s.setRingClaim n sp k).modLine n f = s.withLine n (f (s.line n)) (s.digits n)
      { s.down n with ring := some (s.ringCode sp k s.rsc.cycleSlot) } (s.up n) := by
  rw [setRingClaim_eq]
  simp [State.modLine, State.setLine, State.withLine, State.line]

/-- The state in which a cycle of the part has begun at offset `k`, before the first ring report (R46). -/
def State.cycleBegun (s : State) (older younger : List RingPart) (p : RingPart) (k : Slot) : State :=
  (s.withParts (older ++ { p with status := .placed k false, ringingBegun := true } :: younger) s).withLine p.line
    { s.line p.line with seizureCount := 0, tripCount := 0, hold := true } (s.digits p.line)
    { s.down p.line with ring := some (s.ringCode p.spec k s.rsc.cycleSlot) } (s.up p.line)

theorem State.beginCycle_eq (hp : s.rsc.parts = older ++ p :: younger) (ho : ∀ o ∈ older ++ younger, o.call ≠ p.call)
    (k : Slot) : s.beginCycle p k =
    if p.ringingBegun then s.cycleBegun older younger p k
    else (s.cycleBegun older younger p k).csqFirstRing p.call p.line := by
  rw [State.beginCycle, State.modPart_eq hp ho, State.setRingClaim_modLine]
  rfl

/-- R46, R128: the first ring report reaches a waiting call alone. -/
theorem State.csqFirstRing_waiting {r : CallRec} (hc : s.callRec c = some r) (hl : r.line = n) (hs : r.state = .waiting) :
    s.csqFirstRing c n = s.setCall c (some { r with state := .ringing }) := by
  rw [State.csqFirstRing, State.callOnLine_some hc hl]
  dsimp only
  rw [if_pos hs, State.modCall, hc]
  rfl

theorem State.csqFirstRing_stands (h : ∀ r, s.callRec c = some r → r.line = n → r.state ≠ .waiting) :
    s.csqFirstRing c n = s := by
  rw [State.csqFirstRing]
  cases hr : s.callOnLine c n with
  | none => rfl
  | some r =>
    obtain ⟨hc, hl⟩ := State.callOnLine_eq_some.1 hr
    exact if_neg (h r hc hl)

/-! A cycle boundary (R47, R49). -/

/-- The part with its count raised. -/
def RingPart.counted (p : RingPart) : RingPart := { p with cyclesCompleted := p.cyclesCompleted + 1 }

theorem State.reportBoundary_of (hp : s.part p.call = some q) (o : BoundaryOutcome) : s.reportBoundary p o =
    s.csqBoundary p.call p.line { completed := p.cyclesCompleted, outcome := o, offset := o.offset } q.spec := by
  rw [State.reportBoundary, hp]

/-- R34, R47: the report after a pass names the spec that the part holds. -/
theorem State.reportBoundary_pass (hp : s.part p.call = some q) (o : BoundaryOutcome) : s.pass.reportBoundary p o =
    s.pass.csqBoundary p.call p.line { completed := p.cyclesCompleted, outcome := o, offset := o.offset } q.spec := by
  obtain ⟨q', hq', hsp⟩ := State.part_pass hp
  rw [State.reportBoundary_of hq', hsp]

section
variable (hp : s.rsc.parts = older ++ p :: younger) (ho : ∀ o ∈ older ++ younger, o.call ≠ p.call)
include hp ho

/-- R49: the part is released, and the pass follows. -/
theorem State.exhaustPart_eq (hs : p.status = .placed k false) : s.exhaustPart p =
    (State.pass ((s.withParts (older ++ younger) (s.mapRemove p.spec p.group k)).withLine p.line
      { s.line p.line with seizureCount := 0, tripCount := 0, hold := true } (s.digits p.line)
      { s.down p.line with ring := none } (s.up p.line))).csqExhausted p.call p.line p.cyclesCompleted := by
  rw [State.exhaustPart, removePart_ringing s older younger p p k hp ho hs rfl]

/-- R47, R49: a boundary at which the cycles are exhausted. -/
theorem State.boundary_exhausted (k : Slot) (h : p.cycleLimit ≤ p.cyclesCompleted + 1) :
    s.boundary p k = (s.withParts (older ++ p.counted :: younger) s).exhaustPart p.counted := by
  rw [State.boundary]
  dsimp only
  rw [if_pos h, State.modPart_eq hp ho]
  rfl

/-- R47: a boundary before the limit, with no change staged. -/
theorem State.boundary_continued (k : Slot) (h : p.cyclesCompleted + 1 < p.cycleLimit) (hn : p.staged = none) :
    s.boundary p k = (((s.withParts (older ++ p.counted :: younger) s).setRingClaim p.line p.spec k).reportBoundary
      p.counted (.continued k)) := by
  rw [State.boundary]
  dsimp only
  rw [if_neg (Nat.not_le.2 h), State.modPart_eq hp ho, hn]
  dsimp only [RingPart.counted]
  rw [hn]

/-- R47, R51: a boundary before the limit, with a change staged. -/
theorem State.boundary_staged (k : Slot) {ch : StagedChange} (h : p.cyclesCompleted + 1 < p.cycleLimit)
    (hc : p.staged = some ch) :
    s.boundary p k = (s.withParts (older ++ p.counted :: younger) s).applyStaged p.counted k ch := by
  rw [State.boundary]
  dsimp only
  rw [if_neg (Nat.not_le.2 h), State.modPart_eq hp ho, hc]
  dsimp only [RingPart.counted]
  rw [hc]

end

theorem State.csqRingLimit_none (s : State) (c : CallNo) (n : LineId) : s.csqRingLimit c n none = s := by
  simp [State.csqRingLimit]

/-- R49, R55: the line record of a part that stops ringing. -/
def LineRec.stopped (r : LineRec) : LineRec := { r with seizureCount := 0, tripCount := 0, hold := true }

/-- R34, R49: the pass that follows the release, and the exhausted report after it. -/
theorem exhausted_leads {limit : Option Nat} {goes : State → Prop} (hd : partsDistinct t.rsc.parts)
    (hlim : t.csqRingLimit p.call p.line limit = v) (hcsq : t.csq = s.csq) (hitu : t.itu = s.itu) (hline : t.line p.line = (s.line p.line).stopped)
    (hdown : t.down p.line = { s.down p.line with ring := none })
    (h : goes (v.pass.csqExhausted p.call p.line (p.cyclesCompleted + 1))) :
    ∃ v, t.passes v ∧ exhaustedTells s p limit (s.line p.line).stopped v goes := by
  refine ⟨t.pass, State.passes_pass hd, ?_⟩
  rw [← hlim, csqRingLimit_pass] at h
  have hcsq' := csq_pass t
  obtain ⟨rsc, tmu, mgp, ht⟩ := State.pass_touches t
  rw [ht] at h hcsq' ⊢
  exact exhaustedTells_of hcsq hline hitu hdown rfl rfl h

/-- R34, R47: the pass that follows the change, and the boundary report after it. -/
theorem boundary_leads {limit : Option Nat} {held : Spec} {goes : State → Prop} (hd : partsDistinct t.rsc.parts)
    (hlim : t.csqRingLimit p.call p.line limit = v) (hcsq : t.csq = s.csq) (hptb : t.ptb = s.ptb) (o : BoundaryOutcome)
    (h : goes (v.pass.csqBoundary p.call p.line
      { completed := p.cyclesCompleted + 1, outcome := o, offset := o.offset } held)) :
    ∃ v, t.passes v ∧ boundaryTells s p limit held v goes := by
  refine ⟨t.pass, State.passes_pass hd, ?_⟩
  rw [← hlim, csqRingLimit_pass] at h
  exact boundaryTells_of o ((csq_pass t).trans hcsq) ((State.ptb_of_fixed (State.fixed_pass t)).trans hptb) h

/-- Settles O50: an expiry at which one part alone has work (`slotExpiry_rest`), by what its work is. -/
theorem slotTimerExpires : Obligations.SlotTimerExpires := by
  unfold Obligations.SlotTimerExpires
  refine fun s => ⟨slotTimerExpiry_stands, fun hdue => ?_⟩
  intro slot u next rests
  refine ⟨fun h => (slotTimerExpiry_due hdue).trans (congrArg _ (State.slotExpiry_rests h)), ?_⟩
  intro older younger p hp hrest n count code with' claimed begun started counted
  have ho : ∀ o ∈ older ++ younger, o.call ≠ p.call := fun o h => (hrest o h).2
  have hexec := slotExpiry_rest s older younger p hp hdue hrest
  have begins (h : p.status = .placed slot true) : exec .slotTimerExpiry s = .next
      (if p.ringingBegun then u.cycleBegun older younger p slot
        else (u.cycleBegun older younger p slot).csqFirstRing p.call p.line) := by
    refine hexec.trans (congrArg _ ?_)
    rw [← State.beginCycle_eq (s := u) hp ho]
    simp only [h]
    rw [if_neg (by simp), State.slotPart, h]
    exact if_pos rfl
  refine ⟨fun k hk hne => ?_, fun h hb => ?_, fun h hb rec hc hl => ⟨fun hs => ?_, fun hs => ?_⟩, fun h hst hlt => ?_,
    fun h hle hd => ?_⟩
  · refine hexec.trans (congrArg _ ?_)
    simp only [hk]
    rw [if_neg (by simpa using hne), State.slotPart, hk]
    exact (if_neg hne).trans (setRingClaim_eq u p.line p.spec k)
  · refine (begins h).trans (congrArg _ ?_)
    by_cases hr : p.ringingBegun = true
    · exact if_pos hr
    · exact (if_neg hr).trans (State.csqFirstRing_stands fun r hc hl => absurd hl (hb.resolve_left hr r hc))
  · refine (begins h).trans (congrArg _ ?_)
    exact (if_neg (by simp [hb])).trans (State.csqFirstRing_waiting (r := rec) hc hl hs)
  · refine (begins h).trans (congrArg _ ?_)
    refine (if_neg (by simp [hb])).trans (State.csqFirstRing_stands fun r hc' _ => ?_)
    rw [show r = rec from Option.some.inj (hc'.symm.trans hc)]
    exact hs
  · have hb := (slotExpiry_boundary s older younger p hp hdue hrest h).trans
      (congrArg _ (State.boundary_continued (s := u) hp ho slot hlt hst))
    refine boundaryTells_of (.continued slot) rfl rfl ?_
    refine hb.trans (congrArg _ ?_)
    rw [setRingClaim_eq, State.reportBoundary_of (q := p.counted) (State.part_of rfl ho), State.csqRingLimit_none]
    rfl
  · have hb := (slotExpiry_boundary s older younger p hp hdue hrest h).trans
      (congrArg _ (State.boundary_exhausted (s := u) hp ho slot hle))
    refine ⟨s.mapRemove p.spec p.group slot, State.mapRemoved_mapRemove _ _ _, ?_⟩
    refine exhausted_leads (partsDistinct_without (hp ▸ hd)) (State.csqRingLimit_none _ _ _) rfl rfl ?_ ?_ (hb.trans (congrArg _ ?_))
    · exact tget_tset_self _ _ _
    · exact tget_tset_self _ _ _
    · rw [State.exhaustPart_eq (p := p.counted) rfl ho h]
      rfl

end Sys2Proof.Machine

/-! A staged change at a cycle boundary (R51, R52). -/

namespace Sys2Proof.Machine

variable {s u t : State} {older younger : List RingPart} {p q : RingPart} {c : CallNo} {n : LineId} {sp : Spec}
  {k : Slot} {limit : Option Nat}

/-! The ring limit of the call (R126), beside the changes of the part. -/

/-- The state with other call records. -/
def State.withCsq (s : State) (x : Vector (Option CallRec) 24) : State := { s with csq := x }

theorem State.withCsq_reported (s : State) (x : Vector (Option CallRec) 24) (l : List Report) :
    (s.withCsq x).reported l = (s.reported l).withCsq x := by
  obtain ⟨f, hf⟩ := State.reported_uniform l
  rw [hf, hf]
  rfl

/-- R126: the ring limit changes the call records alone, whatever else a state differs in. -/
theorem State.csqRingLimit_withCsq (s : State) (c : CallNo) (n : LineId) (limit : Option Nat) :
    ∃ x, ∀ t : State, t.csq = s.csq → t.csqRingLimit c n limit = t.withCsq x :=
  ⟨(s.csqRingLimit c n limit).csq, fun t h => csqRingLimit_same s t c n limit h⟩

/-! The staged spec in the place of the part's (R51, R52). -/

/-- The part with the staged spec. -/
def RingPart.respecced (p : RingPart) (sp : Spec) : RingPart := { p with spec := sp, staged := none }

/-- The part out of the map, with the staged spec (R51). -/
def State.respeccing (s : State) (older younger : List RingPart) (p : RingPart) (k : Slot) (sp : Spec) : State :=
  s.withParts (older ++ p.respecced sp :: younger) (s.mapRemove p.spec p.group k)

theorem State.respeccing_parts : (s.respeccing older younger p k sp).rsc.parts = older ++ p.respecced sp :: younger := rfl

theorem State.respeccing_fitsAt (sp' : Spec) (g : GroupId) (k' : Slot) :
    (s.respeccing older younger p k sp).fitsAt sp' g k' ↔ (s.mapRemove p.spec p.group k).fitsAt sp' g k' :=
  fits_congr (t := s.respeccing older younger p k sp) (s := s.mapRemove p.spec p.group k) rfl rfl rfl sp' g k'

section
variable (hp : s.rsc.parts = older ++ p :: younger) (ho : ∀ o ∈ older ++ younger, o.call ≠ p.call)
include hp ho

theorem State.respeccing_eq (sp : Spec) (k : Slot) :
    (s.mapRemove p.spec p.group k).modPart p.call (fun p => { p with spec := sp, staged := none }) =
      s.respeccing older younger p k sp :=
  State.modPart_eq (s := s.mapRemove p.spec p.group k) hp ho _

/-- R51: the part keeps its offset. -/
theorem State.applySpec_stays (hb : noneBlocks older sp.bus) (hf : (s.mapRemove p.spec p.group k).fitsAt sp p.group k) :
    s.applySpec p k sp =
      (State.pass ((s.withParts (overtakenBy sp.bus older ++ { p.respecced sp with status := .placed k false } :: younger)
        ((s.mapRemove p.spec p.group k).mapAdd sp p.group k)).setRingClaim p.line sp k), .continued k) := by
  let w := s.respeccing older younger p k sp
  have hs : (w.eligible p.call sp.bus && w.placementTest sp p.group k) = true :=
    (State.stays_iff State.respeccing_parts ho).2 ⟨hb, (State.respeccing_fitsAt _ _ _).2 hf⟩
  have hput : w.putAt p.call sp p.group k false = _ := State.putAt_eq State.respeccing_parts ho _ _ _ _
  simp only [State.applySpec, State.respeccing_eq hp ho]
  rw [if_pos hs, hput]
  rfl

/-- R52: the part is moved by the search. -/
theorem State.applySpec_moves {k' : Slot} (hb : noneBlocks older sp.bus)
    (hf : ¬ (s.mapRemove p.spec p.group k).fitsAt sp p.group k) (hk : (s.mapRemove p.spec p.group k).firstFit sp p.group k') :
    s.applySpec p k sp = (State.pass ((s.stopRinging p.line).foundPlace ((s.mapRemove p.spec p.group k).mapAdd sp p.group k')
      older younger (p.respecced sp) k'), .moved k') := by
  let w := s.respeccing older younger p k sp
  have hs : ¬ (w.eligible p.call sp.bus && w.placementTest sp p.group k) = true :=
    mt (State.stays_iff State.respeccing_parts ho).1 fun h => hf ((State.respeccing_fitsAt _ _ _).1 h.2)
  have hfor : (w.stopRinging p.line).offsetFor p.call sp p.group = some k' :=
    State.offsetFor_of (s := w.stopRinging p.line) (p := p.respecced sp) rfl ho hb (firstFit_congr rfl rfl rfl rfl hk)
  have hplace : (w.stopRinging p.line).placeBySearch p.call p.line sp p.group k' = _ :=
    State.placeBySearch_eq (s := w.stopRinging p.line) (p := p.respecced sp) rfl ho k'
  simp only [State.applySpec, State.respeccing_eq hp ho, State.passAfter_eq]
  rw [if_neg hs, hfor]
  refine congrArg (fun x : State => (x.pass, BoundaryOutcome.moved k')) (hplace.trans ?_)
  exact State.foundPlace_congr (u := s.stopRinging p.line) rfl rfl _ _

/-- R52: the part rejoins the queue. -/
theorem State.applySpec_queues
    (h : ¬ noneBlocks older sp.bus ∨ ∀ k', ¬ (s.mapRemove p.spec p.group k).fitsAt sp p.group k') :
    s.applySpec p k sp = (State.pass (((s.stopRinging p.line).withParts
      (older ++ { p.respecced sp with status := .queued 0 } :: younger) (s.mapRemove p.spec p.group k)).reported
        [.peg .ringQueued (some p.line)]), .queued) := by
  let w := s.respeccing older younger p k sp
  have h' : ¬ noneBlocks older sp.bus ∨ ∀ k', ¬ w.fitsAt sp p.group k' :=
    h.imp id fun hn k' => mt (State.respeccing_fitsAt _ _ _).1 (hn k')
  have hs : ¬ (w.eligible p.call sp.bus && w.placementTest sp p.group k) = true :=
    mt (State.stays_iff State.respeccing_parts ho).1 fun hs => h'.elim (fun hb => hb hs.1) (fun hn => hn k hs.2)
  have hfor : (w.stopRinging p.line).offsetFor p.call sp p.group = none :=
    State.offsetFor_none (s := w.stopRinging p.line) (p := p.respecced sp) rfl ho h'
  have hjoin : (w.stopRinging p.line).joinQueue p.call p.line = _ :=
    State.joinQueue_eq (s := w.stopRinging p.line) (p := p.respecced sp) rfl ho _
  simp only [State.applySpec, State.respeccing_eq hp ho]
  rw [if_neg hs, hfor]
  exact congrArg (fun x : State => (x.pass, BoundaryOutcome.queued)) hjoin

/-! The staged change (R51). -/

/-- The state in which the staged limit stands, at the part and at its call (R51, R126). -/
def State.limited (s : State) (older younger : List RingPart) (p : RingPart) (limit : Option Nat) : State :=
  (s.withParts (older ++ p.withLimit limit :: younger) s).csqRingLimit p.call p.line limit

/-- R51: the limit that takes effect ends the ringing. -/
theorem State.applyStaged_exhausted (k : Slot) (spec : Option Spec) (h : limit.getD p.cycleLimit ≤ p.cyclesCompleted) :
    s.applyStaged p k ⟨spec, limit⟩ = (s.limited older younger p limit).exhaustPart (p.withLimit limit) := by
  have hm := State.modPart_eq hp ho fun q => q.withLimit limit
  simp only [State.applyStaged]
  rw [if_pos (by exact h)]
  exact congrArg (fun x : State => (x.csqRingLimit p.call p.line limit).exhaustPart (p.withLimit limit)) hm

/-- R51: a staged limit alone. -/
theorem State.applyStaged_limit (k : Slot) (h : p.cyclesCompleted < limit.getD p.cycleLimit) :
    s.applyStaged p k ⟨none, limit⟩ = (State.pass (State.setRingClaim
      ((s.limited older younger p limit).modPart p.call fun q => { q with staged := none }) p.line p.spec k)).reportBoundary
        (p.withLimit limit) (.continued k) := by
  have hm := State.modPart_eq hp ho fun q => q.withLimit limit
  simp only [State.applyStaged]
  rw [if_neg (by exact Nat.not_le.2 h)]
  exact congrArg (fun x : State => (State.pass (State.setRingClaim
    ((x.csqRingLimit p.call p.line limit).modPart p.call fun q => { q with staged := none }) p.line p.spec k)).reportBoundary
      (p.withLimit limit) (.continued k)) hm

/-- R51: a staged spec. -/
theorem State.applyStaged_spec (k : Slot) (sp : Spec) (h : p.cyclesCompleted < limit.getD p.cycleLimit) :
    s.applyStaged p k ⟨some sp, limit⟩ =
      ((s.limited older younger p limit).applySpec (p.withLimit limit) k sp).1.reportBoundary (p.withLimit limit)
        ((s.limited older younger p limit).applySpec (p.withLimit limit) k sp).2 := by
  have hm := State.modPart_eq hp ho fun q => q.withLimit limit
  simp only [State.applyStaged]
  rw [if_neg (by exact Nat.not_le.2 h)]
  exact congrArg (fun x : State => ((x.csqRingLimit p.call p.line limit).applySpec (p.withLimit limit) k sp).1.reportBoundary
    (p.withLimit limit) ((x.csqRingLimit p.call p.line limit).applySpec (p.withLimit limit) k sp).2) hm

end

/-- Settles O51: the boundary of the one part that has work (`slotExpiry_boundary`), by the limit and the spec that are
staged. The call's ring limit is carried past the changes of the part (`State.csqRingLimit_withCsq`). -/
theorem stagedChangeApplies : Obligations.StagedChangeApplies := by
  unfold Obligations.StagedChangeApplies
  intro s older younger p slot spec limit hdue hslot hp hd hrest hst hstaged hlt
  subst hslot
  intro n count l u code next q claimed stopped reported
  have ho := partsDistinct_split (hp ▸ hd)
  have hwith : ∀ r : RingPart, r.call = p.call → partsDistinct (older ++ r :: younger) :=
    fun r hr => partsDistinct_with (hp ▸ hd) hr
  have hexec := (slotExpiry_boundary s older younger p hp hdue (fun o h => ⟨hrest o h, ho o h⟩) hst).trans
    (congrArg _ (State.boundary_staged (s := u) hp ho _ hlt hstaged))
  let w := u.withParts (older ++ p.counted :: younger) u
  let p' := p.counted.withLimit limit
  have hw : w.rsc.parts = older ++ p.counted :: younger := rfl
  obtain ⟨x, hx⟩ := State.csqRingLimit_withCsq u p.call p.line limit
  let y := (u.withParts (older ++ p' :: younger) u).withCsq x
  have hlim : w.limited older younger p.counted limit = y := hx _ rfl
  refine ⟨fun hle => ?_, fun hspec hlt' => ?_, fun sp hspec hlt' => ?_⟩
  · refine ⟨s.mapRemove p.spec p.group _, State.mapRemoved_mapRemove _ _ _, exhausted_leads
      (partsDistinct_without (hp ▸ hd)) (hx _ rfl) rfl rfl (tget_tset_self _ _ _) (tget_tset_self _ _ _)
      (hexec.trans (congrArg _ ?_))⟩
    rw [State.applyStaged_exhausted hw ho _ _ hle, hlim, State.exhaustPart_eq (p := p') rfl ho hst]
    rfl
  · refine boundary_leads (hwith _ rfl) (hx _ rfl) rfl rfl (.continued (s.rsc.cycleSlot + 1)) (hexec.trans (congrArg _ ?_))
    subst hspec
    have hm : y.modPart p.counted.call (fun q => { q with staged := none }) = _ :=
      State.modPart_eq (s := y) (p := p') rfl ho _
    rw [State.applyStaged_limit hw ho _ hlt', hlim, hm, setRingClaim_eq,
      State.reportBoundary_pass (p := p') (q := { p' with staged := none })
        (State.part_of (p := { p' with staged := none }) rfl ho)]
    rfl
  · subst hspec
    have hap := State.applyStaged_spec hw ho (s.rsc.cycleSlot + 1) sp hlt'
    rw [hlim] at hap
    have hov : ∀ r : RingPart, r.call = p.call → partsDistinct (overtakenBy sp.bus older ++ r :: younger) :=
      fun r hr => partsDistinct_overtaken sp.bus (hwith r hr)
    have hover : ∀ r : RingPart, r.call = p.call → ∀ o ∈ overtakenBy sp.bus older ++ younger, o.call ≠ r.call :=
      fun r hr => partsDistinct_split (hov r hr)
    refine ⟨s.mapRemove p.spec p.group _, State.mapRemoved_mapRemove _ _ _, rfl, rfl, fun hb hf => ?_,
      fun hb hf k hk => ?_, fun h => ?_⟩
    · refine ⟨_, State.mapAdded_mapAdd sp p.group _, boundary_leads (hov _ rfl) (hx _ rfl) rfl rfl (.continued (s.rsc.cycleSlot + 1))
        (hexec.trans (congrArg _ (hap.trans ?_)))⟩
      rw [State.applySpec_stays (s := y) (p := p') rfl ho hb hf, setRingClaim_eq, show q sp p.status = q sp _ from congrArg _ hst]
      let r : RingPart := { p'.respecced sp with status := .placed (s.rsc.cycleSlot + 1) false }
      exact State.reportBoundary_pass (p := p') (q := r) (State.part_of (p := r) rfl (hover r rfl)) _
    · refine ⟨_, State.mapAdded_mapAdd sp p.group k, boundary_leads ?_ (hx _ ?_) ?_ ?_ (.moved k)
        (hexec.trans (congrArg _ (hap.trans ?_)))⟩
      · rw [State.foundPlace_parts]
        exact hov _ rfl
      · exact State.csq_reported _ _
      · exact State.csq_reported _ _
      · exact State.ptb_reported _ _
      · rw [State.applySpec_moves (s := y) (p := p') rfl ho hb hf hk, State.stopRinging_eq]
        let r : RingPart := { p'.respecced sp with status := .placed k true }
        refine (State.reportBoundary_pass (p := p') (q := r)
          (State.part_of (p := r) (State.foundPlace_parts _ _ _ _ _) (hover r rfl)) _).trans ?_
        rw [State.foundPlace, State.foundPlace, ← State.withCsq_reported]
        rfl
    · refine boundary_leads ?_ (hx _ ?_) ?_ ?_ .queued (hexec.trans (congrArg _ (hap.trans ?_)))
      · rw [State.rsc_reported]
        exact hwith _ rfl
      · exact State.csq_reported _ _
      · exact State.csq_reported _ _
      · exact State.ptb_reported _ _
      · rw [State.applySpec_queues (s := y) (p := p') rfl ho h, State.stopRinging_eq]
        let r : RingPart := { p'.respecced sp with status := .queued 0 }
        refine (State.reportBoundary_pass (p := p') (q := r)
          (State.part_of (p := r) (congrArg Rsc.parts (State.rsc_reported _ _)) ho) _).trans ?_
        rw [← State.withCsq_reported]
        rfl

end Sys2Proof.Machine

/-! RING (R124, R125). -/

namespace Sys2Proof.Machine

variable {s t u v : State} {r : Req} {n : LineId} {p : PartyId} {c : CallNo} {line party cycles identify : Nat}

/-! The checks (R124). -/

theorem ring_of_length_ne (hl : r.payload.length ≠ 4) : ring s r = (s, refuse .badRequest) := by
  unfold ring
  split
  next heq => exact absurd (by simpa using congrArg List.length heq) hl
  next => rfl

theorem ringChoiceOf_none (h : ¬ (1 ≤ party ∧ party ≤ 8 ∧ cycles ≤ 31 ∧ identify ≤ 2)) :
    ringChoiceOf party cycles identify = none := by
  cases hp : partyOf party with
  | none => simp [ringChoiceOf, hp]
  | some p =>
    have hno : ¬ (cycles ≤ 31 ∧ identify ≤ 2) := by
      have hparty := val_of_partyOf hp
      have hlt := p.isLt
      omega
    simp only [ringChoiceOf, hp, if_neg hno]

theorem ringChoiceOf_val (p : PartyId) (hc : cycles ≤ 31) (hi : identify ≤ 2) :
    ringChoiceOf (p.val + 1) cycles identify = some ⟨p, cycles, identify⟩ := by
  simp only [ringChoiceOf, partyOf_val, if_pos (And.intro hc hi)]

theorem ringLineStatus_shut
    (h : (s.line n).state = .blocked ∨ (s.line n).state = .fault ∨ s.lkm.state = .released) :
    s.ringLineStatus n = .lineState := if_pos h

theorem ringLineStatus_busy
    (h : ¬ ((s.line n).state = .blocked ∨ (s.line n).state = .fault ∨ s.lkm.state = .released))
    (hi : (s.line n).state ≠ .idle) : s.ringLineStatus n = .lineBusy := by
  rw [State.ringLineStatus, if_neg h, if_neg hi]

section
variable (hp : numbers r.payload = [line, party, cycles, identify])
include hp

theorem ring_badRequest (h : ¬ (1 ≤ party ∧ party ≤ 8 ∧ cycles ≤ 31 ∧ identify ≤ 2)) :
    ring s r = (s, refuse .badRequest) := by
  simp only [ring, hp, ringChoiceOf_none h]

theorem ring_noLine (h : 1 ≤ party ∧ party ≤ 8 ∧ cycles ≤ 31 ∧ identify ≤ 2) (hl : 15 < line) :
    ring s r = (s, refuse .noLine) := by
  obtain ⟨h1, h8, hc, hi⟩ := h
  obtain ⟨p, rfl⟩ : ∃ p : PartyId, p.val + 1 = party := ⟨⟨party - 1, by omega⟩, by simp; omega⟩
  simp only [ring, hp, ringChoiceOf_val p hc hi, lineOf_none hl]

end

section
variable (hp : numbers r.payload = [n.val, p.val + 1, cycles, identify]) (hc : cycles ≤ 31) (hi : identify ≤ 2)
include hp hc hi

/-- R124: checks 3 and 4 refuse. -/
theorem ring_lineRefused {st : Status} (hs : s.ringLineStatus n = st) (hne : st ≠ .accepted) : ring s r = (s, refuse st) := by
  simp only [ring, hp, ringChoiceOf_val p hc hi, lineOf_val, hs]

/-- R124: checks 3 and 4 pass. -/
theorem ring_passes (hs : s.ringLineStatus n = .accepted) : ring s r = s.ringParty n ⟨p, cycles, identify⟩ := by
  simp only [ring, hp, ringChoiceOf_val p hc hi, lineOf_val, hs]

end

theorem State.ringParty_noParty (ch : RingChoice) (h : s.specOf n ch.party = none) :
    s.ringParty n ch = (s, refuse .noParty) := by
  rw [State.ringParty, h]

section
variable {sp : Spec} (ch : RingChoice) (h : s.specOf n ch.party = some sp)
include h

theorem State.ringParty_noCapacity (hc : s.capacity sp.bus < sp.bell) :
    s.ringParty n ch = (s.reported [.peg .ringRefused (some n)], refuse .noCapacity) := by
  rw [State.ringParty, h]
  exact if_pos (over_iff.2 hc)

theorem State.ringParty_full (hc : sp.bell ≤ s.capacity sp.bus) (hf : ∀ c, s.callRec c ≠ none) :
    s.ringParty n ch = (s, refuse .tableFull) := by
  rw [State.ringParty, h]
  refine (if_neg fun hx => absurd (over_iff.1 hx) (Nat.not_lt.2 hc)).trans ?_
  rw [State.freeCall_none hf]

theorem State.ringParty_starts (hc : sp.bell ≤ s.capacity sp.bus) (hf : s.freeCall = some c) :
    s.ringParty n ch = (s.startRing c n sp ch, accept [byteOf c.val]) := by
  rw [State.ringParty, h]
  refine (if_neg fun hx => absurd (over_iff.1 hx) (Nat.not_lt.2 hc)).trans ?_
  rw [hf]

end

/-- A handler that refuses after an event of its own. -/
theorem answers_refused {x : Instr} {code : Byte} {f : State → Req → State × Answer} {st : Status}
    (he : exec x s = .next (s.handleRequest code r f)) (h : s.hears r) (hf : f s r = (t, refuse st)) :
    answers x s code r t [byteOf (statusCode st)] := by
  unfold answers
  rw [he, State.handleRequest_hears (f := f) h (by rw [hf]; rfl), hf]
  rfl

/-! The place request taken in the event (R122, R125). -/

/-- A FIFO of one request that gives rise to no other is taken whole. -/
theorem State.drain_request {x : RscRequest} (h : s.rsc.requests = [x])
    (hr : ((s.taking []).takeRequest x).rsc.requests = []) : s.drain = (s.taking []).takeRequest x :=
  drain_one s _ x h (by rw [State.takeNext, h]; rfl) hr

/-- R137: a place request of a call that is not in REVERT_RINGING gives rise to no request. -/
theorem State.requests_takePlace {sp : Spec} {limit done : Nat} (hcap : sp.bell ≤ s.capacity sp.bus)
    (h : ∀ rec, ¬ (s.callRec c = some rec ∧ rec.line = n ∧ rec.state = .revertRinging)) :
    (s.takePlace c n sp limit done).rsc.requests = s.rsc.requests := by
  by_cases hf : ∀ p ∈ s.rsc.parts, p.call ≠ c
  · obtain ⟨hnone, -⟩ := stageAlternation_of s (s.createPart c n sp limit done) c n sp (csq_createPart s c n sp limit done)
      (State.ptb_of_fixed (State.fixed_createPart s c n sp limit done))
    rw [State.takePlace_created hf hcap, hnone h, requests_createPart]
  · rw [State.takePlace_held hf]

/-- The new record of an exchange ring call (R125). -/
theorem State.startRing_eq (c : CallNo) (n : LineId) (sp : Spec) (ch : RingChoice) : s.startRing c n sp ch =
    State.drain ((({ s with csq := tset s.csq c (some (newExchangeRing n ch.party (ringLimitOf (s.attr n) ch.cycles)
        (ringIdentifyOf (s.attr n) ch.identify))) } : State).withLine n
      { s.line n with state := .call, lockoutTimer := none, lockoutPhase := none } DigitRec.initial (s.down n).noLsv
      ⟨false, none, false⟩).handed [.place c n sp (ringLimitOf (s.attr n) ch.cycles) 0]) := by
  rw [State.startRing]
  dsimp only
  rw [State.enterCall_eq]
  rfl

/-- Settles O52 (`ring` is the model's handler): the checks of R124 in order, and the place request taken in the event
(`State.drain_request`). -/
theorem ring_holds : Obligations.Ring := by
  unfold Obligations.Ring
  intro s r hears
  refine ⟨fun hl => refuses_of (st := .badRequest) rfl hears (ring_of_length_ne hl), fun line party cycles identify hp => ?_⟩
  intro inRange
  refine ⟨fun h => refuses_of (st := .badRequest) rfl hears (ring_badRequest hp h),
    fun h hl => refuses_of (st := .noLine) rfl hears (ring_noLine hp h hl), ?_⟩
  rintro n p rfl rfl ⟨-, -, hc, hi⟩ st shut
  refine ⟨fun h => refuses_of (st := .lineState) rfl hears
      (ring_lineRefused hp hc hi (ringLineStatus_shut h) Status.noConfusion),
    fun h hs => refuses_of (st := .lineBusy) rfl hears
      (ring_lineRefused hp hc hi (ringLineStatus_busy h hs) Status.noConfusion),
    fun h hs hn => ?_, fun e he h hs => ?_⟩
  · exact refuses_of (st := .noParty) rfl hears
      ((ring_passes hp hc hi (ringLineStatus_ok h hs)).trans (State.ringParty_noParty _ (spec_none hn)))
  · have hring := ring_passes hp hc hi (ringLineStatus_ok h hs)
    have hspec := spec_of he
    refine ⟨fun hcap => ?_, fun hcap hf => ?_, fun hcap hreq c hfree hleast => ?_⟩
    · exact answers_refused (st := .noCapacity) rfl hears (hring.trans (State.ringParty_noCapacity _ hspec hcap))
    · exact refuses_of (st := .tableFull) rfl hears (hring.trans (State.ringParty_full _ hspec hcap hf))
    · intro a limit made u v
      let w : State := v.handed [.place c n e.spec limit 0]
      have hw : w.rsc.requests = [.place c n e.spec limit 0] := congrArg (· ++ [_]) hreq
      have hrec : w.callRec c = some made := tget_tset_self _ _ _
      have hnone : ((w.taking []).takePlace c n e.spec limit 0).rsc.requests = [] := by
        refine State.requests_takePlace (s := w.taking []) hcap ?_
        rintro rec ⟨hr, -, hstate⟩
        rw [← Option.some.inj (hrec.symm.trans hr)] at hstate
        cases hstate
      refine ⟨(w.taking []).takePlace c n e.spec limit 0, placeRequest_of hw, answers_of rfl hears ?_⟩
      refine hring.trans ((State.ringParty_starts _ hspec hcap (State.freeCall_of hfree hleast)).trans ?_)
      rw [State.startRing_eq]
      exact congrArg (fun t : State => (t, accept [byteOf c.val])) (State.drain_request hw hnone)

end Sys2Proof.Machine

/-! RING STOP (R127). -/

namespace Sys2Proof.Machine

variable {s t u v : State} {r : Req} {n : LineId} {c : CallNo} {rec : CallRec} {first : List Report}

/-! The checks. -/

theorem ringStop_of_length_ne (hl : r.payload.length ≠ 1) : ringStop s r = (s, refuse .badRequest) := by
  unfold ringStop
  split
  next heq => exact absurd (by simpa using congrArg List.length heq) hl
  next => rfl

theorem ringStop_badCall {b : Byte} (hp : r.payload = [b]) (h : 23 < b.toNat) : ringStop s r = (s, refuse .badRequest) := by
  simp only [ringStop, numbers_one hp, callOf_none h]

theorem ringStop_of_call {b : Byte} (hp : r.payload = [b]) (hc : c.val = b.toNat) : ringStop s r =
    (s.callRec c).elim (s, refuse .noCall)
      fun rec => if rec.state = .talk then (s, refuse .lineState) else (s.stopCall c rec, accept []) := by
  simp only [ringStop, numbers_one hp, ← hc, callOf_val]
  cases s.callRec c <;> rfl

/-! The call stopped. -/

/-- R38: a release request gives rise to no request. -/
theorem State.requests_releasePart (s : State) (c : CallNo) : (s.releasePart c).rsc.requests = s.rsc.requests := by
  rw [State.releasePart]
  cases s.part c with
  | none => rfl
  | some p => exact (requests_pass _).trans (requests_removePart s p)

/-- R127: the end of the call, with the release request of its ring part taken in the event. -/
theorem stopCall_leads (hears : s.hears r) (hring : ringStop s r = (s.stopCall c rec, accept []))
    (ht : s.endCall c .stopped (s.stopDirection rec) none true = t)
    (hreq : rec.ringPart = true → s.rsc.requests = [] → t.rsc.requests = [.release c]) :
    (rec.ringPart = false → answers (.ringStop r) s 2 r t [0]) ∧
    (rec.ringPart = true → s.rsc.requests = [] → ∃ u, exec .releaseRequest t = .next u ∧
      answers (.ringStop r) s 2 r u [0]) := by
  have hstop : s.stopCall c rec = if rec.ringPart then t.drain else t := by rw [State.stopCall, ht]
  refine ⟨fun hf => ?_, fun hpart hempty => ?_⟩
  · rw [hstop, hf] at hring
    exact answers_of rfl hears hring
  · have hone := hreq hpart hempty
    have hdrain : t.drain = (t.taking []).releasePart c := State.drain_request hone (State.requests_releasePart _ c)
    rw [hstop, hpart, if_pos rfl, hdrain] at hring
    exact ⟨_, releaseRequest_of hone, answers_of rfl hears hring⟩

/-- R141: the release request of a call that holds a ring part, with nothing else that waits. -/
theorem State.freed_requests (hv : v.rsc = s.rsc) (hpart : rec.ringPart = true) (hreq : s.rsc.requests = []) (n : LineId)
    (q : LineRec) (d : DigitRec) (k : DownClaims) (x : UpClaims) (l : List Report) :
    (((v.freed c rec).withLine n q d k x).reported l).rsc.requests = [.release c] := by
  rw [State.rsc_reported]
  show v.rsc.requests ++ (if rec.ringPart then _ else _) = _
  rw [hv, hreq, if_pos hpart]
  rfl

/-! Where a stop directs the line (R127). -/

theorem State.stopDirection_rings (hk : rec.kind = .xr) (h : rec.state ≠ .identifying) : s.stopDirection rec = .idle := by
  rw [State.stopDirection, hk]
  exact if_neg h

theorem State.stopDirection_identifying (hk : rec.kind = .xr) (h : rec.state = .identifying) : s.stopDirection rec =
    if (s.line rec.line).state = .through then .nowhere else s.serviceDirection := by
  rw [State.stopDirection, hk]
  exact if_pos h

theorem State.stopDirection_revert (hk : rec.kind = .rv) :
    s.stopDirection rec = if (s.line rec.line).loop = .closed then .lockout else .idle := by
  rw [State.stopDirection, hk]

/-- Settles O53 (`ringStop` is the model's handler): the direction of the stop, the end of the call after its withdrawal
(`State.endCall_withdraws`), and the release request (`stopCall_leads`). -/
theorem ringStop_holds : Obligations.RingStop := by
  unfold Obligations.RingStop
  intro s r hears
  refine ⟨fun hl => refuses_of (st := .badRequest) rfl hears (ringStop_of_length_ne hl), fun b hp => ?_⟩
  refine ⟨fun h => refuses_of (st := .badRequest) rfl hears (ringStop_badCall hp h), fun c hb => ?_⟩
  have hring := ringStop_of_call (s := s) hp hb
  refine ⟨fun hn => refuses_of (st := .noCall) rfl hears (by rw [hring, hn]; rfl), fun rec hc => ?_⟩
  rw [hc] at hring
  refine ⟨fun hs => refuses_of (st := .lineState) rfl hears (hring.trans (if_pos hs)), ?_⟩
  intro n q ends stops idle lockout through locked v first hw freed down goesIdle goesLockout
  obtain ⟨hlsv, hdgu, hup, hrsc, -⟩ := State.withdraws_view hw
  have hline : v.line n = q := congrArg (tget · n) hlsv
  have hdigits : v.digits n = s.digits n := congrArg (tget · n) hdgu
  have hupn : v.up n = s.up n := congrArg (tget · n) hup
  have hstops : ∀ (x : LineRec) (d : DigitRec) (k : DownClaims) (y : UpClaims) (l : List Report), rec.state ≠ .talk →
      s.endCall c .stopped (s.stopDirection rec) none true = ((v.freed c rec).withLine n x d k y).reported l →
      stops ((v.freed c rec).withLine n x d k y) l := by
    intro x d k y l hs he
    exact stopCall_leads hears (hring.trans (if_neg hs)) he fun hpart hreq => State.freed_requests hrsc hpart hreq n x d k y l
  have hidle : q.state = .call → rec.state ≠ .talk → s.stopDirection rec = .idle → goesIdle := by
    intro hq hs hd
    refine hstops _ _ _ _ _ hs ?_
    rw [hd, State.endCall_withdraws hc hw (by rw [hline]; exact hq)]
    dsimp only
    rw [hline, directed_idle]
    rfl
  have hlockout : q.state = .call → rec.state ≠ .talk → q.loop = .closed → s.stopDirection rec = .lockout → goesLockout := by
    intro hq hs hl hd
    refine hstops _ _ _ _ _ hs ?_
    rw [hd, State.endCall_withdraws hc hw (by rw [hline]; exact hq)]
    dsimp only
    rw [hline, directed, LineRec.withLoop_same hl, List.append_assoc]
    rfl
  refine ⟨fun hq hk hs => ?_, fun hq hk hs hl => ?_, fun hq hk hs hl => ?_, fun hq hk hs => ?_, fun hq hk hs hlink hl => ?_,
    fun hq hk hs hlink hl => ?_⟩
  · refine hidle hq ?_ (State.stopDirection_rings hk ?_)
    · rcases hs with hs | hs <;> simp [hs]
    · rcases hs with hs | hs <;> simp [hs]
  · exact hidle hq hs ((State.stopDirection_revert hk).trans (if_neg (by simp [q, n] at hl; simp [hl])))
  · exact hlockout hq hs hl ((State.stopDirection_revert hk).trans (if_pos hl))
  · have hd := (State.stopDirection_identifying (s := s) hk hs).trans (if_pos hq)
    refine hstops _ _ _ _ _ (by simp [hs]) ?_
    rw [hd, State.endCall_withdraws_kept hc hw .nowhere (fun t _ => t.direct_nowhere _), ← hdigits, ← hupn, ← hline]
    rfl
  · have hd := (State.stopDirection_identifying (s := s) hk hs).trans (if_neg (by rw [show (s.line rec.line).state = _ from hq]; simp))
    refine hstops _ _ _ _ _ (by simp [hs]) ?_
    rw [hd, State.serviceDirection, if_pos hlink, State.endCall_withdraws hc hw (by rw [hline]; exact hq)]
    dsimp only
    rw [hline, directed, LineRec.withLoop_same hl]
    rfl
  · have hd := (State.stopDirection_identifying (s := s) hk hs).trans (if_neg (by rw [show (s.line rec.line).state = _ from hq]; simp))
    refine hlockout hq (by simp [hs]) hl (hd.trans ?_)
    rw [State.serviceDirection, hlink]
    rfl

end Sys2Proof.Machine

/-! RING AMEND (R126). -/

namespace Sys2Proof.Machine

variable {s t u v : State} {r : Req} {c : CallNo} {rec : CallRec} {call cad cycles : Nat} {a : Amend}

/-! The checks. -/

theorem ringAmend_of_length_ne (hl : r.payload.length ≠ 3) : ringAmend s r = (s, refuse .badRequest) := by
  unfold ringAmend
  split
  next heq => exact absurd (by simpa using congrArg List.length heq) hl
  next => rfl

/-- The amend that good fields name (R126, R174). -/
def amendNamed (c : CallNo) (cad cycles : Nat) : Amend :=
  ⟨c, if cad = 255 then none else some (Fin.ofNat 16 cad), if cycles = 0 then none else some cycles⟩

theorem cadenceOf_ofNat {k : Nat} (h : k ≤ 15) : cadenceOf k = some (Fin.ofNat 16 k) := by
  rw [← cadenceOf_val (Fin.ofNat 16 k)]
  congr
  exact (Nat.mod_eq_of_lt (by omega)).symm

theorem amendOf_good (hy : cycles ≤ 31) (hcad : cad = 255 ∨ cad ≤ 15) (hn : ¬ (cad = 255 ∧ cycles = 0)) :
    amendOf c.val cad cycles = some (amendNamed c cad cycles) := by
  simp only [amendOf, callOf_val, if_pos hy]
  by_cases h : cad = 255
  · have hcycles : cycles ≠ 0 := fun h0 => hn ⟨h, h0⟩
    simp [amendNamed, h, hcycles]
  · simp [amendNamed, h, cadenceOf_ofNat (hcad.resolve_left h)]

theorem amendOf_bad (h : ¬ (call ≤ 23 ∧ cycles ≤ 31 ∧ (cad = 255 ∨ cad ≤ 15) ∧ ¬ (cad = 255 ∧ cycles = 0))) :
    amendOf call cad cycles = none := by
  cases hc : callOf call with
  | none => simp only [amendOf, hc]
  | some c =>
    have hcall : call ≤ 23 := by
      by_contra hlt
      rw [callOf_none (by omega)] at hc
      cases hc
    simp only [amendOf, hc]
    split
    next hy =>
      by_cases hf : cad = 255
      · rw [if_pos hf, if_pos (by by_contra h0; exact h ⟨hcall, hy, .inl hf, fun hx => h0 hx.2⟩)]
      · have hcad : 15 < cad := by
          by_contra hle
          exact h ⟨hcall, hy, .inr (by omega), fun hx => hf hx.1⟩
        rw [if_neg hf, cadenceOf_none hcad]
        rfl
    next => rfl

theorem ringAmend_badRequest (hp : numbers r.payload = [call, cad, cycles]) (h : amendOf call cad cycles = none) :
    ringAmend s r = (s, refuse .badRequest) := by
  simp only [ringAmend, hp, h]

theorem ringAmend_refuses (hp : numbers r.payload = [call, cad, cycles]) (h : amendOf call cad cycles = some a)
    {st : Status} (hs : s.amendStatus a = st) (hne : st ≠ .accepted) : ringAmend s r = (s, refuse st) := by
  simp only [ringAmend, hp, h, hs]

theorem ringAmend_takes (hp : numbers r.payload = [call, cad, cycles]) (h : amendOf call cad cycles = some a)
    (hs : s.amendStatus a = .accepted) : ringAmend s r = s.takeAmend a := by
  simp only [ringAmend, hp, h, hs]

theorem State.amendStatus_noCall (h : s.callRec a.call = none) : s.amendStatus a = .noCall := by
  rw [State.amendStatus, h]

section
variable (hc : s.callRec a.call = some rec)
include hc

theorem State.amendStatus_revert (hk : rec.kind = .rv) : s.amendStatus a = .wrongKind := by
  rw [State.amendStatus, hc]
  exact if_pos (by simp [hk])

theorem State.amendStatus_state (hk : rec.kind = .xr) (hs : ¬ (rec.state = .waiting ∨ rec.state = .ringing)) :
    s.amendStatus a = .lineState := by
  rw [State.amendStatus, hc]
  dsimp only
  rw [if_neg (by simp [hk]), if_pos (not_or.1 hs)]

theorem State.amendStatus_rings (hk : rec.kind = .xr) (hs : rec.state = .waiting ∨ rec.state = .ringing) :
    s.amendStatus a = a.cadence.elim .accepted fun x => if s.cadence x = [] then .noCadence else .accepted := by
  rw [State.amendStatus, hc]
  dsimp only
  rw [if_neg (by simp [hk]), if_neg (not_and_or.2 (hs.imp not_not.2 not_not.2))]
  cases a.cadence <;> rfl

end

/-! The amend taken in the event. -/

theorem State.drain_empty (h : s.rsc.requests = []) : s.drain = s := by
  rw [State.drain, h]
  rfl

theorem State.amendStages_iff : s.amendStages c = true ↔ ∃ p, s.part c = some p ∧ ∃ k, p.status = .placed k false := by
  rw [State.amendStages]
  cases s.part c with
  | none => simp
  | some p =>
    rcases hs : p.status with m | ⟨k, pending⟩
    · simp [RingPart.isRinging, hs]
    · simp [RingPart.isRinging, hs]

/-- R126: an amend that is staged leaves the call's ring limit. -/
theorem State.amendLimit_stages (h : s.amendStages a.call = true) : s.amendLimit a = s := if_pos h

/-- R126: a new cycle count of an amend applied at once becomes the call's ring limit. -/
theorem State.amendLimit_eq (h : ¬ s.amendStages a.call = true) (hc : s.callRec a.call = some rec) :
    s.amendLimit a = { s with csq := tset s.csq a.call (some { rec with ringLimit := a.limit.or rec.ringLimit }) } := by
  rw [State.amendLimit, if_neg h]
  cases a.limit with
  | none =>
    have hsame : tset s.csq a.call (some rec) = s.csq := by
      rw [← hc]
      exact tset_tget _ _
    show s = { s with csq := tset s.csq a.call (some rec) }
    rw [hsame]
  | some l =>
    dsimp only
    rw [State.modCall, hc]
    rfl

/-- R122, R126: with no request that waits, the amend is the one request taken. -/
theorem takeAmend_leads (hreq : s.rsc.requests = []) (hl : s.amendLimit a = t) (ht : t.rsc.requests = []) :
    ∃ u, exec .amendRequest (t.handed [.amend a.call a.cadence a.limit]) = .next u ∧
      s.takeAmend a = (u, accept [byteOf (flag (s.amendStages a.call))]) := by
  have hone : (t.handed [.amend a.call a.cadence a.limit]).rsc.requests = [.amend a.call a.cadence a.limit] := by
    show t.rsc.requests ++ _ = _
    rw [ht]
    rfl
  refine ⟨_, amendRequest_of hone, ?_⟩
  simp only [State.takeAmend, State.drain_empty hreq, hl]
  exact congrArg (fun x : State => (x, accept [byteOf (flag (s.amendStages a.call))]))
    (State.drain_request hone (requests_amendPart _ _ _ _))

/-- Settles O54 (`ringAmend` is the model's handler): the checks of R126 in order, and the amend taken in the event, its
limit the call's when it is not staged (`State.amendLimit_eq`). -/
theorem ringAmend_holds : Obligations.RingAmend := by
  unfold Obligations.RingAmend
  intro s r hears
  refine ⟨fun hl => refuses_of (st := .badRequest) rfl hears (ringAmend_of_length_ne hl), fun call cad cycles hp => ?_⟩
  refine ⟨fun h => refuses_of (st := .badRequest) rfl hears (ringAmend_badRequest hp (amendOf_bad h)), ?_⟩
  rintro c rfl ⟨-, hy, hcad, hn⟩
  have hgood := amendOf_good (c := c) hy hcad hn
  have refused {st : Status} (hs : s.amendStatus (amendNamed c cad cycles) = st) (hne : st ≠ .accepted) :
      refuses (.ringAmend r) s 3 r (byteOf (statusCode st)) :=
    refuses_of (st := st) rfl hears (ringAmend_refuses hp hgood hs hne)
  refine ⟨fun h => refused (State.amendStatus_noCall h) Status.noConfusion, fun rec hc => ?_⟩
  intro rings names
  refine ⟨fun hk => refused (State.amendStatus_revert hc hk) Status.noConfusion,
    fun hk hs => refused (State.amendStatus_state hc hk hs) Status.noConfusion, fun hk hs hx => ?_, fun hk hs hx hreq => ?_⟩
  · refine refused (st := .noCadence) ?_ Status.noConfusion
    rw [State.amendStatus_rings hc hk hs, amendNamed, if_neg (by have := hx.1; omega)]
    exact if_pos hx.2
  · intro limit q now
    have hst : s.amendStatus (amendNamed c cad cycles) = .accepted := by
      rw [State.amendStatus_rings hc hk hs, amendNamed]
      by_cases hf : cad = 255
      · rw [if_pos hf]
        rfl
      · rw [if_neg hf]
        exact if_neg fun he => hx ⟨hcad.resolve_left hf, he⟩
    have htakes := ringAmend_takes hp hgood hst
    refine ⟨fun hstages => ?_, fun hstages => ?_⟩
    · have hstages' := State.amendStages_iff.2 hstages
      obtain ⟨t, hexec, ht⟩ := takeAmend_leads hreq (State.amendLimit_stages (a := amendNamed c cad cycles) hstages') hreq
      refine ⟨t, hexec, answers_of (res := [1]) rfl hears (htakes.trans (ht.trans ?_))⟩
      rw [show s.amendStages (amendNamed c cad cycles).call = true from hstages']
      rfl
    · have hno : ¬ s.amendStages c = true := fun h => by
        obtain ⟨p, hp, k, hk⟩ := State.amendStages_iff.1 h
        exact hstages p hp k hk
      obtain ⟨t, hexec, ht⟩ := takeAmend_leads hreq (State.amendLimit_eq (a := amendNamed c cad cycles) hno hc) hreq
      refine ⟨t, hexec, answers_of (res := [0]) rfl hears (htakes.trans (ht.trans ?_))⟩
      rw [show s.amendStages (amendNamed c cad cycles).call = false from Bool.eq_false_iff.2 hno]
      rfl

end Sys2Proof.Machine

/-! REVERT (R133). -/

namespace Sys2Proof.Machine

variable {s t u v : State} {r : Req} {n : LineId} {p : PartyId} {c : CallNo} {line called caller : Nat}
  {ps : RevertParties} {sp : Spec}

/-! The checks. -/

theorem revert_of_length_ne (hl : r.payload.length ≠ 3) : revert s r = (s, refuse .badRequest) := by
  unfold revert
  split
  next heq => exact absurd (by simpa using congrArg List.length heq) hl
  next => rfl

theorem partyOf_zero : partyOf 0 = none := partyOf_none (.inl rfl)

/-- The parties that good fields name (R133, R174). -/
theorem revertPartiesOf_good (h8 : caller ≤ 8) (hne : caller ≠ p.val + 1) :
    revertPartiesOf (p.val + 1) caller = some ⟨p, partyOf caller⟩ := by
  simp only [revertPartiesOf, partyOf_val]
  by_cases h0 : caller = 0
  · simp [h0, partyOf_zero]
  · obtain ⟨q, rfl⟩ : ∃ q : PartyId, q.val + 1 = caller := ⟨⟨caller - 1, by omega⟩, by simp; omega⟩
    rw [if_neg h0, partyOf_val]
    exact if_neg fun he => hne (by rw [he])

theorem revertPartiesOf_bad (h : ¬ (1 ≤ called ∧ called ≤ 8 ∧ caller ≤ 8 ∧ caller ≠ called)) :
    revertPartiesOf called caller = none := by
  cases hp : partyOf called with
  | none => simp only [revertPartiesOf, hp]
  | some p =>
    have hcalled := val_of_partyOf hp
    have hlt := p.isLt
    have h0 : caller ≠ 0 := by omega
    simp only [revertPartiesOf, hp, if_neg h0]
    cases hq : partyOf caller with
    | none => rfl
    | some q =>
      have hcaller := val_of_partyOf hq
      have hlt' := q.isLt
      exact if_pos (Fin.ext (by omega))

theorem revertLineStatus_released (h : s.lkm.state = .released) : s.revertLineStatus n = .lineState := if_pos h

theorem revertLineStatus_busy (h : s.lkm.state ≠ .released) (hc : s.callOn n ≠ none) :
    s.revertLineStatus n = .lineBusy := by
  rw [State.revertLineStatus, if_neg h, if_pos (Option.isSome_iff_ne_none.2 hc)]

theorem revertLineStatus_free (h : s.lkm.state ≠ .released) (hc : s.callOn n = none) :
    s.revertLineStatus n = if (s.line n).state = .through then .accepted else .lineState := by
  rw [State.revertLineStatus, if_neg h, if_neg (by simp [hc])]

section
variable (hp : numbers r.payload = [line, called, caller])
include hp

theorem revert_badRequest (h : revertPartiesOf called caller = none) : revert s r = (s, refuse .badRequest) := by
  simp only [revert, hp, h]

theorem revert_noLine (h : revertPartiesOf called caller = some ps) (hl : 15 < line) :
    revert s r = (s, refuse .noLine) := by
  simp only [revert, hp, h, lineOf_none hl]

end

section
variable (hp : numbers r.payload = [n.val, called, caller]) (h : revertPartiesOf called caller = some ps)
include hp h

theorem revert_lineRefused {st : Status} (hs : s.revertLineStatus n = st) (hne : st ≠ .accepted) :
    revert s r = (s, refuse st) := by
  simp only [revert, hp, h, lineOf_val, hs]

theorem revert_passes (hs : s.revertLineStatus n = .accepted) : revert s r = s.revertParty n ps := by
  simp only [revert, hp, h, lineOf_val, hs]

end

theorem State.revertParty_noCalled (h : s.specOf n ps.called = none) : s.revertParty n ps = (s, refuse .noParty) := by
  rw [State.revertParty, h]

section
variable (h : s.specOf n ps.called = some sp)
include h

theorem State.revertParty_noCaller (hc : s.callerEntered n ps = false) : s.revertParty n ps = (s, refuse .noParty) := by
  rw [State.revertParty, h]
  exact if_pos (by rw [hc]; rfl)

variable (hc : s.callerEntered n ps = true)
include hc

theorem State.revertParty_noCapacity (hcap : s.capacity sp.bus < sp.bell) :
    s.revertParty n ps = (s.reported [.peg .ringRefused (some n)], refuse .noCapacity) := by
  rw [State.revertParty, h]
  dsimp only
  rw [hc, if_neg (by decide), if_pos (over_iff.2 hcap)]
  rfl

theorem State.revertParty_full (hcap : sp.bell ≤ s.capacity sp.bus) (hf : s.freeCall = none) :
    s.revertParty n ps = (s, refuse .tableFull) := by
  rw [State.revertParty, h]
  dsimp only
  rw [hc, if_neg (by decide), if_neg fun hx => absurd (over_iff.1 hx) (Nat.not_lt.2 hcap), hf]

theorem State.revertParty_starts (hcap : sp.bell ≤ s.capacity sp.bus) (hf : s.freeCall = some c) :
    s.revertParty n ps = (s.startRevert c n ps, accept [byteOf c.val]) := by
  rw [State.revertParty, h]
  dsimp only
  rw [hc, if_neg (by decide), if_neg fun hx => absurd (over_iff.1 hx) (Nat.not_lt.2 hcap), hf]

end

/-! The revert call begun (R133, R134, R135). -/

/-- The line taken to CALL for a new revert call, with the call's record. -/
theorem newRevert_entered (s : State) (c : CallNo) (n : LineId) (x : CallRec) :
    (s.setCall c (some x)).enterCall n .rv = ({ s with csq := tset s.csq c (some x) } : State).withLine n
      { s.line n with state := .call, lockoutTimer := none, lockoutPhase := none } DigitRec.initial (s.down n).noLsv
      ⟨false, none, true⟩ := by
  rw [State.enterCall_eq]
  rfl

/-- R135: with the caller named, the call waits for the hang-up. -/
theorem State.startRevert_named (c : CallNo) (q : PartyId) : s.startRevert c n ⟨p, some q⟩ =
    ((({ s with csq := tset s.csq c (some { newRevert .exchange n p (some q) with
        state := .hangupWait, hangupTimer := some s.timing.hangupWait }) } : State).withLine n
      { s.line n with state := .call, lockoutTimer := none, lockoutPhase := none } DigitRec.initial
      { (s.down n).noLsv with call := some .hangupTone } ⟨false, none, true⟩).reported [.peg .revertStarted (some n)]) := by
  simp only [State.startRevert, newRevert_entered, Option.isSome_some, if_true, State.enterHangupWait]
  simp [State.callClaim, State.modCall, State.setCall, State.callRec, State.withLine, State.modDown, State.setDown,
    State.down, State.reported, State.timing]

/-- R134: with no caller named, the caller is to be identified. -/
theorem State.startRevert_unnamed (c : CallNo) (hi : s.itu = ⟨[], none⟩) : s.startRevert c n ⟨p, none⟩ =
    ((({ s with csq := tset s.csq c (some (newRevert .exchange n p none)), itu := ⟨[], some ⟨n, [.call c], 0, true⟩⟩ } :
        State).withLine n
      { s.line n with state := .call, lockoutTimer := none, lockoutPhase := none } DigitRec.initial
      { (s.down n).noLsv with call := some .feed, test := some .test } ⟨false, none, true⟩).reported
        [.peg .revertStarted (some n)]) := by
  simp only [State.startRevert, newRevert_entered, Option.isSome_none, Bool.false_eq_true, if_false]
  rw [State.enterIdentifyCaller_idle (rec := newRevert .exchange n p none) (by simp [State.callRec])
    (by simpa using hi)]
  simp [State.withLine, State.modDown, State.setDown, State.down, State.reported, newRevert]

/-- Settles O55 (`revert` is the model's handler): the checks of R133 in order, and the new call with its caller named
(`State.startRevert_named`) or to be identified (`State.startRevert_unnamed`). -/
theorem revert_holds : Obligations.Revert := by
  unfold Obligations.Revert
  intro s r hears
  refine ⟨fun hl => refuses_of (st := .badRequest) rfl hears (revert_of_length_ne hl), fun line called caller hp => ?_⟩
  intro good
  refine ⟨fun h => refuses_of (st := .badRequest) rfl hears (revert_badRequest hp (revertPartiesOf_bad h)), ?_, ?_⟩
  · rintro ⟨h1, h8, h8', hne⟩ hl
    obtain ⟨p, rfl⟩ : ∃ p : PartyId, p.val + 1 = called := ⟨⟨called - 1, by omega⟩, by simp; omega⟩
    exact refuses_of (st := .noLine) rfl hears (revert_noLine hp (revertPartiesOf_good h8' hne) hl)
  · rintro n p rfl rfl ⟨-, -, h8, hne⟩
    intro here
    have hgood := revertPartiesOf_good (p := p) h8 hne
    have refused {st : Status} (hs : s.revertLineStatus n = st) (hne : st ≠ .accepted) :
        refuses (.revert r) s 4 r (byteOf (statusCode st)) :=
      refuses_of (st := st) rfl hears (revert_lineRefused hp hgood hs hne)
    have accepted (h : here) : revert s r = s.revertParty n ⟨p, partyOf caller⟩ :=
      revert_passes hp hgood ((revertLineStatus_free h.1 h.2.1).trans (if_pos h.2.2))
    refine ⟨fun h => refused (revertLineStatus_released h) Status.noConfusion,
      fun h hc => refused (revertLineStatus_busy h hc) Status.noConfusion,
      fun h hc hs => refused ((revertLineStatus_free h hc).trans (if_neg hs)) Status.noConfusion,
      fun h hn => ?_, fun h he hn => ?_, fun e h he hcaller => ?_⟩
    · exact refuses_of (st := .noParty) rfl hears ((accepted h).trans (State.revertParty_noCalled (spec_none hn)))
    · obtain ⟨q, rfl, hq⟩ := hn
      obtain ⟨e, he⟩ := Option.ne_none_iff_exists'.1 he
      refine refuses_of (st := .noParty) rfl hears ((accepted h).trans (State.revertParty_noCaller (spec_of he) ?_))
      simp [State.callerEntered, hq]
    · have hspec := spec_of he
      have hentered : s.callerEntered n ⟨p, partyOf caller⟩ = true := by
        cases hq : partyOf caller with
        | none => rfl
        | some q => exact Option.isSome_iff_ne_none.2 (hcaller q (val_of_partyOf hq))
      refine ⟨fun hcap => answers_refused (st := .noCapacity) rfl hears
          ((accepted h).trans (State.revertParty_noCapacity hspec hentered hcap)),
        fun hcap hf => refuses_of (st := .tableFull) rfl hears
          ((accepted h).trans (State.revertParty_full hspec hentered hcap (State.freeCall_none hf))),
        fun hcap c hfree hleast => ?_⟩
      intro made taken
      have hstarts := (accepted h).trans
        (State.revertParty_starts hspec hentered hcap (State.freeCall_of hfree hleast))
      refine ⟨fun q hq => ?_, fun h0 hi => ?_⟩
      · subst hq
        rw [partyOf_val, State.startRevert_named] at hstarts
        exact answers_of rfl hears hstarts
      · subst h0
        rw [partyOf_zero, State.startRevert_unnamed c hi] at hstarts
        exact answers_of rfl hears hstarts

end Sys2Proof.Machine

/-! LINE BLOCK and LINE UNBLOCK (R78 to R80). -/

namespace Sys2Proof.Machine

variable {s t w : State} {r : Req} {n : LineId} {c : CallNo} {rec : CallRec} {b : Byte}

/-! The checks. -/

theorem lineBlock_of_length_ne (hl : r.payload.length ≠ 1) : lineBlock s r = (s, refuse .badRequest) := by
  unfold lineBlock
  split
  next heq => exact absurd (by simpa using congrArg List.length heq) hl
  next => rfl

theorem lineUnblock_of_length_ne (hl : r.payload.length ≠ 1) : lineUnblock s r = (s, refuse .badRequest) := by
  unfold lineUnblock
  split
  next heq => exact absurd (by simpa using congrArg List.length heq) hl
  next => rfl

section
variable (hp : r.payload = [b])
include hp

theorem lineBlock_noLine (h : 15 < b.toNat) : lineBlock s r = (s, refuse .noLine) := by
  simp only [lineBlock, numbers_one hp, lineOf_none h]

theorem lineUnblock_noLine (h : 15 < b.toNat) : lineUnblock s r = (s, refuse .noLine) := by
  simp only [lineUnblock, numbers_one hp, lineOf_none h]

theorem lineBlock_of_line (hn : n.val = b.toNat) : lineBlock s r = (s.takeBlock n, accept []) := by
  simp only [lineBlock, numbers_one hp, ← hn, lineOf_val]

theorem lineUnblock_of_line (hn : n.val = b.toNat) : lineUnblock s r =
    if (s.line n).state = .blocked then (s.enterIdle n, accept [])
    else if (s.line n).state = .fault ∧ (s.line n).blockRecorded = true then
      (s.modLine n (fun r => { r with blockRecorded := false }), accept [])
    else (s, refuse .lineState) := by
  simp only [lineUnblock, numbers_one hp, ← hn, lineOf_val]

end

/-! The block taken (R78). -/

/-- The line record of a BLOCKED line (R78). -/
def LineRec.shut (r : LineRec) : LineRec :=
  { r with
    state := .blocked, loop := .opened, seizureCount := 0, onHookCount := 0, faultReason := none, lockoutTimer := none,
    lockoutPhase := none }

/-- What the abort of a line's request and the entry into BLOCKED after it lead to (R78, R115, R116). -/
theorem abortLeads_blocked {q : LineRec} {d : DigitRec} {k : DownClaims} {u : UpClaims} {first : List Report}
    {goes : State → Prop} (hi : w.itu = s.itu) (hd : w.hwi.down = s.hwi.down)
    (h : goes ((((w.withLine n q d k u).reported first).abortTest n).enterBlocked n)) :
    abortLeads s n (fun i x => ({ w with itu := i } : State).withLine n q.shut DigitRec.initial x ⟨false, none, true⟩)
      { k.noLsv with blocked := some .feedOff } first [] goes := by
  set t : State := (w.withLine n q d k u).reported first with ht
  have hti : t.itu = s.itu := by simpa [ht] using hi
  have htd (m : LineId) (hm : m ≠ n) : t.down m = s.down m := by
    simp [ht, State.down, State.withLine, tget_tset_ne _ _ (Ne.symm hm), hd]
  obtain ⟨huntested, hwaiting, htesting⟩ := State.abortTest_leads hti htd (f := fun v => goes (v.enterBlocked n)) h
  refine ⟨fun hu => ?untested, fun older younger rs ht' ho hq => ?waiting,
    fun x hx hxn ho => ⟨fun hq => ?alone, fun y rest hq => ?next⟩⟩
  case untested =>
    have h := huntested hu
    rw [ht, State.enterBlocked_eq, State.withLine_reported] at h
    rw [← hi, List.append_nil]
    simpa [State.withLine, State.line, State.down, LineRec.noLockout, LineRec.shut] using h
  case waiting =>
    have h := hwaiting older younger rs ht' ho hq
    rw [ht, State.reported_reitu, ← State.reported_append, State.enterBlocked_eq, State.withLine_reported] at h
    rw [List.append_nil]
    simpa [State.withLine, State.line, State.down, LineRec.noLockout, LineRec.shut, abortReports] using h
  case alone =>
    have h := (htesting x hx hxn ho).1 hq
    rw [ht, State.reported_rebridged, ← State.reported_append, State.enterBlocked_eq, State.withLine_reported] at h
    rw [List.append_nil]
    simpa [State.withLine, State.line, State.down, DownClaims.noLsv, LineRec.noLockout, LineRec.shut, abortReports] using h
  case next =>
    have hne : y.line ≠ n := ho y (by simp [hq])
    intro v begun
    have h : goes (State.enterBlocked (State.reported _ _) n) := (htesting x hx hxn ho).2 y rest hq
    rw [ht, State.reported_rebridged, ← State.reported_append, State.enterBlocked_eq, State.withLine_reported] at h
    rw [List.append_nil]
    have hover (a b e : DownClaims) : tset (tset (tset w.hwi.down n a) y.line e) n b =
        tset (tset w.hwi.down n b) y.line e := by
      rw [tset_comm _ _ _ hne, tset_tset]
    simpa [State.withLine, State.line, State.down, DownClaims.noLsv, LineRec.noLockout, LineRec.shut, abortReports, v,
      begun, tget_tset_ne _ _ hne, hover] using h

/-- R78: the block of a line with no call, and of a line with one. -/
theorem State.blockLine_uncalled (hs : (s.line n).state ≠ .blocked) (hc : s.callOn n = none) : s.blockLine n =
    (((s.withLine n (s.line n) DigitRec.initial (s.down n) { s.up n with replay := none }).reported []).abortTest
      n).enterBlocked n := by
  rw [State.blockLine, if_neg hs, hc]
  dsimp only
  conv_lhs => rw [← State.withLine_self s n, State.discardDigits_withLine]
  rfl

theorem State.blockLine_called (hs : (s.line n).state ≠ .blocked) (hc : s.callOn n = some c) (hr : s.callRec c = some rec) :
    s.blockLine n = (((((s.freed c rec).withLine n (s.line n) DigitRec.initial { s.down n with call := none }
      { s.up n with replay := none }).reported [.notice (.callEnd (callEndOf c rec .blocked))]).abortTest n).enterBlocked n) := by
  have hn : rec.line = n := State.line_of_callOn hc hr
  rw [State.blockLine, if_neg hs, hc]
  dsimp only
  rw [State.endCall_eq hr _ _ _ _ (by simp), State.direct_nowhere, hn, State.discardDigits_reported]
  simp [State.modDown, State.setDown, State.discardDigits, State.setDigits, State.modUp, State.setUp, State.freed,
    State.handed, State.withLine, State.up, State.line]
  rfl

/-- Settles O56: the handlers by the state of the line, and the block of a line in no FAULT with its call ended and its
request aborted (`abortLeads_blocked`). -/
theorem lineBlockAndUnblock : Obligations.LineBlockAndUnblock := by
  unfold Obligations.LineBlockAndUnblock
  intro s r hears
  refine ⟨fun hl => ⟨refuses_of (st := .badRequest) rfl hears (lineBlock_of_length_ne hl),
      refuses_of (st := .badRequest) rfl hears (lineUnblock_of_length_ne hl)⟩,
    fun b hp h => ⟨refuses_of (st := .noLine) rfl hears (lineBlock_noLine hp h),
      refuses_of (st := .noLine) rfl hears (lineUnblock_noLine hp h)⟩, fun b n hp hn => ?_⟩
  intro q blocks unblocks shut down shuts
  have hblock := lineBlock_of_line (s := s) hp hn
  have hunblock := lineUnblock_of_line (s := s) hp hn
  have blocked (h : q.state ≠ .fault) : blocks (s.blockLine n) :=
    answers_of rfl hears (hblock.trans (congrArg (fun t : State => (t, accept [])) (if_neg h)))
  refine ⟨fun h => ?_, fun h => ?_, fun hf hb hc => ?_, fun hf hb c rec hc hr => ?_, fun h hl => ?_, fun h hrec => ?_,
    fun hb hno => ?_⟩
  · exact answers_of rfl hears (hblock.trans (congrArg (fun t : State => (t, accept [])) (if_pos h)))
  · have hs : s.blockLine n = s := if_pos h
    have hstands := blocked (by rw [h]; decide)
    rwa [hs] at hstands
  · have hleads := blocked hf
    rw [State.blockLine_uncalled hb hc] at hleads
    exact abortLeads_blocked rfl rfl hleads
  · have hleads := blocked hf
    rw [State.blockLine_called hb hc hr] at hleads
    exact abortLeads_blocked (State.itu_freed s c rec) (congrArg Hwi.down (State.hwi_freed s c rec)) hleads
  · refine answers_of rfl hears (hunblock.trans ((if_pos h).trans ?_))
    rw [State.enterIdle_eq, LineRec.withLoop_same hl]
    rfl
  · refine answers_of rfl hears (hunblock.trans ((if_neg ?_).trans (if_pos ⟨h, hrec⟩)))
    rw [show (s.line n).state = _ from h]
    decide
  · exact refuses_of (st := .lineState) rfl hears (hunblock.trans ((if_neg hb).trans (if_neg hno)))

end Sys2Proof.Machine

/-! IDENTIFY (R107, R108, R110, R118). -/

namespace Sys2Proof.Machine

variable {s t : State} {r : Req} {n : LineId} {b : Byte} {x : Test} {older younger : List TestRequest} {rs : List Requester}

/-! The checks. -/

theorem identify_of_length_ne (hl : r.payload.length ≠ 1) : identify s r = (s, refuse .badRequest) := by
  unfold identify
  split
  next heq => exact absurd (by simpa using congrArg List.length heq) hl
  next => rfl

section
variable (hp : r.payload = [b])
include hp

theorem identify_noLine (h : 15 < b.toNat) : identify s r = (s, refuse .noLine) := by
  simp only [identify, numbers_one hp, lineOf_none h]

theorem identify_refuses (hn : n.val = b.toNat) {st : Status} (h : s.identifyStatus n = st) (hne : st ≠ .accepted) :
    identify s r = (s, refuse st) := by
  simp only [identify, numbers_one hp, ← hn, lineOf_val, h]

theorem identify_takes (hn : n.val = b.toNat) (h : s.identifyStatus n = .accepted) : identify s r =
    (s.requestTest n .exchange, accept [b, byteOf ((s.requestTest n .exchange).testsAhead n)]) := by
  simp only [identify, numbers_one hp, ← hn, lineOf_val, h, State.takeIdentify]
  rw [hn]
  simp [byteOf]

end

/-- R110, R118: check 3 passes. -/
def State.identifies (s : State) (n : LineId) : Prop :=
  (s.line n).state = .through ∧ (upLoop (s.lByte n) = .closed ∨ s.onHookMeets n = true)

theorem State.identifyStatus_shut (h : ¬ s.identifies n) : s.identifyStatus n = .lineState := if_neg h

theorem State.identifyStatus_open (h : s.identifies n) :
    s.identifyStatus n = if .exchange ∈ s.requestersOn n then .inUse else .accepted := by
  rw [State.identifyStatus]
  simp only [List.contains_iff_mem]
  exact if_pos h

/-! Where the request goes (R108). -/

section
variable (hx : s.itu.inProgress = some x)
include hx

/-- The request of the line is in progress. -/
theorem State.requestersOn_test (hl : x.line = n) : s.requestersOn n = x.requesters := by
  simp [State.requestersOn, State.testOn, hx, hl, Option.filter]

theorem State.requestTest_joins (hl : x.line = n) (y : Requester) (hy : y ∉ x.requesters) : s.requestTest n y =
    s.setItu { s.itu with inProgress := some { x with requesters := x.requesters ++ [y] } } := by
  simp [State.requestTest, hx, hl, joined, hy]

theorem State.testOn_other (hl : x.line ≠ n) : s.testOn n = none := by
  simp [State.testOn, hx, hl, Option.filter]

theorem State.requestTest_appends (hl : x.line ≠ n) (hq : ∀ q ∈ s.itu.queue, q.line ≠ n) (y : Requester) :
    s.requestTest n y = s.setItu { s.itu with queue := s.itu.queue ++ [⟨n, [y]⟩] } := by
  have hany : s.itu.queue.any (fun q => decide (q.line = n)) = false := by simpa using hq
  simp [State.requestTest, hx, hl, hany]

end

theorem find?_request (ho : ∀ q ∈ older ++ younger, q.line ≠ n) :
    (older ++ ⟨n, rs⟩ :: younger).find? (fun q => decide (q.line = n)) = some ⟨n, rs⟩ := by
  have hf : older.find? (fun q => decide (q.line = n)) = none := by
    simpa using fun q hq => ho q (List.mem_append_left _ hq)
  rw [List.find?_append, hf]
  simp

theorem map_request (ho : ∀ q ∈ older ++ younger, q.line ≠ n) (f : TestRequest → TestRequest) :
    (older ++ ⟨n, rs⟩ :: younger).map (fun q => if q.line = n then f q else q) = older ++ f ⟨n, rs⟩ :: younger := by
  have hstays (l : List TestRequest) (hl : ∀ q ∈ l, q.line ≠ n) : l.map (fun q => if q.line = n then f q else q) = l :=
    (List.map_congr_left fun q hq => if_neg (hl q hq)).trans (List.map_id l)
  rw [List.map_append, List.map_cons, hstays older fun q hq => ho q (List.mem_append_left _ hq),
    hstays younger fun q hq => ho q (List.mem_append_right _ hq), if_pos rfl]

theorem findIdx_request (ho : ∀ q ∈ older, q.line ≠ n) :
    (older ++ ⟨n, rs⟩ :: younger).findIdx (fun q => decide (q.line = n)) = older.length := by
  induction older with
  | nil => simp [List.findIdx_cons]
  | cons q older ih =>
    rw [List.cons_append, List.findIdx_cons, ih fun q' h => ho q' (List.mem_cons_of_mem q h),
      decide_eq_false (ho q List.mem_cons_self)]
    rfl

section
variable (hx : s.itu.inProgress = some x) (hl : x.line ≠ n) (hq : s.itu.queue = older ++ ⟨n, rs⟩ :: younger)
  (ho : ∀ q ∈ older ++ younger, q.line ≠ n)
include hx hl hq ho

/-- The request of the line waits. -/
theorem State.requestersOn_waiting : s.requestersOn n = rs := by
  rw [State.requestersOn, State.testOn_other hx hl, hq, find?_request ho]

theorem State.requestTest_joinsWaiting (y : Requester) (hy : y ∉ rs) : s.requestTest n y =
    s.setItu { s.itu with queue := older ++ ⟨n, rs ++ [y]⟩ :: younger } := by
  have hany : s.itu.queue.any (fun q => decide (q.line = n)) = true := by simp [hq]
  simp only [State.requestTest, hx, if_neg hl, hany, if_true]
  rw [hq, map_request ho]
  simp [joined, hy]

end

/-- R110: the requests that begin before one that waits. -/
theorem State.testsAhead_waiting (hx : s.itu.inProgress = some x) (hl : x.line ≠ n)
    (hq : s.itu.queue = older ++ ⟨n, rs⟩ :: younger) (ho : ∀ q ∈ older, q.line ≠ n) :
    s.testsAhead n = 1 + older.length := by
  rw [State.testsAhead, State.testOn_other hx hl, hq, findIdx_request ho]

theorem State.testsAhead_test (hx : s.itu.inProgress = some x) (hl : x.line = n) : s.testsAhead n = 0 := by
  simp [State.testsAhead, State.testOn, hx, hl, Option.filter]

/-- Settles O57 (`identify` is the model's handler): check 3 (`State.onHookMeets_iff`), then the place of the line's
request at the bridge, and the requests ahead of it. -/
theorem identify_holds : Obligations.Identify := by
  unfold Obligations.Identify
  intro s r hears
  refine ⟨fun hl => refuses_of (st := .badRequest) rfl hears (identify_of_length_ne hl),
    fun b hp h => refuses_of (st := .noLine) rfl hears (identify_noLine hp h), fun b n hp hn => ?_⟩
  intro onHook open' with' goes
  have hopen : open' ↔ s.identifies n :=
    and_congr_right fun hs => or_congr_right (State.onHookMeets_iff hs).symm
  have refused (h : open') (hin : .exchange ∈ s.requestersOn n) : refuses (.identify r) s 8 r 9 :=
    refuses_of (st := .inUse) rfl hears
      (identify_refuses hp hn ((State.identifyStatus_open (hopen.1 h)).trans (if_pos hin)) Status.noConfusion)
  have accepted {t : State} {k : Nat} (h : open') (hin : .exchange ∉ s.requestersOn n)
      (ht : s.requestTest n .exchange = t) (hk : t.testsAhead n = k) : goes t k := by
    have hi := identify_takes hp hn ((State.identifyStatus_open (hopen.1 h)).trans (if_neg hin))
    rw [ht, hk] at hi
    exact answers_of rfl hears hi
  have kept (i : Itu) : with' i (s.down n) = s.setItu i := by
    simp [with', State.setItu, State.down]
  refine ⟨fun h => ?_, fun h hi => ?_, fun x h hx => ⟨fun hl hin => ?_, fun hl hin => ?_, fun hl older rs younger hq ho => ?_,
    fun hl hq => ?_⟩⟩
  · exact refuses_of (st := .lineState) rfl hears
      (identify_refuses hp hn (State.identifyStatus_shut (mt hopen.2 h)) Status.noConfusion)
  · have hu : s.untested n := by simp [State.untested, State.testOn, hi]
    exact accepted h (by simp [State.requestersOn_untested hu]) (State.requestTest_idle hi _)
      (State.testsAhead_test rfl rfl)
  · exact refused h (by rwa [State.requestersOn_test hx hl])
  · rw [kept]
    exact accepted h (by rwa [State.requestersOn_test hx hl]) (State.requestTest_joins hx hl _ hin)
      (State.testsAhead_test rfl hl)
  · refine ⟨fun hin => refused h (by rwa [State.requestersOn_waiting hx hl hq ho]), fun hin => ?_⟩
    rw [kept]
    exact accepted h (by rwa [State.requestersOn_waiting hx hl hq ho])
      (State.requestTest_joinsWaiting hx hl hq ho _ hin)
      (State.testsAhead_waiting hx hl rfl fun q hq' => ho q (List.mem_append_left _ hq'))
  · rw [kept]
    have hu : s.untested n := ⟨State.testOn_other hx hl, hq⟩
    exact accepted h (by simp [State.requestersOn_untested hu]) (State.requestTest_appends hx hl hq _)
      (State.testsAhead_waiting hx hl rfl hq)

end Sys2Proof.Machine

/-! LINE QUERY and CALL QUERY (R83, R147, R173, R174). -/

namespace Sys2Proof.Machine

variable {s : State} {r : Req} {n : LineId} {c : CallNo} {b : Byte} {k : CallRec} {p : RingPart}

/-! The checks. -/

theorem lineQuery_of_length_ne (hl : r.payload.length ≠ 1) : lineQuery s r = (s, refuse .badRequest) := by
  unfold lineQuery
  split
  next heq => exact absurd (by simpa using congrArg List.length heq) hl
  next => rfl

theorem callQuery_of_length_ne (hl : r.payload.length ≠ 1) : callQuery s r = (s, refuse .badRequest) := by
  unfold callQuery
  split
  next heq => exact absurd (by simpa using congrArg List.length heq) hl
  next => rfl

section
variable (hp : r.payload = [b])
include hp

theorem lineQuery_noLine (h : 15 < b.toNat) : lineQuery s r = (s, refuse .noLine) := by
  simp only [lineQuery, numbers_one hp, lineOf_none h]

theorem callQuery_badCall (h : 23 < b.toNat) : callQuery s r = (s, refuse .badRequest) := by
  simp only [callQuery, numbers_one hp, callOf_none h]

theorem lineQuery_of_line (hn : n.val = b.toNat) : lineQuery s r = (s, accept (s.lineFields n)) := by
  simp only [lineQuery, numbers_one hp, ← hn, lineOf_val]

theorem callQuery_noCall (hc : c.val = b.toNat) (h : s.callRec c = none) : callQuery s r = (s, refuse .noCall) := by
  simp only [callQuery, numbers_one hp, ← hc, callOf_val, h]

theorem callQuery_of_call (hc : c.val = b.toNat) (h : s.callRec c = some k) :
    callQuery s r = (s, accept (callFields c k ++ s.callPartFields c k)) := by
  simp only [callQuery, numbers_one hp, ← hc, callOf_val, h]

end

/-! The fields (R173). -/

theorem byteOf_val_eq {m : Nat} (h : m = b.toNat) : byteOf m = b := by
  rw [h]
  simp [byteOf]

theorem byteOf_loopCode (l : Loop) : byteOf (loopCode l) = if l = .closed then 1 else 0 := by
  cases l <;> rfl

theorem State.callPartFields_absent (h : k.ringPart = false) : s.callPartFields c k = [] := by
  simp [State.callPartFields, h]

theorem State.callPartFields_waiting (h : k.ringPart = true) (hp : s.part c = none) :
    s.callPartFields c k = List.replicate 11 0xFF := by
  simp [State.callPartFields, h, hp]

theorem State.callPartFields_part (h : k.ringPart = true) (hp : s.part c = some p) :
    s.callPartFields c k = partFields p := by
  simp [State.callPartFields, h, hp]

/-- Settles O58: the two handlers, and the fields of the line, of the call's record and of its ring part, byte by byte. -/
theorem queries : Obligations.Queries := by
  unfold Obligations.Queries
  refine ⟨?_, rfl, rfl, rfl, rfl, rfl, rfl, fun _ => rfl, rfl, rfl, rfl⟩
  intro s r hears absent
  have habsent (x : Option Nat) : absent x = byteOf (orAbsent x) := by cases x <;> rfl
  refine ⟨fun hl => ⟨refuses_of (st := .badRequest) rfl hears (lineQuery_of_length_ne hl),
      refuses_of (st := .badRequest) rfl hears (callQuery_of_length_ne hl)⟩,
    fun b hp => ⟨fun h => refuses_of (st := .noLine) rfl hears (lineQuery_noLine hp h),
      fun h => refuses_of (st := .badRequest) rfl hears (callQuery_badCall hp h)⟩,
    fun b n hp hn => ?line, fun b c hp hc => ⟨fun h => ?_, fun k hk => ?call⟩⟩
  case line =>
    intro q
    refine answers_of rfl hears ((lineQuery_of_line hp hn).trans ?_)
    simp only [habsent, State.lineFields, List.map_cons, List.map_nil, byteOf_val_eq hn, byteOf_loopCode, byteOf_flag]
    rfl
  · exact refuses_of (st := .noCall) rfl hears (callQuery_noCall hp hc h)
  case call =>
    intro timer fields
    have hquery := callQuery_of_call (s := s) hp hc hk
    have hfields : callFields c k = fields := by
      simp only [fields, habsent, callFields, List.map_cons, List.map_nil, byteOf_val_eq hc, byteOf_flag]
      rfl
    rw [hfields] at hquery
    refine ⟨fun h => ?_, fun h hn => ?_, fun p h hpart => ?_⟩
    · rw [State.callPartFields_absent h, List.append_nil] at hquery
      exact answers_of rfl hears hquery
    · rw [State.callPartFields_waiting h hn] at hquery
      exact answers_of rfl hears hquery
    · intro status passed staged
      rw [State.callPartFields_part h hpart] at hquery
      have hstatus : [(statusFields p.status).1.1, (statusFields p.status).1.2.1, (statusFields p.status).1.2.2].map
          byteOf = status := by
        simp only [status]
        rcases p.status with m | ⟨x, pending⟩
        · rfl
        · cases pending <;> rfl
      have hpassed : byteOf (statusFields p.status).2 = passed := by
        simp only [passed]
        cases p.status <;> rfl
      have hstaged : (stagedSpecFields (p.staged.bind fun ch => ch.spec)).map byteOf = staged := by
        simp only [staged]
        rcases p.staged with _ | ⟨_ | sp, _⟩ <;> rfl
      have hpartFields : partFields p = status ++ [byteOf p.cycleLimit, byteOf p.cyclesCompleted, passed] ++ staged ++
          [absent (p.staged.bind fun ch => ch.limit)] := by
        rw [← hstatus, ← hpassed, ← hstaged, habsent]
        simp only [partFields, List.map_append, List.map_cons, List.map_nil]
        rfl
      rw [hpartFields] at hquery
      simpa only [List.cons_append, List.append_assoc] using answers_of rfl hears hquery

end Sys2Proof.Machine

/-! A test of the exchange ends (R111 to R115). -/

namespace Sys2Proof.Machine

variable {s t : State} {n : LineId} {x : Test} {res : TestResult} {q : TestRequest} {rest : List TestRequest}

/-- The pegs of a result as reports (R115). -/
def resultReports (n : LineId) : TestResult → List Report
  | .party _ _ => [.peg .testDone (some n)]
  | .unidentified _ => [.peg .testDone (some n), .peg .testUnidentified (some n)]
  | .timeout => [.peg .testTimeout (some n)]

theorem State.pegResult_eq (s : State) (n : LineId) (res : TestResult) :
    s.pegResult n res = s.reported (resultReports n res) := by
  cases res <;> rfl

theorem State.endTest_eq (s : State) (x : Test) (res : TestResult) : s.endTest x res =
    (x.requesters.foldl (fun s y => s.deliver x.line res y) (s.dropTest x.line)).nextTest.reported
      (resultReports x.line res) := by
  rw [← State.nextTest_reported, ← State.pegResult_eq]
  rfl

/-- The bridge left by its test, with the TEST claim of the line withdrawn (R115). -/
def State.testLeft (s : State) (n : LineId) : State :=
  { s with hwi := { s.hwi with down := tset s.hwi.down n { s.down n with test := none } }, itu := ⟨[], none⟩ }

theorem State.dropTest_alone (hq : s.itu.queue = []) : s.dropTest n = s.testLeft n := by
  simp [State.dropTest, State.setItu, State.modDown, State.setDown, State.down, State.testLeft, hq]

/-- R115: the result of a test whose one requester is the exchange. -/
theorem State.endTest_exchange (hr : x.requesters = [.exchange]) : s.endTest x res =
    (s.dropTest x.line).nextTest.reported (.notice (identityNotice x.line res) :: resultReports x.line res) := by
  rw [State.endTest_eq, hr]
  show (State.nextTest ((s.dropTest x.line).reported [.notice (identityNotice x.line res)])).reported _ = _
  rw [State.nextTest_reported, ← State.reported_append]
  rfl

theorem State.dropTest_next_alone (hq : s.itu.queue = []) : (s.dropTest n).nextTest = s.testLeft n := by
  rw [State.dropTest_alone hq]
  exact nextTest_nil rfl

/-- R115: the oldest waiting request begins. -/
theorem State.dropTest_next (hq : s.itu.queue = q :: rest) (hne : q.line ≠ n) : (s.dropTest n).nextTest =
    { s.testLeft n with
      hwi := { (s.testLeft n).hwi with
        down := tset (s.testLeft n).hwi.down q.line { s.down q.line with test := some .test } },
      itu := ⟨rest, some ⟨q.line, q.requesters, 0, true⟩⟩ } := by
  rw [nextTest_cons (t := s.dropTest n) (q := q) (rest := rest) hq]
  simp [State.dropTest, State.setItu, State.modDown, State.setDown, State.down, State.testLeft,
    tget_tset_ne _ _ (Ne.symm hne)]

/-! The reading mapped against the parties (R113). -/

section
variable {b : Byte}

theorem State.mapReading_party {p : PartyId} (h15 : upReading b ≠ 15)
    (hp : ∃ e, s.party n p = some e ∧ e.identityClass = some (upReading b))
    (hone : ∀ o, (∃ e, s.party n o = some e ∧ e.identityClass = some (upReading b)) → o = p) :
    s.mapReading n (upReading b) = .party p (upReading b) := by
  rw [State.mapReading, if_neg h15, partyOfClass_some hp hone]

theorem State.mapReading_unidentified
    (h : upReading b = 15 ∨ ∀ p, ¬ ∃ e, s.party n p = some e ∧ e.identityClass = some (upReading b)) :
    s.mapReading n (upReading b) = .unidentified (upReading b) := by
  by_cases h15 : upReading b = 15
  · rw [State.mapReading, if_pos h15]
  · rw [State.mapReading, if_neg h15, partyOfClass_none (h.resolve_left h15)]

end

/-! TEST_TIMEOUT (R114, log 3). -/

section
variable (hx : s.itu.inProgress = some x) (hf : x.fresh = false)
include hx hf

theorem testTimeout_stands (h : ¬ (readingUsable (x.interval + 1) (s.lByte x.line) s.hwi.lPort.good = false ∧
    60 ≤ x.interval + 1)) : exec .testTimeout s = .next s := by
  refine congrArg Host.Outcome.next ?_
  rw [State.testTimeoutEvent, hx]
  refine if_neg fun hd => h ?_
  simpa [State.testTimesOut, State.testOn, hx, Option.filter, hf, testIntervals] using (Bool.and_eq_true_iff.1 hd).2

/-- The timeout comes in the byte event of the line, in which the LSV finds nothing. -/
theorem testTimeout_comes (hv : s.verdict x.line = .nothing)
    (hu : readingUsable (x.interval + 1) (s.lByte x.line) s.hwi.lPort.good = false) (h : 60 ≤ x.interval + 1) :
    exec .testTimeout s = exec (.lineByte x.line) s := by
  refine congrArg Host.Outcome.next ?_
  rw [State.testTimeoutEvent, hx]
  refine if_pos ?_
  simp [State.testTimesOut, State.testOn, hx, Option.filter, hf, testIntervals, hv, hu, h, Verdict.isFaultEntry]

end

/-- Settles O59: the byte that the test takes (`testRun`), and the end of a test whose one requester is the exchange
(`State.endTest_exchange`), with the next test begun. -/
theorem testOfTheExchangeEnds : Obligations.TestOfTheExchangeEnds := by
  unfold Obligations.TestOfTheExchangeEnds
  intro s x hx hf hr hq hs n b usable class' heard left next ends
  have hrun := testRun hx hf hq (.inl hs)
  have husable := usable_iff s x
  have hunusable (h : ¬ usable) : readingUsable (x.interval + 1) (s.lByte x.line) s.hwi.lPort.good = false :=
    Bool.eq_false_iff.2 (mt husable.1 h)
  have ended (res : TestResult) (goes : State → Prop) (h : goes (heard.endTest x res)) :
      (s.itu.queue = [] → goes (left.reported (.notice (identityNotice n res) :: resultReports n res))) ∧
      ∀ q rest, s.itu.queue = q :: rest → q.line ≠ n →
        let begun := tset left.hwi.down q.line { s.down q.line with test := some .test }
        goes (State.reported { left with
          hwi := { left.hwi with down := begun }, itu := ⟨rest, some ⟨q.line, q.requesters, 0, true⟩⟩ }
          (.notice (identityNotice n res) :: resultReports n res)) := by
    rw [State.endTest_exchange hr] at h
    refine ⟨fun hq => ?_, fun q rest hq hne => ?_⟩
    · rw [State.dropTest_next_alone (s := heard) hq] at h
      exact h
    · rw [State.dropTest_next (s := heard) hq hne] at h
      exact h
  have reads (hu : usable) (res : TestResult) (hres : s.mapReading n (upReading b) = res) :
      next (heard.endTest x res) := by
    refine hrun.trans (congrArg (fun t : State => Host.Outcome.next (t.byteTaken n)) ?_)
    rw [← hres]
    exact if_pos (husable.2 hu)
  refine ⟨fun hu hlt => ⟨?_, ?_⟩, fun hu hle => ?_, fun hu h15 p hp hone => ?_, fun hu h => ?_⟩
  · refine hrun.trans (congrArg (fun t : State => Host.Outcome.next (t.byteTaken n)) ?_)
    exact (if_neg (mt husable.1 hu)).trans (if_neg (Nat.not_le.2 hlt))
  · exact testTimeout_stands hx hf fun h => absurd h.2 (Nat.not_le.2 hlt)
  · have hnext : next (heard.endTest x .timeout) := by
      refine hrun.trans (congrArg (fun t : State => Host.Outcome.next (t.byteTaken n)) ?_)
      exact (if_neg (mt husable.1 hu)).trans (if_pos hle)
    obtain ⟨hfault, hloop, hclosed⟩ := hq
    have hverdict : s.verdict x.line = .nothing := by
      rw [State.verdict, State.judgeLine_closed hfault hclosed (by simp [hs])]
      simp [LineRec.judgeOnHook, hloop]
    exact ended .timeout (fun t => next t ∧ exec .testTimeout s = .next (t.byteTaken n))
      ⟨hnext, (testTimeout_comes hx hf hverdict (hunusable hu) hle).trans hnext⟩
  · exact ended (.party p (upReading b)) next (reads hu _ (State.mapReading_party h15 hp hone))
  · exact ended (.unidentified (upReading b)) next (reads hu _ (State.mapReading_unidentified h))

end Sys2Proof.Machine

/-! A test of a call ends (R113, R115, R131, R134, R139). -/

namespace Sys2Proof.Machine

variable {s t u : State} {n : LineId} {x : Test} {res : TestResult} {c : CallNo} {rec rec' : CallRec} {p : PartyId}

/-! The result taken by the call, by its state. -/

section
variable (hc : s.callOnLine c n = some rec)
include hc

/-- The record of a call in IDENTIFYING with the result of its test (R131). -/
def CallRec.identified (rec : CallRec) (res : TestResult) : CallRec :=
  { rec with answered := some (answeredOf res), testResult := some (outcomeOf res) }

theorem State.csqResult_identifying (hs : rec.state = .identifying) : s.csqResult c n res =
    (s.modCall c fun r => r.identified res).endCall c .answered s.serviceDirection none true := by
  rw [State.csqResult, hc]
  dsimp only
  rw [hs]
  rfl

theorem State.csqResult_identifyCaller (hs : rec.state = .identifyCaller) :
    s.csqResult c n res = s.callerIdentified c rec res := by
  rw [State.csqResult, hc]
  dsimp only
  rw [hs]

theorem State.csqResult_answerTest (hs : rec.state = .answerTest) : s.csqResult c n res = s.answerTested c rec res := by
  rw [State.csqResult, hc]
  dsimp only
  rw [hs]

end

/-- A record changed but for its ring part is freed as it was. -/
theorem State.freed_setCall (h : rec'.ringPart = rec.ringPart) : (s.setCall c (some rec')).freed c rec' = s.freed c rec := by
  simp only [State.freed, State.setCall, tset_tset, h]
  rfl

theorem State.direct_stays (h : (s.line n).state = .through) : s.direct n .through = s := by
  simp [State.direct, h]

theorem State.callClaim_withLine (s : State) (n : LineId) (r : LineRec) (d : DigitRec) (k : DownClaims) (u : UpClaims)
    (x : DownCode) : (s.withLine n r d k u).callClaim n x = s.withLine n r d { k with call := some x } u := by
  simp [State.callClaim, State.modDown, State.setDown, State.withLine, State.down]

theorem State.enterHangupWait_reported (s : State) (l : List Report) (c : CallNo) (n : LineId) :
    (s.reported l).enterHangupWait c n = (s.enterHangupWait c n).reported l := by
  obtain ⟨f, hf⟩ := State.reported_uniform l
  rw [hf, hf]
  rfl

/-! The end of a call, and its other steps, on a line written anew. -/

section
variable (hr : s.callRec c = some rec) (hn : rec.line = n) (r : LineRec) (d : DigitRec) (k : DownClaims) (u : UpClaims)
include hr hn

section
variable (hu : s.untested n)
include hu

/-- R131: the line stays in THROUGH. -/
theorem State.endCall_stays_withLine (hs : r.state = .through) (result : EndResult) :
    (s.withLine n r d k u).endCall c result .through none true =
      ((s.freed c rec).withLine n r d { k with call := none } u).reported [.notice (.callEnd (callEndOf c rec result))] := by
  subst hn
  set t := s.withLine rec.line r d k u with ht
  have hrt : t.callRec c = some rec := by simpa [ht] using hr
  have hut : t.untested rec.line := hu
  rw [State.endCall_eq hrt _ _ _ _ fun _ => hut, State.direct_stays (by simpa [ht] using hs)]
  simp [ht, State.modDown, State.setDown, State.down]
  simp [State.freed, State.withLine, State.handed]

/-- R131, R143: the line goes from CALL to THROUGH. -/
theorem State.endCall_through_withLine (hs : r.state = .call) (hl : r.loop = .closed) (result : EndResult) :
    (s.withLine n r d k u).endCall c result .through none true =
      ((s.freed c rec).withLine n { r.noLockout with state := .through, faultReason := none } DigitRec.initial
        { k.noLsv with call := none } ⟨false, none, false⟩).reported [.notice (.callEnd (callEndOf c rec result))] := by
  subst hn
  set t := s.withLine rec.line r d k u with ht
  have hrt : t.callRec c = some rec := by simpa [ht] using hr
  have hut : t.untested rec.line := hu
  rw [State.endCall_of_call hrt hut (by simpa [ht] using hs)]
  simp [ht, directed, LineRec.withLoop_same hl, endReports]
  simp [State.freed, State.withLine, State.handed]

/-- R131, R134: the line goes from CALL to LOCKOUT. -/
theorem State.endCall_lockout_withLine (hs : r.state = .call) (hl : r.loop = .closed) (result : EndResult) :
    (s.withLine n r d k u).endCall c result .lockout none true =
      ((s.freed c rec).withLine n
        { r with state := .lockout, faultReason := none, lockoutTimer := some 6000, lockoutPhase := some .tone }
        DigitRec.initial { k.noLsv with call := none, lockout := some .hangupTone } ⟨false, none, true⟩).reported
        [.notice (.lineLockout n), .peg .lockout (some n), .notice (.callEnd (callEndOf c rec result))] := by
  subst hn
  set t := s.withLine rec.line r d k u with ht
  have hrt : t.callRec c = some rec := by simpa [ht] using hr
  have hut : t.untested rec.line := hu
  rw [State.endCall_of_call hrt hut (by simpa [ht] using hs)]
  simp [ht, directed, LineRec.withLoop_same hl, endReports]
  simp [State.freed, State.withLine, State.handed]

end

omit hn in
/-- R135: entry into HANGUP_WAIT. -/
theorem State.enterHangupWait_withLine : (s.withLine n r d k u).enterHangupWait c n =
    (s.setCall c (some { rec with state := .hangupWait, hangupTimer := some s.timing.hangupWait })).withLine n r d
      { k with call := some .hangupTone } u := by
  rw [State.enterHangupWait, State.modCall_withLine hr, State.callClaim_withLine]
  rfl

/-- R140: entry into TALK. -/
theorem State.enterTalk_withLine (a : Answered) : (s.withLine n r d k u).enterTalk c rec a =
    ((s.setCall c (some { rec with state := .talk, answered := some a })).withLine n r d { k with call := some .feed }
      u).reported [.notice (.answer c .rv n (some a) rec.reRevert), .peg .revertCompleted (some n)] := by
  subst hn
  rw [State.enterTalk, State.modCall_withLine hr, State.callClaim_withLine]
  rfl

/-- R139: a re-revert. -/
theorem State.reRevert_withLine : (s.withLine n r d k u).reRevert c rec =
    ((s.setCall c (some { rec with
        state := .hangupWait, hangupTimer := some s.timing.hangupWait, cyclesRung := 0,
        reRevert := rec.reRevert.map (· + 1) })).withLine n r d { k with call := some .hangupTone } u).reported
      [.peg .reRevert (some n)] := by
  subst hn
  let once : CallRec := { rec with reRevert := rec.reRevert.map (· + 1), cyclesRung := 0 }
  have honce : (s.setCall c (some once)).callRec c = some once := tget_tset_self _ _ _
  rw [State.reRevert, State.modCall_withLine hr]
  show State.enterHangupWait (State.reported _ [.peg .reRevert (some rec.line)]) c rec.line = _
  rw [State.enterHangupWait_reported, State.enterHangupWait_withLine honce]
  simp only [State.setCall, tset_tset]
  rfl

end

/-! The byte that ends the test. -/

/-- The bridge left by the test of a line whose byte is quiet, with no other test that waits. -/
theorem State.testLeft_quiet (s : State) (n : LineId) (q : LineRec) : (s.setLine n q).testLeft n =
    ({ s with itu := ⟨[], none⟩ } : State).withLine n q (s.digits n) { s.down n with test := none } (s.up n) := by
  simp [State.testLeft, State.setLine, State.withLine, State.digits, State.up, State.down]

/-- R115: the result of a test whose one requester is a call, with no other test that waits. -/
theorem State.endTest_call {l : List Report} (hr : x.requesters = [.call c]) (hq : s.itu.queue = [])
    (h : (s.testLeft x.line).csqResult c x.line res = t.reported l) (ht : t.itu.queue = []) :
    s.endTest x res = t.reported (l ++ resultReports x.line res) := by
  rw [State.endTest_eq, hr, State.reported_append, ← h, State.dropTest_alone hq]
  refine congrArg (fun u : State => u.reported _) (nextTest_nil ?_)
  show ((s.testLeft x.line).csqResult c x.line res).itu.queue = []
  rw [h, State.itu_reported]
  exact ht

/-- The byte of the test's line ends the test with this result. -/
def State.testEnds (s : State) (x : Test) (res : TestResult) : Prop :=
  exec (.lineByte x.line) s = .next (((s.setLine x.line { s.line x.line with faultCount := 0, onHookCount := 0 }).endTest
    x res).byteTaken x.line)

section
variable (hx : s.itu.inProgress = some x) (hf : x.fresh = false) (hq : s.quietClosed x.line)
  (hs : (s.line x.line).state = .through ∨ (s.line x.line).state = .call)
include hx hf hq hs

theorem State.testEnds_reading
    (hu : 9 ≤ x.interval + 1 ∧ s.hwi.lPort.good = true ∧ upStatus (s.lByte x.line) = 1)
    (hres : s.mapReading x.line (upReading (s.lByte x.line)) = res) : s.testEnds x res := by
  refine (testRun hx hf hq hs).trans (congrArg (fun t : State => Host.Outcome.next (t.byteTaken x.line)) ?_)
  rw [← hres]
  exact if_pos ((usable_iff s x).2 hu)

theorem State.testEnds_timeout
    (hu : ¬ (9 ≤ x.interval + 1 ∧ s.hwi.lPort.good = true ∧ upStatus (s.lByte x.line) = 1)) (hm : 60 ≤ x.interval + 1) :
    s.testEnds x .timeout := by
  refine (testRun hx hf hq hs).trans (congrArg (fun t : State => Host.Outcome.next (t.byteTaken x.line)) ?_)
  exact (if_neg (mt (usable_iff s x).1 hu)).trans (if_pos hm)

end

/-- Settles O60: the byte that ends the test (`State.testEnds`), and what the call makes of the result by its state
(`State.csqResult_identifying`, `State.csqResult_identifyCaller`, `State.csqResult_answerTest`). -/
theorem testOfACallEnds : Obligations.TestOfACallEnds := by
  unfold Obligations.TestOfACallEnds
  intro s x c rec hitu hf hr hq hc hn n b q usable class' one none' late next u freed here down lockout locked done unid
    timeout through answered
  have hx : s.itu.inProgress = some x := congrArg Itu.inProgress hitu
  have hloop : q.loop = .closed := hq.2.2
  have huc : u.callRec c = some rec := hc
  have hu : u.untested n := by simp [State.untested, State.testOn, u]
  let w := u.withLine n q (s.digits n) down (s.up n)
  have hw : w.callOnLine c n = some rec := State.callOnLine_some hc hn
  have leads {res : TestResult} {t : State} {l : List Report} (hends : s.testEnds x res)
      (h : w.csqResult c n res = t.reported l) (ht : t.itu.queue = []) : next (t.reported (l ++ resultReports n res)) := by
    refine hends.trans (congrArg (fun t : State => Host.Outcome.next (t.byteTaken n)) ?_)
    refine State.endTest_call hr (congrArg Itu.queue hitu) ?_ ht
    rw [State.testLeft_quiet]
    exact h
  have hparty (hs : (s.line n).state = .through ∨ (s.line n).state = .call) (p : PartyId) (hp : one p) :
      s.testEnds x (.party p (upReading b)) := by
    obtain ⟨husable, ⟨h15, he⟩, hone⟩ := hp
    exact State.testEnds_reading hx hf hq hs husable (State.mapReading_party h15 he fun o ho => hone o ⟨h15, ho⟩)
  have hnone (hs : (s.line n).state = .through ∨ (s.line n).state = .call) (hp : none') :
      s.testEnds x (.unidentified (upReading b)) := by
    obtain ⟨husable, hno⟩ := hp
    refine State.testEnds_reading hx hf hq hs husable (State.mapReading_unidentified ?_)
    by_cases h15 : upReading b = 15
    · exact .inl h15
    · exact .inr fun p hp => hno p ⟨h15, hp⟩
  have hlate (hs : (s.line n).state = .through ∨ (s.line n).state = .call) (hp : late) : s.testEnds x .timeout :=
    State.testEnds_timeout hx hf hq hs hp.1 hp.2
  have identified (hs : rec.state = .identifying) (res : TestResult)
      (hends : (s.line n).state = .through ∨ (s.line n).state = .call → s.testEnds x res) :
      answered (answeredOf res) (outcomeOf res) (resultReports n res) := by
    let v := u.setCall c (some (rec.identified res))
    have hvc : v.callRec c = some (rec.identified res) := tget_tset_self _ _ _
    have hv : v.freed c (rec.identified res) = freed := State.freed_setCall rfl
    have hcsq (d : Direction) (hd : w.serviceDirection = d) : w.csqResult c n res =
        (v.withLine n q (s.digits n) down (s.up n)).endCall c .answered d none true := by
      rw [State.csqResult_identifying hw hs, hd, State.modCall_withLine huc]
    let ended : Report := .notice (.callEnd (callEndOf c (rec.identified res) .answered))
    refine ⟨fun hst hlink => ?_, fun hst hlink => ?_, fun hst hlink => ?_⟩
    · refine leads (l := [ended]) (hends (.inl hst)) ((hcsq .through (if_pos hlink)).trans ?_) rfl
      exact (State.endCall_stays_withLine (n := n) hvc hn q _ _ _ hu hst .answered).trans (by rw [hv])
    · refine leads (l := [ended]) (hends (.inr hst)) ((hcsq .through (if_pos hlink)).trans ?_) rfl
      exact (State.endCall_through_withLine (n := n) hvc hn q _ _ _ hu hst hloop .answered).trans (by rw [hv]; rfl)
    · refine leads (l := locked ++ [ended]) (hends (.inr hst)) ((hcsq .lockout (if_neg (Bool.eq_false_iff.1 hlink))).trans ?_) rfl
      exact (State.endCall_lockout_withLine (n := n) hvc hn q _ _ _ hu hst hloop .answered).trans (by rw [hv]; rfl)
  refine ⟨fun hs => ⟨fun p hp => ?_, fun hp => ?_, fun hp => ?_⟩, fun hs hst => ⟨fun p hp he => ?_, ?_⟩, fun hs hst => ?_⟩
  · exact identified hs (.party p (upReading b)) fun hst => hparty hst p hp
  · exact identified hs (.unidentified (upReading b)) fun hst => hnone hst hp
  · exact identified hs .timeout fun hst => hlate hst hp
  · refine leads (hparty (.inr hst) p hp) ((State.csqResult_identifyCaller hw hs).trans ((if_pos he).trans ?_)) rfl
    exact State.endCall_lockout_withLine huc hn q _ _ _ hu hst hloop _
  · intro waits
    have hwaits : w.enterHangupWait c rec.line =
        (here { rec with state := .hangupWait, hangupTimer := some s.timing.hangupWait }).withLine n q (s.digits n)
          { down with call := some .hangupTone } (s.up n) :=
      (congrArg (fun m => w.enterHangupWait c m) hn).trans (State.enterHangupWait_withLine (n := n) huc q _ _ _)
    refine ⟨fun p hp he => ?_, fun hp => ?_, fun hp => ?_⟩
    · let named : CallRec := { rec with caller := some p }
      have hnamed : (u.setCall c (some named)).callRec c = some named := tget_tset_self _ _ _
      refine leads (l := []) (hparty (.inr hst) p hp) ((State.csqResult_identifyCaller hw hs).trans ((if_neg he).trans ?_)) rfl
      rw [State.modCall_withLine huc]
      refine (congrArg (fun m => State.enterHangupWait _ c m) hn).trans
        ((State.enterHangupWait_withLine (n := n) hnamed q _ _ _).trans ?_)
      simp only [State.setCall, tset_tset]
      rfl
    · exact leads (l := []) (hnone (.inr hst) hp) ((State.csqResult_identifyCaller hw hs).trans hwaits) rfl
    · exact leads (l := []) (hlate (.inr hst) hp) ((State.csqResult_identifyCaller hw hs).trans hwaits) rfl
  · intro again talks
    refine ⟨fun p hp hcaller hlt => ?_, fun p hp h => ?_, fun hp => ?_, fun hp => ?_⟩
    · refine leads (l := [.peg .reRevert (some n)]) (hparty (.inr hst) p hp) ((State.csqResult_answerTest hw hs).trans ((if_pos ⟨hcaller, hlt⟩).trans ?_)) rfl
      exact State.reRevert_withLine huc hn _ _ _ _
    · refine leads (hparty (.inr hst) p hp) ((State.csqResult_answerTest hw hs).trans ((if_neg ?_).trans ?_)) rfl
      · rintro ⟨h1, h2⟩
        exact h.elim (fun h => h h1) (fun h => absurd h2 (Nat.not_lt.2 h))
      · exact State.enterTalk_withLine huc hn _ _ _ _ _
    · exact leads (hnone (.inr hst) hp) ((State.csqResult_answerTest hw hs).trans
        (State.enterTalk_withLine huc hn _ _ _ _ .unidentified)) rfl
    · exact leads (hlate (.inr hst) hp) ((State.csqResult_answerTest hw hs).trans
        (State.enterTalk_withLine huc hn _ _ _ _ .unidentified)) rfl

end Sys2Proof.Machine
